-- ==== Sys2Proof/Word.lean ====
section
/-! DEFINITION. The words, bytes and characters of the ZX-48, and the read and the write of one place of a fixed table. -/
namespace Sys2Proof

/-- A byte of a management frame (R176). -/
abbrev Byte := BitVec 8

/-- A sixteen-bit word of a tributary bus (section 1.1). -/
abbrev Word := BitVec 16

/-- The CHAR field of a header word: one character of a path name (section 1.1). -/
abbrev PathChar := BitVec 7

/-- A path name: 16 characters in the order sent (section 1.1). The checks of R54, R68 and R31 keep the length. -/
abbrev Name := List PathChar

/-- The place `i` of a fixed table. -/
def pick {α : Type} {n : Nat} (v : Vector α n) (i : Fin n) : α := v[i.val]

/-- The table with place `i` replaced. -/
def put {α : Type} {n : Nat} (v : Vector α n) (i : Fin n) (x : α) : Vector α n := v.set i.val x

/-- The table with every place changed. -/
def mapTable {α β : Type} {n : Nat} (f : α → β) (v : Vector α n) : Vector β n := ⟨(v.toList.map f).toArray, by simp⟩

end Sys2Proof
end

