-- ==== Sys2Proof/Syntax.lean ====
section
/-! DEFINITION. The part's steps: one constructor per row of spec/opcode_table.json, with the operands the rules give. -/
namespace Sys2Proof

/-- The two ingress buses. -/
inductive Bus where
  | A
  | B
  deriving DecidableEq, Repr

/-- What an ingress bus shows at one rising edge of xCLK (R1): xD and the lines xSS, xFS, xFILL, xPAR. -/
structure IngressWord where
  data : Word
  ss   : Bool
  fs   : Bool
  fill : Bool
  par  : Bool
  deriving DecidableEq, Repr

/-- The steps of the ZX-48. A step that takes words or edges is the taking of those words or edges, whatever state they
find the part in (log 1). A management command is the transfer of its frame, with the parameter bytes given (log 13). -/
inductive Instr where
  /-- HARD_RESET (R77): nRESET low, or power-up. -/
  | hardReset
  /-- RESET_RELEASE (R160): nRESET rises. -/
  | resetRelease
  /-- CLOCK_LOSS (R4): 20 us without an edge of xCLK. -/
  | clockLoss (bus : Bus)
  /-- CLOCK_RETURN (R5): the word at the first edge of xCLK after DOWN. -/
  | clockReturn (bus : Bus) (word : IngressWord)
  /-- ALIGN_CONFIRM (R6): the word 1,152 words after the candidate. -/
  | alignConfirm (bus : Bus) (word : IngressWord)
  /-- SLOT_FRAME_COMPLETE (R14): consecutive words up to the last word of a slot. -/
  | slotFrameComplete (bus : Bus) (words : List IngressWord)
  /-- FRAME_CHECK (R8): the word at an expected frame start. -/
  | frameCheck (bus : Bus) (word : IngressWord)
  /-- EGRESS_CLOCK_LOSS (R146): 20 us without an edge of ECLK. -/
  | egressClockLoss
  /-- EGRESS_RUNNING (R148): the edge of ECLK, with the level of EREF, that confirms the reference. -/
  | egressRunning (eref : Bool)
  /-- EXPECTED_FRAME_START (R149): the edge of ECLK at which the egress frame position returns to 0. -/
  | expectedFrameStart (eref : Bool)
  /-- EGRESS_SLOT_BUILD (R153): the edges that lead to the header word of a slot (none for the slot whose header word
  stands at the present position), and the building of that slot. -/
  | egressSlotBuild (edges : List Bool)
  /-- TIMER_EXPIRY (R132): the ticks pass up to the expiry of the timer, which is taken. -/
  | timerExpiry (timer : Fin 24)
  /-- ZERO_LENGTH_TRANSFER (R179): a transfer of fewer than eight bits. -/
  | zeroLengthTransfer (bits : List Bool)
  /-- COMMAND_FRAME_REJECTED (R182): a transfer of any bits as a command frame. -/
  | commandFrameRejected (bits : List Bool)
  /-- REFUSED_TRANSFER (R184): a transfer begun while a command executes. -/
  | refusedTransfer (bits : List Bool)
  /-- RESPONSE_READ (R186): a transfer begun while a response is held, and whether the hold time runs out in it (R188). -/
  | responseRead (bits : List Bool) (holdRunsOut : Bool)
  /-- HOLD_TIME_EXPIRY (R188): 100 ms since the entry into HOLDING. -/
  | holdTimeExpiry
  /-- IDENT (R195). -/
  | ident (params : List Byte)
  /-- SOFT_RESET (R196). -/
  | softReset (params : List Byte)
  /-- BUS_SET (R2): the command of code 0x08. -/
  | busSet (params : List Byte)
  /-- BUS_ENABLE (R12): BUS_SET with enable 1. -/
  | busEnable (params : List Byte)
  /-- BUS_DISABLE (R11): BUS_SET with enable 0. -/
  | busDisable (params : List Byte)
  /-- EGRESS_PARITY_SET (R3): BUS_SET for bus E. -/
  | egressParitySet (params : List Byte)
  /-- BUS_READ (R19). -/
  | busRead (params : List Byte)
  /-- CREATE (R56). -/
  | create (params : List Byte)
  /-- AMEND (R69). -/
  | amend (params : List Byte)
  /-- ACTIVATE (R57). -/
  | activate (params : List Byte)
  /-- REPLACE (R59). -/
  | replace (params : List Byte)
  /-- RETIRE (R61). -/
  | retire (params : List Byte)
  /-- PIN (R118): REQUEST of kind PIN_W or PIN_P. -/
  | pin (params : List Byte)
  /-- STEER (R119): REQUEST of kind STEER_W or STEER_P. -/
  | steer (params : List Byte)
  /-- RELEASE (R120): REQUEST of kind RELEASE. -/
  | release (params : List Byte)
  /-- RECORD_READ (R76). -/
  | recordRead (params : List Byte)
  /-- MAP_READ (R98). -/
  | mapRead (params : List Byte)
  /-- SOURCE_READ (R45). -/
  | sourceRead (params : List Byte)
  /-- NOTICE_FETCH (R167). -/
  | noticeFetch (params : List Byte)
  /-- ALERT_SET (R172). -/
  | alertSet (params : List Byte)
  /-- LINK_READ (R190), and the bits on MDI of each transfer refused before the counters are read (R184; log 11). -/
  | linkRead (params : List Byte) (early : List (List Bool))
  /-- COUNTERS_CLEAR (R199), and the bits on MDI of each transfer refused before the counters are cleared (R189; log 11). -/
  | countersClear (params : List Byte) (early : List (List Bool))
  /-- FRAME_START_CANDIDATE (R6): consecutive words taken by the search. -/
  | frameStartCandidate (bus : Bus) (words : List IngressWord)
  /-- REFERENCE_CANDIDATE (R147): the levels of EREF at consecutive edges taken by the reference search. -/
  | referenceCandidate (edges : List Bool)
  /-- EXECUTION_COMPLETE (R183): the owning block's result becomes the response. -/
  | executionComplete
  deriving DecidableEq, Repr

end Sys2Proof
end

