-- ==== Sys2Proof/Decode.lean ====
section
/-! DEFINITION. The command a word spells by the opcode table's bits. No row of the table gives bits. -/
namespace Sys2Proof

/-- spec/opcode_table.json gives none of its 42 rows bits (98_reader.md: n_rows_with_fixed 0), so no word spells a
command (log 17). The bytes of a command frame are read by the link (R179), not here. -/
def decodeTableWord (_nbits _w : Nat) : Option Instr := none

end Sys2Proof
end

