-- ==== Sys2Proof/Machine/State.lean ====
section
/-! DEFINITION. Everything the spec gives the ZX-48, as plain data, the reasons a step could stop, and the state after
hard reset. -/
namespace Sys2Proof.Machine

/-- Index of an egress or ingress slot, 0 to 47. -/
abbrev SlotIx := Fin 48
/-- Index of a connection record, 0 to 63. -/
abbrev RecIx := Fin 64
/-- Index of a timer, 0 to 23. -/
abbrev TimerIx := Fin 24

/-- Parity sense (section 1.3). -/
inductive Sense where
  | even
  | odd
  deriving DecidableEq, Repr

/-- Parity scope (section 1.3). -/
inductive Scope where
  | word
  | wordCtrl
  deriving DecidableEq, Repr

/-- The bus states of section 1.4. -/
inductive BusState where
  | off
  | down
  | seek
  | aligned
  deriving DecidableEq, Repr

/-- A complete slot-frame as the frame store keeps it (R14, section 1.6). -/
structure SlotFrame where
  header  : Word
  payload : List Word
  fill    : Bool
  errored : Bool
  deriving DecidableEq, Repr

/-- The slot-frame in progress (R14), with the sense and scope read at its header word (R2). -/
structure PartialFrame where
  sense : Sense
  scope : Scope
  frame : SlotFrame
  deriving DecidableEq, Repr

/-- An ingress bus receiver (chapter 1). -/
structure Receiver where
  state          : BusState
  enable         : Bool
  sense          : Sense
  scope          : Scope
  threshold      : Byte
  /-- Words taken since the frame start that opened the candidate (R6). -/
  candidate      : Option Nat
  /-- Frame position of the last word taken (R1, R7). -/
  framePos       : Nat
  badChecks      : Nat
  /-- Since the last expected frame start: xFS high on a word, xSS low on a header word or high on a payload word (R8). -/
  frameFault     : Bool
  partialFrame   : Option PartialFrame
  /-- The frame store; `none` is an invalid entry (R16). -/
  store          : Vector (Option SlotFrame) 48
  parityErrored  : BitVec 32
  badFrameChecks : BitVec 32
  alignLosses    : BitVec 32
  deriving DecidableEq, Repr

/-- A slot monitor (section 2.1). -/
structure Monitor where
  refs             : Nat
  filled           : Bool
  fillRun          : Nat
  framed           : Bool
  mkCandidate      : Option Nat
  mfPos            : Nat
  stray            : Bool
  fails            : Nat
  code             : Option (BitVec 4)
  codeCandidate    : Option (BitVec 4)
  codeRun          : Nat
  name             : Option Name
  gathered         : List PathChar
  confirming       : Option Name
  matchCount       : Nat
  rf               : Bool
  rfRun            : Nat
  degraded         : Bool
  blockPos         : Nat
  blockErrored     : Nat
  erroredFrames    : BitVec 32
  fillDeclarations : BitVec 16
  deriving DecidableEq, Repr

/-- An ingress slot, named as a source (R202: the source byte). -/
structure Source where
  bus  : Bus
  slot : SlotIx
  deriving DecidableEq, Repr

/-- W or P (section 4.2 of the scope chapter). -/
inductive Side where
  | W
  | P
  deriving DecidableEq, Repr

/-- The causes of R100. -/
structure Causes where
  bus        : Bool
  fill       : Bool
  unframed   : Bool
  noCode     : Bool
  unequipped : Bool
  code       : Bool
  name       : Bool
  deriving DecidableEq, Repr

/-- The conditions of R101. -/
inductive Condition where
  | failed
  | degraded
  | good
  deriving DecidableEq, Repr

/-- What the selector stores of one source (R102). -/
structure Judgement where
  condition : Condition
  causes    : Causes
  deriving DecidableEq, Repr

/-- Selector modes (R103). -/
inductive Mode where
  | preview
  | live
  | frozen
  deriving DecidableEq, Repr

/-- Selector states (R104). -/
inductive SelState where
  | onW
  | onP
  | holdW
  | holdP
  | ret
  deriving DecidableEq, Repr

/-- Standing requests (section 5.6). -/
inductive Request where
  | none
  | pinW
  | pinP
  | steerW
  | steerP
  deriving DecidableEq, Repr

/-- The selector part of a live record (section 5.2). -/
structure Selector where
  mode     : Mode
  state    : SelState
  selected : Side
  request  : Request
  timer    : Option TimerIx
  waiting  : Bool
  w        : Option Judgement
  p        : Option Judgement
  deriving DecidableEq, Repr

/-- States of a live record (section 3.1). -/
inductive LiveState where
  | staged
  | armed
  | active
  | retiring
  deriving DecidableEq, Repr

/-- The fields a live record holds beside its state and selector part (section 3.1). Name check is yes exactly when an
expected name is present, and code check exactly when an expected code is (R49). -/
structure Fields where
  egress        : SlotIx
  working       : Source
  protect       : Option Source
  revertive     : Bool
  degradeSwitch : Bool
  expectedName  : Option Name
  expectedCode  : Option (BitVec 4)
  outName       : Option Name
  outCode       : Option (BitVec 4)
  /-- Hold-off in units of 10 ms, 0 to 250. -/
  holdOff       : Byte
  /-- Return time in seconds, 1 to 900. -/
  returnTime    : BitVec 16
  /-- Notice mask in the kind layout of R202. -/
  mask          : Byte
  deriving DecidableEq, Repr

/-- The live part of a record. -/
structure Live where
  state  : LiveState
  fields : Fields
  sel    : Selector
  deriving DecidableEq, Repr

/-- A connection record: FREE when it has no live part (section 3.1). -/
structure Record where
  generation : Byte
  held       : Bool
  live       : Option Live
  deriving DecidableEq, Repr

/-- Pending ownership updates (section 4.2). -/
inductive Update where
  | enter (slot : SlotIx) (incoming : RecIx)
  | leave (slot : SlotIx) (outgoing : RecIx)
  | handover (slot : SlotIx) (outgoing incoming : RecIx)
  deriving DecidableEq, Repr

/-- What a timer is lent for (section 6.1). -/
inductive Purpose where
  | holdoff
  | ret
  deriving DecidableEq, Repr

/-- A RUNNING timer (section 6.1). -/
structure Timer where
  owner     : RecIx
  purpose   : Purpose
  /-- Ticks of 10 ms (R129); at 0 the timer expires at the tick that brought it there (log 4). -/
  remaining : Nat
  /-- No tick has passed since the last load (R129). -/
  fresh     : Bool
  deriving DecidableEq, Repr

/-- The timer pool (chapter 6); a timer that is `none` is FREE. -/
structure Pool where
  timers    : Vector (Option Timer) 24
  waiters   : List RecIx
  shorts    : BitVec 16
  highWater : Nat
  deriving DecidableEq, Repr

/-- Notice kinds (R162). -/
inductive Kind where
  | activated
  | retired
  | select
  | cond
  | name
  | rfault
  | steerDrop
  | timerShort
  | align
  | state
  deriving DecidableEq, Repr

/-- Subjects of notices (R162). -/
inductive Subject where
  | record (ix : RecIx)
  | bus (bus : Bus)
  | egress
  deriving DecidableEq, Repr

/-- An entry of the notice queue (R162); its kinds in the layout of R202. -/
structure Entry where
  subject    : Subject
  generation : Option Byte
  kinds      : Byte
  deriving DecidableEq, Repr

/-- The three blocks an evaluation writes: the connection table with its selector parts, the timer pool, the notice
queue. -/
structure Supervision where
  table   : Vector Record 64
  pool    : Pool
  notices : List Entry
  deriving DecidableEq, Repr

/-- What the egress lines show (section 1.8): ED, ESS, EFS, EFILL, EPAR. -/
structure EgressWord where
  data : Word
  ss   : Bool
  fs   : Bool
  fill : Bool
  par  : Bool
  deriving DecidableEq, Repr

/-- The egress slot-frame being sent, as read at its header word (R154), with the parity setting read there (R21). -/
structure Sending where
  header  : Word
  payload : List Word
  fill    : Bool
  sense   : Sense
  scope   : Scope
  deriving DecidableEq, Repr

/-- The egress assembler (chapter 7) and the egress parity configuration (R3). -/
structure Egress where
  running   : Bool
  /-- Frame position of the last edge counted (R149). -/
  framePos  : Nat
  misses    : Nat
  /-- Edges taken since the pulse that opened the candidate (R147). -/
  candidate : Option Nat
  erefLevel : Bool
  mfCount   : BitVec 4
  sense     : Sense
  scope     : Scope
  alarmFill : Vector (BitVec 16) 48
  sending   : Option Sending
  /-- The frame position stands at a header word that has not been read yet (log 9). -/
  headerDue : Bool
  out       : EgressWord
  deriving DecidableEq, Repr

/-- Link states (section 9.2). -/
inductive LinkState where
  | idle
  | taking
  | executing
  | holding
  deriving DecidableEq, Repr

/-- Status codes (R193). -/
inductive Status where
  | ok
  | badCheck
  | badLength
  | badCode
  | badParam
  | staleRef
  | wrongState
  | slotBusy
  | slotPending
  | tableFull
  | noProtect
  | queueEmpty
  deriving DecidableEq, Repr

/-- What the owning block returns to the link (R183). -/
structure Reply where
  status  : Status
  results : List Byte
  deriving DecidableEq, Repr

/-- The management link (chapter 9). -/
structure Link where
  state       : LinkState
  cmd         : List Byte
  resp        : List Byte
  collision   : Bool
  /-- The result of the command in execution. -/
  result      : Option Reply
  /-- The bits MDO carried in the last transfer, in order (R176; the model's own, log 12). -/
  mdo         : List Bool
  framesTaken : BitVec 16
  badLength   : BitVec 16
  badCheck    : BitVec 16
  badCode     : BitVec 16
  busyHits    : BitVec 16
  dropped     : BitVec 16
  deriving DecidableEq, Repr

/-- The whole part. -/
structure State where
  /-- The level of nRESET: true is high. -/
  nReset  : Bool
  rxA     : Receiver
  rxB     : Receiver
  monA    : Vector Monitor 48
  monB    : Vector Monitor 48
  sup     : Supervision
  owner   : Vector (Option RecIx) 48
  updates : List Update
  alertOn : Bool
  egress  : Egress
  link    : Link
  /-- How many events had a free order so far (the model's own, log 5). -/
  choices : Nat
  /-- The commands that are waiting, first in first out. -/
  pending : List Instr
  deriving DecidableEq, Repr

/-- Reasons the part stops with a fault: the spec names none (INVENTORY.md, Faults), so nothing raises one. -/
inductive Fault where
  deriving DecidableEq, Repr

/-- Reasons a step is refused. -/
inductive Refusal where
  /-- A row of the opcode table that has no meaning yet; raised by exec's arm of that row alone. Safe. No row is left. -/
  | notModelled (mnemonic : String)
  deriving DecidableEq, Repr

/-! ## Values after hard reset -/

/-- A receiver after hard reset (section 1.9, R22). -/
def Receiver.reset : Receiver where
  state := .off
  enable := false
  sense := .even
  scope := .word
  threshold := 32
  candidate := none
  framePos := 0
  badChecks := 0
  frameFault := false
  partialFrame := none
  store := Vector.replicate 48 none
  parityErrored := 0
  badFrameChecks := 0
  alignLosses := 0

/-- A monitor with every field at its clean value (section 2.1) and the given reference count. -/
def Monitor.clean (refs : Nat) : Monitor where
  refs := refs
  filled := false
  fillRun := 0
  framed := false
  mkCandidate := none
  mfPos := 0
  stray := false
  fails := 0
  code := none
  codeCandidate := none
  codeRun := 0
  name := none
  gathered := []
  confirming := none
  matchCount := 0
  rf := false
  rfRun := 0
  degraded := false
  blockPos := 0
  blockErrored := 0
  erroredFrames := 0
  fillDeclarations := 0

/-- A record after hard reset (R77). -/
def Record.reset : Record where
  generation := 0
  held := false
  live := none

/-- The pool after hard reset (R143). -/
def Pool.reset : Pool where
  timers := Vector.replicate 24 none
  waiters := []
  shorts := 0
  highWater := 0

/-- Table, pool and notice queue after hard reset (R77, R143, R174). -/
def Supervision.reset : Supervision where
  table := Vector.replicate 64 Record.reset
  pool := Pool.reset
  notices := []

/-- Every egress line held low (R145). -/
def EgressWord.low : EgressWord where
  data := 0
  ss := false
  fs := false
  fill := false
  par := false

/-- The egress assembler after hard reset (R160, R3). -/
def Egress.reset : Egress where
  running := false
  framePos := 0
  misses := 0
  candidate := none
  erefLevel := false
  mfCount := 0
  sense := .even
  scope := .word
  alarmFill := Vector.replicate 48 0
  sending := none
  headerDue := false
  out := EgressWord.low

/-- The link after hard reset (R192). -/
def Link.reset : Link where
  state := .idle
  cmd := []
  resp := []
  collision := false
  result := none
  mdo := []
  framesTaken := 0
  badLength := 0
  badCheck := 0
  badCode := 0
  busyHits := 0
  dropped := 0

/-- The part right after hard reset, nRESET having risen: every field at the value the spec gives (log 14). -/
def State.reset : State where
  nReset := true
  rxA := Receiver.reset
  rxB := Receiver.reset
  monA := Vector.replicate 48 (Monitor.clean 0)
  monB := Vector.replicate 48 (Monitor.clean 0)
  sup := Supervision.reset
  owner := Vector.replicate 48 none
  updates := []
  alertOn := true
  egress := Egress.reset
  link := Link.reset
  choices := 0
  pending := []

/-! ## Levels of the output pins that follow the state -/

/-- nALERT is low while the queue is non-empty and the alert enable is on (R173). -/
def State.nALERTLow (s : State) : Bool := !s.sup.notices.isEmpty && s.alertOn

/-- nMRDY is high in EXECUTING (section 9.2) and while nRESET is low (R192). -/
def State.nMRDYHigh (s : State) : Bool := !s.nReset || s.link.state == .executing

end Sys2Proof.Machine
end

