-- ==== Sys2Proof/Machine/Flags.lean ====
section
/-! DEFINITION. Computations on words and bytes: header fields and layouts (R202), parity (R13, R20), the CRC (R180),
saturating counters, and the codes of R198, R201. -/
namespace Sys2Proof.Machine

/-! ## Counters -/

/-- A counter that saturates at its largest value and does not wrap (00_scope section 5). -/
def satInc {n : Nat} (c : BitVec n) : BitVec n := if c = BitVec.allOnes n then c else c + 1

/-- `k` increments of a saturating counter. -/
def satAdd {n : Nat} (c : BitVec n) : Nat → BitVec n
  | 0 => c
  | k + 1 => satAdd (satInc c) k

/-! ## Header word (R202) -/

def hdrMK (w : Word) : Bool := w.getLsbD 15
def hdrRF (w : Word) : Bool := w.getLsbD 14
def hdrCode (w : Word) : BitVec 4 := w.extractLsb' 10 4
def hdrChar (w : Word) : PathChar := w.extractLsb' 0 7

/-- The header word of the given fields, the spare bits 0. -/
def mkHeader (mk rf : Bool) (code : BitVec 4) (char : PathChar) : Word :=
  BitVec.ofBool mk ++ BitVec.ofBool rf ++ code ++ 0#3 ++ char

/-- A printable character, 0x20 to 0x7E (section 4.1). -/
def printable (c : PathChar) : Bool := 0x20 ≤ c.toNat && c.toNat ≤ 0x7E

/-! ## Parity -/

/-- How many of the sixteen data lines are high. -/
def highLines (w : Word) : Nat := (List.range 16).countP (fun i => w.getLsbD i)

/-- How many covered lines are high (R13, R20): the data lines, and in WORD_CTRL the three control lines. -/
def coveredHigh (scope : Scope) (data : Word) (ss fs fill : Bool) : Nat :=
  match scope with
  | .word => highLines data
  | .wordCtrl => highLines data + ss.toNat + fs.toNat + fill.toNat

/-- Whether a received word passes its parity check (R13). -/
def passesParity (sense : Sense) (scope : Scope) (w : IngressWord) : Bool :=
  match sense with
  | .even => (coveredHigh scope w.data w.ss w.fs w.fill + w.par.toNat) % 2 == 0
  | .odd => (coveredHigh scope w.data w.ss w.fs w.fill + w.par.toNat) % 2 == 1

/-- EPAR for a word driven (R20). -/
def parityBit (sense : Sense) (scope : Scope) (data : Word) (ss fs fill : Bool) : Bool :=
  match sense with
  | .even => coveredHigh scope data ss fs fill % 2 == 1
  | .odd => coveredHigh scope data ss fs fill % 2 == 0

/-! ## The check byte (R180) -/

/-- One shift of the register: left by one bit, combined with 0x07 if the bit shifted out was 1. -/
def crcShift (r : Byte) : Byte := if r.msb then (r <<< 1) ^^^ 0x07#8 else r <<< 1

/-- `k` shifts of the register. -/
def crcShifts : Nat → Byte → Byte
  | 0, r => r
  | k + 1, r => crcShifts k (crcShift r)

/-- One covered byte: exclusive-or, then eight shifts. -/
def crcByte (r b : Byte) : Byte := crcShifts 8 (r ^^^ b)

/-- The CRC of the bytes covered, the register starting at 0. -/
def crc (bytes : List Byte) : Byte := bytes.foldl crcByte 0

/-! ## Bits and bytes of a transfer (R176) -/

/-- The byte of up to eight bits, the first the most significant. -/
def byteOfBits (bits : List Bool) : Byte := bits.foldl (fun b x => (b <<< 1) ||| (BitVec.ofBool x).setWidth 8) 0

/-- The first `k` complete bytes of a transfer. -/
def bytesOfBits : Nat → List Bool → List Byte
  | 0, _ => []
  | k + 1, bits => byteOfBits (bits.take 8) :: bytesOfBits k (bits.drop 8)

/-- The complete bytes of a transfer; the bits of an incomplete byte are dropped. -/
def transferBytes (bits : List Bool) : List Byte := bytesOfBits (bits.length / 8) bits

/-- The bits of bytes in frame order, each byte's most significant bit first (R176). -/
def bitsOfBytes (bytes : List Byte) : List Bool := bytes.flatMap fun b => (List.range 8).map fun i => b.getLsbD (7 - i)

/-- How many bits MDO presents in a transfer with so many rising edges of MCLK: one per edge, the first from the fall of
nMSEL on, be there an edge or not (R176; log 24). -/
def mdoLength (edges : Nat) : Nat := max 1 edges

/-! ## Multi-byte values, most significant byte first (00_scope section 5) -/

def bytes16 (v : BitVec 16) : List Byte := [v.extractLsb' 8 8, v.extractLsb' 0 8]

def bytes24 (v : BitVec 24) : List Byte := v.extractLsb' 16 8 :: bytes16 (v.extractLsb' 0 16)

def bytes32 (v : BitVec 32) : List Byte := bytes16 (v.extractLsb' 16 16) ++ bytes16 (v.extractLsb' 0 16)

/-- A count as one byte. -/
def byteOfNat (n : Nat) : Byte := BitVec.ofNat 8 n

/-- A yes or a one as one byte. -/
def byteOfBool (b : Bool) : Byte := if b then 1 else 0

/-! ## Kinds (R202) -/

/-- The bit of a kind in a kinds byte. -/
def Kind.bit : Kind → Byte
  | .activated => 0x01
  | .retired => 0x02
  | .select => 0x04
  | .cond => 0x08
  | .name => 0x10
  | .rfault => 0x20
  | .steerDrop => 0x40
  | .timerShort => 0x80
  | .align => 0x01
  | .state => 0x01

/-- Whether a kinds byte holds a kind. -/
def hasKind (kinds : Byte) (k : Kind) : Bool := (kinds &&& k.bit) != 0

/-- The kinds a notice mask may hold (R50). -/
def Kind.maskable : Kind → Bool
  | .activated => false
  | .retired => false
  | .select => true
  | .cond => true
  | .name => true
  | .rfault => true
  | .steerDrop => true
  | .timerShort => true
  | .align => false
  | .state => false

/-! ## Codes of commands' parameters and results -/

/-- Status codes (R193). -/
def Status.code : Status → Byte
  | .ok => 0x00
  | .badCheck => 0x01
  | .badLength => 0x02
  | .badCode => 0x03
  | .badParam => 0x04
  | .staleRef => 0x05
  | .wrongState => 0x06
  | .slotBusy => 0x07
  | .slotPending => 0x08
  | .tableFull => 0x09
  | .noProtect => 0x0A
  | .queueEmpty => 0x0B

def Sense.byte : Sense → Byte
  | .even => 0
  | .odd => 1

def Scope.byte : Scope → Byte
  | .word => 0
  | .wordCtrl => 1

def BusState.byte : BusState → Byte
  | .off => 0
  | .down => 1
  | .seek => 2
  | .aligned => 3

def LiveState.byte : LiveState → Byte
  | .staged => 1
  | .armed => 2
  | .active => 3
  | .retiring => 4

def Mode.byte : Mode → Byte
  | .preview => 0
  | .live => 1
  | .frozen => 2

def SelState.byte : SelState → Byte
  | .onW => 0
  | .onP => 1
  | .holdW => 2
  | .holdP => 3
  | .ret => 4

def Side.byte : Side → Byte
  | .W => 0
  | .P => 1

def Request.byte : Request → Byte
  | .none => 0
  | .pinW => 1
  | .pinP => 2
  | .steerW => 3
  | .steerP => 4

def Condition.byte : Condition → Byte
  | .failed => 0
  | .degraded => 1
  | .good => 2

def Purpose.byte : Purpose → Byte
  | .holdoff => 0
  | .ret => 1

/-- The causes byte (R201). -/
def Causes.byte (c : Causes) : Byte :=
  0#1 ++ BitVec.ofBool c.name ++ BitVec.ofBool c.code ++ BitVec.ofBool c.unequipped ++ BitVec.ofBool c.noCode
    ++ BitVec.ofBool c.unframed ++ BitVec.ofBool c.fill ++ BitVec.ofBool c.bus

/-- The source byte (R202). -/
def Source.byte (src : Source) : Byte :=
  BitVec.ofBool (src.bus == .B) ++ 0#1 ++ BitVec.ofNat 6 src.slot.val

/-- The subject byte (R201). -/
def Subject.byte : Subject → Byte
  | .record ix => byteOfNat ix.val
  | .bus .A => 0x40
  | .bus .B => 0x41
  | .egress => 0x42

/-- The flags byte of a record (R202). -/
def Fields.flags (f : Fields) : Byte :=
  0#2 ++ BitVec.ofBool f.outCode.isSome ++ BitVec.ofBool f.outName.isSome ++ BitVec.ofBool f.expectedCode.isSome
    ++ BitVec.ofBool f.expectedName.isSome ++ BitVec.ofBool f.degradeSwitch ++ BitVec.ofBool f.revertive

/-- The characters of a name as bytes. -/
def nameBytes (n : Name) : List Byte := n.map (·.setWidth 8)

end Sys2Proof.Machine
end

