-- ==== Sys2Proof/Machine/Operands.lean ====
section
/-! DEFINITION. Reading the parameters of commands: refs, sources, CREATE and AMEND (R54, R68, R194, R197, R200, R202). -/
namespace Sys2Proof.Machine

/-- The parameter byte at a place; 0 where it is missing (the length check comes first, R194). -/
def byteAt (params : List Byte) (i : Nat) : Byte := params.getD i 0

/-- A two-byte value, most significant byte first. -/
def wordAt (params : List Byte) (i : Nat) : BitVec 16 := byteAt params i ++ byteAt params (i + 1)

/-- A record index, below 64 (R52). -/
def readIndex (b : Byte) : Option RecIx := if h : b.toNat < 64 then some ⟨b.toNat, h⟩ else none

/-- A slot number, 0 to 47. -/
def readSlot (n : Nat) : Option SlotIx := if h : n < 48 then some ⟨n, h⟩ else none

/-- A source byte: bus in bit 7, bit 6 clear, slot 0 to 47 in bits 5 to 0 (R202). -/
def readSource (b : Byte) : Option Source :=
  if b.getLsbD 6 then none
  else (readSlot (b.extractLsb' 0 6).toNat).map (fun n => ⟨if b.getLsbD 7 then .B else .A, n⟩)

/-- A protect source byte: 0xFF for none; the outer `none` is out of range (R202). -/
def readProtect (b : Byte) : Option (Option Source) :=
  if b = 0xFF then some none else (readSource b).map some

/-- Sense and scope codes (R197). -/
def readSense (b : Byte) : Option Sense := if b = 0 then some .even else if b = 1 then some .odd else none

def readScope (b : Byte) : Option Scope := if b = 0 then some .word else if b = 1 then some .wordCtrl else none

/-- A byte that must be 0 or 1. -/
def readFlag (b : Byte) : Option Bool := if b = 0 then some false else if b = 1 then some true else none

/-- The kind of a REQUEST (R200). -/
def readRequest (b : Byte) : Option Request :=
  if b = 0 then some .none
  else if b = 1 then some .pinW
  else if b = 2 then some .pinP
  else if b = 3 then some .steerW
  else if b = 4 then some .steerP
  else none

/-- The characters of a name, each 0x20 to 0x7E (R54, R68). -/
def readName (bytes : List Byte) : Option Name :=
  if bytes.all (fun b => 0x20 ≤ b.toNat && b.toNat ≤ 0x7E) then some (bytes.map (·.setWidth 7)) else none

/-- A notice mask: bits 0 and 1 clear (R200). -/
def readMask (b : Byte) : Option Byte := if (b &&& 0x03) = 0 then some b else none

/-- A hold-off, 0 to 250 (R54). -/
def readHoldOff (b : Byte) : Option Byte := if b.toNat ≤ 250 then some b else none

/-- A return time, 1 to 900 (R54). -/
def readReturn (v : BitVec 16) : Option (BitVec 16) := if 1 ≤ v.toNat && v.toNat ≤ 900 then some v else none

/-- An expected code, 1 to 15 (R54). -/
def readExpectedCode (b : Byte) : Option (BitVec 4) :=
  if 1 ≤ b.toNat && b.toNat ≤ 15 then some (b.setWidth 4) else none

/-- An outgoing code, 0 to 15 (R54). -/
def readOutCode (b : Byte) : Option (BitVec 4) := if b.toNat ≤ 15 then some (b.setWidth 4) else none

/-- A field that is examined only where its flag says it is present. -/
def readIf {α : Type} (present : Bool) (x : Option α) : Option (Option α) :=
  if present then x.map some else some none

/-! ## CREATE (R54, R200) -/

/-- The length the flags byte of a CREATE asks for (R54 check 1). -/
def createLength (flags : Byte) : Nat :=
  10 + (if flags.getLsbD 2 then 16 else 0) + (if flags.getLsbD 4 then 16 else 0)

/-- The content of a CREATE (R54 check 2); `none` is BAD_PARAM. -/
def readCreate (params : List Byte) : Option Fields := do
  let flags := byteAt params 3
  let egress ← readSlot (byteAt params 0).toNat
  let working ← readSource (byteAt params 1)
  let protect ← readProtect (byteAt params 2)
  let expectedCode ← readIf (flags.getLsbD 3) (readExpectedCode (byteAt params 4))
  let outCode ← readIf (flags.getLsbD 5) (readOutCode (byteAt params 5))
  let holdOff ← readHoldOff (byteAt params 6)
  let returnTime ← readReturn (wordAt params 7)
  let mask ← readMask (byteAt params 9)
  let expectedName ← readIf (flags.getLsbD 2) (readName ((params.drop 10).take 16))
  let outName ← readIf (flags.getLsbD 4)
    (readName ((params.drop (if flags.getLsbD 2 then 26 else 10)).take 16))
  if (flags &&& 0xC0) = 0 ∧ protect ≠ some working then
    some { egress, working, protect, revertive := flags.getLsbD 0, degradeSwitch := flags.getLsbD 1,
           expectedName, expectedCode, outName, outCode, holdOff, returnTime, mask }
  else none

/-! ## AMEND (R68, R200) -/

/-- The value bytes of an AMEND, item by item in item order, as carried. -/
structure AmendBytes where
  egress    : Option Byte
  working   : Option Byte
  protect   : Option Byte
  revertive : Option Byte
  degrade   : Option Byte
  nameCheck : Option (Byte × List Byte)
  codeCheck : Option Byte
  outName   : Option (Byte × List Byte)
  outCode   : Option Byte
  holdOff   : Option Byte
  ret       : Option (BitVec 16)
  mask      : Option Byte
  deriving DecidableEq, Repr

/-- One value byte, if its item is chosen; the outer `none` says that bytes are missing. -/
def takeByte (chosen : Bool) (bytes : List Byte) : Option (Option Byte × List Byte) :=
  if chosen then
    match bytes with
    | [] => none
    | b :: rest => some (some b, rest)
  else some (none, bytes)

/-- A two-byte value, if its item is chosen. -/
def takeWord (chosen : Bool) (bytes : List Byte) : Option (Option (BitVec 16) × List Byte) :=
  if chosen then
    match bytes with
    | a :: b :: rest => some (some (a ++ b), rest)
    | [_] => none
    | [] => none
  else some (none, bytes)

/-- A name value, if its item is chosen: a byte of 1 declares 16 characters, any other value none (R200). -/
def takeNamed (chosen : Bool) (bytes : List Byte) : Option (Option (Byte × List Byte) × List Byte) :=
  if chosen then
    match bytes with
    | [] => none
    | b :: rest =>
      if b = 1 then
        if 16 ≤ rest.length then some (some (b, rest.take 16), rest.drop 16) else none
      else some (some (b, []), rest)
  else some (none, bytes)

/-- The values of the chosen items (R68 check 1); `none` is BAD_LENGTH. Bits 12 to 15 of the item set add no value bytes to
the length asked for, which is the model's choice (log 28); readAmend refuses them. -/
def splitAmend (items : BitVec 16) (bytes : List Byte) : Option AmendBytes := do
  let (egress, bytes) ← takeByte (items.getLsbD 0) bytes
  let (working, bytes) ← takeByte (items.getLsbD 1) bytes
  let (protect, bytes) ← takeByte (items.getLsbD 2) bytes
  let (revertive, bytes) ← takeByte (items.getLsbD 3) bytes
  let (degrade, bytes) ← takeByte (items.getLsbD 4) bytes
  let (nameCheck, bytes) ← takeNamed (items.getLsbD 5) bytes
  let (codeCheck, bytes) ← takeByte (items.getLsbD 6) bytes
  let (outName, bytes) ← takeNamed (items.getLsbD 7) bytes
  let (outCode, bytes) ← takeByte (items.getLsbD 8) bytes
  let (holdOff, bytes) ← takeByte (items.getLsbD 9) bytes
  let (ret, bytes) ← takeWord (items.getLsbD 10) bytes
  let (mask, bytes) ← takeByte (items.getLsbD 11) bytes
  match bytes with
  | [] => some { egress, working, protect, revertive, degrade, nameCheck, codeCheck, outName, outCode, holdOff, ret, mask }
  | _ :: _ => none

/-- A checked amendment: each item absent, or its new value (section 3.9). -/
structure Amendment where
  egress       : Option SlotIx
  working      : Option Source
  protect      : Option (Option Source)
  revertive    : Option Bool
  degrade      : Option Bool
  expectedName : Option (Option Name)
  expectedCode : Option (Option (BitVec 4))
  outName      : Option (Option Name)
  outCode      : Option (Option (BitVec 4))
  holdOff      : Option Byte
  ret          : Option (BitVec 16)
  mask         : Option Byte
  deriving DecidableEq, Repr

/-- The value of an item, if chosen, in its range; the outer `none` is out of range. -/
def checkItem {α β : Type} (read : α → Option β) : Option α → Option (Option β)
  | none => some none
  | some x => (read x).map some

/-- NAMECHECK and OUTNAME: 0 for none, or 1 with a name (R200). -/
def readNamed (v : Byte × List Byte) : Option (Option Name) :=
  if v.1 = 0 then some none else if v.1 = 1 then (readName v.2).map some else none

/-- CODECHECK: 0 for no, 1 to 15 for yes with that code (R200). -/
def readCodeCheck (b : Byte) : Option (Option (BitVec 4)) :=
  if b = 0 then some none else (readExpectedCode b).map some

/-- OUTCODE: 0 to 15, or 0xFF for none (R200). -/
def readOutCodeItem (b : Byte) : Option (Option (BitVec 4)) :=
  if b = 0xFF then some none else (readOutCode b).map some

/-- The content of an AMEND but for the index (R68 check 2); `none` is BAD_PARAM. -/
def readAmend (items : BitVec 16) (v : AmendBytes) : Option Amendment := do
  let egress ← checkItem (fun b : Byte => readSlot b.toNat) v.egress
  let working ← checkItem readSource v.working
  let protect ← checkItem readProtect v.protect
  let revertive ← checkItem readFlag v.revertive
  let degrade ← checkItem readFlag v.degrade
  let expectedName ← checkItem readNamed v.nameCheck
  let expectedCode ← checkItem readCodeCheck v.codeCheck
  let outName ← checkItem readNamed v.outName
  let outCode ← checkItem readOutCodeItem v.outCode
  let holdOff ← checkItem readHoldOff v.holdOff
  let ret ← checkItem readReturn v.ret
  let mask ← checkItem readMask v.mask
  if items ≠ 0 ∧ (items &&& 0xF000) = 0 then
    some { egress, working, protect, revertive, degrade, expectedName, expectedCode, outName, outCode, holdOff, ret, mask }
  else none

/-- The fields as they stand after an amendment. -/
def Amendment.apply (a : Amendment) (f : Fields) : Fields where
  egress := a.egress.getD f.egress
  working := a.working.getD f.working
  protect := a.protect.getD f.protect
  revertive := a.revertive.getD f.revertive
  degradeSwitch := a.degrade.getD f.degradeSwitch
  expectedName := a.expectedName.getD f.expectedName
  expectedCode := a.expectedCode.getD f.expectedCode
  outName := a.outName.getD f.outName
  outCode := a.outCode.getD f.outCode
  holdOff := a.holdOff.getD f.holdOff
  returnTime := a.ret.getD f.returnTime
  mask := a.mask.getD f.mask

/-- EGRESS, WORKING or PROTECT is chosen (R68 check 4). -/
def Amendment.stagedOnly (a : Amendment) : Bool := a.egress.isSome || a.working.isSome || a.protect.isSome

/-- An item that enters selection is chosen (R69). -/
def Amendment.selecting (a : Amendment) : Bool :=
  a.working.isSome || a.protect.isSome || a.revertive.isSome || a.degrade.isSome || a.expectedName.isSome
    || a.expectedCode.isSome

/-- The sources a working or protect item names anew (R70: each is taken before any is dropped). -/
def Amendment.taken (a : Amendment) : List Source :=
  a.working.toList ++ (a.protect.bind id).toList

/-- The sources those items replace. -/
def Amendment.droppedFrom (a : Amendment) (f : Fields) : List Source :=
  (if a.working.isSome then [f.working] else []) ++ (if a.protect.isSome then f.protect.toList else [])

end Sys2Proof.Machine
end

