-- ==== Sys2Proof/Config.lean ====
section
/-! DEFINITION. What the spec leaves open: one free value, the order in which the parts of one event are taken. -/
namespace Sys2Proof

/-- The free order (R107, R130, R132, R166: "may be taken in any order", "either may be taken first").
The tasks that one event causes are taken in rising order of their rank; `choice` counts the events that had a choice,
`task` is the task's number. Nothing is known of it, so every order is possible (log 5). -/
opaque Config.taskRank (choice task : Nat) : Nat

end Sys2Proof
end

