-- ==== Sys2Proof/Machine/Monitor.lean ====
section
/-! DEFINITION. A slot monitor taking one slot-frame (chapter 2), and its resets. -/
namespace Sys2Proof.Machine

/-- Part 1, fill: the fill state follows the fill flag with a persistence of three (R24). -/
def Monitor.takeFill (m : Monitor) (fill : Bool) : Monitor :=
  if fill = m.filled then { m with fillRun := 0 }
  else if m.fillRun + 1 = 3 then
    { m with
      filled := fill
      fillRun := 0
      fillDeclarations := if fill then satInc m.fillDeclarations else m.fillDeclarations }
  else { m with fillRun := m.fillRun + 1 }

/-- Part 2, block: the errored flag is counted, and the 256th slot-frame ends the block (R34, R35). -/
def Monitor.takeBlock (m : Monitor) (threshold : Byte) (errored : Bool) : Monitor :=
  let count := if errored then m.blockErrored + 1 else m.blockErrored
  let m := { m with erroredFrames := if errored then satInc m.erroredFrames else m.erroredFrames }
  if m.blockPos < 255 then { m with blockPos := m.blockPos + 1, blockErrored := count }
  else { m with blockPos := 0, blockErrored := 0, degraded := threshold.toNat ≤ count }

/-- The search for two markers 16 evaluated slot-frames apart (R26), and the entry into FRAMED (R27, R30), which leaves no
candidate (log 18). -/
def Monitor.searchFrame (m : Monitor) (mk : Bool) (char : PathChar) : Monitor :=
  match m.mkCandidate with
  | none => if mk then { m with mkCandidate := some 0 } else m
  | some c =>
    if c + 1 < 16 then { m with mkCandidate := some (if mk then 0 else c + 1) }
    else if mk then
      { m with framed := true, mkCandidate := none, mfPos := 0, fails := 0, stray := false, gathered := [char] }
    else { m with mkCandidate := none }

/-- The judgement of the gathered characters at a multiframe check (R31), and the acceptance of a name (R32). -/
def Monitor.judgeName (m : Monitor) (pass : Bool) : Monitor :=
  if pass && m.gathered.all printable then
    let count := if m.confirming = some m.gathered then min (m.matchCount + 1) 3 else 1
    { m with
      confirming := some m.gathered
      matchCount := count
      name := if count = 3 then some m.gathered else m.name
      gathered := [] }
  else { m with confirming := none, matchCount := 0, gathered := [] }

/-- The loss of framing at the second failed check (R28). -/
def Monitor.loseFraming (m : Monitor) : Monitor :=
  { m with
    framed := false
    mkCandidate := none
    mfPos := 0
    fails := 0
    stray := false
    gathered := []
    confirming := none
    matchCount := 0 }

/-- A multiframe check at position 0 (R27): the name is judged, and the second fail loses framing (R28). -/
def Monitor.checkMultiframe (m : Monitor) (mk : Bool) (char : PathChar) : Monitor :=
  let pass := mk && !m.stray
  let m : Monitor := { m.judgeName pass with mfPos := 0, stray := false }
  if pass then { m with fails := 0, gathered := [char] }
  else if m.fails + 1 = 2 then m.loseFraming
  else { m with fails := m.fails + 1, gathered := [char] }

/-- An evaluated slot-frame in FRAMED (R27, R30). -/
def Monitor.followFrame (m : Monitor) (mk : Bool) (char : PathChar) : Monitor :=
  if m.mfPos = 15 then m.checkMultiframe mk char
  else { m with mfPos := m.mfPos + 1, stray := m.stray || mk, gathered := m.gathered ++ [char] }

/-- Content code with a persistence of five (R29). -/
def Monitor.takeCode (m : Monitor) (code : BitVec 4) : Monitor :=
  let run := if m.codeCandidate = some code then min (m.codeRun + 1) 5 else 1
  { m with codeCandidate := some code, codeRun := run, code := if run = 5 then some code else m.code }

/-- Remote fault with a persistence of five in each direction (R33). -/
def Monitor.takeRf (m : Monitor) (rf : Bool) : Monitor :=
  if rf = m.rf then { m with rfRun := 0 }
  else if m.rfRun + 1 = 5 then { m with rf := rf, rfRun := 0 }
  else { m with rfRun := m.rfRun + 1 }

/-- Part 3, header: the evaluation of one header word (R23, R26 to R33). -/
def Monitor.takeHeader (m : Monitor) (header : Word) : Monitor :=
  let m := if m.framed then m.followFrame (hdrMK header) (hdrChar header)
    else m.searchFrame (hdrMK header) (hdrChar header)
  (m.takeCode (hdrCode header)).takeRf (hdrRF header)

/-- One slot-frame handed to the monitor (R23): ignored while no record references the slot; the header word is
evaluated only if the fill state after part 1 is CLEAR (R25). -/
def Monitor.take (m : Monitor) (threshold : Byte) (frame : SlotFrame) : Monitor :=
  if m.refs = 0 then m
  else
    let m := (m.takeFill frame.fill).takeBlock threshold frame.errored
    if m.filled then m else m.takeHeader frame.header

/-- What changed is reported to the source selector (R43). -/
def Monitor.reports (old new : Monitor) : Bool :=
  old.filled != new.filled || old.framed != new.framed || old.code != new.code || old.name != new.name
    || old.degraded != new.degraded

/-- The bus leaves ALIGNED (R40): acceptances, rf state and counters kept, run counters 0, states clear, block restarted. A
monitor without references is already clean and is not changed. -/
def Monitor.alignReset (m : Monitor) : Monitor :=
  if m.refs = 0 then m
  else
    { Monitor.clean m.refs with
      code := m.code
      name := m.name
      rf := m.rf
      erroredFrames := m.erroredFrames
      fillDeclarations := m.fillDeclarations }

/-- A reference is taken: a monitor without references starts clean (R36, R37). -/
def Monitor.takeRef (m : Monitor) : Monitor :=
  if m.refs = 0 then Monitor.clean 1 else { m with refs := m.refs + 1 }

/-- A reference is dropped: the last one clears the monitor (R36, R38). -/
def Monitor.dropRef (m : Monitor) : Monitor :=
  if m.refs ≤ 1 then Monitor.clean 0 else { m with refs := m.refs - 1 }

/-- The two counters set to 0 (R35). -/
def Monitor.clearCounters (m : Monitor) : Monitor := { m with erroredFrames := 0, fillDeclarations := 0 }

end Sys2Proof.Machine
end

