-- ==== Sys2Proof/Machine/Ops.lean ====
section
/-! DEFINITION. The shared operations: records, notices (R163), timers and waiters (chapter 6), receivers and monitors,
and the free order of what one event causes. -/
namespace Sys2Proof.Machine

/-! ## The free order -/

/-- `x` put into a list that stands in rising order of rank. -/
def insertBy {α : Type} (rank : α → Nat) (x : α) : List α → List α
  | [] => [x]
  | y :: ys => if rank x ≤ rank y then x :: y :: ys else y :: insertBy rank x ys

/-- The list in rising order of rank. -/
def orderBy {α : Type} (rank : α → Nat) : List α → List α
  | [] => []
  | x :: xs => insertBy rank x (orderBy rank xs)

/-! ## Records -/

/-- The record of an index. -/
def Supervision.record (u : Supervision) (r : RecIx) : Record := pick u.table r

/-- The live part of a record; `none` when it is FREE. -/
def Supervision.live (u : Supervision) (r : RecIx) : Option Live := (u.record r).live

/-- A record is replaced. -/
def Supervision.setRecord (u : Supervision) (r : RecIx) (x : Record) : Supervision :=
  { u with table := put u.table r x }

/-- The live part of a record is changed; a FREE record stays as it is. -/
def Supervision.modLive (u : Supervision) (r : RecIx) (f : Live → Live) : Supervision :=
  u.setRecord r { u.record r with live := (u.live r).map f }

/-- The selector part of a record is changed. -/
def Supervision.modSel (u : Supervision) (r : RecIx) (f : Selector → Selector) : Supervision :=
  u.modLive r (fun l => { l with sel := f l.sel })

/-- The selector part of a record. -/
def Supervision.sel (u : Supervision) (r : RecIx) : Option Selector := (u.live r).map (·.sel)

/-! ## Notices -/

/-- A posting taken by the queue: added in place, or a new entry at the tail (R163). -/
def addNotice (subject : Subject) (generation : Option Byte) (kind : Kind) : List Entry → List Entry
  | [] => [⟨subject, generation, kind.bit⟩]
  | e :: rest =>
    if e.subject = subject then { e with kinds := e.kinds ||| kind.bit } :: rest
    else e :: addNotice subject generation kind rest

/-- A posting for a bus or the egress side, which no mask stops (R163). -/
def Supervision.post (u : Supervision) (subject : Subject) (kind : Kind) : Supervision :=
  { u with notices := addNotice subject none kind u.notices }

/-- Whether a record's notice mask stops a kind (R50). ACTIVATED and RETIRED are never stopped. -/
def Supervision.masks (u : Supervision) (r : RecIx) (kind : Kind) : Bool :=
  kind.maskable &&
    match u.live r with
    | some l => hasKind l.fields.mask kind
    | none => true

/-- A posting for a record, with its current generation, subject to its mask (R50, R163). -/
def Supervision.postRecord (u : Supervision) (r : RecIx) (kind : Kind) : Supervision :=
  if u.masks r kind then u
  else { u with notices := addNotice (.record r) (some (u.record r).generation) kind u.notices }

/-- A posting made only where its event arose. -/
def Supervision.postIf (u : Supervision) (arose : Bool) (r : RecIx) (kind : Kind) : Supervision :=
  if arose then u.postRecord r kind else u

/-! ## Timers and waiters -/

/-- The ticks a hold-off loads (R129). -/
def Fields.holdTicks (f : Fields) : Nat := f.holdOff.toNat

/-- The ticks a return time loads (R129). -/
def Fields.returnTicks (f : Fields) : Nat := 100 * f.returnTime.toNat

/-- A timer just loaded (R129). -/
def Timer.loaded (owner : RecIx) (purpose : Purpose) (ticks : Nat) : Timer :=
  { owner, purpose, remaining := ticks, fresh := true }

/-- How many timers are RUNNING. -/
def Pool.running (p : Pool) : Nat := p.timers.toList.countP (·.isSome)

/-- The lowest-numbered FREE timer (R130). -/
def Pool.lowestFree (p : Pool) : Option TimerIx := (List.finRange 24).find? (fun t => (pick p.timers t).isNone)

/-- A timer is lent, and the high-water mark compared (R141). -/
def Pool.lend (p : Pool) (t : TimerIx) (timer : Timer) : Pool :=
  let p := { p with timers := put p.timers t (some timer) }
  { p with highWater := max p.highWater p.running }

/-- A take (R130): the lowest FREE timer loaded for the record, or `none`. -/
def Supervision.takeTimer (u : Supervision) (r : RecIx) (purpose : Purpose) (ticks : Nat) : Option Supervision :=
  match u.pool.lowestFree with
  | none => none
  | some t =>
    some ({ u with pool := u.pool.lend t (.loaded r purpose ticks) }.modSel r (fun x => { x with timer := some t }))

/-- A shortage is reported to the pool (R141). -/
def Supervision.countShort (u : Supervision) : Supervision :=
  { u with pool := { u.pool with shorts := satInc u.pool.shorts } }

/-- The timer a record holds, if the pool agrees that it is its owner (R131, R133). -/
def Supervision.heldTimer (u : Supervision) (r : RecIx) : Option TimerIx :=
  match (u.sel r).bind (·.timer) with
  | none => none
  | some t =>
    match pick u.pool.timers t with
    | none => none
    | some timer => if timer.owner = r then some t else none

/-- A reload (R134): new purpose and time, the same timer and owner. -/
def Supervision.reloadTimer (u : Supervision) (r : RecIx) (purpose : Purpose) (ticks : Nat) : Supervision :=
  match u.heldTimer r with
  | none => u
  | some t => { u with pool := { u.pool with timers := put u.pool.timers t (some (.loaded r purpose ticks)) } }

/-- The return time of a record in ticks, as it stands. A waiter is live (R136); the other case is never met (log 20). -/
def Supervision.returnTicks (u : Supervision) (r : RecIx) : Nat :=
  match u.live r with
  | some l => l.fields.returnTicks
  | none => 1

/-- A freed timer is handed to the head waiter, if there is one (R139, R115). -/
def Supervision.handOver (u : Supervision) (t : TimerIx) : Supervision :=
  match u.pool.waiters with
  | [] => u
  | h :: rest =>
    { u with pool := { u.pool with waiters := rest }.lend t (.loaded h .ret (u.returnTicks h)) }.modSel h
      (fun x => { x with timer := some t, waiting := false })

/-- A timer becomes FREE (R132 steps 1 and 2, R135): its record holds it no more, and a waiter may receive it. -/
def Supervision.freeTimer (u : Supervision) (r : RecIx) (t : TimerIx) : Supervision :=
  ({ u with pool := { u.pool with timers := put u.pool.timers t none } }.modSel r
    (fun x => { x with timer := none })).handOver t

/-- A release (R135); one that finds no timer of the record RUNNING changes nothing (R133). -/
def Supervision.releaseTimer (u : Supervision) (r : RecIx) : Supervision :=
  match u.heldTimer r with
  | none => u
  | some t => u.freeTimer r t

/-- A join at the tail of the waiter queue (R137). -/
def Supervision.join (u : Supervision) (r : RecIx) : Supervision :=
  { u with pool := { u.pool with waiters := u.pool.waiters ++ [r] } }.modSel r (fun x => { x with waiting := true })

/-- A leave from wherever the record stands in the queue (R138). -/
def Supervision.leave (u : Supervision) (r : RecIx) : Supervision :=
  { u with pool := { u.pool with waiters := u.pool.waiters.filter (· ≠ r) } }.modSel r
    (fun x => { x with waiting := false })

/-- The record's timer is released if it holds one, and it leaves the queue if it waits (R110, R123). -/
def Supervision.endWaits (u : Supervision) (r : RecIx) : Supervision := (u.releaseTimer r).leave r

/-! ## Receivers and monitors -/

/-- The receiver of a bus. -/
def State.rx (s : State) : Bus → Receiver
  | .A => s.rxA
  | .B => s.rxB

/-- A receiver is replaced. -/
def State.setRx (s : State) (b : Bus) (rx : Receiver) : State :=
  match b with
  | .A => { s with rxA := rx }
  | .B => { s with rxB := rx }

/-- The monitors of a bus. -/
def State.mons (s : State) : Bus → Vector Monitor 48
  | .A => s.monA
  | .B => s.monB

/-- The monitors of a bus are replaced. -/
def State.setMons (s : State) (b : Bus) (ms : Vector Monitor 48) : State :=
  match b with
  | .A => { s with monA := ms }
  | .B => { s with monB := ms }

/-- The monitor of an ingress slot. -/
def State.monitor (s : State) (src : Source) : Monitor := pick (s.mons src.bus) src.slot

/-- A monitor is replaced. -/
def State.setMonitor (s : State) (src : Source) (m : Monitor) : State :=
  s.setMons src.bus (put (s.mons src.bus) src.slot m)

/-- A reference is taken on each source's monitor (R36). -/
def State.takeRefs (s : State) (srcs : List Source) : State :=
  srcs.foldl (fun s src => s.setMonitor src (s.monitor src).takeRef) s

/-- A reference is dropped on each source's monitor (R36). -/
def State.dropRefs (s : State) (srcs : List Source) : State :=
  srcs.foldl (fun s src => s.setMonitor src (s.monitor src).dropRef) s

/-- The sources a record names: working, then protect. -/
def Fields.sources (f : Fields) : List Source := f.working :: f.protect.toList

/-- The live records naming an ingress slot as working or protect source (R43, R44). -/
def State.namers (s : State) (src : Source) : List RecIx :=
  (List.finRange 64).filter fun r =>
    match s.sup.live r with
    | some l => l.fields.sources.contains src
    | none => false

/-- The live records with a source on a bus (R7, R10). -/
def State.usersOf (s : State) (b : Bus) : List RecIx :=
  (List.finRange 64).filter fun r =>
    match s.sup.live r with
    | some l => l.fields.sources.any (·.bus = b)
    | none => false

/-- ALIGN is posted for a bus (R18). -/
def State.postAlign (s : State) (b : Bus) : State := { s with sup := s.sup.post (.bus b) .align }

end Sys2Proof.Machine
end

