-- ==== Sys2Proof/Machine/Selector.lean ====
section
/-! DEFINITION. The source selector: causes and conditions, evaluation, freeze and expiry (chapter 5), the ticks of the
timer pool (R129, R132), and the tasks one event causes. -/
namespace Sys2Proof.Machine

/-! ## Causes, conditions, merit -/

/-- The causes of a source (R100), from the bus state, the monitor's fields and the record's expectations. -/
def deriveCauses (f : Fields) (bus : BusState) (m : Monitor) : Causes where
  bus := bus != .aligned
  fill := m.filled
  unframed := !m.framed
  noCode := m.code.isNone
  unequipped := m.code == some 0
  code := f.expectedCode.isSome && m.code.isSome && m.code != f.expectedCode
  name := f.expectedName.isSome && m.name != f.expectedName

/-- One or more causes are present. -/
def Causes.any (c : Causes) : Bool :=
  c.bus || c.fill || c.unframed || c.noCode || c.unequipped || c.code || c.name

/-- The condition of a source (R101). -/
def conditionOf (c : Causes) (degraded : Bool) : Condition :=
  if c.any then .failed else if degraded then .degraded else .good

/-- The judgement of one source of a record, as everything stands (R100, R101). -/
def State.judge (s : State) (f : Fields) (src : Source) : Judgement :=
  let c := deriveCauses f (s.rx src.bus).state (s.monitor src)
  { condition := conditionOf c (s.monitor src).degraded, causes := c }

/-- The merit of a condition (R101). -/
def Condition.merit (degradeSwitch : Bool) : Condition → Int
  | .failed => 0
  | .degraded => if degradeSwitch then 1 else 2
  | .good => 2

/-- The merit of a source; an absent protect source has merit -1 (R101). -/
def meritOf (degradeSwitch : Bool) : Option Judgement → Int
  | none => -1
  | some j => j.condition.merit degradeSwitch

/-! ## Selection in LIVE -/

/-- ON_W or ON_P, to match a source. -/
def Side.rest : Side → SelState
  | .W => .onW
  | .P => .onP

/-- HOLD_W or HOLD_P, to match a source. -/
def Side.hold : Side → SelState
  | .W => .holdW
  | .P => .holdP

def Side.other : Side → Side
  | .W => .P
  | .P => .W

/-- The selection rests on a source. -/
def Supervision.selectAt (u : Supervision) (r : RecIx) (side : Side) : Supervision :=
  u.modSel r (fun x => { x with selected := side, state := side.rest })

/-- The selector state alone changes. -/
def Supervision.setSelState (u : Supervision) (r : RecIx) (st : SelState) : Supervision :=
  u.modSel r (fun x => { x with state := st })

/-- The source a request row selects, if one applies (R110). -/
def requestRow (request : Request) (selected : Side) (mw mp : Int) : Option Side :=
  match request with
  | .none => none
  | .pinW => some .W
  | .pinP => some .P
  | .steerW => if selected = .P ∧ mp ≤ mw then some .W else none
  | .steerP => if selected = .W ∧ mw ≤ mp then some .P else none

/-- The selected source ranks below the other (rows of R111, R112): a switch at once, a hold-off, or, short of a timer, a
switch at once. The flag says that a shortage was met (R108). -/
def Supervision.leaveSource (u : Supervision) (r : RecIx) (f : Fields) (side : Side) : Supervision × Bool :=
  if f.holdOff = 0 then (u.selectAt r side.other, false)
  else
    match u.takeTimer r .holdoff f.holdTicks with
    | some u' => (u'.setSelState r side.hold, false)
    | none => (u.countShort.selectAt r side.other, true)

/-- A return wait begins, or the record joins the waiter queue (R112, R137). -/
def Supervision.beginReturn (u : Supervision) (r : RecIx) (f : Fields) : Supervision × Bool :=
  match u.takeTimer r .ret f.returnTicks with
  | some u' => (u'.setSelState r .ret, false)
  | none => ((u.countShort.join r).setSelState r .ret, true)

/-- Return is due: revertive, W at merit 2, and no STEER_P in force (R112). -/
def returnDue (f : Fields) (request : Request) (mw : Int) : Bool :=
  f.revertive && mw == 2 && request != .steerP

/-- The state rows of R111 to R113. -/
def Supervision.stateRow (u : Supervision) (r : RecIx) (f : Fields) (x : Selector) (mw mp : Int) : Supervision × Bool :=
  match x.state with
  | .onW => if mw < mp then u.leaveSource r f .W else (u, false)
  | .holdW => if mw < mp then (u, false) else ((u.releaseTimer r).setSelState r .onW, false)
  | .onP =>
    if mp < mw then u.leaveSource r f .P
    else if returnDue f x.request mw then u.beginReturn r f
    else (u, false)
  | .holdP =>
    if mp < mw then (u, false)
    else if returnDue f x.request mw then ((u.reloadTimer r .ret f.returnTicks).setSelState r .ret, false)
    else ((u.releaseTimer r).setSelState r .onP, false)
  | .ret =>
    if mp < mw then
      if f.holdOff = 0 then ((u.endWaits r).selectAt r .W, false)
      else if x.waiting then (((u.leave r).countShort).selectAt r .W, true)
      else ((u.reloadTimer r .holdoff f.holdTicks).setSelState r .holdP, false)
    else if returnDue f x.request mw then (u, false)
    else ((u.endWaits r).setSelState r .onP, false)

/-- The LIVE rules: a request row, else the state rows (R110). -/
def Supervision.settleLive (u : Supervision) (r : RecIx) (f : Fields) (x : Selector) (mw mp : Int) :
    Supervision × Bool :=
  match requestRow x.request x.selected mw mp with
  | some side => ((u.endWaits r).selectAt r side, false)
  | none => u.stateRow r f x mw mp

/-- The expiry row of R114: where the selection stands after the wait has run out. -/
def expiryRow (x : Selector) (mw mp : Int) : Selector :=
  match x.state with
  | .onW => x
  | .onP => x
  | .holdW => if mw < mp then { x with selected := .P, state := .onP } else { x with state := .onW }
  | .holdP => if mp < mw then { x with selected := .W, state := .onW } else { x with state := .onP }
  | .ret => if mw = 2 then { x with selected := .W, state := .onW } else { x with state := .onP }

/-- The selection step of an expiry: the expiry row, then the state rows once (R114, log 15). -/
def Supervision.settleExpiry (u : Supervision) (r : RecIx) (f : Fields) (x : Selector) (mw mp : Int) :
    Supervision × Bool :=
  let y := expiryRow x mw mp
  (u.modSel r (fun z => { z with selected := y.selected, state := y.state })).stateRow r f y mw mp

/-! ## Selection in PREVIEW -/

/-- The source the preview rule settles on (R121). -/
def previewSide (f : Fields) (x : Selector) (mw mp : Int) : Side :=
  match x.request with
  | .pinW => .W
  | .pinP => .P
  | _ =>
    if x.request = .steerW ∧ mp ≤ mw then .W
    else if x.request = .steerP ∧ mw ≤ mp then .P
    else if mw < mp then .P
    else if mp < mw then .W
    else if f.revertive ∧ mw = 2 then .W
    else x.selected

/-! ## Evaluation -/

/-- The selection step of an evaluation, by the record's mode (R106). -/
def Supervision.settle (u : Supervision) (r : RecIx) (expiry : Bool) (f : Fields) (x : Selector) (mw mp : Int) :
    Supervision × Bool :=
  match x.mode with
  | .preview => (u.selectAt r (previewSide f x mw mp), false)
  | .live => if expiry then u.settleExpiry r f x mw mp else u.settleLive r f x mw mp
  | .frozen => (u, false)

/-- The switch moves the selection away from a steered source (R109). -/
def steerDropped (request : Request) (before after : Side) : Bool :=
  (request == .steerW && before == .W && after == .P) || (request == .steerP && before == .P && after == .W)

/-- One evaluation of a record: derivation, selection, posting (R106). `w` and `p` are the judgements derived. -/
def Supervision.evaluate (u : Supervision) (r : RecIx) (expiry : Bool) (w : Judgement) (p : Option Judgement) :
    Supervision :=
  match u.live r with
  | none => u
  | some l =>
    let changed := l.sel.w != some w || l.sel.p != p
    let stored := u.modSel r (fun x => { x with w := some w, p := p })
    let settled := stored.settle r expiry l.fields { l.sel with w := some w, p := p }
      (meritOf l.fields.degradeSwitch (some w)) (meritOf l.fields.degradeSwitch p)
    let after := ((settled.1.sel r).map (·.selected)).getD l.sel.selected
    let dropped := steerDropped l.sel.request l.sel.selected after
    let u := if dropped then settled.1.modSel r (fun x => { x with request := .none }) else settled.1
    (((u.postIf changed r .cond).postIf (after != l.sel.selected) r .select).postIf dropped r .steerDrop).postIf
      settled.2 r .timerShort

/-- The selector evaluates a record, reading the monitors and the bus states as they stand (R105, R106). -/
def State.evaluateBy (s : State) (expiry : Bool) (r : RecIx) : State :=
  match s.sup.live r with
  | none => s
  | some l =>
    { s with sup := s.sup.evaluate r expiry (s.judge l.fields l.fields.working) (l.fields.protect.map (s.judge l.fields)) }

/-- An evaluation other than an expiry's. -/
def State.evaluate (s : State) (r : RecIx) : State := s.evaluateBy false r

/-- A selection frozen at acceptance of RETIRE or REPLACE (R123). -/
def Supervision.freeze (u : Supervision) (r : RecIx) : Supervision :=
  (u.endWaits r).modSel r (fun x => { x with mode := .frozen, state := x.selected.rest })

/-! ## Tasks -/

/-- What one event leads to in other blocks, beside its own effect. -/
inductive Task where
  | evaluate (r : RecIx)
  | post (r : RecIx) (kind : Kind)
  | align (bus : Bus)
  deriving DecidableEq, Repr

/-- The number of a task, for the free order. -/
def Task.number : Task → Nat
  | .evaluate r => r.val
  | .post r kind => 64 + 256 * r.val + kind.bit.toNat
  | .align .A => 20000
  | .align .B => 20001

/-- A task is taken. -/
def State.runTask (s : State) : Task → State
  | .evaluate r => s.evaluate r
  | .post r kind => { s with sup := s.sup.postRecord r kind }
  | .align b => s.postAlign b

/-- The tasks of one event, taken in a free order (R107, R166; log 5). -/
def State.runTasks (s : State) (ts : List Task) : State :=
  match ts with
  | [] => s
  | [t] => s.runTask t
  | ts => (orderBy (fun t => Config.taskRank s.choices t.number) ts).foldl State.runTask { s with choices := s.choices + 1 }

/-! ## The ticks of the pool -/

/-- One tick on a timer (R129): the first after a load leaves the remaining time as loaded. -/
def Timer.tick (timer : Timer) : Timer :=
  if timer.fresh then { timer with fresh := false } else { timer with remaining := timer.remaining - 1 }

/-- The expiry of a timer that has reached 0: freed, handed over, and the former owner evaluated (R132, R114). -/
def State.takeExpiry (s : State) (t : TimerIx) : State :=
  match pick s.sup.pool.timers t with
  | none => s
  | some timer =>
    if timer.remaining = 0 then { s with sup := s.sup.freeTimer timer.owner t }.evaluateBy true timer.owner else s

/-- The timers that have reached 0. -/
def Pool.expiring (p : Pool) : List TimerIx :=
  (List.finRange 24).filter fun t =>
    match pick p.timers t with
    | some timer => timer.remaining = 0
    | none => false

/-- The expiries of one tick, in a free order (R132; log 5). -/
def State.takeExpiries (s : State) : State :=
  match s.sup.pool.expiring with
  | [] => s
  | [t] => s.takeExpiry t
  | ts => (orderBy (fun t => Config.taskRank s.choices t.val) ts).foldl State.takeExpiry { s with choices := s.choices + 1 }

/-- Every RUNNING timer takes a tick (R129). -/
def Pool.tick (p : Pool) : Pool := { p with timers := mapTable (·.map Timer.tick) p.timers }

/-- A tick of 10 ms: every RUNNING timer counts, and those that reach 0 expire at it (R129, R132; log 4). None is counted
while nRESET is low (R143). -/
def State.tick (s : State) : State :=
  if s.nReset then { s with sup := { s.sup with pool := s.sup.pool.tick } }.takeExpiries else s

/-- `k` ticks. -/
def State.ticks : Nat → State → State
  | 0, s => s
  | k + 1, s => State.ticks k s.tick

/-- The ticks up to and with the one at which a timer expires (R129). -/
def Pool.ticksLeft (p : Pool) (t : TimerIx) : Nat :=
  match pick p.timers t with
  | none => 0
  | some timer => timer.remaining + timer.fresh.toNat

end Sys2Proof.Machine
end

