-- ==== Sys2Proof/Machine/Ownership.lean ====
section
/-! DEFINITION. Records entering and leaving service (chapter 3) and the egress ownership map (chapter 4). -/
namespace Sys2Proof.Machine

/-- A record becomes FREE (R66): fields discarded, references dropped, RETIRED posted, index held. -/
def State.freeRecord (s : State) (r : RecIx) : State :=
  match s.sup.live r with
  | none => s
  | some l =>
    let s := { s with sup := s.sup.setRecord r { s.sup.record r with live := none } }
    let s := s.dropRefs l.fields.sources
    let u := s.sup.postRecord r .retired
    { s with sup := u.setRecord r { u.record r with held := true } }

/-- The selector of a record passes to LIVE and is evaluated at once (R122, R124), the record being ACTIVE. -/
def State.goLive (s : State) (r : RecIx) : State :=
  { s with sup := s.sup.modLive r (fun l => { l with state := .active, sel := { l.sel with mode := .live } }) }.evaluate r

/-- A record enters service (R58): ACTIVE, ACTIVATED posted, LIVE. -/
def State.enterService (s : State) (r : RecIx) : State :=
  match s.sup.live r with
  | none => s
  | some _ =>
    { s with sup := (s.sup.modLive r (fun l => { l with state := .active })).postRecord r .activated }.goLive r

/-- The owner map entry of a slot is written (R80). -/
def State.setOwner (s : State) (n : SlotIx) (r : Option RecIx) : State := { s with owner := put s.owner n r }

/-- One update is applied: the owner map entry, then the connection table's actions (R88 to R91, R60). -/
def State.applyUpdate (s : State) : Update → State
  | .enter n r => (s.setOwner n (some r)).enterService r
  | .leave n r => (s.setOwner n none).freeRecord r
  | .handover n o r => ((s.setOwner n (some r)).freeRecord o).enterService r

/-- The pending list is applied whole, head to tail, and is empty afterwards (R88, R96). -/
def State.applyUpdates (s : State) : State := { s.updates.foldl State.applyUpdate s with updates := [] }

/-- An update is queued: applied at queueing while STOPPED (R95), else joined to the tail (R81). The flag says APPLIED. -/
def State.queueUpdate (s : State) (u : Update) : State × Bool :=
  if s.egress.running then ({ s with updates := s.updates ++ [u] }, false) else (s.applyUpdate u, true)

/-- The egress slot of an update. -/
def Update.slot : Update → SlotIx
  | .enter n _ => n
  | .leave n _ => n
  | .handover n _ _ => n

/-- The incoming record of an update. -/
def Update.incoming : Update → Option RecIx
  | .enter _ r => some r
  | .leave _ _ => none
  | .handover _ _ r => some r

/-- The pending list holds an update for a slot. -/
def State.hasUpdate (s : State) (n : SlotIx) : Bool := s.updates.any (fun u => u.slot = n)

/-- The update that names a record as incoming (R82: at most one). -/
def State.incomingUpdate (s : State) (r : RecIx) : Option Update := s.updates.find? (fun u => u.incoming = some r)

/-- An update is taken out of the list, which closes up (R81). -/
def State.removeUpdate (s : State) (u : Update) : State := { s with updates := s.updates.filter (· ≠ u) }

/-- The record of a selector is frozen and RETIRING (R59, R65). -/
def State.beginRetiring (s : State) (r : RecIx) : State :=
  { s with sup := (s.sup.modLive r (fun l => { l with state := .retiring })).freeze r }

end Sys2Proof.Machine
end

