-- ==== Sys2Proof/Machine/Egress.lean ====
section
/-! DEFINITION. The egress assembler (chapter 7): reference, frame starts, the building of egress slots, and the words
driven. -/
namespace Sys2Proof.Machine

/-! ## What a slot carries -/

/-- The three things an egress slot-frame can be (R153). -/
inductive Content where
  | unequipped
  | alarm (outName : Option Name)
  | forwarded (outName : Option Name) (outCode : Option (BitVec 4)) (frame : SlotFrame)
  deriving DecidableEq, Repr

/-- The store entry of a source (R15, R16). -/
def State.storeEntry (s : State) (src : Source) : Option SlotFrame := pick (s.rx src.bus).store src.slot

/-- The selected source of a live record. -/
def Live.selectedSource (l : Live) : Option Source :=
  match l.sel.selected with
  | .W => some l.fields.working
  | .P => l.fields.protect

/-- The stored judgement of the selected source (R102). -/
def Live.selectedJudgement (l : Live) : Option Judgement :=
  match l.sel.selected with
  | .W => l.sel.w
  | .P => l.sel.p

/-- The stored condition of the selected source allows forwarding (R153). -/
def Live.forwards (l : Live) : Bool :=
  match l.selectedJudgement with
  | some j => j.condition != .failed
  | none => false

/-- What a slot carries in this frame (R153). -/
def State.slotContent (s : State) (n : SlotIx) : Content :=
  match (pick s.owner n).bind s.sup.live with
  | none => .unequipped
  | some l =>
    match (if l.forwards then l.selectedSource.bind s.storeEntry else none) with
    | none => .alarm l.fields.outName
    | some frame => .forwarded l.fields.outName l.fields.outCode frame

/-- The character of a name at a multiframe position (R155 to R157); every name has 16. -/
def nameChar (n : Name) (pos : BitVec 4) : PathChar := n.getD pos.toNat 0x20

/-- The slot-frame sent for a content (R155, R156, R157), under the egress parity setting (R21). -/
def Egress.assemble (e : Egress) : Content → Sending
  | .unequipped =>
    { header := mkHeader (e.mfCount == 0) false 0 0x20
      payload := List.replicate 23 0x0000
      fill := false
      sense := e.sense
      scope := e.scope }
  | .alarm outName =>
    { header := mkHeader (e.mfCount == 0) false 15 ((outName.map (nameChar · e.mfCount)).getD 0x20)
      payload := List.replicate 23 0xFFFF
      fill := true
      sense := e.sense
      scope := e.scope }
  | .forwarded outName outCode frame =>
    { header :=
        mkHeader (if outName.isSome then e.mfCount == 0 else hdrMK frame.header) (hdrRF frame.header)
          (outCode.getD (hdrCode frame.header)) ((outName.map (nameChar · e.mfCount)).getD (hdrChar frame.header))
      payload := frame.payload
      fill := frame.fill
      sense := e.sense
      scope := e.scope }

/-- The word driven at a frame position of the slot-frame being sent (section 1.8, R20). -/
def Sending.drive (x : Sending) (pos : Nat) : EgressWord :=
  let header := pos % 24 == 0
  let data := if header then x.header else x.payload.getD (pos % 24 - 1) 0
  let fs := pos == 0
  let fill := header && x.fill
  { data, ss := header, fs, fill, par := parityBit x.sense x.scope data header fs fill }

/-! ## Building and driving -/

/-- The alarm-fill counter of a slot counts an alarm fill slot-frame begun (R158). -/
def Egress.countAlarm (e : Egress) (n : SlotIx) : Content → Egress
  | .alarm _ => { e with alarmFill := put e.alarmFill n (satInc (pick e.alarmFill n)) }
  | .unequipped => e
  | .forwarded _ _ _ => e

/-- The header word of slot `n`: all is read at once, the slot-frame made, and its header word driven (R153, R154). -/
def State.buildSlot (s : State) (n : SlotIx) : State :=
  let c := s.slotContent n
  let x := s.egress.assemble c
  { s with
    egress := { s.egress.countAlarm n c with sending := some x, headerDue := false, out := x.drive s.egress.framePos } }

/-- The header word that stands at the frame position is read, if it has not been yet (log 9). -/
def State.buildDue (s : State) : State :=
  if s.egress.running && s.egress.headerDue then
    match readSlot (s.egress.framePos / 24) with
    | some n => s.buildSlot n
    | none => s
  else s

/-! ## The link and the map -/

/-- The response frame of R185. -/
def responseFrame (collided : Bool) (r : Reply) : List Byte :=
  let covered := (r.status.code ||| (if collided then 0x80#8 else 0)) :: byteOfNat r.results.length :: r.results
  covered ++ [crc covered]

/-- The result of the owning block becomes the response: COLLIDED copied and cleared, HOLDING entered (R183, R185). -/
def Link.complete (l : Link) : Link :=
  match l.state, l.result with
  | .executing, some r =>
    { l with state := .holding, cmd := [], resp := responseFrame l.collision r, collision := false, result := none }
  | _, _ => l

/-- The command in execution has asked the map to queue or remove an update: an accepted ACTIVATE, REPLACE or RETIRE (R83). -/
def Link.mapRequest (l : Link) : Bool :=
  (l.result.map (·.status)) == some .ok && [0x12#8, 0x13#8, 0x14#8].contains (l.cmd.getD 0 0)

/-- A map event is taken after the response of a map request has been built, never between them (R83; log 10). -/
def State.afterRequest (s : State) : State := if s.link.mapRequest then { s with link := s.link.complete } else s

/-! ## The egress side -/

/-- STATE is posted for EGRESS (R159). -/
def State.postState (s : State) : State := { s with sup := s.sup.post .egress .state }

/-- The egress side enters STOPPED (R150): outputs low, the pending list applied whole (R96), STATE posted. -/
def State.stopEgress (s : State) : State :=
  let s := s.afterRequest
  let s :=
    { s with
      egress :=
        { s.egress with
          running := false
          framePos := 0
          misses := 0
          candidate := none
          sending := none
          headerDue := false
          out := EgressWord.low } }
  s.applyUpdates.postState

/-- The egress side enters RUNNING at the confirming edge (R148): the map applies nothing (R97), STATE posted, slot 0 to be
built. That no candidate is held from there on is the model's choice (log 27). -/
def State.startEgress (s : State) : State :=
  let s := s.afterRequest
  { s with
    egress :=
      { s.egress with running := true, framePos := 0, misses := 0, candidate := none, mfCount := 0, headerDue := true } }.postState

/-- An egress frame start (R152): the multiframe counter advances, the pending list is applied, slot 0 is to be built. -/
def State.frameStart (s : State) (misses : Nat) : State :=
  let s := s.afterRequest
  { s with
    egress :=
      { s.egress with framePos := 0, misses := misses, mfCount := s.egress.mfCount + 1, headerDue := true } }.applyUpdates

/-- The expected frame start (R149): a pulse, a first or second miss, or the third. -/
def State.expectFrame (s : State) (pulse : Bool) : State :=
  if pulse then s.frameStart 0
  else if s.egress.misses + 1 = 3 then s.stopEgress
  else s.frameStart (s.egress.misses + 1)

/-- An edge taken by the reference search in STOPPED (R147). -/
def State.searchReference (s : State) (pulse : Bool) : State :=
  match s.egress.candidate with
  | none => if pulse then { s with egress := { s.egress with candidate := some 0 } } else s
  | some c =>
    if c + 1 < 1152 then { s with egress := { s.egress with candidate := some (if pulse then 0 else c + 1) } }
    else if pulse then s.startEgress
    else { s with egress := { s.egress with candidate := none } }

/-- An edge in RUNNING at a position other than an expected frame start: a header word falls due, or a payload word of the
slot-frame being sent is driven. -/
def State.driveNext (s : State) : State :=
  let pos := s.egress.framePos + 1
  if pos % 24 = 0 then { s with egress := { s.egress with framePos := pos, headerDue := true } }
  else
    { s with
      egress :=
        { s.egress with
          framePos := pos
          out := (s.egress.sending.map (·.drive pos)).getD s.egress.out } }

/-- A rising edge of ECLK with the level of EREF (R147, R149); none is taken while nRESET is low (R160). -/
def State.egressEdge (s : State) (eref : Bool) : State :=
  if s.nReset then
    let s := s.buildDue
    let pulse := eref && !s.egress.erefLevel
    let s := { s with egress := { s.egress with erefLevel := eref } }
    if s.egress.running then
      if s.egress.framePos + 1 = 1152 then s.expectFrame pulse else s.driveNext
    else s.searchReference pulse
  else s

/-- Consecutive edges of ECLK. -/
def State.egressEdges (s : State) (levels : List Bool) : State := levels.foldl State.egressEdge s

/-- ECLK is lost (R146). -/
def State.loseEgressClock (s : State) : State :=
  if s.nReset then
    let s := s.buildDue
    let s := { s with egress := { s.egress with erefLevel := false, candidate := none } }
    if s.egress.running then s.stopEgress else s
  else s

/-! ## Meanings -/

/-- EGRESS_CLOCK_LOSS (R146). -/
def execEgressClockLoss (s : State) : Host.Outcome State Fault Refusal := .next s.loseEgressClock

/-- EGRESS_RUNNING (R148): the edge that confirms the reference. -/
def execEgressRunning (eref : Bool) (s : State) : Host.Outcome State Fault Refusal := .next (s.egressEdge eref)

/-- EXPECTED_FRAME_START (R149): the edge at which the frame position returns to 0. -/
def execExpectedFrameStart (eref : Bool) (s : State) : Host.Outcome State Fault Refusal := .next (s.egressEdge eref)

/-- EGRESS_SLOT_BUILD (R153): the edges up to a header word, and the slot-frame built there. -/
def execEgressSlotBuild (levels : List Bool) (s : State) : Host.Outcome State Fault Refusal :=
  .next (s.egressEdges levels).buildDue

/-- REFERENCE_CANDIDATE (R147): edges taken by the reference search. -/
def execReferenceCandidate (levels : List Bool) (s : State) : Host.Outcome State Fault Refusal :=
  .next (s.egressEdges levels)

end Sys2Proof.Machine
end

