-- ==== Sys2Proof/Machine/Ingress.lean ====
section
/-! DEFINITION. The ingress bus receivers (chapter 1) and what their events do to monitors and records. -/
namespace Sys2Proof.Machine

/-! ## Building slot-frames -/

/-- The words of a frame. -/
def frameWords : Nat := 1152

/-- A new slot-frame opened by its header word, under the sense and scope the receiver holds (R2, R14). -/
def Receiver.openFrame (rx : Receiver) (w : IngressWord) : PartialFrame where
  sense := rx.sense
  scope := rx.scope
  frame := { header := w.data, payload := [], fill := w.fill, errored := !passesParity rx.sense rx.scope w }

/-- A payload word added to the slot-frame in progress (R14), a failing word marking it errored (R13). -/
def PartialFrame.add (pf : PartialFrame) (w : IngressWord) : PartialFrame :=
  { pf with
    frame :=
      { pf.frame with
        payload := pf.frame.payload ++ [w.data]
        errored := pf.frame.errored || !passesParity pf.sense pf.scope w } }

/-- The slot-frame in progress after the word at position `pos`. -/
def Receiver.extendFrame (rx : Receiver) (pos : Nat) (w : IngressWord) : Option PartialFrame :=
  if pos % 24 = 0 then some (rx.openFrame w) else rx.partialFrame.map (·.add w)

/-- Whether the word at position `pos` fails its parity check, under the setting of its slot-frame (R13). -/
def Receiver.failsParity (rx : Receiver) (pos : Nat) (w : IngressWord) : Bool :=
  if pos % 24 = 0 then !passesParity rx.sense rx.scope w
  else
    match rx.partialFrame with
    | some pf => !passesParity pf.sense pf.scope w
    | none => false

/-- The word is placed at a frame position: parity and slot-frame (R1, R13, R14). -/
def Receiver.place (rx : Receiver) (pos : Nat) (w : IngressWord) : Receiver :=
  { rx with
    framePos := pos
    partialFrame := rx.extendFrame pos w
    parityErrored := if rx.failsParity pos w then satInc rx.parityErrored else rx.parityErrored }

/-- A line fault on a word that is not at an expected frame start (R8): xFS high, xSS low on a header word, or xSS high
on a payload word. -/
def lineFault (pos : Nat) (w : IngressWord) : Bool := w.fs || (w.ss != (pos % 24 == 0))

/-- The frame check at an expected frame start is bad (R8; log 7). -/
def Receiver.badCheck (rx : Receiver) (w : IngressWord) : Bool := !w.fs || !w.ss || rx.frameFault

/-! ## Changes of bus state -/

/-- The receiver forgets the frame: no slot-frame in progress, no valid store entry, no candidate (R10, R16). The frame
position 0 is section 1.9's for a disable; after bad checks and clock loss it is the model's choice (log 25). -/
def Receiver.unaligned (rx : Receiver) (st : BusState) : Receiver :=
  { rx with
    state := st
    candidate := none
    framePos := 0
    badChecks := 0
    frameFault := false
    partialFrame := none
    store := Vector.replicate 48 none }

/-- The evaluations a change of alignment causes (R7, R10). -/
def State.busEvaluations (s : State) (b : Bus) : List Task := (s.usersOf b).map .evaluate

/-- The bus leaves ALIGNED by bad checks or clock loss (R9, R4, R10): monitors reset first, then the records evaluated and
ALIGN posted, in a free order (log 16). -/
def State.loseAlignment (s : State) (b : Bus) (st : BusState) : State :=
  let rx := (s.rx b).unaligned st
  let s := s.setRx b { rx with alignLosses := satInc rx.alignLosses }
  let s := s.setMons b (mapTable Monitor.alignReset (s.mons b))
  s.runTasks (.align b :: s.busEvaluations b)

/-- The clock is lost (R4). -/
def State.loseClock (s : State) (b : Bus) : State :=
  match (s.rx b).state with
  | .off => s
  | .down => s
  | .seek => (s.setRx b ((s.rx b).unaligned .down)).postAlign b
  | .aligned => s.loseAlignment b .down

/-- The bus enters ALIGNED at the confirming word, which is position 0 (R6, R7). That no candidate is held from there on is
the model's choice (log 26). -/
def State.enterAligned (s : State) (b : Bus) (w : IngressWord) : State :=
  let rx := (s.rx b).unaligned .aligned
  let s := s.setRx b (rx.place 0 w)
  s.runTasks (.align b :: s.busEvaluations b)

/-- The bus is put in OFF from another state (R11): monitors reset and cleared with their references kept (R41), NAME and
RFAULT posted and the selector told, then ALIGN posted. All monitors are cleared before anything is told (log 21). -/
def State.disableBus (s : State) (b : Bus) : State :=
  let old := s.mons b
  let wasAligned := (s.rx b).state == .aligned
  let s := s.setRx b ((s.rx b).unaligned .off)
  let s := s.setMons b (mapTable (fun m => Monitor.clean m.refs) old)
  let posts := (List.finRange 48).flatMap fun n =>
    let m := pick old n
    let records := if m.refs = 0 then [] else s.namers ⟨b, n⟩
    (if m.name.isSome then records.map (fun r => Task.post r .name) else [])
      ++ (if m.rf then records.map (fun r => Task.post r .rfault) else [])
      ++ (if !wasAligned && (m.code.isSome || m.name.isSome) then records.map Task.evaluate else [])
  (s.runTasks (posts ++ if wasAligned then s.busEvaluations b else [])).postAlign b

/-- The bus leaves OFF (R12). -/
def State.enableBus (s : State) (b : Bus) : State := (s.setRx b ((s.rx b).unaligned .down)).postAlign b

/-! ## Taking words -/

/-- A completed slot-frame is handed to the slot's monitor, and what changed is reported and posted (R14, R23, R43, R44). -/
def State.handFrame (s : State) (b : Bus) (n : SlotIx) (frame : SlotFrame) : State :=
  let old := s.monitor ⟨b, n⟩
  let new := old.take (s.rx b).threshold frame
  let s := s.setMonitor ⟨b, n⟩ new
  s.runTasks
    ((if old.name != new.name then (s.namers ⟨b, n⟩).map (fun r => Task.post r .name) else [])
      ++ (if old.rf != new.rf then (s.namers ⟨b, n⟩).map (fun r => Task.post r .rfault) else [])
      ++ (if old.reports new then (s.namers ⟨b, n⟩).map Task.evaluate else []))

/-- The slot-frame of slot `n` is complete: stored whole, and handed on (R14, R15). -/
def State.completeFrame (s : State) (b : Bus) (n : SlotIx) : State :=
  match (s.rx b).partialFrame with
  | none => s
  | some pf =>
    let rx := s.rx b
    (s.setRx b { rx with partialFrame := none, store := put rx.store n (some pf.frame) }).handFrame b n pf.frame

/-- A word taken in ALIGNED at an expected frame start: the frame check (R8, R9). The word is counted for parity whatever the
check finds (log 8). -/
def State.checkFrame (s : State) (b : Bus) (w : IngressWord) : State :=
  let rx := s.rx b
  let placed := rx.place 0 w
  if rx.badCheck w then
    let counted := { placed with badFrameChecks := satInc rx.badFrameChecks, frameFault := false }
    if rx.badChecks + 1 = 3 then (s.setRx b counted).loseAlignment b .seek
    else s.setRx b { counted with badChecks := rx.badChecks + 1 }
  else s.setRx b { placed with badChecks := 0, frameFault := false }

/-- A word taken in ALIGNED at another position (R1, R14). -/
def State.fillFrame (s : State) (b : Bus) (w : IngressWord) : State :=
  let rx := s.rx b
  let pos := rx.framePos + 1
  let s := s.setRx b { rx.place pos w with frameFault := rx.frameFault || lineFault pos w }
  if pos % 24 = 23 then
    match readSlot (pos / 24) with
    | some n => s.completeFrame b n
    | none => s
  else s

/-- A word taken in SEEK (R6). -/
def State.searchWord (s : State) (b : Bus) (w : IngressWord) : State :=
  let rx := s.rx b
  let start := w.fs && w.ss
  match rx.candidate with
  | none => if start then s.setRx b { rx with candidate := some 0 } else s
  | some c =>
    if c + 1 < frameWords then s.setRx b { rx with candidate := some (if start then 0 else c + 1) }
    else if start then s.enterAligned b w
    else s.setRx b { rx with candidate := none }

/-- The receiver of a bus takes one word (R1). -/
def State.takeWord (s : State) (b : Bus) (w : IngressWord) : State :=
  match (s.rx b).state with
  | .off => s
  | .down => (s.setRx b ((s.rx b).unaligned .seek)).postAlign b
  | .seek => s.searchWord b w
  | .aligned => if (s.rx b).framePos + 1 = frameWords then s.checkFrame b w else s.fillFrame b w

/-- The receiver of a bus takes consecutive words. -/
def State.takeWords (s : State) (b : Bus) (ws : List IngressWord) : State := ws.foldl (fun s w => s.takeWord b w) s

/-! ## Meanings -/

/-- CLOCK_LOSS (R4): the row says that 20 us have passed (log 6). -/
def execClockLoss (b : Bus) (s : State) : Host.Outcome State Fault Refusal := .next (s.loseClock b)

/-- CLOCK_RETURN (R5): the word at the edge with which the clock returns. -/
def execClockReturn (b : Bus) (w : IngressWord) (s : State) : Host.Outcome State Fault Refusal := .next (s.takeWord b w)

/-- ALIGN_CONFIRM (R6): the word that confirms the frame. -/
def execAlignConfirm (b : Bus) (w : IngressWord) (s : State) : Host.Outcome State Fault Refusal := .next (s.takeWord b w)

/-- SLOT_FRAME_COMPLETE (R14): the words up to the end of a slot. -/
def execSlotFrameComplete (b : Bus) (ws : List IngressWord) (s : State) : Host.Outcome State Fault Refusal :=
  .next (s.takeWords b ws)

/-- FRAME_CHECK (R8): the word at an expected frame start. -/
def execFrameCheck (b : Bus) (w : IngressWord) (s : State) : Host.Outcome State Fault Refusal := .next (s.takeWord b w)

/-- FRAME_START_CANDIDATE (R6): words taken by the search. -/
def execFrameStartCandidate (b : Bus) (ws : List IngressWord) (s : State) : Host.Outcome State Fault Refusal :=
  .next (s.takeWords b ws)

end Sys2Proof.Machine
end

