-- ==== Sys2Proof/Machine/Records.lean ====
section
/-! DEFINITION. The record commands as their owning blocks perform them: CREATE, AMEND, ACTIVATE, REPLACE, RETIRE, REQUEST,
RECORD_READ (chapters 3 to 5, R194, R200, R201). Each answers the state and the reply. -/
namespace Sys2Proof.Machine

/-- A refusal: a status without results, the state unchanged (R194). -/
def State.refuseWith (s : State) (status : Status) : State × Reply := (s, ⟨status, []⟩)

/-! ## Checks on refs -/

/-- The index and generation checks of R52. -/
def State.checkRef (s : State) (index generation : Byte) : Except Status RecIx :=
  match readIndex index with
  | none => .error .badParam
  | some r => if (s.sup.record r).generation = generation then .ok r else .error .staleRef

/-- The state check of R53: the record must be live and in one of the states the command is taken in. -/
def State.checkState (s : State) (r : RecIx) (taken : LiveState → Bool) : Except Status Live :=
  match s.sup.live r with
  | none => .error .wrongState
  | some l => if taken l.state then .ok l else .error .wrongState

/-- A ref checked whole, and then the state of its record (R52, R53). -/
def State.checkRecord (s : State) (index generation : Byte) (taken : LiveState → Bool) : Except Status (RecIx × Live) :=
  match s.checkRef index generation with
  | .error e => .error e
  | .ok r =>
    match s.checkState r taken with
    | .error e => .error e
    | .ok l => .ok (r, l)

/-- STAGED alone. -/
def LiveState.isStaged (st : LiveState) : Bool := st == .staged

/-- Not RETIRING: the states in which AMEND, RETIRE and REQUEST are taken (R53). -/
def LiveState.inService (st : LiveState) : Bool := st != .retiring

/-- The disposition byte (R200): 0 PENDING, 1 APPLIED. -/
def disposition (x : State × Bool) : State × Reply := (x.1, ⟨.ok, [byteOfBool x.2]⟩)

/-! ## CREATE -/

/-- The lowest index that is FREE and not held (R55). -/
def Supervision.freeIndex (u : Supervision) : Option RecIx :=
  (List.finRange 64).find? (fun r => (u.live r).isNone && !(u.record r).held)

/-- The number of held indexes (R55). -/
def Supervision.heldCount (u : Supervision) : Nat := (List.finRange 64).countP (fun r => (u.record r).held)

/-- The selector part at set-up (R103). -/
def Selector.initial : Selector where
  mode := .preview
  state := .onW
  selected := .W
  request := .none
  timer := none
  waiting := false
  w := none
  p := none

/-- An accepted CREATE on an index (R56). -/
def State.createAt (s : State) (r : RecIx) (f : Fields) : State :=
  let x : Record :=
    { generation := (s.sup.record r).generation + 1
      held := false
      live := some { state := .staged, fields := f, sel := Selector.initial } }
  ({ s with sup := s.sup.setRecord r x }.takeRefs f.sources).evaluate r

/-- CREATE (R54 to R56). -/
def performCreate (params : List Byte) (s : State) : State × Reply :=
  if params.length < 4 ∨ params.length ≠ createLength (byteAt params 3) then s.refuseWith .badLength
  else
    match readCreate params with
    | none => s.refuseWith .badParam
    | some f =>
      match s.sup.freeIndex with
      | none => (s, ⟨.tableFull, [byteOfNat s.sup.heldCount]⟩)
      | some r =>
        let s' := s.createAt r f
        (s', ⟨.ok, [byteOfNat r.val, (s'.sup.record r).generation]⟩)

/-! ## AMEND -/

/-- A request that needs a protect source, cleared where there is none (R71). -/
def Request.withoutProtect : Request → Request
  | .none => .none
  | .pinW => .pinW
  | .pinP => .none
  | .steerW => .steerW
  | .steerP => .none

/-- An accepted AMEND (R69 to R75): the items written, references taken and then dropped, the request cleared, and one
evaluation if a selection item was chosen. -/
def State.amendRecord (s : State) (r : RecIx) (l : Live) (a : Amendment) : State :=
  let f := a.apply l.fields
  let s := { s with sup := s.sup.modLive r (fun l => { l with fields := f }) }
  let s := (s.takeRefs a.taken).dropRefs (a.droppedFrom l.fields)
  let s :=
    if f.protect.isNone then
      { s with sup := s.sup.modSel r (fun x => { x with request := x.request.withoutProtect }) }
    else s
  if a.selecting then s.evaluate r else s

/-- AMEND (R68). -/
def performAmend (params : List Byte) (s : State) : State × Reply :=
  if params.length < 4 then s.refuseWith .badLength
  else
    let items := wordAt params 2
    match splitAmend items (params.drop 4) with
    | none => s.refuseWith .badLength
    | some v =>
      match readAmend items v with
      | none => s.refuseWith .badParam
      | some a =>
        match s.checkRecord (byteAt params 0) (byteAt params 1) LiveState.inService with
        | .error e => s.refuseWith e
        | .ok (r, l) =>
          if a.stagedOnly ∧ l.state ≠ .staged then s.refuseWith .wrongState
          else if (a.apply l.fields).protect = some (a.apply l.fields).working then s.refuseWith .badParam
          else (s.amendRecord r l a, ⟨.ok, [byteAt params 0, byteAt params 1]⟩)

/-! ## ACTIVATE, REPLACE, RETIRE -/

/-- A record is ARMED (R57, R59). -/
def State.arm (s : State) (r : RecIx) : State :=
  { s with sup := s.sup.modLive r (fun l => { l with state := .armed }) }

/-- ACTIVATE (R57, R84, R85). -/
def performActivate (params : List Byte) (s : State) : State × Reply :=
  if params.length ≠ 2 then s.refuseWith .badLength
  else
    match s.checkRecord (byteAt params 0) (byteAt params 1) LiveState.isStaged with
    | .error e => s.refuseWith e
    | .ok (r, l) =>
      if (pick s.owner l.fields.egress).isSome then s.refuseWith .slotBusy
      else if s.hasUpdate l.fields.egress then s.refuseWith .slotPending
      else disposition ((s.arm r).queueUpdate (.enter l.fields.egress r))

/-- REPLACE (R59, R86). -/
def performReplace (params : List Byte) (s : State) : State × Reply :=
  if params.length ≠ 4 then s.refuseWith .badLength
  else
    match s.checkRef (byteAt params 0) (byteAt params 1) with
    | .error e => s.refuseWith e
    | .ok o =>
      match s.checkRef (byteAt params 2) (byteAt params 3) with
      | .error e => s.refuseWith e
      | .ok n =>
        match s.checkState o (· == .active) with
        | .error e => s.refuseWith e
        | .ok lo =>
          match s.checkState n LiveState.isStaged with
          | .error e => s.refuseWith e
          | .ok ln =>
            if lo.fields.egress ≠ ln.fields.egress then s.refuseWith .badParam
            else if s.hasUpdate lo.fields.egress then s.refuseWith .slotPending
            else disposition (((s.beginRetiring o).arm n).queueUpdate (.handover lo.fields.egress o n))

/-- RETIRE of an ARMED record (R63, R64): its update is removed, the outgoing record of a HANDOVER returns to service, and
the record is FREE. Its update is always found (R94). -/
def State.cancelUpdate (s : State) (r : RecIx) : State :=
  match s.incomingUpdate r with
  | none => s.freeRecord r
  | some (.enter n i) => (s.removeUpdate (.enter n i)).freeRecord r
  | some (.leave n o) => (s.removeUpdate (.leave n o)).freeRecord r
  | some (.handover n o i) => ((s.removeUpdate (.handover n o i)).goLive o).freeRecord r

/-- RETIRE by the record's state (R61 to R65, R87). -/
def State.retireRecord (s : State) (r : RecIx) (l : Live) : State × Bool :=
  match l.state with
  | .staged => (s.freeRecord r, true)
  | .armed => (s.cancelUpdate r, true)
  | .active => (s.beginRetiring r).queueUpdate (.leave l.fields.egress r)
  | .retiring => (s, false)

/-- RETIRE (R61). -/
def performRetire (params : List Byte) (s : State) : State × Reply :=
  if params.length ≠ 2 then s.refuseWith .badLength
  else
    match s.checkRecord (byteAt params 0) (byteAt params 1) LiveState.inService with
    | .error e => s.refuseWith e
    | .ok (r, l) => disposition (s.retireRecord r l)

/-! ## REQUEST -/

/-- The request names the protect source (R116). -/
def Request.needsProtect : Request → Bool
  | .none => false
  | .pinW => false
  | .pinP => true
  | .steerW => false
  | .steerP => true

/-- An accepted REQUEST (R117). -/
def State.requestRecord (s : State) (r : RecIx) (kind : Request) : State :=
  { s with sup := s.sup.modSel r (fun x => { x with request := kind }) }.evaluate r

/-- The four result bytes of a REQUEST (R200), as the evaluation left them. -/
def Supervision.requestResult (u : Supervision) (r : RecIx) : List Byte :=
  match u.sel r with
  | some x => [x.mode.byte, x.state.byte, x.selected.byte, x.request.byte]
  | none => []

/-- REQUEST (R116, R117). -/
def performRequest (params : List Byte) (s : State) : State × Reply :=
  if params.length ≠ 3 then s.refuseWith .badLength
  else
    match readIndex (byteAt params 0), readRequest (byteAt params 2) with
    | some _, some kind =>
      match s.checkRecord (byteAt params 0) (byteAt params 1) LiveState.inService with
      | .error e => s.refuseWith e
      | .ok (r, l) =>
        if kind.needsProtect ∧ l.fields.protect.isNone then s.refuseWith .noProtect
        else
          let s' := s.requestRecord r kind
          (s', ⟨.ok, s'.sup.requestResult r⟩)
    | _, _ => s.refuseWith .badParam

/-! ## RECORD_READ -/

/-- Condition and causes bytes of a source, or 0xFF and 0 where it is absent (R201). -/
def judgementBytes : Option Judgement → List Byte
  | some j => [j.condition.byte, j.causes.byte]
  | none => [0xFF, 0]

/-- The timer bytes of a record (R142, R201). -/
def Supervision.timerBytes (u : Supervision) (x : Selector) : List Byte :=
  match x.timer with
  | none => [0xFF, 0] ++ bytes24 0
  | some t =>
    match pick u.pool.timers t with
    | none => [byteOfNat t.val, 0] ++ bytes24 0
    | some timer => [byteOfNat t.val, timer.purpose.byte] ++ bytes24 (BitVec.ofNat 24 timer.remaining)

/-- The place of a record in the waiter queue, 1 for the head, 0 if it does not stand there (R142). -/
def Pool.position (p : Pool) (r : RecIx) : Nat :=
  if p.waiters.contains r then p.waiters.idxOf r + 1 else 0

/-- The record as RECORD_READ returns it (R76, R127, R142, R201). -/
def Supervision.recordBytes (u : Supervision) (r : RecIx) (l : Live) : List Byte :=
  [l.state.byte, (u.record r).generation, byteOfNat l.fields.egress.val, l.fields.working.byte,
    (l.fields.protect.map Source.byte).getD 0xFF, l.fields.flags,
    (l.fields.expectedCode.map (·.setWidth 8)).getD 0, (l.fields.outCode.map (·.setWidth 8)).getD 0xFF, l.fields.holdOff]
    ++ bytes16 l.fields.returnTime
    ++ [l.fields.mask, l.sel.mode.byte, l.sel.state.byte, l.sel.selected.byte, l.sel.request.byte]
    ++ judgementBytes l.sel.w ++ judgementBytes l.sel.p ++ u.timerBytes l.sel
    ++ [byteOfBool l.sel.waiting, byteOfNat (u.pool.position r)]
    ++ nameBytes (l.fields.expectedName.getD []) ++ nameBytes (l.fields.outName.getD [])

/-- RECORD_READ (R76). -/
def performRecordRead (params : List Byte) (s : State) : State × Reply :=
  if params.length ≠ 2 then s.refuseWith .badLength
  else
    match s.checkRecord (byteAt params 0) (byteAt params 1) (fun _ => true) with
    | .error e => s.refuseWith e
    | .ok (r, l) => (s, ⟨.ok, s.sup.recordBytes r l⟩)

end Sys2Proof.Machine
end

