-- ==== Sys2Proof/Machine/Commands.lean ====
section
/-! DEFINITION. The other commands as their owning blocks perform them: IDENT, SOFT_RESET, BUS_SET, BUS_READ, MAP_READ,
SOURCE_READ, NOTICE_FETCH, ALERT_SET, LINK_READ, COUNTERS_CLEAR (R195 to R199, R201). -/
namespace Sys2Proof.Machine

/-! ## IDENT and SOFT_RESET -/

/-- IDENT (R195). -/
def performIdent (params : List Byte) (s : State) : State × Reply :=
  if params ≠ [] then s.refuseWith .badLength else (s, ⟨.ok, [0x48, 0x30, 0x01]⟩)

/-- A record after SOFT_RESET (R79): FREE, not held, its generation kept. -/
def Record.softReset (x : Record) : Record := { generation := x.generation, held := false, live := none }

/-- The clearing of SOFT_RESET (R196): table, map, pool, monitors and notice queue; all else is kept. -/
def State.softReset (s : State) : State :=
  { s with
    monA := Vector.replicate 48 (Monitor.clean 0)
    monB := Vector.replicate 48 (Monitor.clean 0)
    owner := Vector.replicate 48 none
    updates := []
    sup :=
      { table := mapTable Record.softReset s.sup.table
        pool := { s.sup.pool with timers := Vector.replicate 24 none, waiters := [] }
        notices := [] } }

/-- SOFT_RESET (R196). -/
def performSoftReset (params : List Byte) (s : State) : State × Reply :=
  if params ≠ [] then s.refuseWith .badLength else (s.softReset, ⟨.ok, []⟩)

/-! ## Buses -/

/-- A bus selector (R197): A, B, or E for `none`; the outer `none` is out of range. -/
def readSelector (b : Byte) : Option (Option Bus) :=
  if b = 0 then some (some .A) else if b = 1 then some (some .B) else if b = 2 then some none else none

/-- An accepted BUS_SET for bus A or B (R2): the four values written, then the enable acts on the bus state. -/
def State.setBus (s : State) (b : Bus) (enable : Bool) (sense : Sense) (scope : Scope) (threshold : Byte) : State :=
  let rx := s.rx b
  let s := s.setRx b { rx with enable, sense, scope, threshold }
  match rx.state == .off, enable with
  | true, true => s.enableBus b
  | true, false => s
  | false, true => s
  | false, false => s.disableBus b

/-- An accepted BUS_SET for bus E (R3). -/
def State.setEgressParity (s : State) (sense : Sense) (scope : Scope) : State :=
  { s with egress := { s.egress with sense, scope } }

/-- BUS_SET (R197). -/
def performBusSet (params : List Byte) (s : State) : State × Reply :=
  if params.length ≠ 5 then s.refuseWith .badLength
  else
    match readSelector (byteAt params 0), readSense (byteAt params 2), readScope (byteAt params 3) with
    | some none, some sense, some scope => (s.setEgressParity sense scope, ⟨.ok, []⟩)
    | some (some b), some sense, some scope =>
      match readFlag (byteAt params 1) with
      | none => s.refuseWith .badParam
      | some enable =>
        if byteAt params 4 = 0 then s.refuseWith .badParam
        else (s.setBus b enable sense scope (byteAt params 4), ⟨.ok, []⟩)
    | _, _, _ => s.refuseWith .badParam

/-- The results of BUS_READ for an ingress bus (R198). -/
def Receiver.bytes (rx : Receiver) : List Byte :=
  [rx.state.byte, byteOfNat rx.badChecks, byteOfBool rx.enable, rx.sense.byte, rx.scope.byte, rx.threshold]
    ++ bytes32 rx.parityErrored ++ bytes32 rx.badFrameChecks ++ bytes32 rx.alignLosses

/-- BUS_READ (R19, R198). -/
def performBusRead (params : List Byte) (s : State) : State × Reply :=
  if params.length ≠ 1 then s.refuseWith .badLength
  else
    match readSelector (byteAt params 0) with
    | none => s.refuseWith .badParam
    | some (some b) => (s, ⟨.ok, (s.rx b).bytes⟩)
    | some none => (s, ⟨.ok, [s.egress.sense.byte, s.egress.scope.byte, byteOfBool s.egress.running]⟩)

/-! ## MAP_READ -/

/-- The owner byte and generation of an egress slot (R201). -/
def State.ownerBytes (s : State) (n : SlotIx) : List Byte :=
  match pick s.owner n with
  | none => [0x80, 0]
  | some r =>
    [(if (s.sup.live r).any (·.state = .retiring) then 0x40#8 else 0) ||| byteOfNat r.val, (s.sup.record r).generation]

/-- The kind of an update, in bits 7 and 6 (R201). -/
def Update.kindBits : Update → Byte
  | .enter _ _ => 0x40
  | .leave _ _ => 0x80
  | .handover _ _ _ => 0xC0

/-- The pending byte, incoming generation and list position of an egress slot (R98, R201). -/
def State.pendingBytes (s : State) (n : SlotIx) : List Byte :=
  match s.updates.find? (fun u => u.slot = n) with
  | none => [0, 0, 0]
  | some u =>
    let incoming :=
      match u.incoming with
      | some r => [u.kindBits ||| byteOfNat r.val, (s.sup.record r).generation]
      | none => [u.kindBits, 0]
    incoming ++ [byteOfNat (s.updates.findIdx (fun u => u.slot = n) + 1)]

/-- The seven bytes of an egress slot (R201). -/
def State.mapBytes (s : State) (n : SlotIx) : List Byte :=
  s.ownerBytes n ++ s.pendingBytes n ++ bytes16 (pick s.egress.alarmFill n)

/-- The egress slots a MAP_READ names. -/
def slotRange (first count : Nat) : List SlotIx :=
  (List.finRange 48).filter (fun n => first ≤ n.val ∧ n.val < first + count)

/-- MAP_READ (R98). -/
def performMapRead (params : List Byte) (s : State) : State × Reply :=
  if params.length ≠ 2 then s.refuseWith .badLength
  else
    let first := (byteAt params 0).toNat
    let count := (byteAt params 1).toNat
    if 47 < first ∨ count = 0 ∨ 8 < count ∨ 48 < first + count then s.refuseWith .badParam
    else
      (s, ⟨.ok, [byteOfBool s.egress.running, byteOfNat s.updates.length] ++ (slotRange first count).flatMap s.mapBytes⟩)

/-! ## SOURCE_READ -/

/-- An accepted or candidate code, or 0xFF (R201). -/
def codeByte (c : Option (BitVec 4)) : Byte := (c.map (·.setWidth 8)).getD 0xFF

/-- The results of SOURCE_READ but for the bus state (R45, R201). -/
def Monitor.bytes (m : Monitor) : List Byte :=
  [byteOfNat m.refs, byteOfBool m.filled, byteOfNat m.fillRun, byteOfBool m.framed,
    byteOfNat (if m.framed then m.mfPos else 0), byteOfNat (if m.framed then m.fails else 0),
    codeByte m.code, codeByte m.codeCandidate, byteOfNat m.codeRun, byteOfBool m.name.isSome, byteOfNat m.matchCount,
    byteOfBool m.rf, byteOfBool m.degraded, byteOfNat m.blockPos, byteOfNat m.blockErrored]
    ++ bytes32 m.erroredFrames ++ bytes16 m.fillDeclarations ++ nameBytes (m.name.getD [])

/-- SOURCE_READ (R45). -/
def performSourceRead (params : List Byte) (s : State) : State × Reply :=
  if params.length ≠ 1 then s.refuseWith .badLength
  else
    match readSource (byteAt params 0) with
    | none => s.refuseWith .badParam
    | some src => (s, ⟨.ok, (s.rx src.bus).state.byte :: (s.monitor src).bytes⟩)

/-! ## Notices -/

/-- The snapshot of a subject, taken at the fetch (R168, R201). An entry without RETIRED names a live record (R165). -/
def State.snapshot (s : State) (e : Entry) : List Byte :=
  match e.subject with
  | .bus b => [(s.rx b).state.byte]
  | .egress => [byteOfBool s.egress.running]
  | .record r =>
    if hasKind e.kinds .retired then [0]
    else
      match s.sup.live r with
      | some l =>
        [l.state.byte, l.sel.selected.byte, l.sel.request.byte] ++ judgementBytes l.sel.w ++ judgementBytes l.sel.p
      | none => [0]

/-- The hold on an index ends when its entry carrying RETIRED is removed (R67, R170). -/
def Supervision.endHold (u : Supervision) (e : Entry) : Supervision :=
  match e.subject with
  | .record r => if hasKind e.kinds .retired then u.setRecord r { u.record r with held := false } else u
  | .bus _ => u
  | .egress => u

/-- NOTICE_FETCH (R167 to R171). -/
def performNoticeFetch (params : List Byte) (s : State) : State × Reply :=
  if params ≠ [] then s.refuseWith .badLength
  else
    match s.sup.notices with
    | [] => s.refuseWith .queueEmpty
    | e :: rest =>
      ({ s with sup := { s.sup with notices := rest }.endHold e },
        ⟨.ok, [e.subject.byte] ++ e.generation.toList ++ [e.kinds, byteOfNat rest.length] ++ s.snapshot e⟩)

/-- ALERT_SET (R172). -/
def performAlertSet (params : List Byte) (s : State) : State × Reply :=
  if params.length ≠ 1 then s.refuseWith .badLength
  else
    match readFlag (byteAt params 0) with
    | none => s.refuseWith .badParam
    | some on => ({ s with alertOn := on }, ⟨.ok, [byteOfBool on, byteOfNat s.sup.notices.length]⟩)

/-! ## Counters -/

/-- The status of the timer pool (R142, R201). -/
def Pool.bytes (p : Pool) : List Byte :=
  [byteOfNat p.running, byteOfNat p.waiters.length, (p.waiters.head?.map (fun r => byteOfNat r.val)).getD 0xFF]
    ++ bytes16 p.shorts ++ [byteOfNat p.highWater]

/-- LINK_READ (R190, R201). -/
def performLinkRead (params : List Byte) (s : State) : State × Reply :=
  if params ≠ [] then s.refuseWith .badLength
  else
    (s, ⟨.ok,
      bytes16 s.link.framesTaken ++ bytes16 s.link.badLength ++ bytes16 s.link.badCheck ++ bytes16 s.link.badCode
        ++ bytes16 s.link.busyHits ++ bytes16 s.link.dropped ++ s.sup.pool.bytes⟩)

/-- The three counters of a bus set to 0 (R17). -/
def Receiver.clearCounters (rx : Receiver) : Receiver :=
  { rx with parityErrored := 0, badFrameChecks := 0, alignLosses := 0 }

/-- Timer-short to 0, high-water mark to the number RUNNING (R141). -/
def Pool.clearCounters (p : Pool) : Pool := { p with shorts := 0, highWater := p.running }

/-- The six link counters set to 0 (R189). -/
def Link.clearCounters (l : Link) : Link :=
  { l with framesTaken := 0, badLength := 0, badCheck := 0, badCode := 0, busyHits := 0, dropped := 0 }

/-- The groups of COUNTERS_CLEAR (R199); `none` is a group above 0x06. -/
def State.clearGroup (s : State) (group : Byte) : Option State :=
  if group = 0x00 then some (s.setRx .A (s.rx .A).clearCounters)
  else if group = 0x01 then some (s.setRx .B (s.rx .B).clearCounters)
  else if group = 0x02 then some (s.setMons .A (mapTable Monitor.clearCounters (s.mons .A)))
  else if group = 0x03 then some (s.setMons .B (mapTable Monitor.clearCounters (s.mons .B)))
  else if group = 0x04 then some { s with sup := { s.sup with pool := s.sup.pool.clearCounters } }
  else if group = 0x05 then some { s with egress := { s.egress with alarmFill := Vector.replicate 48 0 } }
  else if group = 0x06 then some { s with link := s.link.clearCounters }
  else none

/-- COUNTERS_CLEAR (R199). -/
def performCountersClear (params : List Byte) (s : State) : State × Reply :=
  if params.length ≠ 1 then s.refuseWith .badLength
  else
    match s.clearGroup (byteAt params 0) with
    | none => s.refuseWith .badParam
    | some s' => (s', ⟨.ok, []⟩)

end Sys2Proof.Machine
end

