-- ==== Sys2Proof/Machine/Link.lean ====
section
/-! DEFINITION. The management link (chapter 9): transfers, frame checks, execution, reads, and the meanings of every row
that is a transfer. -/
namespace Sys2Proof.Machine

/-! ## The command set (R193) -/

/-- The commands, by code. -/
inductive Command where
  | ident
  | softReset
  | busSet
  | busRead
  | create
  | amend
  | activate
  | replace
  | retire
  | request
  | recordRead
  | mapRead
  | sourceRead
  | noticeFetch
  | alertSet
  | linkRead
  | countersClear
  deriving DecidableEq, Repr

/-- The code of a command (R193). -/
def Command.code : Command → Byte
  | .ident => 0x01
  | .softReset => 0x02
  | .busSet => 0x08
  | .busRead => 0x09
  | .create => 0x10
  | .amend => 0x11
  | .activate => 0x12
  | .replace => 0x13
  | .retire => 0x14
  | .request => 0x15
  | .recordRead => 0x18
  | .mapRead => 0x19
  | .sourceRead => 0x1A
  | .noticeFetch => 0x20
  | .alertSet => 0x21
  | .linkRead => 0x28
  | .countersClear => 0x29

/-- Every command of the set. -/
def Command.all : List Command :=
  [.ident, .softReset, .busSet, .busRead, .create, .amend, .activate, .replace, .retire, .request, .recordRead, .mapRead,
    .sourceRead, .noticeFetch, .alertSet, .linkRead, .countersClear]

/-- The command of a code (R179 check 3). -/
def readCommand (b : Byte) : Option Command := Command.all.find? (fun c => c.code = b)

/-- The owning block performs a command whole (R183). -/
def perform : Command → List Byte → State → State × Reply
  | .ident => performIdent
  | .softReset => performSoftReset
  | .busSet => performBusSet
  | .busRead => performBusRead
  | .create => performCreate
  | .amend => performAmend
  | .activate => performActivate
  | .replace => performReplace
  | .retire => performRetire
  | .request => performRequest
  | .recordRead => performRecordRead
  | .mapRead => performMapRead
  | .sourceRead => performSourceRead
  | .noticeFetch => performNoticeFetch
  | .alertSet => performAlertSet
  | .linkRead => performLinkRead
  | .countersClear => performCountersClear

/-! ## Frames -/

/-- A command frame: code, length, parameters, CRC (section 9.3). -/
def commandFrame (c : Command) (params : List Byte) : List Byte :=
  let covered := c.code :: byteOfNat params.length :: params
  covered ++ [crc covered]

/-- The checks of R179, in order; a good frame gives its command and parameters. -/
def checkCommandFrame (bytes : List Byte) : Except Status (Command × List Byte) :=
  if bytes.length < 3 ∨ 64 < bytes.length ∨ 60 < (byteAt bytes 1).toNat ∨ bytes.length ≠ 3 + (byteAt bytes 1).toNat then
    .error .badLength
  else if byteAt bytes (bytes.length - 1) ≠ crc (bytes.take (bytes.length - 1)) then .error .badCheck
  else
    match readCommand (byteAt bytes 0) with
    | none => .error .badCode
    | some c => .ok (c, (bytes.drop 2).take (bytes.length - 3))

/-! ## Transfers -/

/-- The counter of a rejected frame (R182, R189). -/
def Link.countRejected (l : Link) : Status → Link
  | .badLength => { l with badLength := satInc l.badLength }
  | .badCheck => { l with badCheck := satInc l.badCheck }
  | .badCode => { l with badCode := satInc l.badCode }
  | _ => l

/-- A transfer refused in EXECUTING (R184): a busy hit, the collision flag, and MDO carries 0xFF in every byte. -/
def Link.refuse (l : Link) (edges : Nat) : Link :=
  { l with busyHits := satInc l.busyHits, collision := true, mdo := List.replicate (mdoLength edges) true }

/-- Transfers refused one after another, each with the bits on its MDI, which are dropped. -/
def Link.refuseMany (transfers : List (List Bool)) (l : Link) : Link :=
  transfers.foldl (fun l bits => l.refuse bits.length) l

/-- nMSEL falls in IDLE, and the bytes of the transfer are collected: TAKING, MDO 0x00 in every byte (R178). `edges` counts
the rising edges of MCLK, those of an incomplete byte among them (R176). -/
def Link.collect (l : Link) (bytes : List Byte) (edges : Nat) : Link :=
  { l with state := .taking, cmd := bytes.take 64, mdo := List.replicate (mdoLength edges) false }

/-- nMSEL rises after a frame that a check rejects (R182). -/
def Link.reject (l : Link) (status : Status) : Link :=
  { l.countRejected status with state := .holding, cmd := [], resp := responseFrame l.collision ⟨status, []⟩, collision := false }

/-- nMSEL rises after a good frame: counted, EXECUTING (R183). -/
def Link.execute (l : Link) : Link := { l with state := .executing, framesTaken := satInc l.framesTaken }

/-- A transfer begun in IDLE (R178, R179, R182, R183). The transfers `early` are refused before the owning block performs
the command (log 11). -/
def State.commandTransfer (s : State) (bytes : List Byte) (edges : Nat) (early : List (List Bool)) : State :=
  let taking := s.link.collect bytes edges
  if bytes = [] then { s with link := { taking with state := .idle } }
  else
    match checkCommandFrame bytes with
    | .error status => { s with link := taking.reject status }
    | .ok (c, params) =>
      let x := perform c params { s with link := Link.refuseMany early taking.execute }
      { x.1 with link := { x.1.link with result := some x.2 } }

/-- A transfer begun in EXECUTING (R184). -/
def State.refusedTransfer (s : State) (edges : Nat) : State :=
  { s with link := s.link.refuse edges }

/-- The response is discarded and the link is IDLE (R186, R188). -/
def Link.discard (l : Link) : Link := { l with state := .idle, resp := [] }

/-- A transfer of `len` complete bytes begun in HOLDING (R186): the response shifted out from byte 0, then 0x00, one bit
per edge; a complete read empties the buffer; a partial one leaves it, unless the hold time ran out meanwhile (R188). -/
def Link.read (l : Link) (len edges : Nat) (holdRunsOut : Bool) : Link :=
  let out := bitsOfBytes l.resp
  let l' :=
    { l with mdo := out.take (mdoLength edges) ++ List.replicate (mdoLength edges - out.length) false }
  if l.resp.length ≤ len then l'.discard
  else if holdRunsOut then { l'.discard with dropped := satInc l.dropped }
  else l'

/-- A whole transfer; its kind is decided by the link state at the fall of nMSEL (R177). None is taken while nRESET is low
(R192). TAKING is left before the transfer's step ends, so no transfer begins in it (log 12). -/
def State.transfer (s : State) (bytes : List Byte) (edges : Nat) (early : List (List Bool)) (holdRunsOut : Bool) :
    State :=
  if s.nReset then
    match s.link.state with
    | .idle => s.commandTransfer bytes edges early
    | .taking => s
    | .executing => s.refusedTransfer edges
    | .holding => { s with link := s.link.read bytes.length edges holdRunsOut }
  else s

/-- The transfer of a command's frame. -/
def State.send (s : State) (c : Command) (params : List Byte) (early : List (List Bool)) : State :=
  let frame := commandFrame c params
  s.transfer frame (8 * frame.length) early false

/-- The transfer of any bits on MDI (R176). -/
def State.shift (s : State) (bits : List Bool) (holdRunsOut : Bool) : State :=
  s.transfer (transferBytes bits) bits.length [] holdRunsOut

/-- The hold time runs out with no read in progress (R188). -/
def State.expireHold (s : State) : State :=
  if s.link.state = .holding then { s with link := { s.link.discard with dropped := satInc s.link.dropped } } else s

/-! ## Meanings: transfers -/

/-- ZERO_LENGTH_TRANSFER (R179). -/
def execZeroLengthTransfer (bits : List Bool) (s : State) : Host.Outcome State Fault Refusal :=
  .next (s.shift bits false)

/-- COMMAND_FRAME_REJECTED (R182). -/
def execCommandFrameRejected (bits : List Bool) (s : State) : Host.Outcome State Fault Refusal :=
  .next (s.shift bits false)

/-- REFUSED_TRANSFER (R184). -/
def execRefusedTransfer (bits : List Bool) (s : State) : Host.Outcome State Fault Refusal :=
  .next (s.shift bits false)

/-- RESPONSE_READ (R186, R188). -/
def execResponseRead (bits : List Bool) (holdRunsOut : Bool) (s : State) : Host.Outcome State Fault Refusal :=
  .next (s.shift bits holdRunsOut)

/-- HOLD_TIME_EXPIRY (R188). -/
def execHoldTimeExpiry (s : State) : Host.Outcome State Fault Refusal := .next s.expireHold

/-- EXECUTION_COMPLETE (R183, R185). -/
def execExecutionComplete (s : State) : Host.Outcome State Fault Refusal :=
  .next { s with link := s.link.complete }

/-! ## Meanings: commands -/

/-- IDENT (R195). -/
def execIdent (params : List Byte) (s : State) : Host.Outcome State Fault Refusal := .next (s.send .ident params [])

/-- SOFT_RESET (R196). -/
def execSoftReset (params : List Byte) (s : State) : Host.Outcome State Fault Refusal := .next (s.send .softReset params [])

/-- BUS_SET (R2). -/
def execBusSet (params : List Byte) (s : State) : Host.Outcome State Fault Refusal := .next (s.send .busSet params [])

/-- BUS_ENABLE (R12): BUS_SET with enable 1. -/
def execBusEnable (params : List Byte) (s : State) : Host.Outcome State Fault Refusal := .next (s.send .busSet params [])

/-- BUS_DISABLE (R11): BUS_SET with enable 0. -/
def execBusDisable (params : List Byte) (s : State) : Host.Outcome State Fault Refusal := .next (s.send .busSet params [])

/-- EGRESS_PARITY_SET (R3): BUS_SET for bus E. -/
def execEgressParitySet (params : List Byte) (s : State) : Host.Outcome State Fault Refusal :=
  .next (s.send .busSet params [])

/-- BUS_READ (R19). -/
def execBusRead (params : List Byte) (s : State) : Host.Outcome State Fault Refusal := .next (s.send .busRead params [])

/-- CREATE (R54 to R56). -/
def execCreate (params : List Byte) (s : State) : Host.Outcome State Fault Refusal := .next (s.send .create params [])

/-- AMEND (R68 to R75). -/
def execAmend (params : List Byte) (s : State) : Host.Outcome State Fault Refusal := .next (s.send .amend params [])

/-- ACTIVATE (R57). -/
def execActivate (params : List Byte) (s : State) : Host.Outcome State Fault Refusal := .next (s.send .activate params [])

/-- REPLACE (R59). -/
def execReplace (params : List Byte) (s : State) : Host.Outcome State Fault Refusal := .next (s.send .replace params [])

/-- RETIRE (R61). -/
def execRetire (params : List Byte) (s : State) : Host.Outcome State Fault Refusal := .next (s.send .retire params [])

/-- PIN (R118): REQUEST of kind 1 or 2. -/
def execPin (params : List Byte) (s : State) : Host.Outcome State Fault Refusal := .next (s.send .request params [])

/-- STEER (R119): REQUEST of kind 3 or 4. -/
def execSteer (params : List Byte) (s : State) : Host.Outcome State Fault Refusal := .next (s.send .request params [])

/-- RELEASE (R120): REQUEST of kind 0. -/
def execRelease (params : List Byte) (s : State) : Host.Outcome State Fault Refusal := .next (s.send .request params [])

/-- RECORD_READ (R76). -/
def execRecordRead (params : List Byte) (s : State) : Host.Outcome State Fault Refusal :=
  .next (s.send .recordRead params [])

/-- MAP_READ (R98). -/
def execMapRead (params : List Byte) (s : State) : Host.Outcome State Fault Refusal := .next (s.send .mapRead params [])

/-- SOURCE_READ (R45). -/
def execSourceRead (params : List Byte) (s : State) : Host.Outcome State Fault Refusal :=
  .next (s.send .sourceRead params [])

/-- NOTICE_FETCH (R167). -/
def execNoticeFetch (params : List Byte) (s : State) : Host.Outcome State Fault Refusal :=
  .next (s.send .noticeFetch params [])

/-- ALERT_SET (R172). -/
def execAlertSet (params : List Byte) (s : State) : Host.Outcome State Fault Refusal := .next (s.send .alertSet params [])

/-- LINK_READ (R190). -/
def execLinkRead (params : List Byte) (early : List (List Bool)) (s : State) : Host.Outcome State Fault Refusal :=
  .next (s.send .linkRead params early)

/-- COUNTERS_CLEAR (R199). -/
def execCountersClear (params : List Byte) (early : List (List Bool)) (s : State) : Host.Outcome State Fault Refusal :=
  .next (s.send .countersClear params early)

end Sys2Proof.Machine
end

