-- ==== Sys2Proof/Machine/Resets.lean ====
section
/-! DEFINITION. The hard reset and its end, and the expiry of timers. -/
namespace Sys2Proof.Machine

/-- nRESET is low: every block holds its hard-reset values (R22, R46, R77, R99, R128, R143, R160, R174, R192). The queue of
waiting commands and the count of free choices are the model's own and stay (log 19). -/
def State.hardReset (s : State) : State :=
  { State.reset with nReset := false, choices := s.choices, pending := s.pending }

/-- HARD_RESET (R77). -/
def execHardReset (s : State) : Host.Outcome State Fault Refusal := .next s.hardReset

/-- RESET_RELEASE (R160): nRESET rises, and every block goes on from its hard-reset values. -/
def execResetRelease (s : State) : Host.Outcome State Fault Refusal := .next { s with nReset := true }

/-- TIMER_EXPIRY (R132): the ticks pass up to the one at which the timer reaches 0, and it expires at that tick; a FREE
timer has no expiry (R133; log 3). -/
def execTimerExpiry (t : TimerIx) (s : State) : Host.Outcome State Fault Refusal :=
  .next (State.ticks (s.sup.pool.ticksLeft t) s)

end Sys2Proof.Machine
end

