-- ==== Sys2Proof/Machine/Dispatch.lean ====
section
/-! DEFINITION. One arm per row of the opcode table. -/
namespace Sys2Proof.Machine

def exec (i : Instr) (s : State) : Host.Outcome State Fault Refusal :=
  match i with
  | .hardReset => Sys2Proof.Machine.execHardReset s
  | .resetRelease => Sys2Proof.Machine.execResetRelease s
  | .clockLoss bus => Sys2Proof.Machine.execClockLoss bus s
  | .clockReturn bus word => Sys2Proof.Machine.execClockReturn bus word s
  | .alignConfirm bus word => Sys2Proof.Machine.execAlignConfirm bus word s
  | .slotFrameComplete bus words => Sys2Proof.Machine.execSlotFrameComplete bus words s
  | .frameCheck bus word => Sys2Proof.Machine.execFrameCheck bus word s
  | .egressClockLoss => Sys2Proof.Machine.execEgressClockLoss s
  | .egressRunning eref => Sys2Proof.Machine.execEgressRunning eref s
  | .expectedFrameStart eref => Sys2Proof.Machine.execExpectedFrameStart eref s
  | .egressSlotBuild edges => Sys2Proof.Machine.execEgressSlotBuild edges s
  | .timerExpiry timer => Sys2Proof.Machine.execTimerExpiry timer s
  | .zeroLengthTransfer bits => Sys2Proof.Machine.execZeroLengthTransfer bits s
  | .commandFrameRejected bits => Sys2Proof.Machine.execCommandFrameRejected bits s
  | .refusedTransfer bits => Sys2Proof.Machine.execRefusedTransfer bits s
  | .responseRead bits holdRunsOut => Sys2Proof.Machine.execResponseRead bits holdRunsOut s
  | .holdTimeExpiry => Sys2Proof.Machine.execHoldTimeExpiry s
  | .ident params => Sys2Proof.Machine.execIdent params s
  | .softReset params => Sys2Proof.Machine.execSoftReset params s
  | .busSet params => Sys2Proof.Machine.execBusSet params s
  | .busEnable params => Sys2Proof.Machine.execBusEnable params s
  | .busDisable params => Sys2Proof.Machine.execBusDisable params s
  | .egressParitySet params => Sys2Proof.Machine.execEgressParitySet params s
  | .busRead params => Sys2Proof.Machine.execBusRead params s
  | .create params => Sys2Proof.Machine.execCreate params s
  | .amend params => Sys2Proof.Machine.execAmend params s
  | .activate params => Sys2Proof.Machine.execActivate params s
  | .replace params => Sys2Proof.Machine.execReplace params s
  | .retire params => Sys2Proof.Machine.execRetire params s
  | .pin params => Sys2Proof.Machine.execPin params s
  | .steer params => Sys2Proof.Machine.execSteer params s
  | .release params => Sys2Proof.Machine.execRelease params s
  | .recordRead params => Sys2Proof.Machine.execRecordRead params s
  | .mapRead params => Sys2Proof.Machine.execMapRead params s
  | .sourceRead params => Sys2Proof.Machine.execSourceRead params s
  | .noticeFetch params => Sys2Proof.Machine.execNoticeFetch params s
  | .alertSet params => Sys2Proof.Machine.execAlertSet params s
  | .linkRead params early => Sys2Proof.Machine.execLinkRead params early s
  | .countersClear params early => Sys2Proof.Machine.execCountersClear params early s
  | .frameStartCandidate bus words => Sys2Proof.Machine.execFrameStartCandidate bus words s
  | .referenceCandidate edges => Sys2Proof.Machine.execReferenceCandidate edges s
  | .executionComplete => Sys2Proof.Machine.execExecutionComplete s

end Sys2Proof.Machine
end

