-- ==== Sys2Proof/Safety.lean ====
section
/-! DEFINITION. What holds in every state of a run: the laws the spec states of the part's blocks, as predicates on states.
Each is stated of the state alone; that every step keeps it is an obligation. -/
namespace Sys2Proof.Machine

/-! ## Notice queue and held indexes -/

/-- R164, R165, R67: at most one entry a subject; a record's entry carries the record's generation, and carries RETIRED
exactly when the record is FREE; an index is held exactly while an entry carrying RETIRED is queued for it, and only in
FREE; no entry is without kinds. -/
structure NoticeLaw (u : Supervision) : Prop where
  oneEach : (u.notices.map (·.subject)).Nodup
  hasKinds : ∀ e ∈ u.notices, e.kinds ≠ 0
  ofRecord : ∀ e ∈ u.notices, ∀ r, e.subject = .record r →
    e.generation = some (u.record r).generation ∧ (hasKind e.kinds .retired = true ↔ (u.live r).isNone)
  ofOther : ∀ e ∈ u.notices, (∀ r, e.subject ≠ .record r) → e.generation = none
  held : ∀ r, (u.record r).held = true ↔ ∃ e ∈ u.notices, e.subject = .record r ∧ hasKind e.kinds .retired = true
  heldFree : ∀ r, (u.record r).held = true → u.live r = none

/-! ## Monitor references -/

/-- How many sources of a record are the ingress slot. -/
def Supervision.naming (u : Supervision) (src : Source) (r : RecIx) : Nat :=
  match u.live r with
  | some l => l.fields.sources.count src
  | none => 0

/-- R36: the reference count of every monitor is the number of live records naming its slot as working source, plus the
number naming it as protect source. R39: no record names one slot twice. -/
structure ReferenceLaw (s : State) : Prop where
  counted : ∀ src : Source, (s.monitor src).refs = ((List.finRange 64).map (s.sup.naming src)).sum
  once : ∀ r l, s.sup.live r = some l → l.fields.protect ≠ some l.fields.working

/-- R38 and the ranges of section 2.1: an unreferenced monitor is clean, and every field is in its range. -/
structure MonitorLaw (m : Monitor) : Prop where
  clean : m.refs = 0 → m = Monitor.clean 0
  fillRun : m.fillRun ≤ 2
  candidate : ∀ c, m.mkCandidate = some c → c ≤ 15
  position : m.mfPos ≤ 15
  unframed : m.framed = false → m.mfPos = 0 ∧ m.fails = 0 ∧ m.stray = false ∧ m.gathered = [] ∧ m.confirming = none ∧ m.matchCount = 0
  following : m.framed = true → m.gathered.length = m.mfPos + 1 ∧ m.mkCandidate = none
  fails : m.fails ≤ 1
  codeRun : m.codeRun ≤ 5
  matchCount : m.matchCount ≤ 3
  names : ∀ n, m.name = some n ∨ m.confirming = some n → n.length = 16 ∧ n.all printable = true
  rfRun : m.rfRun ≤ 4
  block : m.blockPos ≤ 255 ∧ m.blockErrored ≤ m.blockPos

/-! ## Receivers, egress side, link -/

/-- R16, R19, section 1.9: what a receiver holds in each bus state. -/
structure ReceiverLaw (rx : Receiver) : Prop where
  unaligned : rx.state ≠ .aligned →
    rx.store = Vector.replicate 48 none ∧ rx.badChecks = 0 ∧ rx.framePos = 0 ∧ rx.partialFrame = none ∧ rx.frameFault = false
  searching : rx.candidate.isSome → rx.state = .seek
  candidate : ∀ c, rx.candidate = some c → c < 1152
  position : rx.framePos < 1152
  badChecks : rx.badChecks ≤ 2
  enabled : rx.state = .off ↔ rx.enable = false
  inProgress : rx.state = .aligned →
    match rx.partialFrame with
    | some pf => pf.frame.payload.length = rx.framePos % 24 ∧ rx.framePos % 24 ≠ 23
    | none => rx.framePos % 24 = 23
  stored : ∀ n frame, pick rx.store n = some frame → frame.payload.length = 23

/-- R145, R149, R150: what the egress assembler holds in each state of the egress side. -/
structure EgressLaw (e : Egress) : Prop where
  stopped : e.running = false → e.out = EgressWord.low ∧ e.framePos = 0 ∧ e.misses = 0 ∧ e.sending = none ∧ e.headerDue = false
  running : e.running = true → e.candidate = none
  candidate : ∀ c, e.candidate = some c → c < 1152
  position : e.framePos < 1152
  misses : e.misses ≤ 2

/-- Section 9.2, R185: what the link holds in each link state. TAKING is left before a step ends (log 12). -/
structure LinkLaw (l : Link) : Prop where
  idle : l.state = .idle → l.cmd = [] ∧ l.resp = [] ∧ l.result = none ∧ l.collision = false
  executing : l.state = .executing → l.resp = [] ∧ l.result.isSome ∧ 3 ≤ l.cmd.length ∧ l.cmd.length ≤ 63
  holding : l.state = .holding → l.cmd = [] ∧ l.result = none ∧ l.collision = false ∧
    ∃ (collided : Bool) (reply : Reply), l.resp = responseFrame collided reply ∧ reply.results.length ≤ 60
  taking : l.state ≠ .taking
  results : ∀ reply, l.result = some reply → reply.results.length ≤ 60

/-! ## Selector, timer pool, ownership -/

/-- The modes of the record states (R103). -/
def LiveState.mode : LiveState → Mode
  | .staged => .preview
  | .armed => .preview
  | .active => .live
  | .retiring => .frozen

/-- R104: the rows a selector part may stand in, and a P selected only where there is a protect source. -/
def selectorRow (x : Selector) : Prop :=
  match x.state with
  | .onW => x.selected = .W ∧ x.timer = none ∧ x.waiting = false
  | .onP => x.selected = .P ∧ x.timer = none ∧ x.waiting = false
  | .holdW => x.selected = .W ∧ x.timer.isSome ∧ x.waiting = false ∧ x.mode = .live
  | .holdP => x.selected = .P ∧ x.timer.isSome ∧ x.waiting = false ∧ x.mode = .live
  | .ret => x.selected = .P ∧ (x.waiting = x.timer.isNone) ∧ x.mode = .live

/-- What a timer of a record in a state is lent for (R104). -/
def SelState.purpose : SelState → Option Purpose
  | .onW => none
  | .onP => none
  | .holdW => some .holdoff
  | .holdP => some .holdoff
  | .ret => some .ret

/-- R103, R104: mode and rows of every live record; P is selected, or asked for by the request, only where there is a
protect source (R71, R116). -/
structure SelectorLaw (u : Supervision) : Prop where
  mode : ∀ r l, u.live r = some l → l.sel.mode = l.state.mode
  row : ∀ r l, u.live r = some l → selectorRow l.sel
  protect : ∀ r l, u.live r = some l → l.sel.selected = .P → l.fields.protect.isSome
  request : ∀ r l, u.live r = some l → l.sel.request = .pinP ∨ l.sel.request = .steerP → l.fields.protect.isSome

/-- R131, R136, R140: timers and records agree, the waiter queue holds exactly the records in RETURN without a timer, and
no timer is FREE while a record waits. -/
structure PoolLaw (u : Supervision) : Prop where
  owned : ∀ t timer, pick u.pool.timers t = some timer →
    ∃ x, u.sel timer.owner = some x ∧ x.timer = some t ∧ x.state.purpose = some timer.purpose ∧ x.mode = .live
  holds : ∀ r x t, u.sel r = some x → x.timer = some t →
    ∃ timer, pick u.pool.timers t = some timer ∧ timer.owner = r
  waiters : ∀ r, r ∈ u.pool.waiters ↔ ∃ x, u.sel r = some x ∧ x.waiting = true
  oneEach : u.pool.waiters.Nodup
  noneFree : u.pool.waiters ≠ [] → u.pool.lowestFree = none
  remaining : ∀ t timer, pick u.pool.timers t = some timer → 1 ≤ timer.remaining ∧ timer.remaining ≤ 90000
  highWater : u.pool.running ≤ u.pool.highWater ∧ u.pool.highWater ≤ 24

/-- The outgoing record of an update. -/
def Update.outgoing : Update → Option RecIx
  | .enter _ _ => none
  | .leave _ o => some o
  | .handover _ o _ => some o

/-- R80, R82: owners, pending updates and record states agree. -/
structure OwnerLaw (s : State) : Prop where
  owner : ∀ n r, pick s.owner n = some r →
    ∃ l, s.sup.live r = some l ∧ l.fields.egress = n ∧ (l.state = .active ∨ l.state = .retiring)
  owned : ∀ r l, s.sup.live r = some l → (l.state = .active ∨ l.state = .retiring) → pick s.owner l.fields.egress = some r
  oneEach : (s.updates.map (·.slot)).Nodup
  stopped : s.egress.running = false → s.updates = []
  incoming : ∀ u ∈ s.updates, ∀ r, u.incoming = some r → ∃ l, s.sup.live r = some l ∧ l.state = .armed ∧ l.fields.egress = u.slot
  outgoing : ∀ u ∈ s.updates, ∀ r, u.outgoing = some r → ∃ l, s.sup.live r = some l ∧ l.state = .retiring ∧ l.fields.egress = u.slot
  armed : ∀ r l, s.sup.live r = some l → l.state = .armed → ∃ u ∈ s.updates, u.incoming = some r
  retiring : ∀ r l, s.sup.live r = some l → l.state = .retiring → ∃ u ∈ s.updates, u.outgoing = some r
  entering : ∀ n r, Update.enter n r ∈ s.updates → pick s.owner n = none

/-- R53, section 3.1: the fields of a live record are in their ranges. -/
structure FieldsLaw (f : Fields) : Prop where
  holdOff : f.holdOff.toNat ≤ 250
  returnTime : 1 ≤ f.returnTime.toNat ∧ f.returnTime.toNat ≤ 900
  mask : f.mask &&& 0x03 = 0
  code : f.expectedCode ≠ some 0
  names : ∀ n, f.expectedName = some n ∨ f.outName = some n → n.length = 16 ∧ n.all printable = true

/-- The laws of records in service, which hold only together: selectors, timers and waiters, owners and updates, fields. -/
structure ServiceLaw (s : State) : Prop where
  selectors : SelectorLaw s.sup
  pool : PoolLaw s.sup
  owners : OwnerLaw s
  fields : ∀ r l, s.sup.live r = some l → FieldsLaw l.fields
  distinct : ∀ r l, s.sup.live r = some l → l.fields.protect ≠ some l.fields.working

/-- Everything: what a run of the part never leaves. -/
structure Inv (s : State) : Prop where
  notices : NoticeLaw s.sup
  references : ReferenceLaw s
  monitors : ∀ src, MonitorLaw (s.monitor src)
  receivers : ∀ b, ReceiverLaw (s.rx b)
  egress : EgressLaw s.egress
  link : LinkLaw s.link
  service : ServiceLaw s
  inReset : s.nReset = false → s = s.hardReset

/-! ## The words of statements -/

/-- The link takes a command: nRESET is high and the link is IDLE (R177). -/
def State.ready (s : State) : Prop := s.nReset = true ∧ s.link.state = .idle

/-- The link after a good frame has been taken and its command performed, no transfer having been refused (R183). -/
def Link.taken (l : Link) (frame : List Byte) (reply : Reply) : Link :=
  { l with
    state := .executing
    cmd := frame
    mdo := List.replicate (8 * frame.length) false
    framesTaken := satInc l.framesTaken
    result := some reply }

/-- The bits MDO carried last, `before` those of a command's frame: 0xFF in the last of the transfers refused after it, if
there is one, one bit per edge and one with no edge (R176, R184; log 24). -/
def mdoAfterRefusals (early : List (List Bool)) (before : List Bool) : List Bool :=
  match early.getLast? with
  | none => before
  | some bits => List.replicate (max 1 bits.length) true

/-- A state whose link has taken a command and holds the owning block's reply. -/
def State.answer (s : State) (c : Command) (params : List Byte) (reply : Reply) : State :=
  { s with link := s.link.taken (commandFrame c params) reply }

/-- What transfers refused before a command is performed leave in the link: busy hits, the collision flag, 0xFF on MDO
(R184; log 11). -/
def Link.refused (l : Link) (early : List (List Bool)) : Link :=
  { l with
    busyHits := satAdd l.busyHits early.length
    collision := l.collision || !early.isEmpty
    mdo := mdoAfterRefusals early l.mdo }

/-- The command of each row that is a command frame, its parameters, and the transfers refused before it is performed. -/
def commandOf : Instr → Option (Command × List Byte × List (List Bool))
  | .ident params => some (.ident, params, [])
  | .softReset params => some (.softReset, params, [])
  | .busSet params => some (.busSet, params, [])
  | .busEnable params => some (.busSet, params, [])
  | .busDisable params => some (.busSet, params, [])
  | .egressParitySet params => some (.busSet, params, [])
  | .busRead params => some (.busRead, params, [])
  | .create params => some (.create, params, [])
  | .amend params => some (.amend, params, [])
  | .activate params => some (.activate, params, [])
  | .replace params => some (.replace, params, [])
  | .retire params => some (.retire, params, [])
  | .pin params => some (.request, params, [])
  | .steer params => some (.request, params, [])
  | .release params => some (.request, params, [])
  | .recordRead params => some (.recordRead, params, [])
  | .mapRead params => some (.mapRead, params, [])
  | .sourceRead params => some (.sourceRead, params, [])
  | .noticeFetch params => some (.noticeFetch, params, [])
  | .alertSet params => some (.alertSet, params, [])
  | .linkRead params early => some (.linkRead, params, early)
  | .countersClear params early => some (.countersClear, params, early)
  | .hardReset => none
  | .resetRelease => none
  | .clockLoss _ => none
  | .clockReturn _ _ => none
  | .alignConfirm _ _ => none
  | .slotFrameComplete _ _ => none
  | .frameCheck _ _ => none
  | .egressClockLoss => none
  | .egressRunning _ => none
  | .expectedFrameStart _ => none
  | .egressSlotBuild _ => none
  | .timerExpiry _ => none
  | .zeroLengthTransfer _ => none
  | .commandFrameRejected _ => none
  | .refusedTransfer _ => none
  | .responseRead _ _ => none
  | .holdTimeExpiry => none
  | .frameStartCandidate _ _ => none
  | .referenceCandidate _ => none
  | .executionComplete => none

/-- The bytes of the transfer that a row is: a command's frame, or whatever the bits on MDI spell (R176). -/
def transferredBy (i : Instr) : Option (List Byte) :=
  match i with
  | .zeroLengthTransfer bits => some (transferBytes bits)
  | .commandFrameRejected bits => some (transferBytes bits)
  | .refusedTransfer bits => some (transferBytes bits)
  | .responseRead bits _ => some (transferBytes bits)
  | i => (commandOf i).map fun x => commandFrame x.1 x.2.1

/-- The two bytes of a record's current ref (R194). -/
def Supervision.ref (u : Supervision) (r : RecIx) : List Byte := [byteOfNat r.val, (u.record r).generation]

/-- The bus selector of an ingress bus (R197). -/
def busSelector : Bus → Byte
  | .A => 0x00
  | .B => 0x01

/-- The parameters of the CREATE that carries these fields (R200). -/
def createParams (f : Fields) : List Byte :=
  [byteOfNat f.egress.val, f.working.byte, (f.protect.map Source.byte).getD 0xFF, f.flags,
    (f.expectedCode.map (·.setWidth 8)).getD 0, (f.outCode.map (·.setWidth 8)).getD 0, f.holdOff]
    ++ bytes16 f.returnTime ++ [f.mask] ++ nameBytes (f.expectedName.getD []) ++ nameBytes (f.outName.getD [])

/-- The item set of the values an AMEND carries (R200). -/
def AmendBytes.items (v : AmendBytes) : BitVec 16 :=
  0#4 ++ BitVec.ofBool v.mask.isSome ++ BitVec.ofBool v.ret.isSome ++ BitVec.ofBool v.holdOff.isSome
    ++ BitVec.ofBool v.outCode.isSome ++ BitVec.ofBool v.outName.isSome ++ BitVec.ofBool v.codeCheck.isSome
    ++ BitVec.ofBool v.nameCheck.isSome ++ BitVec.ofBool v.degrade.isSome ++ BitVec.ofBool v.revertive.isSome
    ++ BitVec.ofBool v.protect.isSome ++ BitVec.ofBool v.working.isSome ++ BitVec.ofBool v.egress.isSome

/-- The values an AMEND carries, in item order (R200). -/
def AmendBytes.bytes (v : AmendBytes) : List Byte :=
  let named := fun x : Option (Byte × List Byte) => (x.map fun y => y.1 :: y.2).getD []
  v.egress.toList ++ v.working.toList ++ v.protect.toList ++ v.revertive.toList ++ v.degrade.toList ++ named v.nameCheck
    ++ v.codeCheck.toList ++ named v.outName ++ v.outCode.toList ++ v.holdOff.toList ++ (v.ret.map bytes16).getD []
    ++ v.mask.toList

/-- A NAMECHECK or OUTNAME byte of 1 is followed by 16 characters, any other by none (R200). -/
def AmendBytes.shaped (v : AmendBytes) : Prop :=
  ∀ b chars, v.nameCheck = some (b, chars) ∨ v.outName = some (b, chars) → chars.length = if b = 1 then 16 else 0

/-- NAMECHECK and OUTNAME as carried (R200). -/
def carriedName : Option Name → Byte × List Byte
  | none => (0, [])
  | some n => (1, nameBytes n)

/-- The values that carry an amendment (R200). -/
def Amendment.carried (a : Amendment) : AmendBytes where
  egress := a.egress.map fun n => byteOfNat n.val
  working := a.working.map Source.byte
  protect := a.protect.map fun src => (src.map Source.byte).getD 0xFF
  revertive := a.revertive.map byteOfBool
  degrade := a.degrade.map byteOfBool
  nameCheck := a.expectedName.map carriedName
  codeCheck := a.expectedCode.map fun c => (c.map (·.setWidth 8)).getD 0
  outName := a.outName.map carriedName
  outCode := a.outCode.map fun c => (c.map (·.setWidth 8)).getD 0xFF
  holdOff := a.holdOff
  ret := a.ret
  mask := a.mask

/-- The parameters of an AMEND after its ref: the item set, then the values (R200). -/
def amendParams (a : Amendment) : List Byte := bytes16 a.carried.items ++ a.carried.bytes

/-- R68 check 2: the chosen set is not empty, and every value is in its range. -/
structure AmendmentLaw (a : Amendment) : Prop where
  chosen : a.carried.items ≠ 0
  names : ∀ n, a.expectedName = some (some n) ∨ a.outName = some (some n) → n.length = 16 ∧ n.all printable = true
  code : a.expectedCode ≠ some (some 0)
  holdOff : ∀ b, a.holdOff = some b → b.toNat ≤ 250
  ret : ∀ v, a.ret = some v → 1 ≤ v.toNat ∧ v.toNat ≤ 900
  mask : ∀ b, a.mask = some b → b &&& 0x03 = 0

/-- An item that only a STAGED record may be amended in (R68 check 4). -/
def Amendment.ofStaged (a : Amendment) : Prop := a.egress.isSome ∨ a.working.isSome ∨ a.protect.isSome

/-- The parameter lengths a command takes (R194 to R201, R54, R68 check 1). How an item set with bits 12 to 15 set is
measured is the model's choice (log 28). -/
def Command.lengthFits (c : Command) (params : List Byte) : Prop :=
  match c with
  | .ident => params.length = 0
  | .softReset => params.length = 0
  | .busSet => params.length = 5
  | .busRead => params.length = 1
  | .create => ∃ flags : Byte, params[3]? = some flags ∧
      params.length = 10 + (if flags.getLsbD 2 then 16 else 0) + (if flags.getLsbD 4 then 16 else 0)
  | .amend => ∃ (index generation : Byte) (items : BitVec 16) (v : AmendBytes), v.shaped ∧ v.items = items &&& 0x0FFF ∧
      params = [index, generation] ++ bytes16 items ++ v.bytes
  | .activate => params.length = 2
  | .replace => params.length = 4
  | .retire => params.length = 2
  | .request => params.length = 3
  | .recordRead => params.length = 2
  | .mapRead => params.length = 2
  | .sourceRead => params.length = 1
  | .noticeFetch => params.length = 0
  | .alertSet => params.length = 1
  | .linkRead => params.length = 0
  | .countersClear => params.length = 1

/-- The content of a CREATE is out of range (R54 check 2): ten bytes and then the names. -/
def badCreate (egress working protect flags code outCode holdOff : Byte) (returnTime : BitVec 16) (mask : Byte)
    (names : List Byte) : Prop :=
  let badSource := fun src : Byte => src.getLsbD 6 = true ∨ 47 < (src.extractLsb' 0 6).toNat
  47 < egress.toNat ∨ badSource working ∨ (protect ≠ 0xFF ∧ badSource protect) ∨ protect = working ∨
    flags &&& 0xC0 ≠ 0 ∨ (flags.getLsbD 3 = true ∧ (code.toNat = 0 ∨ 15 < code.toNat)) ∨
    (flags.getLsbD 5 = true ∧ 15 < outCode.toNat) ∨ 250 < holdOff.toNat ∨ returnTime.toNat = 0 ∨
    900 < returnTime.toNat ∨ mask &&& 0x03 ≠ 0 ∨ ∃ b ∈ names, b.toNat < 0x20 ∨ 0x7E < b.toNat

/-! ## Codes and layouts -/

/-- The codes of the commands, and of the statuses, as R193 lists them. -/
structure CodeLaw : Prop where
  commands : ([.ident, .softReset, .busSet, .busRead, .create, .amend, .activate, .replace, .retire, .request, .recordRead,
      .mapRead, .sourceRead, .noticeFetch, .alertSet, .linkRead, .countersClear] : List Command).map Command.code =
    [0x01, 0x02, 0x08, 0x09, 0x10, 0x11, 0x12, 0x13, 0x14, 0x15, 0x18, 0x19, 0x1A, 0x20, 0x21, 0x28, 0x29]
  read : ∀ c : Command, readCommand c.code = some c
  statuses : ([.ok, .badCheck, .badLength, .badCode, .badParam, .staleRef, .wrongState, .slotBusy, .slotPending, .tableFull,
      .noProtect, .queueEmpty] : List Status).map Status.code =
    [0x00, 0x01, 0x02, 0x03, 0x04, 0x05, 0x06, 0x07, 0x08, 0x09, 0x0A, 0x0B]

/-- The codes of R197, R198, R200 and R201, and the layouts of R201 and R202, bit by bit. -/
structure FormatLaw : Prop where
  buses : [Bus.A, .B].map busSelector = [0x00, 0x01]
  senses : [Sense.even, .odd].map Sense.byte = [0, 1]
  scopes : [Scope.word, .wordCtrl].map Scope.byte = [0, 1]
  busStates : [BusState.off, .down, .seek, .aligned].map BusState.byte = [0, 1, 2, 3]
  liveStates : [LiveState.staged, .armed, .active, .retiring].map LiveState.byte = [1, 2, 3, 4]
  modes : [Mode.preview, .live, .frozen].map Mode.byte = [0, 1, 2]
  selStates : [SelState.onW, .onP, .holdW, .holdP, .ret].map SelState.byte = [0, 1, 2, 3, 4]
  sides : [Side.W, .P].map Side.byte = [0, 1]
  requests : [Request.none, .pinW, .pinP, .steerW, .steerP].map Request.byte = [0, 1, 2, 3, 4]
  conditions : [Condition.failed, .degraded, .good].map Condition.byte = [0, 1, 2]
  purposes : [Purpose.holdoff, .ret].map Purpose.byte = [0, 1]
  causes : ∀ c : Causes, (List.range 8).map c.byte.getLsbD =
    [c.bus, c.fill, c.unframed, c.noCode, c.unequipped, c.code, c.name, false]
  judgements : (∀ j : Judgement, judgementBytes (some j) = [j.condition.byte, j.causes.byte]) ∧ judgementBytes none = [0xFF, 0]
  subjects : (∀ r : RecIx, (Subject.record r).byte.toNat = r.val) ∧
    [Subject.bus .A, .bus .B, .egress].map Subject.byte = [0x40, 0x41, 0x42]
  sources : ∀ src : Source, src.byte.getLsbD 7 = (src.bus == .B) ∧ src.byte.getLsbD 6 = false ∧
    (src.byte.extractLsb' 0 6).toNat = src.slot.val
  flags : ∀ f : Fields, (List.range 8).map f.flags.getLsbD =
    [f.revertive, f.degradeSwitch, f.expectedName.isSome, f.expectedCode.isSome, f.outName.isSome, f.outCode.isSome, false,
      false]
  kindBits : [Kind.activated, .retired, .select, .cond, .name, .rfault, .steerDrop, .timerShort, .align, .state].map Kind.bit =
    [0x01, 0x02, 0x04, 0x08, 0x10, 0x20, 0x40, 0x80, 0x01, 0x01]
  kinds : ∀ kinds : Byte, [Kind.activated, .retired, .select, .cond, .name, .rfault, .steerDrop, .timerShort].map (hasKind kinds) =
    (List.range 8).map kinds.getLsbD
  header : ∀ (mk rf : Bool) (code : BitVec 4) (char : PathChar), let w := mkHeader mk rf code char
    w.getLsbD 15 = mk ∧ w.getLsbD 14 = rf ∧ w.extractLsb' 10 4 = code ∧ w.extractLsb' 7 3 = 0 ∧ w.extractLsb' 0 7 = char ∧
      hdrMK w = mk ∧ hdrRF w = rf ∧ hdrCode w = code ∧ hdrChar w = char
  counts : (∀ n < 256, (byteOfNat n).toNat = n) ∧ (∀ b, byteOfBool b = if b then 0x01 else 0x00) ∧
    (∀ v, (bytes16 v).length = 2 ∧ (bytes16 v).foldl (fun n b => 256 * n + b.toNat) 0 = v.toNat) ∧
    (∀ v, (bytes24 v).length = 3 ∧ (bytes24 v).foldl (fun n b => 256 * n + b.toNat) 0 = v.toNat) ∧
    ∀ v, (bytes32 v).length = 4 ∧ (bytes32 v).foldl (fun n b => 256 * n + b.toNat) 0 = v.toNat
  names : ∀ n : Name, (nameBytes n).map BitVec.toNat = n.map BitVec.toNat

/-! ## What events lead to -/

/-- A record's timer is freed (R135): it stays FREE where no record waits, else the head waiter receives it, loaded with its
return time, and leaves the queue (R139, R115). No other timer and no other record is touched, and no shortage is met. -/
structure Supervision.frees (u v : Supervision) (r : RecIx) (t : TimerIx) : Prop where
  timers : ∀ k, k ≠ t → pick v.pool.timers k = pick u.pool.timers k
  shorts : v.pool.shorts = u.pool.shorts
  free : u.pool.waiters = [] → pick v.pool.timers t = none ∧ v.pool.waiters = []
  handed : ∀ h rest l, u.pool.waiters = h :: rest → u.live h = some l →
    pick v.pool.timers t =
        some { owner := h, purpose := .ret, remaining := 100 * l.fields.returnTime.toNat, fresh := true } ∧
      v.pool.waiters = rest ∧ v.live h = some { l with sel := { l.sel with timer := some t, waiting := false } }
  records : ∀ q, q ≠ r → u.pool.waiters.head? ≠ some q → v.record q = u.record q

/-- What a frame start, a stop or a start of the egress side leaves in the link (R83; log 10): where an accepted ACTIVATE,
REPLACE or RETIRE is in execution, its response has been built before the event; else the link is as it was. -/
structure State.answersRequest (s t : State) : Prop where
  built : ∀ reply, s.link.state = .executing → s.link.result = some reply → reply.status = .ok →
    s.link.cmd.getD 0 0 ∈ [0x12, 0x13, 0x14] →
    let covered : List Byte :=
      [if s.link.collision then 0x80 else 0x00, byteOfNat reply.results.length] ++ reply.results
    t.link =
      { s.link with state := .holding, cmd := [], resp := covered ++ [crc covered], collision := false, result := none }
  kept : (∀ reply, s.link.state = .executing → s.link.result = some reply → reply.status = .ok →
    s.link.cmd.getD 0 0 ∉ [0x12, 0x13, 0x14]) → t.link = s.link

/-- A kind is queued for a subject. -/
def Supervision.tells (u : Supervision) (x : Subject) (k : Kind) : Prop :=
  ∃ e ∈ u.notices, e.subject = x ∧ hasKind e.kinds k = true

/-- Every record is as it was but for its selector part. -/
def Supervision.sameRecords (u v : Supervision) : Prop :=
  ∀ r, (v.record r).generation = (u.record r).generation ∧ (v.record r).held = (u.record r).held ∧
    (v.live r).map (fun l => (l.state, l.fields)) = (u.live r).map (fun l => (l.state, l.fields))

/-- The stored judgements of a live record are those of its sources as everything stands (R102). -/
def State.judgesAfresh (t : State) (r : RecIx) (f : Fields) : Prop :=
  ∃ l, t.sup.live r = some l ∧ l.sel.w = some (t.judge f f.working) ∧ l.sel.p = f.protect.map (t.judge f)

/-- What the change of a slot's monitor from `s` to `t` tells (R43, R44): a change of fill state, framing state, accepted
code, accepted name or degrade state has every record naming the slot judged afresh; a change of accepted name posts NAME,
and one of rf state RFAULT, for each such record that does not mask it and for no other; no change, nothing. -/
structure State.hears (s t : State) (src : Source) : Prop where
  judged : ∀ r l, s.sup.live r = some l → src ∈ l.fields.sources →
    (t.monitor src).filled ≠ (s.monitor src).filled ∨ (t.monitor src).framed ≠ (s.monitor src).framed ∨
      (t.monitor src).code ≠ (s.monitor src).code ∨ (t.monitor src).name ≠ (s.monitor src).name ∨
      (t.monitor src).degraded ≠ (s.monitor src).degraded → t.judgesAfresh r l.fields
  name : ∀ r l, s.sup.live r = some l → src ∈ l.fields.sources → hasKind l.fields.mask .name = false →
    (t.monitor src).name ≠ (s.monitor src).name → t.sup.tells (.record r) .name
  rfault : ∀ r l, s.sup.live r = some l → src ∈ l.fields.sources → hasKind l.fields.mask .rfault = false →
    (t.monitor src).rf ≠ (s.monitor src).rf → t.sup.tells (.record r) .rfault
  onlyName : ∀ r, t.sup.tells (.record r) .name → s.sup.tells (.record r) .name ∨
    ((t.monitor src).name ≠ (s.monitor src).name ∧
      ∃ l, s.sup.live r = some l ∧ src ∈ l.fields.sources ∧ hasKind l.fields.mask .name = false)
  onlyRfault : ∀ r, t.sup.tells (.record r) .rfault → s.sup.tells (.record r) .rfault ∨
    ((t.monitor src).rf ≠ (s.monitor src).rf ∧
      ∃ l, s.sup.live r = some l ∧ src ∈ l.fields.sources ∧ hasKind l.fields.mask .rfault = false)
  quiet : (t.monitor src).filled = (s.monitor src).filled → (t.monitor src).framed = (s.monitor src).framed →
    (t.monitor src).code = (s.monitor src).code → (t.monitor src).name = (s.monitor src).name →
    (t.monitor src).degraded = (s.monitor src).degraded → (t.monitor src).rf = (s.monitor src).rf → t.sup = s.sup

/-- What an event of one ingress bus leaves alone: the other bus, the records but for their selector parts, the map, the
egress side, the link, the alert enable and the waiting commands. -/
structure State.sameBesideBus (s t : State) (b : Bus) : Prop where
  nReset : t.nReset = s.nReset
  receiver : ∀ c, c ≠ b → t.rx c = s.rx c
  monitors : ∀ c, c ≠ b → t.mons c = s.mons c
  records : s.sup.sameRecords t.sup
  owner : t.owner = s.owner
  updates : t.updates = s.updates
  alertOn : t.alertOn = s.alertOn
  egress : t.egress = s.egress
  link : t.link = s.link
  pending : t.pending = s.pending

/-- What an event of the egress side leaves alone: both receivers, the alert enable, nRESET, the waiting commands. -/
structure State.sameBesideEgress (s t : State) : Prop where
  nReset : t.nReset = s.nReset
  receiver : ∀ b, t.rx b = s.rx b
  alertOn : t.alertOn = s.alertOn
  pending : t.pending = s.pending

end Sys2Proof.Machine
end

