-- ==== Sys2Proof/Certificates/Slice0/Obligations.lean ====
section
/-! DEFINITION. The statements for the provers. Each is a proposition about exec, step or a named operation of the model. -/
open Sys2Proof Sys2Proof.Machine

/-! ## Steps and resets -/

/-- A step takes the command at the front of the queue and runs it on the state with the queue's rest. -/
def Obligations.StepRunsFrontCommand : Prop :=
  ∀ (s : State) (c : Instr) (rest : List Instr), s.pending = c :: rest → step s = exec c { s with pending := rest }

/-- On an empty queue one tick of 10 ms passes (the model's choice, log 2). Every RUNNING timer but one just loaded goes
down by one (R129). Where none reaches 0, nothing else changes. A timer that reaches 0 expires at that tick (R132): it is
freed and handed over, and then its former owner is evaluated for the expiry; several expire one after another, in some
order (that no other event comes between the counting and the expiries is the model's choice, log 4). -/
def Obligations.EmptyQueueTakesOneTick : Prop :=
  ∀ s : State, s.pending = [] → s.nReset = true →
    ∃ u : Supervision, u = { s.sup with pool := { s.sup.pool with timers := u.pool.timers } } ∧
      (∀ t, pick u.pool.timers t =
        (pick s.sup.pool.timers t).map fun timer =>
          if timer.fresh then { timer with fresh := false } else { timer with remaining := timer.remaining - 1 }) ∧
      let reached := fun t : TimerIx => ∃ timer, pick u.pool.timers t = some timer ∧ timer.remaining = 0
      ((∀ t, ¬ reached t) → step s = .next { s with sup := u }) ∧
      (∀ t timer, pick u.pool.timers t = some timer → timer.remaining = 0 → (∀ k, reached k → k = t) →
        step s = .next ({ s with sup := u.freeTimer timer.owner t }.evaluateBy true timer.owner)) ∧
      ∀ k t, reached k → reached t → k ≠ t →
        ∃ ts : List TimerIx, ts.Nodup ∧ (∀ x, x ∈ ts ↔ reached x) ∧
          step s = .next (ts.foldl State.takeExpiry { s with sup := u, choices := s.choices + 1 })

/-- HARD_RESET leaves every block at its hard-reset values (section 1.9, R22, R46, R77, R99, R143, R160, R174, R192); the
waiting commands and the model's count of free choices stay (log 19). RESET_RELEASE raises nRESET and keeps the values. -/
def Obligations.HardResetValues : Prop :=
  (∀ s : State, exec .resetRelease s = .next { s with nReset := true }) ∧
  ∀ s : State, ∃ t : State, exec .hardReset s = .next t ∧ t.nReset = false ∧ t.pending = s.pending ∧ t.choices = s.choices ∧
    (∀ b, (t.rx b).state = .off ∧ (t.rx b).enable = false ∧ (t.rx b).sense = .even ∧ (t.rx b).scope = .word ∧
      (t.rx b).threshold = 32 ∧ (t.rx b).candidate = none ∧ (t.rx b).framePos = 0 ∧ (t.rx b).badChecks = 0 ∧
      (t.rx b).partialFrame = none ∧ (∀ n, pick (t.rx b).store n = none) ∧
      (t.rx b).parityErrored = 0 ∧ (t.rx b).badFrameChecks = 0 ∧ (t.rx b).alignLosses = 0) ∧
    (∀ src, t.monitor src = Monitor.clean 0) ∧
    (∀ r, (t.sup.record r).generation = 0 ∧ (t.sup.record r).held = false ∧ t.sup.live r = none) ∧
    (∀ n, pick t.sup.pool.timers n = none) ∧ t.sup.pool.waiters = [] ∧ t.sup.pool.shorts = 0 ∧ t.sup.pool.highWater = 0 ∧
    (∀ n, pick t.owner n = none) ∧ t.updates = [] ∧
    t.sup.notices = [] ∧ t.alertOn = true ∧ t.nALERTLow = false ∧
    t.egress.running = false ∧ t.egress.framePos = 0 ∧ t.egress.misses = 0 ∧ t.egress.candidate = none ∧
    t.egress.erefLevel = false ∧ t.egress.mfCount = 0 ∧ t.egress.sense = .even ∧ t.egress.scope = .word ∧
    (∀ n, pick t.egress.alarmFill n = 0) ∧ t.egress.out = EgressWord.low ∧
    t.link.state = .idle ∧ t.link.cmd = [] ∧ t.link.resp = [] ∧ t.link.collision = false ∧ t.link.framesTaken = 0 ∧
    t.link.badLength = 0 ∧ t.link.badCheck = 0 ∧ t.link.badCode = 0 ∧ t.link.busyHits = 0 ∧ t.link.dropped = 0 ∧
    t.nMRDYHigh = true

/-- In the state nRESET low holds the part in, no row but RESET_RELEASE changes anything (R22, R78, R143, R160, R174,
R192). -/
def Obligations.NothingMovesInReset : Prop :=
  ∀ (s : State) (c : Instr), s.nReset = false → s = s.hardReset → c ≠ .resetRelease → exec c s = .next s

/-- SOFT_RESET clears what R196 says and keeps what R196 says, for every state in which the link takes it; with parameters
it is refused and nothing is cleared. -/
def Obligations.SoftResetClears : Prop :=
  ∀ s : State, s.ready →
    (∃ t : State, exec (.softReset []) s = .next (t.answer .softReset [] ⟨.ok, []⟩) ∧
      (∀ r, t.sup.live r = none ∧ (t.sup.record r).held = false ∧
        (t.sup.record r).generation = (s.sup.record r).generation) ∧
      (∀ n, pick t.owner n = none) ∧ t.updates = [] ∧
      (∀ n, pick t.sup.pool.timers n = none) ∧ t.sup.pool.waiters = [] ∧
      t.sup.pool.shorts = s.sup.pool.shorts ∧ t.sup.pool.highWater = s.sup.pool.highWater ∧
      (∀ src, t.monitor src = Monitor.clean 0) ∧
      t.sup.notices = [] ∧ t.nALERTLow = false ∧ t.alertOn = s.alertOn ∧
      (∀ b, t.rx b = s.rx b) ∧ t.egress = s.egress ∧ t.link = s.link ∧
      t.nReset = s.nReset ∧ t.choices = s.choices ∧ t.pending = s.pending) ∧
    ∀ params, params ≠ [] → params.length ≤ 60 →
      exec (.softReset params) s = .next (s.answer .softReset params ⟨.badLength, []⟩)

/-! ## Laws of every run -/

/-- The state after reset keeps every law of the part. -/
def Obligations.LawsHoldAtReset : Prop := Inv State.reset

/-- The notice queue and the held indexes keep R67, R164 and R165 at every step. -/
def Obligations.NoticeLawKept : Prop := ∀ s t : State, NoticeLaw s.sup → step s = .next t → NoticeLaw t.sup

/-- R36: at every step the reference count of every monitor stays the number of live records naming its slot, and no record
names a slot twice. -/
def Obligations.ReferenceLawKept : Prop := ∀ s t : State, ReferenceLaw s → step s = .next t → ReferenceLaw t

/-- Every monitor keeps its ranges, and an unreferenced monitor stays clean (R38), at every step. That a monitor in FRAMED
holds no search candidate is the model's reading (log 18). -/
def Obligations.MonitorLawKept : Prop :=
  ∀ s t : State, (∀ src, MonitorLaw (s.monitor src)) → step s = .next t → ∀ src, MonitorLaw (t.monitor src)

/-- Receivers, egress side and link keep their laws at every step: no valid store entry outside ALIGNED (R16), the ranges
of R6, R7 and R19, the slot-frame in progress as long as its frame position says (R14), no candidate but in SEEK and frame
position 0 outside ALIGNED (the model's choices where the spec is silent, logs 25 and 26); outputs low while STOPPED (R145),
no reference candidate in RUNNING (log 27), positions and counts in range (R149); buffers and collision flag as the link
state requires (section 9.2), every response built as R185 says and no longer than 63 bytes, names of records and monitors
being 16 characters long. Model's choices too: no state between steps is in TAKING (log 12); EXECUTING holds the owning
block's reply (log 11); no fault seen by the frame check outside ALIGNED (log 7), no slot due while STOPPED (log 9). -/
def Obligations.PortLawsKept : Prop :=
  ∀ s t : State, step s = .next t →
    ((∀ b, ReceiverLaw (s.rx b)) → ∀ b, ReceiverLaw (t.rx b)) ∧
    (EgressLaw s.egress → EgressLaw t.egress) ∧
    (LinkLaw s.link → (∀ src, MonitorLaw (s.monitor src)) → (∀ r l, s.sup.live r = some l → FieldsLaw l.fields) →
      LinkLaw t.link)

/-- Every step of the part answers a next state, and every law of the part is kept: notices and holds, references, monitors,
receivers, egress side, link, selectors with timers and waiters (R104, R131, R136, R140), owners with pending updates and
record states (R80, R82); while nRESET is low everything stays at its reset value. The laws hold the model's choices and
readings that MonitorLawKept (log 18) and PortLawsKept (logs 7, 9, 11, 12, 25, 26, 27) name; that the waiting commands and
the count of choices are kept in reset is log 19. -/
def Obligations.LawsKept : Prop := ∀ s : State, Inv s → ∃ t : State, step s = .next t ∧ Inv t

/-- R51: HARD_RESET sets every generation to 0. At every other step an index that passes from FREE to live goes up by 1, 255
being followed by 0, and every other index keeps its generation. That passage is an allocation by CREATE, whose good frame
the step's transfer carries in IDLE, of an index not held, and leaves it STAGED and not held. -/
def Obligations.GenerationAdvancesOnlyAtAllocation : Prop :=
  (∀ s : State, ∃ t : State, exec .hardReset s = .next t ∧ ∀ r, (t.sup.record r).generation = 0) ∧
  ∀ (s t : State) (i : Instr) (r : RecIx), i ≠ .hardReset → exec i s = .next t →
    (t.sup.record r).generation =
        (if s.sup.live r = none ∧ (t.sup.live r).isSome then (s.sup.record r).generation + 1
          else (s.sup.record r).generation) ∧
      (s.sup.live r = none → (t.sup.live r).isSome →
        s.ready ∧ (∃ bytes params, transferredBy i = some bytes ∧ checkCommandFrame bytes = .ok (.create, params)) ∧
          (s.sup.record r).held = false ∧ (t.sup.record r).held = false ∧
          (t.sup.live r).map (·.state) = some LiveState.staged)

/-! ## Commands on buses -/

/-- A command frame taken in IDLE is counted, and its owning block performs it whole; the result waits for the response
(R183, R189). Transfers refused before it is performed are busy hits, set the collision flag, and have 0xFF on MDO (R184).
A command refused by its block changes no state, and returns no results but for TABLE_FULL; parameters of a length the
command does not take are BAD_LENGTH (R194). Model's choices: the transfer is one step, MDO's last bits being kept (logs 12
and 24); the block performs the command within it, and transfers, given by the row, are refused before that (log 11); the
length asked of an AMEND whose item set has bits 12 to 15 set (log 28). Commands and statuses have the codes R193 lists, and
each code is taken as its command. -/
def Obligations.CommandIsPerformedWhole : Prop :=
  CodeLaw ∧
  ∀ (s : State) (i : Instr) (c : Command) (params : List Byte) (early : List (List Bool)),
    commandOf i = some (c, params, early) → params.length ≤ 60 → s.ready →
    let taken : State :=
      { s with
        link :=
          { s.link with
            state := .executing
            cmd := commandFrame c params
            mdo := mdoAfterRefusals early (List.replicate (8 * (params.length + 3)) false)
            framesTaken := satInc s.link.framesTaken
            busyHits := satAdd s.link.busyHits early.length
            collision := s.link.collision || !early.isEmpty } }
    ∃ (t : State) (reply : Reply), perform c params taken = (t, reply) ∧
      exec i s = .next { t with link := { t.link with result := some reply } } ∧
      (reply.status ≠ .ok → t = taken) ∧ (reply.status ≠ .ok → reply.status ≠ .tableFull → reply.results = []) ∧
      (reply.status = .badLength ↔ ¬ c.lengthFits params)

/-- IDENT answers 0x48, 0x30, 0x01 and changes no state; with parameters it is refused with BAD_LENGTH. -/
def Obligations.IdentAnswers : Prop :=
  ∀ s : State, s.ready →
    exec (.ident []) s = .next (s.answer .ident [] ⟨.ok, [0x48, 0x30, 0x01]⟩) ∧
    ∀ params, params ≠ [] → params.length ≤ 60 →
      exec (.ident params) s = .next (s.answer .ident params ⟨.badLength, []⟩)

/-- BUS_SET for an ingress bus (R2, R12, R197). Leaving enable as it is, it writes the four values and nothing else, by
whichever of its rows. Enable from OFF also puts the bus in DOWN and posts ALIGN, the monitors not being touched. It is
refused with BAD_PARAM, changing nothing, where the selector is above 0x02, the sense or scope is above 1, or, for bus A
or B, the enable is above 1 or the threshold is 0. -/
def Obligations.BusSetWritesConfiguration : Prop :=
  (∀ (s : State) (b : Bus) (sense : Sense) (scope : Scope) (threshold : Byte), s.ready → threshold ≠ 0 →
    let enable := (s.rx b).state != .off
    let params := [busSelector b, byteOfBool enable, sense.byte, scope.byte, threshold]
    let t := (s.setRx b { s.rx b with enable, sense, scope, threshold }).answer .busSet params ⟨.ok, []⟩
    exec (.busSet params) s = .next t ∧ exec (.busEnable params) s = .next t ∧ exec (.busDisable params) s = .next t) ∧
  (∀ (s : State) (b : Bus) (sense : Sense) (scope : Scope) (threshold : Byte), s.ready → threshold ≠ 0 →
    (s.rx b).state = .off → ReceiverLaw (s.rx b) →
    let params := [busSelector b, 1, sense.byte, scope.byte, threshold]
    exec (.busEnable params) s =
      .next
        (({ s with sup := { s.sup with notices := addNotice (.bus b) none .align s.sup.notices } }.setRx b
          { s.rx b with state := .down, enable := true, sense, scope, threshold }).answer .busSet params ⟨.ok, []⟩)) ∧
  ∀ (s : State) (sel enable sense scope threshold : Byte), s.ready →
    (2 < sel.toNat ∨ 1 < sense.toNat ∨ 1 < scope.toNat ∨ (sel.toNat < 2 ∧ (1 < enable.toNat ∨ threshold = 0))) →
    exec (.busSet [sel, enable, sense, scope, threshold]) s =
      .next (s.answer .busSet [sel, enable, sense, scope, threshold] ⟨.badParam, []⟩)

/-- R11: disable from DOWN, SEEK or ALIGNED puts the bus in OFF: candidate and slot-frame in progress discarded, store
invalid, counters kept, every monitor clean with its references kept (R41), ALIGN queued. NAME and RFAULT are told to the
records that name the slot of a monitor that held a name or a remote fault, if they do not mask it; those that name the
slot of one that held a code or a name are judged afresh. From ALIGNED every record judges its sources on the bus FAILED
with cause BUS. That all monitors are cleared before anything is told is the model's reading (log 21). -/
def Obligations.BusDisableClears : Prop :=
  ∀ (s : State) (b : Bus) (sense : Sense) (scope : Scope) (threshold : Byte), s.ready → threshold ≠ 0 →
    (s.rx b).state ≠ .off →
    let params := [busSelector b, 0, sense.byte, scope.byte, threshold]
    ∃ t : State, exec (.busDisable params) s = .next (t.answer .busSet params ⟨.ok, []⟩) ∧
      t.rx b =
        { s.rx b with
          state := .off
          enable := false
          sense, scope, threshold
          candidate := none
          framePos := 0
          badChecks := 0
          frameFault := false
          partialFrame := none
          store := Vector.replicate 48 none } ∧
      (∀ n, t.monitor ⟨b, n⟩ = Monitor.clean (s.monitor ⟨b, n⟩).refs) ∧
      t.sup.tells (.bus b) .align ∧
      (∀ n r l, (s.monitor ⟨b, n⟩).refs ≠ 0 → s.sup.live r = some l → (⟨b, n⟩ : Source) ∈ l.fields.sources →
        ((s.monitor ⟨b, n⟩).name.isSome → hasKind l.fields.mask .name = false → t.sup.tells (.record r) .name) ∧
        ((s.monitor ⟨b, n⟩).rf = true → hasKind l.fields.mask .rfault = false → t.sup.tells (.record r) .rfault) ∧
        ((s.monitor ⟨b, n⟩).code.isSome ∨ (s.monitor ⟨b, n⟩).name.isSome → t.judgesAfresh r l.fields)) ∧
      ((s.rx b).state = .aligned →
        (∀ r l, s.sup.live r = some l → l.fields.working.bus = b →
          ∃ l' j, t.sup.live r = some l' ∧ l'.sel.w = some j ∧ j.condition = .failed ∧ j.causes.bus = true) ∧
        (∀ r l src, s.sup.live r = some l → l.fields.protect = some src → src.bus = b →
          ∃ l' j, t.sup.live r = some l' ∧ l'.sel.p = some j ∧ j.condition = .failed ∧ j.causes.bus = true)) ∧
      s.sameBesideBus t b

/-- BUS_SET for bus E writes the egress parity configuration and nothing else, whatever its enable and threshold bytes; a
sense or scope out of range is refused (R3). -/
def Obligations.EgressParitySetWrites : Prop :=
  ∀ (s : State) (enable threshold : Byte), s.ready →
    (∀ (sense : Sense) (scope : Scope),
      exec (.egressParitySet [0x02, enable, sense.byte, scope.byte, threshold]) s =
        .next
          ({ s with egress := { s.egress with sense, scope } }.answer .busSet
            [0x02, enable, sense.byte, scope.byte, threshold] ⟨.ok, []⟩)) ∧
    ∀ sense scope : Byte, 1 < sense.toNat ∨ 1 < scope.toNat →
      exec (.egressParitySet [0x02, enable, sense, scope, threshold]) s =
        .next (s.answer .busSet [0x02, enable, sense, scope, threshold] ⟨.badParam, []⟩)

/-! ## Ingress buses -/

/-- CLOCK_LOSS (R4, R10, R40): nothing in OFF and DOWN; from SEEK the bus enters DOWN, holding no candidate, and ALIGN is
posted. From ALIGNED: DOWN, the loss counted, the store invalid, the slot-frame in progress gone;
each referenced monitor keeps acceptances, rf state and counters and is otherwise clean; ALIGN is queued; and every record
with a source on the bus judges it FAILED with cause BUS. The frame position 0 from ALIGNED is the model's choice (log 25). -/
def Obligations.ClockLossEntersDown : Prop :=
  (∀ (s : State) (b : Bus),
    ((s.rx b).state = .off ∨ (s.rx b).state = .down → exec (.clockLoss b) s = .next s) ∧
    ((s.rx b).state = .seek → ReceiverLaw (s.rx b) →
      exec (.clockLoss b) s =
        .next
          ({ s with sup := { s.sup with notices := addNotice (.bus b) none .align s.sup.notices } }.setRx b
            { s.rx b with state := .down, candidate := none }))) ∧
  ∀ (s : State) (b : Bus), (s.rx b).state = .aligned →
    ∃ t : State, exec (.clockLoss b) s = .next t ∧
      t.rx b =
        { s.rx b with
          state := .down
          candidate := none
          framePos := 0
          badChecks := 0
          frameFault := false
          partialFrame := none
          store := Vector.replicate 48 none
          alignLosses := satInc (s.rx b).alignLosses } ∧
      (∀ n, (s.monitor ⟨b, n⟩).refs ≠ 0 → t.monitor ⟨b, n⟩ =
        { Monitor.clean (s.monitor ⟨b, n⟩).refs with
          code := (s.monitor ⟨b, n⟩).code
          name := (s.monitor ⟨b, n⟩).name
          rf := (s.monitor ⟨b, n⟩).rf
          erroredFrames := (s.monitor ⟨b, n⟩).erroredFrames
          fillDeclarations := (s.monitor ⟨b, n⟩).fillDeclarations }) ∧
      (∀ n, (s.monitor ⟨b, n⟩).refs = 0 → t.monitor ⟨b, n⟩ = s.monitor ⟨b, n⟩) ∧
      t.sup.tells (.bus b) .align ∧
      (∀ r l, s.sup.live r = some l → l.fields.working.bus = b →
        ∃ l' j, t.sup.live r = some l' ∧ l'.sel.w = some j ∧ j.condition = .failed ∧ j.causes.bus = true) ∧
      (∀ r l src, s.sup.live r = some l → l.fields.protect = some src → src.bus = b →
        ∃ l' j, t.sup.live r = some l' ∧ l'.sel.p = some j ∧ j.condition = .failed ∧ j.causes.bus = true) ∧
      s.sameBesideBus t b

/-- R5: the first edge taken in DOWN puts the bus in SEEK without a candidate, whatever the word, and posts ALIGN. R6: the
search on one word, short of the confirming one. -/
def Obligations.SearchFollowsCandidate : Prop :=
  (∀ (s : State) (b : Bus) (w : IngressWord), (s.rx b).state = .down → ReceiverLaw (s.rx b) →
    exec (.clockReturn b w) s =
      .next
        ({ s with sup := { s.sup with notices := addNotice (.bus b) none .align s.sup.notices } }.setRx b
          { s.rx b with state := .seek, candidate := none })) ∧
  ∀ (s : State) (b : Bus) (w : IngressWord), (s.rx b).state = .seek →
    ((s.rx b).candidate = none →
      exec (.frameStartCandidate b [w]) s =
        .next (if w.fs && w.ss then s.setRx b { s.rx b with candidate := some 0 } else s)) ∧
    (∀ c, (s.rx b).candidate = some c → c + 1 < 1152 →
      exec (.frameStartCandidate b [w]) s =
        .next (s.setRx b { s.rx b with candidate := some (if w.fs && w.ss then 0 else c + 1) })) ∧
    ((s.rx b).candidate = some 1151 → (w.fs && w.ss) = false →
      exec (.frameStartCandidate b [w]) s = .next (s.setRx b { s.rx b with candidate := none }))

/-- ALIGN_CONFIRM (R6, R7): a frame start exactly 1,152 words after the candidate puts the bus in ALIGNED at frame position
0 with no bad check and no valid store entry; the word is slot 0's header word. The monitors are not changed (R42), ALIGN
is queued, and no source on the bus keeps cause BUS. That no search candidate is held from there on is the model's choice
(log 26). -/
def Obligations.AlignConfirmEntersAligned : Prop :=
  ∀ (s : State) (b : Bus) (w : IngressWord), (s.rx b).state = .seek → (s.rx b).candidate = some 1151 →
    w.fs = true → w.ss = true →
    ∃ t : State, exec (.alignConfirm b w) s = .next t ∧
      (t.rx b).state = .aligned ∧ (t.rx b).framePos = 0 ∧ (t.rx b).badChecks = 0 ∧ (t.rx b).candidate = none ∧
      (t.rx b).frameFault = false ∧ (∀ n, pick (t.rx b).store n = none) ∧
      (t.rx b).partialFrame =
        some
          { sense := (s.rx b).sense
            scope := (s.rx b).scope
            frame :=
              { header := w.data
                payload := []
                fill := w.fill
                errored := !passesParity (s.rx b).sense (s.rx b).scope w } } ∧
      (t.rx b).parityErrored =
        (if passesParity (s.rx b).sense (s.rx b).scope w then (s.rx b).parityErrored else satInc (s.rx b).parityErrored) ∧
      (t.rx b).badFrameChecks = (s.rx b).badFrameChecks ∧ (t.rx b).alignLosses = (s.rx b).alignLosses ∧
      t.mons b = s.mons b ∧ t.sup.tells (.bus b) .align ∧
      (∀ r l, s.sup.live r = some l → l.fields.working.bus = b →
        ∃ l' j, t.sup.live r = some l' ∧ l'.sel.w = some j ∧ j.causes.bus = false) ∧
      (∀ r l src, s.sup.live r = some l → l.fields.protect = some src → src.bus = b →
        ∃ l' j, t.sup.live r = some l' ∧ l'.sel.p = some j ∧ j.causes.bus = false) ∧
      s.sameBesideBus t b

/-- FRAME_CHECK short of the third bad one (R8): the check is bad where xFS or xSS is low on the word or a line fault was
seen since the last expected frame start; a good check sets the count to 0, a bad one adds 1 to it and to the counter. The
word is the header word of slot 0 either way, and nothing but the receiver changes. Which words' line faults count for which
check is the model's reading of R8 (log 7). -/
def Obligations.FrameCheckCounts : Prop :=
  ∀ (s : State) (b : Bus) (w : IngressWord), (s.rx b).state = .aligned → (s.rx b).framePos = 1151 →
    let bad := !w.fs || !w.ss || (s.rx b).frameFault
    (bad = true → (s.rx b).badChecks < 2) →
    exec (.frameCheck b w) s =
      .next
        (s.setRx b
          { s.rx b with
            framePos := 0
            frameFault := false
            badChecks := if bad then (s.rx b).badChecks + 1 else 0
            badFrameChecks := if bad then satInc (s.rx b).badFrameChecks else (s.rx b).badFrameChecks
            parityErrored :=
              if passesParity (s.rx b).sense (s.rx b).scope w then (s.rx b).parityErrored
              else satInc (s.rx b).parityErrored
            partialFrame :=
              some
                { sense := (s.rx b).sense
                  scope := (s.rx b).scope
                  frame :=
                    { header := w.data
                      payload := []
                      fill := w.fill
                      errored := !passesParity (s.rx b).sense (s.rx b).scope w } } })

/-- The third consecutive bad frame check (R9, R10, R40): the bus enters SEEK without a candidate, even where the word is a
frame start; both counters go up; the store is invalid; the monitors are reset; ALIGN is queued; every record judges its
sources on the bus FAILED with cause BUS. Which words' line faults count for the check is the model's reading of R8 (log 7),
and the frame position 0 its choice (log 25). -/
def Obligations.ThirdBadCheckLosesAlignment : Prop :=
  ∀ (s : State) (b : Bus) (w : IngressWord), (s.rx b).state = .aligned → (s.rx b).framePos = 1151 →
    (s.rx b).badChecks = 2 → (w.fs = false ∨ w.ss = false ∨ (s.rx b).frameFault = true) →
    ∃ t : State, exec (.frameCheck b w) s = .next t ∧
      (t.rx b).state = .seek ∧ (t.rx b).candidate = none ∧ (t.rx b).framePos = 0 ∧ (t.rx b).badChecks = 0 ∧
      (t.rx b).partialFrame = none ∧ (∀ n, pick (t.rx b).store n = none) ∧
      (t.rx b).badFrameChecks = satInc (s.rx b).badFrameChecks ∧ (t.rx b).alignLosses = satInc (s.rx b).alignLosses ∧
      (∀ n, t.monitor ⟨b, n⟩ = (s.monitor ⟨b, n⟩).alignReset) ∧
      t.sup.tells (.bus b) .align ∧
      (∀ r l, s.sup.live r = some l → l.fields.working.bus = b →
        ∃ l' j, t.sup.live r = some l' ∧ l'.sel.w = some j ∧ j.condition = .failed ∧ j.causes.bus = true) ∧
      (∀ r l src, s.sup.live r = some l → l.fields.protect = some src → src.bus = b →
        ∃ l' j, t.sup.live r = some l' ∧ l'.sel.p = some j ∧ j.condition = .failed ∧ j.causes.bus = true) ∧
      s.sameBesideBus t b

/-- The 24 words of a slot that is not slot 0, taken in ALIGNED, become its store entry whole and valid (R14, R15): header
word, 23 payload words, fill flag of the header word, errored exactly if a word failed parity under the setting read at
the header word (R2, R13). The slot's monitor takes it, and what changed in it is told to the records naming the slot (R43,
R44). No other store entry changes. A line fault on any of the words is kept for the next frame check (R8; log 7). -/
def Obligations.SlotFrameStoredWhole : Prop :=
  ∀ (s : State) (b : Bus) (n : SlotIx) (w : IngressWord) (ws : List IngressWord), (s.rx b).state = .aligned →
    (s.rx b).framePos + 1 = 24 * n.val → ws.length = 23 →
    let frame : SlotFrame :=
      { header := w.data
        payload := ws.map (·.data)
        fill := w.fill
        errored := (w :: ws).any (fun x => !passesParity (s.rx b).sense (s.rx b).scope x) }
    ∃ t : State, exec (.slotFrameComplete b (w :: ws)) s = .next t ∧
      (t.rx b).state = .aligned ∧ (t.rx b).framePos = 24 * n.val + 23 ∧ (t.rx b).partialFrame = none ∧
      pick (t.rx b).store n = some frame ∧
      (∀ m, m ≠ n → pick (t.rx b).store m = pick (s.rx b).store m) ∧
      (t.rx b).parityErrored =
        satAdd (s.rx b).parityErrored
          ((w :: ws).countP (fun x => !passesParity (s.rx b).sense (s.rx b).scope x)) ∧
      (t.rx b).badChecks = (s.rx b).badChecks ∧ (t.rx b).badFrameChecks = (s.rx b).badFrameChecks ∧
      (t.rx b).alignLosses = (s.rx b).alignLosses ∧
      (t.rx b).frameFault = ((s.rx b).frameFault || w.fs || !w.ss || ws.any (fun x => x.fs || x.ss)) ∧
      t.monitor ⟨b, n⟩ = (s.monitor ⟨b, n⟩).take (s.rx b).threshold frame ∧ s.hears t ⟨b, n⟩ ∧
      (∀ m, m ≠ n → t.monitor ⟨b, m⟩ = s.monitor ⟨b, m⟩) ∧
      s.sameBesideBus t b

/-- R13, R20: a word passes exactly when the number of high covered lines, with xPAR, is even (EVEN) or odd (ODD), the
covered lines being the data lines and, in WORD_CTRL, xSS, xFS and xFILL; and every word the part drives passes under the
setting of its slot-frame. -/
def Obligations.ParityJudgesCoveredLines : Prop :=
  (∀ (sense : Sense) (scope : Scope) (w : IngressWord),
    let data := (List.finRange 16).map (fun i => w.data.getLsbD i.val)
    let lines := match scope with
      | .word => data
      | .wordCtrl => data ++ [w.ss, w.fs, w.fill]
    (passesParity sense scope w = true ↔ (lines.count true + w.par.toNat) % 2 = match sense with
      | .even => 0
      | .odd => 1)) ∧
  ∀ (x : Sending) (pos : Nat), let o := x.drive pos
    passesParity x.sense x.scope { data := o.data, ss := o.ss, fs := o.fs, fill := o.fill, par := o.par } = true

/-- Words and clock losses of one bus touch that bus and the supervision path only: the other bus, generations, held marks,
record states and fields, owners, pending updates, the egress side and the link stay as they were. -/
def Obligations.BusStepsTouchOneBus : Prop :=
  ∀ (s t : State) (b : Bus) (w : IngressWord) (ws : List IngressWord),
    exec (.clockLoss b) s = .next t ∨ exec (.clockReturn b w) s = .next t ∨ exec (.alignConfirm b w) s = .next t ∨
      exec (.slotFrameComplete b ws) s = .next t ∨ exec (.frameCheck b w) s = .next t ∨
      exec (.frameStartCandidate b ws) s = .next t → s.sameBesideBus t b

/-! ## Slot monitors -/

/-- R24: the fill state follows the fill flags with a persistence of three; a change to FILLED counts a declaration, and
either change is reported. R25: while the fill state after part 1 is FILLED, everything the header feeds is frozen; the
fill run, the block and the two counters go on as for any slot-frame. A monitor without references ignores the
slot-frame (R23). -/
def Obligations.FillNeedsThreeAndFreezesHeader : Prop :=
  (∀ (m : Monitor) (threshold : Byte) (frame : SlotFrame), m.refs ≠ 0 → m.fillRun ≤ 2 →
    let m' := m.take threshold frame
    (frame.fill = m.filled →
      m'.filled = m.filled ∧ m'.fillRun = 0 ∧ m'.fillDeclarations = m.fillDeclarations) ∧
    (frame.fill ≠ m.filled → m.fillRun ≠ 2 →
      m'.filled = m.filled ∧ m'.fillRun = m.fillRun + 1 ∧ m'.fillDeclarations = m.fillDeclarations) ∧
    (frame.fill ≠ m.filled → m.fillRun = 2 →
      m'.filled = frame.fill ∧ m'.fillRun = 0 ∧ m.reports m' = true ∧
        m'.fillDeclarations = if frame.fill then satInc m.fillDeclarations else m.fillDeclarations)) ∧
  ∀ (m : Monitor) (threshold : Byte) (frame : SlotFrame),
    let m' := m.take threshold frame
    (m.refs = 0 → m' = m) ∧
    (m'.filled = true → m' =
      { m with
        filled := m'.filled
        fillRun := m'.fillRun
        fillDeclarations := m'.fillDeclarations
        degraded := m'.degraded
        blockPos := m'.blockPos
        blockErrored := m'.blockErrored
        erroredFrames := m'.erroredFrames }) ∧
    (m.refs ≠ 0 → m.blockPos ≤ 254 → m'.blockPos = m.blockPos + 1) ∧
    (m.refs ≠ 0 →
      m'.erroredFrames = if frame.errored then satInc m.erroredFrames else m.erroredFrames)

/-- The accepted code needs five (R29): five consecutive evaluated slot-frames of one code make it the accepted code; and
one slot-frame changes the accepted code only to its own code, and only where the code run stood at 4 or more on that code.
R33: the rf state follows RF of evaluated slot-frames with a persistence of five in each direction. -/
def Obligations.CodeAndRemoteFaultNeedFive : Prop :=
  (∀ (m : Monitor) (threshold : Byte) (frames : List SlotFrame) (code : BitVec 4), m.refs ≠ 0 → m.filled = false →
    frames.length = 5 → (∀ f ∈ frames, f.fill = false ∧ hdrCode f.header = code) →
    (frames.foldl (fun m f => m.take threshold f) m).code = some code) ∧
  (∀ (m : Monitor) (threshold : Byte) (frame : SlotFrame),
    let m' := m.take threshold frame
    m'.code ≠ m.code →
      m'.code = some (hdrCode frame.header) ∧ m.codeCandidate = some (hdrCode frame.header) ∧ 4 ≤ m.codeRun) ∧
  ∀ (m : Monitor) (threshold : Byte) (frame : SlotFrame), m.refs ≠ 0 → m.rfRun ≤ 4 →
    let m' := m.take threshold frame
    m'.filled = false →
      (hdrRF frame.header = m.rf → m'.rf = m.rf ∧ m'.rfRun = 0) ∧
      (hdrRF frame.header ≠ m.rf → m.rfRun ≠ 4 → m'.rf = m.rf ∧ m'.rfRun = m.rfRun + 1) ∧
      (hdrRF frame.header ≠ m.rf → m.rfRun = 4 → m'.rf = hdrRF frame.header ∧ m'.rfRun = 0)

/-- The degrade state is judged at the 256th slot-frame of a block and only there (R34): 256 slot-frames from a block's
start set it exactly by whether the errored ones among them reach the threshold, and restart the block. -/
def Obligations.BlockJudgedAtItsEnd : Prop :=
  (∀ (m : Monitor) (threshold : Byte) (frames : List SlotFrame), m.refs ≠ 0 → m.blockPos = 0 → m.blockErrored = 0 →
    frames.length = 256 →
    let m' := frames.foldl (fun m f => m.take threshold f) m
    (m'.degraded = true ↔ threshold.toNat ≤ frames.countP (·.errored)) ∧ m'.blockPos = 0 ∧ m'.blockErrored = 0) ∧
  ∀ (m : Monitor) (threshold : Byte) (frame : SlotFrame), m.blockPos < 255 →
    (m.take threshold frame).degraded = m.degraded

/-- Framing is found on the second of two markers 16 evaluated slot-frames apart (R26, R27): from UNFRAMED without a
candidate, a marked slot-frame, 15 unmarked ones and a marked one give FRAMED at position 0, with the last one's character
gathered. One evaluated slot-frame of the search: a marker opens a candidate or, below a count of 16, replaces it; another
one counts; at 16 the candidate is confirmed by a marker or discarded. In FRAMED the position advances, and a marker at
positions 1 to 15 is recorded as stray; the check after position 15 passes on a marker where none was stray, setting the
fail count to 0, and fails else. A first fail keeps FRAMED, and a second in succession loses it (R28), without candidate,
gathered characters or confirming name; the accepted name is kept. That FRAMED holds no candidate is the model's
reading (log 18). -/
def Obligations.FramingFoundAndLost : Prop :=
  (∀ (m : Monitor) (threshold : Byte) (first last : SlotFrame) (between : List SlotFrame),
    m.refs ≠ 0 → m.filled = false → m.framed = false → m.mkCandidate = none →
    first.fill = false → last.fill = false → hdrMK first.header = true → hdrMK last.header = true →
    between.length = 15 → (∀ f ∈ between, f.fill = false ∧ hdrMK f.header = false) →
    let m' := (first :: (between ++ [last])).foldl (fun m f => m.take threshold f) m
    m'.framed = true ∧ m'.mfPos = 0 ∧ m'.fails = 0 ∧ m'.stray = false ∧ m'.mkCandidate = none ∧
      m'.gathered = [hdrChar last.header] ∧
      (((first :: between).foldl (fun m f => m.take threshold f) m).framed = false)) ∧
  ∀ (m : Monitor) (threshold : Byte) (frame : SlotFrame), m.refs ≠ 0 →
    let m' := m.take threshold frame
    let mk := hdrMK frame.header
    m'.filled = false →
      (m.framed = false →
        (m.mkCandidate = none → m'.framed = false ∧ m'.mkCandidate = if mk then some 0 else none) ∧
        (∀ c, m.mkCandidate = some c → c + 1 < 16 →
          m'.framed = false ∧ m'.mkCandidate = some (if mk then 0 else c + 1)) ∧
        (m.mkCandidate = some 15 → mk = false → m'.framed = false ∧ m'.mkCandidate = none) ∧
        (m.mkCandidate = some 15 → mk = true →
          m'.framed = true ∧ m'.mfPos = 0 ∧ m'.fails = 0 ∧ m'.stray = false ∧ m'.mkCandidate = none ∧
            m'.gathered = [hdrChar frame.header])) ∧
      (m.framed = true → m.mfPos < 15 →
        m'.framed = true ∧ m'.mfPos = m.mfPos + 1 ∧ m'.stray = (m.stray || mk) ∧ m'.fails = m.fails ∧
          m'.gathered = m.gathered ++ [hdrChar frame.header]) ∧
      (m.framed = true → m.mfPos = 15 →
        (mk = true → m.stray = false →
          m'.framed = true ∧ m'.mfPos = 0 ∧ m'.fails = 0 ∧ m'.stray = false ∧ m'.gathered = [hdrChar frame.header]) ∧
        (mk = false ∨ m.stray = true → m.fails = 0 →
          m'.framed = true ∧ m'.mfPos = 0 ∧ m'.fails = 1 ∧ m'.stray = false ∧ m'.gathered = [hdrChar frame.header] ∧
            m'.confirming = none ∧ m'.matchCount = 0 ∧ m'.name = m.name) ∧
        (mk = false ∨ m.stray = true → m.fails = 1 →
          m'.framed = false ∧ m'.mkCandidate = none ∧ m'.mfPos = 0 ∧ m'.fails = 0 ∧ m'.stray = false ∧
            m'.gathered = [] ∧ m'.confirming = none ∧ m'.matchCount = 0 ∧ m'.name = m.name))

/-- A path name is accepted at the check that closes the third multiframe carrying it (R30 to R32): from FRAMED at position
0 with the name's first character gathered, 48 evaluated slot-frames carrying the rest of it, again and again, with MK on
each first character, leave it the accepted name. And one slot-frame changes the accepted name only in FRAMED at position
15, to the 16 characters gathered, and only where two multiframes or more in a row had carried that name before. -/
def Obligations.NameNeedsThreeMultiframes : Prop :=
  (∀ (m : Monitor) (threshold : Byte) (name : Name) (frames : List SlotFrame),
    m.refs ≠ 0 → m.filled = false → m.framed = true → m.mfPos = 0 → m.stray = false →
    name.length = 16 → name.all printable = true → m.gathered = name.take 1 → frames.length = 48 →
    (∀ i (h : i < frames.length), frames[i].fill = false ∧
      hdrMK frames[i].header = ((i + 1) % 16 == 0) ∧ some (hdrChar frames[i].header) = name[(i + 1) % 16]?) →
    let m' := frames.foldl (fun m f => m.take threshold f) m
    m'.name = some name ∧ m'.matchCount = 3 ∧ m'.framed = true ∧ m'.mfPos = 0) ∧
  ∀ (m : Monitor) (threshold : Byte) (frame : SlotFrame),
    let m' := m.take threshold frame
    m'.name ≠ m.name →
      m'.name = some m.gathered ∧ m.confirming = some m.gathered ∧ 2 ≤ m.matchCount ∧ m.framed = true ∧ m.mfPos = 15 ∧
        m.stray = false ∧ hdrMK frame.header = true ∧ m.gathered.all printable = true


/-! ## Conditions and selection -/

/-- R100, R101: when each cause is present, which condition follows, and the merit of each condition; an absent protect
source has merit -1. -/
def Obligations.SourceIsJudged : Prop :=
  (∀ (s : State) (f : Fields) (src : Source),
    let m := s.monitor src
    let j := s.judge f src
    (j.causes.bus = true ↔ (s.rx src.bus).state ≠ .aligned) ∧
    (j.causes.fill = true ↔ m.filled = true) ∧
    (j.causes.unframed = true ↔ m.framed = false) ∧
    (j.causes.noCode = true ↔ m.code = none) ∧
    (j.causes.unequipped = true ↔ m.code = some 0) ∧
    (j.causes.code = true ↔ ∃ want have', f.expectedCode = some want ∧ m.code = some have' ∧ have' ≠ want) ∧
    (j.causes.name = true ↔ ∃ want, f.expectedName = some want ∧ m.name ≠ some want) ∧
    (j.condition = .failed ↔ j.causes ≠ ⟨false, false, false, false, false, false, false⟩) ∧
    (j.condition = .degraded ↔ j.causes = ⟨false, false, false, false, false, false, false⟩ ∧ m.degraded = true) ∧
    (j.condition = .good ↔ j.causes = ⟨false, false, false, false, false, false, false⟩ ∧ m.degraded = false)) ∧
  ∀ (switch : Bool) (c : Causes),
    meritOf switch (some ⟨.failed, c⟩) = 0 ∧ meritOf switch (some ⟨.degraded, c⟩) = (if switch then 1 else 2) ∧
      meritOf switch (some ⟨.good, c⟩) = 2 ∧ meritOf switch none = -1

/-- R102, R106, R108, R109, R126: an evaluation of a live record stores the judgements derived, keeps its mode, state in
service and fields, and clears the request only to drop a steer that the switch moved away from. It posts, in this order,
COND where a stored judgement changed, SELECT where the selected source changed, STEER_DROP where a steer was dropped and
TIMER_SHORT where its selection met a shortage, each unless the record masks it (R50), and nothing else. -/
def Obligations.EvaluationStoresAndPosts : Prop :=
  ∀ (u : Supervision) (r : RecIx) (l : Live) (expiry : Bool) (w : Judgement) (p : Option Judgement),
    u.live r = some l →
    let v := u.evaluate r expiry w p
    let settled :=
      (u.modSel r (fun x => { x with w := some w, p := p })).settle r expiry l.fields { l.sel with w := some w, p := p }
        (meritOf l.fields.degradeSwitch (some w)) (meritOf l.fields.degradeSwitch p)
    ∃ l', v.live r = some l' ∧ l'.state = l.state ∧ l'.fields = l.fields ∧ l'.sel.mode = l.sel.mode ∧
      l'.sel.w = some w ∧ l'.sel.p = p ∧
      let dropped : Bool :=
        (l.sel.request == .steerW && l.sel.selected == .W && l'.sel.selected == .P) ||
          (l.sel.request == .steerP && l.sel.selected == .P && l'.sel.selected == .W)
      l'.sel.request = (if dropped then .none else l.sel.request) ∧
      v.notices =
        (([(l.sel.w != some w || l.sel.p != p, Kind.cond), (l'.sel.selected != l.sel.selected, .select),
            (dropped, .steerDrop), (settled.2, .timerShort)] : List (Bool × Kind)).filter
          (fun x => x.1 && !hasKind l.fields.mask x.2)).foldl
            (fun xs x => addNotice (.record r) (some (u.record r).generation) x.2 xs) u.notices ∧
      u.sameRecords v

/-- R111: the rows of ON_W and HOLD_W, for a selector part that no request row settles. A timer released stays FREE or goes
to the head waiter (R135, R139). -/
def Obligations.RowsOnWorking : Prop :=
  ∀ (u : Supervision) (r : RecIx) (f : Fields) (x : Selector) (mw mp : Int), u.sel r = some x →
    requestRow x.request x.selected mw mp = none →
    let out := u.settleLive r f x mw mp
    (x.state = .onW → mw < mp → f.holdOff = 0 →
      out.2 = false ∧ out.1.sel r = some { x with selected := .P, state := .onP } ∧ out.1.pool = u.pool) ∧
    (x.state = .onW → mw < mp → f.holdOff ≠ 0 → ∀ t, u.pool.lowestFree = some t →
      out.2 = false ∧ out.1.sel r = some { x with state := .holdW, timer := some t } ∧
        pick out.1.pool.timers t =
          some { owner := r, purpose := .holdoff, remaining := f.holdOff.toNat, fresh := true } ∧
        out.1.pool.shorts = u.pool.shorts) ∧
    (x.state = .onW → mw < mp → f.holdOff ≠ 0 → u.pool.lowestFree = none →
      out.2 = true ∧ out.1.sel r = some { x with selected := .P, state := .onP } ∧
        out.1.pool = { u.pool with shorts := satInc u.pool.shorts }) ∧
    (x.state = .onW → ¬ mw < mp → out = (u, false)) ∧
    (x.state = .holdW → ¬ mw < mp → PoolLaw u → selectorRow x →
      out.2 = false ∧ out.1.sel r = some { x with state := .onW, timer := none } ∧
        ∀ t, x.timer = some t → u.frees out.1 r t) ∧
    (x.state = .holdW → mw < mp → out = (u, false))

/-- R112: the rows of ON_P and HOLD_P, for a selector part that no request row settles. A timer released stays FREE or goes
to the head waiter (R135, R139). -/
def Obligations.RowsOnProtect : Prop :=
  ∀ (u : Supervision) (r : RecIx) (f : Fields) (x : Selector) (mw mp : Int), u.sel r = some x → PoolLaw u → selectorRow x →
    requestRow x.request x.selected mw mp = none →
    let out := u.settleLive r f x mw mp
    let due := f.revertive = true ∧ mw = 2 ∧ x.request ≠ .steerP
    (x.state = .onP → mp < mw → f.holdOff = 0 →
      out.2 = false ∧ out.1.sel r = some { x with selected := .W, state := .onW } ∧ out.1.pool = u.pool) ∧
    (x.state = .onP → mp < mw → f.holdOff ≠ 0 → ∀ t, u.pool.lowestFree = some t →
      out.2 = false ∧ out.1.sel r = some { x with state := .holdP, timer := some t } ∧
        pick out.1.pool.timers t =
          some { owner := r, purpose := .holdoff, remaining := f.holdOff.toNat, fresh := true }) ∧
    (x.state = .onP → mp < mw → f.holdOff ≠ 0 → u.pool.lowestFree = none →
      out.2 = true ∧ out.1.sel r = some { x with selected := .W, state := .onW } ∧
        out.1.pool = { u.pool with shorts := satInc u.pool.shorts }) ∧
    (x.state = .onP → ¬ mp < mw → due → ∀ t, u.pool.lowestFree = some t →
      out.2 = false ∧ out.1.sel r = some { x with state := .ret, timer := some t } ∧
        pick out.1.pool.timers t =
          some { owner := r, purpose := .ret, remaining := 100 * f.returnTime.toNat, fresh := true }) ∧
    (x.state = .onP → ¬ mp < mw → due → u.pool.lowestFree = none →
      out.2 = true ∧ out.1.sel r = some { x with state := .ret, waiting := true } ∧
        out.1.pool = { u.pool with shorts := satInc u.pool.shorts, waiters := u.pool.waiters ++ [r] }) ∧
    (x.state = .onP → ¬ mp < mw → ¬ due → out = (u, false)) ∧
    (x.state = .holdP → mp < mw → out = (u, false)) ∧
    (x.state = .holdP → ¬ mp < mw → due → ∀ t, x.timer = some t →
      out.2 = false ∧ out.1.sel r = some { x with state := .ret } ∧
        pick out.1.pool.timers t =
          some { owner := r, purpose := .ret, remaining := 100 * f.returnTime.toNat, fresh := true } ∧
        out.1.pool.waiters = u.pool.waiters) ∧
    (x.state = .holdP → ¬ mp < mw → ¬ due →
      out.2 = false ∧ out.1.sel r = some { x with state := .onP, timer := none } ∧
        ∀ t, x.timer = some t → u.frees out.1 r t)

/-- R113: the rows of RETURN, with a timer and waiting, for a selector part that no request row settles. A timer released
stays FREE or goes to the head waiter (R135, R139); a record that waits leaves the queue, the pool being else unchanged. -/
def Obligations.RowsInReturn : Prop :=
  ∀ (u : Supervision) (r : RecIx) (f : Fields) (x : Selector) (mw mp : Int), u.sel r = some x → PoolLaw u →
    requestRow x.request x.selected mw mp = none → x.state = .ret → x.waiting = x.timer.isNone →
    let out := u.settleLive r f x mw mp
    let due := f.revertive = true ∧ mw = 2 ∧ x.request ≠ .steerP
    let ended : Prop :=
      (∀ t, x.timer = some t → u.frees out.1 r t) ∧
        (x.timer = none → out.1.pool = { u.pool with waiters := u.pool.waiters.filter (fun q => decide (q ≠ r)) })
    (mp < mw → f.holdOff = 0 →
      out.2 = false ∧ out.1.sel r = some { x with selected := .W, state := .onW, timer := none, waiting := false } ∧
        r ∉ out.1.pool.waiters ∧ ended) ∧
    (mp < mw → f.holdOff ≠ 0 → ∀ t, x.timer = some t →
      out.2 = false ∧ out.1.sel r = some { x with state := .holdP } ∧
        pick out.1.pool.timers t =
          some { owner := r, purpose := .holdoff, remaining := f.holdOff.toNat, fresh := true }) ∧
    (mp < mw → f.holdOff ≠ 0 → x.timer = none →
      out.2 = true ∧ out.1.sel r = some { x with selected := .W, state := .onW, waiting := false } ∧
        out.1.pool =
          { u.pool with shorts := satInc u.pool.shorts, waiters := u.pool.waiters.filter (fun q => decide (q ≠ r)) }) ∧
    (¬ mp < mw → ¬ due →
      out.2 = false ∧ out.1.sel r = some { x with state := .onP, timer := none, waiting := false } ∧
        r ∉ out.1.pool.waiters ∧ ended) ∧
    (¬ mp < mw → due → out = (u, false))

/-- R110: in LIVE a pin settles on its source always, a steer on its source where the other is selected and its source does
not rank below; the record then holds no timer and does not wait: a timer it held stays FREE or goes to the head waiter
(R135, R139), and where it held none the pool is unchanged but for its place in the queue. No shortage is met. -/
def Obligations.RequestRowsSettle : Prop :=
  ∀ (u : Supervision) (r : RecIx) (f : Fields) (x : Selector) (mw mp : Int) (side : Side), u.sel r = some x → PoolLaw u →
    selectorRow x →
    (x.request = .pinW ∧ side = .W) ∨ (x.request = .pinP ∧ side = .P) ∨
      (x.request = .steerW ∧ x.selected = .P ∧ ¬ mw < mp ∧ side = .W) ∨
      (x.request = .steerP ∧ x.selected = .W ∧ ¬ mp < mw ∧ side = .P) →
    let out := u.settleLive r f x mw mp
    out.2 = false ∧ r ∉ out.1.pool.waiters ∧ out.1.pool.shorts = u.pool.shorts ∧
      (∀ t, x.timer = some t → u.frees out.1 r t) ∧
      (x.timer = none → out.1.pool = { u.pool with waiters := u.pool.waiters.filter (fun q => decide (q ≠ r)) }) ∧
      out.1.sel r =
        some
          { x with
            selected := side
            state := (match side with
              | .W => .onW
              | .P => .onP)
            timer := none
            waiting := false }

/-- R121: in PREVIEW an evaluation takes no timer and settles at once: on a pinned source; on a steered source that does
not rank below; else on the higher ranking; at equal rank on W where the record is revertive and W has merit 2, else where
it was. -/
def Obligations.PreviewSettlesAtOnce : Prop :=
  ∀ (u : Supervision) (r : RecIx) (l : Live) (w : Judgement) (p : Option Judgement), u.live r = some l →
    l.sel.mode = .preview →
    let v := u.evaluate r false w p
    let mw := meritOf l.fields.degradeSwitch (some w)
    let mp := meritOf l.fields.degradeSwitch p
    v.pool = u.pool ∧
    ∃ x, v.sel r = some x ∧ x.mode = .preview ∧ x.timer = l.sel.timer ∧ x.waiting = l.sel.waiting ∧
      x.state = (match x.selected with
        | .W => .onW
        | .P => .onP) ∧
      x.selected = (match l.sel.request with
        | .pinW => .W
        | .pinP => .P
        | request =>
          if request = .steerW ∧ mp ≤ mw then .W
          else if request = .steerP ∧ mw ≤ mp then .P
          else if mw < mp then .P
          else if mp < mw then .W
          else if l.fields.revertive = true ∧ mw = 2 then .W
          else l.sel.selected)

/-- R123: a freeze keeps the selected source and the request, matches the state to it, ends the record's waits and posts
nothing; a timer the record held stays FREE or goes to the head waiter (R135, R139); and an evaluation in FROZEN derives without selecting. -/
def Obligations.FreezeFixesSelection : Prop :=
  ∀ (u : Supervision) (r : RecIx) (l : Live), u.live r = some l → PoolLaw u → selectorRow l.sel →
    ((u.freeze r).sel r =
        some
          { l.sel with
            mode := .frozen
            state := (match l.sel.selected with
              | .W => .onW
              | .P => .onP)
            timer := none
            waiting := false } ∧
      r ∉ (u.freeze r).pool.waiters ∧ (u.freeze r).notices = u.notices ∧
      (∀ t, l.sel.timer = some t → u.frees (u.freeze r) r t) ∧
      (l.sel.timer = none →
        (u.freeze r).pool = { u.pool with waiters := u.pool.waiters.filter (fun q => decide (q ≠ r)) })) ∧
    (l.sel.mode = .frozen → ∀ (expiry : Bool) (w : Judgement) (p : Option Judgement),
      (u.evaluate r expiry w p).sel r = some { l.sel with w := some w, p := p } ∧
        (u.evaluate r expiry w p).pool = u.pool)

/-! ## Timers and waiters -/

/-- R130, R141: a take gives the lowest-numbered FREE timer, loaded for the record, and raises the high-water mark to the
number RUNNING; where none is FREE it gives none. R132, R135, R139, R115: a freed timer goes to the head waiter, loaded with its return time as it stands, or stays FREE
where none waits; the former owner holds it no more; nothing is posted and nothing is evaluated. -/
def Obligations.TimersAreLentAndHandedOver : Prop :=
  (∀ (u : Supervision) (r : RecIx) (purpose : Purpose) (ticks : Nat) (x : Selector), u.sel r = some x →
    (u.takeTimer r purpose ticks = none ↔ ∀ t, (pick u.pool.timers t).isSome) ∧
    ∀ v, u.takeTimer r purpose ticks = some v →
      ∃ t, pick u.pool.timers t = none ∧ (∀ k, k < t → (pick u.pool.timers k).isSome) ∧
        pick v.pool.timers t = some { owner := r, purpose, remaining := ticks, fresh := true } ∧
        (∀ k, k ≠ t → pick v.pool.timers k = pick u.pool.timers k) ∧
        v.sel r = some { x with timer := some t } ∧ (∀ q, q ≠ r → v.sel q = u.sel q) ∧
        v.pool.running = u.pool.running + 1 ∧ v.pool.highWater = max u.pool.highWater (u.pool.running + 1) ∧
        v.pool.waiters = u.pool.waiters ∧ v.pool.shorts = u.pool.shorts ∧ v.notices = u.notices) ∧
  ∀ (u : Supervision) (r : RecIx) (t : TimerIx) (x : Selector), u.sel r = some x →
    let v := u.freeTimer r t
    v.notices = u.notices ∧ (∀ k, k ≠ t → pick v.pool.timers k = pick u.pool.timers k) ∧
    (u.pool.waiters = [] →
      pick v.pool.timers t = none ∧ v.sel r = some { x with timer := none } ∧ v.pool.waiters = [] ∧
        ∀ q, q ≠ r → v.sel q = u.sel q) ∧
    ∀ h rest l, u.pool.waiters = h :: rest → u.live h = some l → h ≠ r →
      pick v.pool.timers t =
          some
            { owner := h, purpose := .ret, remaining := 100 * l.fields.returnTime.toNat, fresh := true } ∧
        v.pool.waiters = rest ∧ v.sel h = some { l.sel with timer := some t, waiting := false } ∧
        v.sel r = some { x with timer := none } ∧ ∀ q, q ≠ r → q ≠ h → v.sel q = u.sel q

/-- TIMER_EXPIRY of the one timer RUNNING (R129, R132, R114): its ticks pass, it becomes FREE, and the expiry row of its
owner's state applies, then the state rows once. A hold-off that runs out moves the selection to the source that still
ranks higher; a return wait moves it to W at merit 2; a return or a hold-off due after that takes a timer anew. SELECT is
posted unless masked. Where the take finds none, a return waits in the queue, and a hold-off gives way to a switch at once,
with TIMER_SHORT. A FREE timer has no expiry (R133). Model's choices: the ticks pass within the row, and a FREE timer's row
does nothing (log 3); no request row is read at an expiry (log 15). -/
def Obligations.WaitsRunOut : Prop :=
  (∀ (s : State) (t : TimerIx), pick s.sup.pool.timers t = none → exec (.timerExpiry t) s = .next s) ∧
  (∀ (s : State) (t : TimerIx) (l : Live) (timer : Timer), s.nReset = true →
    pick s.sup.pool.timers t = some timer → 1 ≤ timer.remaining → (∀ k, k ≠ t → pick s.sup.pool.timers k = none) →
    s.sup.pool.waiters = [] → s.sup.live timer.owner = some l → l.sel.mode = .live → l.sel.timer = some t →
    selectorRow l.sel →
    let r := timer.owner
    let w := s.judge l.fields l.fields.working
    let p := l.fields.protect.map (s.judge l.fields)
    let mw := meritOf l.fields.degradeSwitch (some w)
    let mp := meritOf l.fields.degradeSwitch p
    let landed : Side × SelState × Option (Purpose × Nat) :=
      match l.sel.state with
      | .holdW => if mw < mp then (.P, .onP, none) else (.W, .onW, none)
      | .holdP =>
        if mp < mw then (.W, .onW, none)
        else if l.fields.revertive = true ∧ mw = 2 ∧ l.sel.request ≠ .steerP then
          (.P, .ret, some (.ret, 100 * l.fields.returnTime.toNat))
        else (.P, .onP, none)
      | .ret =>
        if mw = 2 then (.W, .onW, none)
        else if mp < mw then
          if l.fields.holdOff = 0 then (.W, .onW, none) else (.P, .holdP, some (.holdoff, l.fields.holdOff.toNat))
        else (.P, .onP, none)
      | .onW => (.W, .onW, none)
      | .onP => (.P, .onP, none)
    let dropped : Prop :=
      (l.sel.request = .steerW ∧ l.sel.selected = .W ∧ landed.1 = .P) ∨
        (l.sel.request = .steerP ∧ l.sel.selected = .P ∧ landed.1 = .W)
    ∃ u : Supervision, exec (.timerExpiry t) s = .next { s with sup := u } ∧
      pick u.pool.timers 0 =
        landed.2.2.map (fun x => { owner := r, purpose := x.1, remaining := x.2, fresh := true }) ∧
      (∀ k, k ≠ 0 → pick u.pool.timers k = none) ∧ u.pool.waiters = [] ∧ u.pool.shorts = s.sup.pool.shorts ∧
      (∃ x, u.sel r = some x ∧ x.mode = .live ∧ x.selected = landed.1 ∧ x.state = landed.2.1 ∧
        x.timer = landed.2.2.map (fun _ => 0) ∧ x.waiting = false ∧ x.w = some w ∧ x.p = p ∧
        (dropped → x.request = .none) ∧ (¬ dropped → x.request = l.sel.request)) ∧
      (landed.1 ≠ l.sel.selected → hasKind l.fields.mask .select = false → u.tells (.record r) .select) ∧
      (∀ q, q ≠ r → u.record q = s.sup.record q) ∧ s.sup.sameRecords u) ∧
  ∀ (u : Supervision) (r : RecIx) (l : Live) (w : Judgement) (p : Option Judgement), u.live r = some l →
    l.sel.mode = .live → l.sel.timer = none → l.sel.waiting = false → l.sel.selected = .P → u.pool.lowestFree = none →
    let v := u.evaluate r true w p
    let mw := meritOf l.fields.degradeSwitch (some w)
    let mp := meritOf l.fields.degradeSwitch p
    let short := fun x : Selector =>
      v.sel r = some x ∧ x.timer = none ∧ v.pool.shorts = satInc u.pool.shorts ∧ v.pool.timers = u.pool.timers ∧
        (hasKind l.fields.mask .timerShort = false → v.tells (.record r) .timerShort)
    (l.sel.state = .holdP → ¬ mp < mw → l.fields.revertive = true → mw = 2 → l.sel.request ≠ .steerP →
      ∃ x, short x ∧ x.state = .ret ∧ x.selected = .P ∧ x.waiting = true ∧ v.pool.waiters = u.pool.waiters ++ [r]) ∧
    (l.sel.state = .ret → mw ≠ 2 → mp < mw → l.fields.holdOff ≠ 0 →
      ∃ x, short x ∧ x.state = .onW ∧ x.selected = .W ∧ x.waiting = false ∧ v.pool.waiters = u.pool.waiters)

/-! ## Records -/

/-- CREATE (R54, R55, R56): the fields carried, in range, become a STAGED record on the lowest index that is FREE and not
held, under the next generation, in PREVIEW and judged at once, its first evaluation selecting the higher ranking source and
posting COND, and SELECT for a switch, unless masked; a reference is taken on each source's monitor; nothing else changes
and nothing else is posted. Where there is no such index it is refused with TABLE_FULL and the number of held indexes. Content out of
range is BAD_PARAM. -/
def Obligations.CreateMakesStagedRecord : Prop :=
  ∀ (s : State) (f : Fields), s.ready → FieldsLaw f → f.protect ≠ some f.working →
    (∀ r, s.sup.live r = none → (s.sup.record r).held = false →
      (∀ q, q < r → (s.sup.live q).isSome ∨ (s.sup.record q).held = true) →
      ∃ t : State,
        exec (.create (createParams f)) s =
          .next (t.answer .create (createParams f)
            ⟨.ok, [byteOfNat r.val, (s.sup.record r).generation + 1]⟩) ∧
        (t.sup.record r).generation = (s.sup.record r).generation + 1 ∧ (t.sup.record r).held = false ∧
        (∃ x, t.sup.live r = some { state := .staged, fields := f, sel := x } ∧ x.mode = .preview ∧ x.request = .none ∧
          x.timer = none ∧ x.waiting = false ∧ x.w = some (t.judge f f.working) ∧ x.p = f.protect.map (t.judge f) ∧
          x.selected = (if meritOf f.degradeSwitch x.w < meritOf f.degradeSwitch x.p then .P else .W) ∧
          t.sup.notices =
            (([(true, .cond), (x.selected == .P, .select)] : List (Bool × Kind)).filter
              (fun k => k.1 && !hasKind f.mask k.2)).foldl
                (fun xs k => addNotice (.record r) (some ((s.sup.record r).generation + 1)) k.2 xs) s.sup.notices) ∧
        (∀ q, q ≠ r → t.sup.record q = s.sup.record q) ∧ t.sup.pool = s.sup.pool ∧
        (∀ src, t.monitor src = if src ∈ f.sources then (s.monitor src).takeRef else s.monitor src) ∧
        t = { s with monA := t.monA, monB := t.monB, sup := t.sup }) ∧
    ((∀ q, (s.sup.live q).isSome ∨ (s.sup.record q).held = true) →
      exec (.create (createParams f)) s =
        .next (s.answer .create (createParams f)
          ⟨.tableFull, [byteOfNat ((List.finRange 64).countP (fun q => (s.sup.record q).held))]⟩)) ∧
    ∀ (egress working protect flags code outCode holdOff : Byte) (returnTime : BitVec 16) (mask : Byte) (names : List Byte),
      names.length = (if flags.getLsbD 2 then 16 else 0) + (if flags.getLsbD 4 then 16 else 0) →
      badCreate egress working protect flags code outCode holdOff returnTime mask names →
      let params := [egress, working, protect, flags, code, outCode, holdOff] ++ bytes16 returnTime ++ [mask] ++ names
      exec (.create params) s = .next (s.answer .create params ⟨.badParam, []⟩)

/-- R52, R53: every command that names a ref checks it before anything else but lengths and ranges: an index of 64 or more
is BAD_PARAM, a generation that is not the index's is STALE_REF, and a FREE record reached with its generation is
WRONG_STATE. So is a live record in a state the command is not taken in: ACTIVATE but in STAGED; AMEND, RETIRE and REQUEST
in RETIRING; AMEND of egress slot or sources but in STAGED (R70); REPLACE but of an ACTIVE record by a STAGED one. Values out
of range, and an amended record naming one slot twice, are BAD_PARAM (R68, R116). No state is changed. The length asked of an
item set with bits 12 to 15 set is the model's choice (log 28). -/
def Obligations.RefsAreCheckedFirst : Prop :=
  (∀ (s : State) (index generation : Byte) (status : Status), s.ready →
    (64 ≤ index.toNat ∧ status = .badParam) ∨
      (∃ r : RecIx, r.val = index.toNat ∧ (s.sup.record r).generation ≠ generation ∧ status = .staleRef) ∨
      (∃ r : RecIx, r.val = index.toNat ∧ (s.sup.record r).generation = generation ∧ s.sup.live r = none ∧
        status = .wrongState) →
    exec (.activate [index, generation]) s = .next (s.answer .activate [index, generation] ⟨status, []⟩) ∧
    exec (.retire [index, generation]) s = .next (s.answer .retire [index, generation] ⟨status, []⟩) ∧
    exec (.recordRead [index, generation]) s = .next (s.answer .recordRead [index, generation] ⟨status, []⟩) ∧
    (∀ kind : Byte, kind.toNat ≤ 4 →
      let params := [index, generation, kind]
      ∀ i ∈ [Instr.pin params, Instr.steer params, Instr.release params],
        exec i s = .next (s.answer .request params ⟨status, []⟩)) ∧
    (∀ a : Amendment, AmendmentLaw a →
      let params := [index, generation] ++ amendParams a
      exec (.amend params) s = .next (s.answer .amend params ⟨status, []⟩)) ∧
    (status ≠ .wrongState → ∀ index' generation',
      let params := [index, generation, index', generation']
      exec (.replace params) s = .next (s.answer .replace params ⟨status, []⟩)) ∧
    (status ≠ .wrongState → ∀ r : RecIx,
      let params := s.sup.ref r ++ [index, generation]
      exec (.replace params) s = .next (s.answer .replace params ⟨status, []⟩))) ∧
  (∀ (s : State) (r : RecIx) (l : Live), s.ready → s.sup.live r = some l →
    let ref := s.sup.ref r
    (l.state ≠ .staged → exec (.activate ref) s = .next (s.answer .activate ref ⟨.wrongState, []⟩)) ∧
    (l.state = .retiring →
      exec (.retire ref) s = .next (s.answer .retire ref ⟨.wrongState, []⟩) ∧
      ∀ kind : Byte, kind.toNat ≤ 4 → ∀ i ∈ [Instr.pin (ref ++ [kind]), Instr.steer (ref ++ [kind]), Instr.release (ref ++ [kind])],
        exec i s = .next (s.answer .request (ref ++ [kind]) ⟨.wrongState, []⟩)) ∧
    (∀ a : Amendment, AmendmentLaw a →
      let params := ref ++ amendParams a
      (l.state = .retiring ∨ (l.state ≠ .staged ∧ a.ofStaged) →
        exec (.amend params) s = .next (s.answer .amend params ⟨.wrongState, []⟩)) ∧
      (l.state = .staged → a.protect.getD l.fields.protect = some (a.working.getD l.fields.working) →
        exec (.amend params) s = .next (s.answer .amend params ⟨.badParam, []⟩)))) ∧
  (∀ (s : State) (o n : RecIx), s.ready →
    let params := s.sup.ref o ++ s.sup.ref n
    (s.sup.live o).map (·.state) ≠ some LiveState.active ∨ (s.sup.live n).map (·.state) ≠ some LiveState.staged →
      exec (.replace params) s = .next (s.answer .replace params ⟨.wrongState, []⟩)) ∧
  ∀ (s : State) (index generation : Byte), s.ready →
    (∀ kind : Byte, 4 < kind.toNat →
      let params := [index, generation, kind]
      ∀ i ∈ [Instr.pin params, Instr.steer params, Instr.release params],
        exec i s = .next (s.answer .request params ⟨.badParam, []⟩)) ∧
    ∀ (v : AmendBytes) (others : BitVec 16), v.shaped → others &&& 0x0FFF = 0 →
      (others ≠ 0 ∨ ∀ a : Amendment, AmendmentLaw a → a.carried ≠ v) →
      let params := [index, generation] ++ bytes16 (v.items ||| others) ++ v.bytes
      exec (.amend params) s = .next (s.answer .amend params ⟨.badParam, []⟩)

/-- ACTIVATE of a STAGED record (R57, R84, R85, R89, R95): on an owned slot SLOT_BUSY, on an unowned slot with a pending
update SLOT_PENDING, neither changing anything. Else, RUNNING: the record is ARMED and its ENTER joins the tail (PENDING);
STOPPED: the record owns its slot, ACTIVE and in LIVE, and ACTIVATED is posted (APPLIED). -/
def Obligations.ActivateEntersSlot : Prop :=
  ∀ (s : State) (r : RecIx) (l : Live), s.ready → s.sup.live r = some l → l.state = .staged →
    let n := l.fields.egress
    let params := s.sup.ref r
    ((pick s.owner n).isSome →
      exec (.activate params) s = .next (s.answer .activate params ⟨.slotBusy, []⟩)) ∧
    (pick s.owner n = none → (∃ u ∈ s.updates, u.slot = n) →
      exec (.activate params) s = .next (s.answer .activate params ⟨.slotPending, []⟩)) ∧
    (pick s.owner n = none → (∀ u ∈ s.updates, u.slot ≠ n) → s.egress.running = true →
      ∃ t : State, exec (.activate params) s = .next (t.answer .activate params ⟨.ok, [0]⟩) ∧
        t.updates = s.updates ++ [.enter n r] ∧ t.sup.live r = some { l with state := .armed } ∧
        (t.sup.record r).generation = (s.sup.record r).generation ∧ (∀ q, q ≠ r → t.sup.record q = s.sup.record q) ∧
        t.sup.pool = s.sup.pool ∧ t.sup.notices = s.sup.notices ∧ t = { s with sup := t.sup, updates := t.updates }) ∧
    (pick s.owner n = none → (∀ u ∈ s.updates, u.slot ≠ n) → s.egress.running = false →
      ∃ t : State, exec (.activate params) s = .next (t.answer .activate params ⟨.ok, [1]⟩) ∧
        pick t.owner n = some r ∧ (∀ m, m ≠ n → pick t.owner m = pick s.owner m) ∧
        (∃ x, t.sup.live r = some { state := .active, fields := l.fields, sel := x } ∧ x.mode = .live) ∧
        t.sup.tells (.record r) .activated ∧
        (∀ q, q ≠ r → (t.sup.record q).generation = (s.sup.record q).generation ∧
          (t.sup.live q).map (fun k => (k.state, k.fields)) = (s.sup.live q).map (fun k => (k.state, k.fields))) ∧
        t = { s with sup := t.sup, owner := t.owner })

/-- REPLACE of an ACTIVE record by a STAGED one naming its slot (R59, R86, R91, R95). RUNNING: the old record is RETIRING,
frozen on its selection, the new one ARMED, and their HANDOVER joins the tail (PENDING). STOPPED: the slot's owner becomes
the new record, ACTIVE and in LIVE, the old one is FREE and held, RETIRED and ACTIVATED are posted (APPLIED). A new record
naming another slot is BAD_PARAM. -/
def Obligations.ReplaceHandsOver : Prop :=
  ∀ (s : State) (o n : RecIx) (lo ln : Live), s.ready → s.sup.live o = some lo → s.sup.live n = some ln →
    lo.state = .active → ln.state = .staged →
    let slot := lo.fields.egress
    let params := s.sup.ref o ++ s.sup.ref n
    (ln.fields.egress ≠ slot →
      exec (.replace params) s = .next (s.answer .replace params ⟨.badParam, []⟩)) ∧
    (ln.fields.egress = slot → (∀ u ∈ s.updates, u.slot ≠ slot) → s.egress.running = true →
      ∃ t : State, exec (.replace params) s = .next (t.answer .replace params ⟨.ok, [0]⟩) ∧
        t.updates = s.updates ++ [.handover slot o n] ∧ t.owner = s.owner ∧ t.sup.notices = s.sup.notices ∧
        (∃ x, t.sup.live o = some { state := .retiring, fields := lo.fields, sel := x } ∧ x.mode = .frozen ∧
          x.selected = lo.sel.selected ∧ x.request = lo.sel.request) ∧
        (∃ x, t.sup.live n = some { state := .armed, fields := ln.fields, sel := x } ∧ x.mode = ln.sel.mode) ∧
        t = { s with sup := t.sup, updates := t.updates }) ∧
    (ln.fields.egress = slot → (∀ u ∈ s.updates, u.slot ≠ slot) → s.egress.running = false →
      ∃ t : State, exec (.replace params) s = .next (t.answer .replace params ⟨.ok, [1]⟩) ∧
        pick t.owner slot = some n ∧ (∀ m, m ≠ slot → pick t.owner m = pick s.owner m) ∧ t.updates = s.updates ∧
        t.sup.live o = none ∧ (t.sup.record o).held = true ∧
        (t.sup.record o).generation = (s.sup.record o).generation ∧ t.sup.tells (.record o) .retired ∧
        (∃ x, t.sup.live n = some { state := .active, fields := ln.fields, sel := x } ∧ x.mode = .live) ∧
        t.sup.tells (.record n) .activated ∧ (∀ b, t.rx b = s.rx b) ∧ t.egress = s.egress)

/-- RETIRE by the record's state (R61 to R66, R87, R93 to R95), the laws of the part holding. STAGED: FREE, held, RETIRED
posted, a reference dropped on each source's monitor. ARMED with an ENTER: that too, its ENTER removed. ARMED as incoming
record of a HANDOVER: that too, the HANDOVER removed, the outgoing record ACTIVE and in LIVE again. ACTIVE while RUNNING:
RETIRING, frozen on its selection, a LEAVE at the tail. ACTIVE while STOPPED: as STAGED, its slot unowned. -/
def Obligations.RetireActsByState : Prop :=
  ∀ (s : State) (r : RecIx) (l : Live), s.ready → Inv s → s.sup.live r = some l →
    let n := l.fields.egress
    let params := s.sup.ref r
    let freed := fun t : State =>
      t.sup.live r = none ∧ (t.sup.record r).held = true ∧ (t.sup.record r).generation = (s.sup.record r).generation ∧
        t.sup.tells (.record r) .retired ∧
        ∀ src, t.monitor src = if src ∈ l.fields.sources then (s.monitor src).dropRef else s.monitor src
    (l.state = .staged →
      ∃ t : State, exec (.retire params) s = .next (t.answer .retire params ⟨.ok, [1]⟩) ∧ freed t ∧
        (∀ q, q ≠ r → t.sup.record q = s.sup.record q) ∧ t.sup.pool = s.sup.pool ∧
        t = { s with monA := t.monA, monB := t.monB, sup := t.sup }) ∧
    (.enter n r ∈ s.updates →
      ∃ t : State, exec (.retire params) s = .next (t.answer .retire params ⟨.ok, [1]⟩) ∧ freed t ∧
        t.updates = s.updates.filter (fun u => decide (u ≠ .enter n r)) ∧ t.owner = s.owner ∧
        (∀ q, q ≠ r → t.sup.record q = s.sup.record q)) ∧
    (∀ o, .handover n o r ∈ s.updates →
      ∃ t : State, exec (.retire params) s = .next (t.answer .retire params ⟨.ok, [1]⟩) ∧ freed t ∧
        t.updates = s.updates.filter (fun u => decide (u ≠ .handover n o r)) ∧ t.owner = s.owner ∧
        ∃ lo x, s.sup.live o = some lo ∧
          t.sup.live o = some { state := .active, fields := lo.fields, sel := x } ∧ x.mode = .live) ∧
    (l.state = .active → s.egress.running = true →
      ∃ t : State, exec (.retire params) s = .next (t.answer .retire params ⟨.ok, [0]⟩) ∧
        t.updates = s.updates ++ [.leave n r] ∧ t.owner = s.owner ∧ t.sup.notices = s.sup.notices ∧
        ∃ x, t.sup.live r = some { state := .retiring, fields := l.fields, sel := x } ∧ x.mode = .frozen ∧
          x.selected = l.sel.selected ∧ x.request = l.sel.request ∧ x.timer = none ∧ x.waiting = false) ∧
    (l.state = .active → s.egress.running = false →
      ∃ t : State, exec (.retire params) s = .next (t.answer .retire params ⟨.ok, [1]⟩) ∧ freed t ∧
        pick t.owner n = none ∧ (∀ m, m ≠ n → pick t.owner m = pick s.owner m))

/-- AMEND (R69 to R75, R200) of a record that is not RETIRING, by any set of items in range: every chosen item is written
together; a reference is taken on each new source's monitor and dropped on each replaced one's, an unreferenced monitor
starting clean and the last reference clearing it (R70); a request that lost its protect source is NONE; with no selection
item chosen nothing is evaluated and nothing else changes; with one chosen the record is judged by its new expectations;
the record's state is kept and the result is its ref. -/
def Obligations.AmendWritesItems : Prop :=
  ∀ (s : State) (r : RecIx) (l : Live) (a : Amendment),
    s.ready → s.sup.live r = some l → l.state ≠ .retiring → AmendmentLaw a → (a.ofStaged → l.state = .staged) →
    let f : Fields :=
      { egress := a.egress.getD l.fields.egress
        working := a.working.getD l.fields.working
        protect := a.protect.getD l.fields.protect
        revertive := a.revertive.getD l.fields.revertive
        degradeSwitch := a.degrade.getD l.fields.degradeSwitch
        expectedName := a.expectedName.getD l.fields.expectedName
        expectedCode := a.expectedCode.getD l.fields.expectedCode
        outName := a.outName.getD l.fields.outName
        outCode := a.outCode.getD l.fields.outCode
        holdOff := a.holdOff.getD l.fields.holdOff
        returnTime := a.ret.getD l.fields.returnTime
        mask := a.mask.getD l.fields.mask }
    f.protect ≠ some f.working →
    let params := s.sup.ref r ++ amendParams a
    let request :=
      if f.protect = none ∧ (l.sel.request = .pinP ∨ l.sel.request = .steerP) then .none else l.sel.request
    let taken := a.working.toList ++ (a.protect.getD none).toList
    let dropped :=
      (if a.working.isSome then [l.fields.working] else []) ++ (if a.protect.isSome then l.fields.protect.toList else [])
    let selecting := a.working.isSome ∨ a.protect.isSome ∨ a.revertive.isSome ∨ a.degrade.isSome ∨ a.expectedName.isSome ∨
      a.expectedCode.isSome
    ∃ t : State, exec (.amend params) s = .next (t.answer .amend params ⟨.ok, s.sup.ref r⟩) ∧
      (¬ selecting →
        t.sup.live r = some { l with fields := f, sel := { l.sel with request := request } } ∧
          (∀ q, q ≠ r → t.sup.record q = s.sup.record q) ∧ t.sup.pool = s.sup.pool ∧ t.sup.notices = s.sup.notices ∧
          t = { s with sup := t.sup }) ∧
      (selecting →
        ∃ x, t.sup.live r = some { state := l.state, fields := f, sel := x } ∧ x.mode = l.sel.mode ∧
          x.w = some (t.judge f f.working) ∧ x.p = f.protect.map (t.judge f) ∧
          (x.request = request ∨ x.request = .none) ∧
          (hasKind f.mask .cond = false → l.sel.w ≠ x.w ∨ l.sel.p ≠ x.p → t.sup.tells (.record r) .cond)) ∧
      (∀ src, src ∉ taken → src ∉ dropped → t.monitor src = s.monitor src) ∧
      (ReferenceLaw s → ∀ src, src ∈ taken ∨ src ∈ dropped →
        let refs := (s.monitor src).refs + taken.count src - dropped.count src
        t.monitor src =
          if (s.monitor src).refs = 0 ∨ refs = 0 then Monitor.clean refs else { s.monitor src with refs := refs }) ∧
      (t.sup.record r).generation = (s.sup.record r).generation ∧ (t.sup.record r).held = (s.sup.record r).held ∧
      t.updates = s.updates ∧ t.owner = s.owner ∧ (∀ b, t.rx b = s.rx b) ∧ t.egress = s.egress ∧ t.alertOn = s.alertOn

/-- PIN, STEER and RELEASE of a record that is not RETIRING (R117 to R120): the request is set and the record evaluated; a
pin selects its source; a steer selects its source where it does not rank below the other and then stays in force; RELEASE
leaves NONE; the result is mode, state, selected source and request as they then stand; a kind naming an absent protect
source is NO_PROTECT. -/
def Obligations.RequestsSettle : Prop :=
  ∀ (s : State) (r : RecIx) (l : Live) (kind : Request), s.ready → Inv s → s.sup.live r = some l →
    l.state ≠ .retiring →
    let params := s.sup.ref r ++ [kind.byte]
    let w := s.judge l.fields l.fields.working
    let p := l.fields.protect.map (s.judge l.fields)
    let mw := meritOf l.fields.degradeSwitch (some w)
    let mp := meritOf l.fields.degradeSwitch p
    (kind = .pinP ∨ kind = .steerP → l.fields.protect = none →
      ∀ i ∈ [Instr.pin params, Instr.steer params, Instr.release params],
        exec i s = .next (s.answer .request params ⟨.noProtect, []⟩)) ∧
    ((kind = .pinP ∨ kind = .steerP → l.fields.protect ≠ none) →
      ∃ (t : State) (x : Selector),
        (∀ i ∈ [Instr.pin params, Instr.steer params, Instr.release params],
          exec i s =
            .next (t.answer .request params ⟨.ok, [x.mode.byte, x.state.byte, x.selected.byte, x.request.byte]⟩)) ∧
        t = { s with sup := t.sup } ∧ s.sup.sameRecords t.sup ∧
        t.sup.sel r = some x ∧ x.mode = l.sel.mode ∧ x.w = some w ∧ x.p = p ∧
        (kind = .pinW → x.selected = .W ∧ x.state = .onW ∧ x.request = .pinW) ∧
        (kind = .pinP → x.selected = .P ∧ x.state = .onP ∧ x.request = .pinP) ∧
        (kind = .steerW → mp ≤ mw → x.selected = .W ∧ x.request = .steerW) ∧
        (kind = .steerP → mw ≤ mp → x.selected = .P ∧ x.request = .steerP) ∧
        (kind = .none → x.request = .none))

/-- The reads report and change no state but the link's (R19, R45, R76, R98, R142, R190, R198, R201); a bus selector, a
source byte or a range of egress slots out of range is BAD_PARAM. The codes and layouts they use are pinned by literal codes
and bit by bit: bus, record, selector and request states, conditions, causes, sources, flags, kinds, subjects, header words
and counts of several bytes, most significant first (R197, R198, R200 to R202). -/
def Obligations.ReadsReport : Prop :=
  FormatLaw ∧
  ∀ s : State, s.ready →
    (∀ b, exec (.busRead [busSelector b]) s =
      .next
        (s.answer .busRead [busSelector b]
          ⟨.ok,
            [(s.rx b).state.byte, byteOfNat (s.rx b).badChecks, byteOfBool (s.rx b).enable, (s.rx b).sense.byte,
              (s.rx b).scope.byte, (s.rx b).threshold] ++ bytes32 (s.rx b).parityErrored
              ++ bytes32 (s.rx b).badFrameChecks ++ bytes32 (s.rx b).alignLosses⟩)) ∧
    exec (.busRead [0x02]) s =
      .next
        (s.answer .busRead [0x02]
          ⟨.ok, [s.egress.sense.byte, s.egress.scope.byte, if s.egress.running then 1 else 0]⟩) ∧
    (∀ src : Source, let m := s.monitor src
      exec (.sourceRead [src.byte]) s =
        .next
          (s.answer .sourceRead [src.byte]
            ⟨.ok,
              [(s.rx src.bus).state.byte, byteOfNat m.refs, byteOfBool m.filled, byteOfNat m.fillRun, byteOfBool m.framed,
                if m.framed then byteOfNat m.mfPos else 0, if m.framed then byteOfNat m.fails else 0,
                (m.code.map (·.setWidth 8)).getD 0xFF, (m.codeCandidate.map (·.setWidth 8)).getD 0xFF,
                byteOfNat m.codeRun, byteOfBool m.name.isSome, byteOfNat m.matchCount, byteOfBool m.rf,
                byteOfBool m.degraded, byteOfNat m.blockPos, byteOfNat m.blockErrored]
                ++ bytes32 m.erroredFrames ++ bytes16 m.fillDeclarations ++ nameBytes (m.name.getD [])⟩)) ∧
    (∀ (slots : List SlotIx) (first count : Byte), slots.map (·.val) = List.range' first.toNat count.toNat →
      1 ≤ count.toNat → count.toNat ≤ 8 →
      ∃ entry : SlotIx → List Byte,
        exec (.mapRead [first, count]) s =
          .next
            (s.answer .mapRead [first, count]
              ⟨.ok, [if s.egress.running then 1 else 0, byteOfNat s.updates.length] ++ slots.flatMap entry⟩) ∧
        ∀ n ∈ slots, ∃ update : List Byte,
          entry n =
            (match pick s.owner n with
              | none => [0x80, 0]
              | some r =>
                [(if (s.sup.live r).map (·.state) = some LiveState.retiring then 0x40#8 else 0) ||| byteOfNat r.val,
                  (s.sup.record r).generation])
              ++ update ++ bytes16 (pick s.egress.alarmFill n) ∧
          ((∀ u ∈ s.updates, u.slot ≠ n) → update = [0, 0, 0]) ∧
          ∀ before u after, s.updates = before ++ u :: after → u.slot = n → (∀ x ∈ before, x.slot ≠ n) →
            update = (match u with
              | .enter _ r => [0x40 ||| byteOfNat r.val, (s.sup.record r).generation, byteOfNat (before.length + 1)]
              | .leave _ _ => [0x80, 0, byteOfNat (before.length + 1)]
              | .handover _ _ r =>
                [0xC0 ||| byteOfNat r.val, (s.sup.record r).generation, byteOfNat (before.length + 1)])) ∧
    (∀ first count : Byte,
      47 < first.toNat ∨ count.toNat = 0 ∨ 8 < count.toNat ∨ 48 < first.toNat + count.toNat →
      exec (.mapRead [first, count]) s = .next (s.answer .mapRead [first, count] ⟨.badParam, []⟩)) ∧
    (∀ sel : Byte, 2 < sel.toNat → exec (.busRead [sel]) s = .next (s.answer .busRead [sel] ⟨.badParam, []⟩)) ∧
    (∀ src : Byte, src.getLsbD 6 = true ∨ 47 < (src.extractLsb' 0 6).toNat →
      exec (.sourceRead [src]) s = .next (s.answer .sourceRead [src] ⟨.badParam, []⟩)) ∧
    (∀ r l, s.sup.live r = some l → ∃ bytes : List Byte,
      exec (.recordRead (s.sup.ref r)) s = .next (s.answer .recordRead (s.sup.ref r) ⟨.ok, bytes⟩) ∧
      bytes.take 20 =
        [l.state.byte, (s.sup.record r).generation, byteOfNat l.fields.egress.val, l.fields.working.byte,
          (match l.fields.protect with
            | some src => src.byte
            | none => 0xFF),
          l.fields.flags, (l.fields.expectedCode.map (·.setWidth 8)).getD 0,
          (l.fields.outCode.map (·.setWidth 8)).getD 0xFF, l.fields.holdOff, l.fields.returnTime.extractLsb' 8 8,
          l.fields.returnTime.extractLsb' 0 8, l.fields.mask, l.sel.mode.byte, l.sel.state.byte, l.sel.selected.byte,
          l.sel.request.byte] ++ judgementBytes l.sel.w ++ judgementBytes l.sel.p ∧
      bytes.drop 27 = nameBytes (l.fields.expectedName.getD []) ++ nameBytes (l.fields.outName.getD []) ∧
      (l.sel.timer = none → (bytes.drop 20).take 5 = [0xFF, 0, 0, 0, 0]) ∧
      (∀ t timer, l.sel.timer = some t → pick s.sup.pool.timers t = some timer →
        (bytes.drop 20).take 5 =
          [byteOfNat t.val, timer.purpose.byte] ++ bytes24 (BitVec.ofNat 24 timer.remaining)) ∧
      (bytes.drop 25).take 2 = [byteOfBool l.sel.waiting, byteOfNat (s.sup.pool.position r)]) ∧
    (∀ early : List (List Bool),
      exec (.linkRead [] early) s =
        .next
          { s with
            link :=
              (s.link.taken (commandFrame .linkRead [])
                ⟨.ok,
                  bytes16 (satInc s.link.framesTaken) ++ bytes16 s.link.badLength ++ bytes16 s.link.badCheck
                    ++ bytes16 s.link.badCode ++ bytes16 (satAdd s.link.busyHits early.length) ++ bytes16 s.link.dropped
                    ++ [byteOfNat s.sup.pool.running, byteOfNat s.sup.pool.waiters.length,
                      (match s.sup.pool.waiters with
                        | [] => 0xFF
                        | h :: _ => byteOfNat h.val)]
                    ++ bytes16 s.sup.pool.shorts ++ [byteOfNat s.sup.pool.highWater]⟩).refused early })

/-! ## Notices, alert line, counters -/

/-- R163, R164: a posting for a queued subject adds its kind in place, and one for another subject makes one entry at the
tail; so a queue with at most one entry a subject keeps that, and never holds more than 67 entries. -/
def Obligations.QueueTakesPostings : Prop :=
  (∀ u : Supervision, NoticeLaw u → u.notices.length ≤ 67) ∧
  ∀ (xs : List Entry) (x : Subject) (g : Option Byte) (k : Kind), (xs.map (·.subject)).Nodup →
    ((∀ e ∈ xs, e.subject ≠ x) →
      addNotice x g k xs = xs ++ [{ subject := x, generation := g, kinds := k.bit }]) ∧
    ((∃ e ∈ xs, e.subject = x) →
      addNotice x g k xs = xs.map (fun e => if e.subject = x then { e with kinds := e.kinds ||| k.bit } else e)) ∧
    ((addNotice x g k xs).map (·.subject)).Nodup ∧ (addNotice x g k xs).length ≤ 67

/-- R167, R168, R171: NOTICE_FETCH removes the head entry and answers with its subject, generation, kinds, the entries left,
and the subject's snapshot as it stands; the hold on an index ends with its entry carrying RETIRED (R170). On an empty
queue it answers QUEUE_EMPTY and changes no state. -/
def Obligations.NoticeFetchTakesHead : Prop :=
  ∀ s : State, s.ready →
    (s.sup.notices = [] → exec (.noticeFetch []) s = .next (s.answer .noticeFetch [] ⟨.queueEmpty, []⟩)) ∧
    ∀ e rest, s.sup.notices = e :: rest →
      (∀ b, e.subject = .bus b → e.generation = none →
        exec (.noticeFetch []) s =
          .next ({ s with sup := { s.sup with notices := rest } }.answer .noticeFetch []
            ⟨.ok, [0x40 ||| busSelector b, e.kinds, byteOfNat rest.length, (s.rx b).state.byte]⟩)) ∧
      (e.subject = .egress → e.generation = none →
        exec (.noticeFetch []) s =
          .next ({ s with sup := { s.sup with notices := rest } }.answer .noticeFetch []
            ⟨.ok, [0x42, e.kinds, byteOfNat rest.length, if s.egress.running then 1 else 0]⟩)) ∧
      (∀ r g l, e.subject = .record r → e.generation = some g → hasKind e.kinds .retired = false →
        s.sup.live r = some l →
        exec (.noticeFetch []) s =
          .next ({ s with sup := { s.sup with notices := rest } }.answer .noticeFetch []
            ⟨.ok, [byteOfNat r.val, g, e.kinds, byteOfNat rest.length, l.state.byte, l.sel.selected.byte,
              l.sel.request.byte] ++ judgementBytes l.sel.w ++ judgementBytes l.sel.p⟩)) ∧
      (∀ r g, e.subject = .record r → e.generation = some g → hasKind e.kinds .retired = true →
        ∃ t : State,
          exec (.noticeFetch []) s =
            .next (t.answer .noticeFetch [] ⟨.ok, [byteOfNat r.val, g, e.kinds, byteOfNat rest.length, 0]⟩) ∧
          t.sup.notices = rest ∧ t.sup.record r = { s.sup.record r with held := false } ∧
          (∀ q, q ≠ r → t.sup.record q = s.sup.record q) ∧ t.sup.pool = s.sup.pool ∧ t = { s with sup := t.sup })

/-- R172, R173: ALERT_SET writes the alert enable and answers it with the queue's count; nALERT is low exactly while the
queue is non-empty and the enable is on. Any other value is BAD_PARAM and changes nothing. -/
def Obligations.AlertSetWritesEnable : Prop :=
  (∀ (s : State) (on : Bool), s.ready →
    let t := { s with alertOn := on }
    exec (.alertSet [if on then 1 else 0]) s =
        .next (t.answer .alertSet [if on then 1 else 0] ⟨.ok, [if on then 1 else 0, byteOfNat s.sup.notices.length]⟩) ∧
      (t.nALERTLow = true ↔ s.sup.notices ≠ [] ∧ on = true)) ∧
  ∀ (s : State) (value : Byte), s.ready → 1 < value.toNat →
    exec (.alertSet [value]) s = .next (s.answer .alertSet [value] ⟨.badParam, []⟩)

/-- R199: COUNTERS_CLEAR sets the counters of its group and touches nothing else; a group above 0x06 is BAD_PARAM. Transfers
refused before the clearing are cleared with the link's counters and leave the collision flag set (R189). -/
def Obligations.CountersClearByGroup : Prop :=
  ∀ (s : State) (early : List (List Bool)), s.ready →
    let linkOf := fun group : Byte => fun status : Status =>
      (s.link.taken (commandFrame .countersClear [group]) ⟨status, []⟩).refused early
    (∀ b : Bus,
      exec (.countersClear [busSelector b] early) s =
        .next
          { s.setRx b { s.rx b with parityErrored := 0, badFrameChecks := 0, alignLosses := 0 } with
            link := linkOf (busSelector b) .ok }) ∧
    (∀ b : Bus,
      exec (.countersClear [0x02 + busSelector b] early) s =
        .next
          { s.setMons b (mapTable (fun m => { m with erroredFrames := 0, fillDeclarations := 0 }) (s.mons b)) with
            link := linkOf (0x02 + busSelector b) .ok }) ∧
    exec (.countersClear [0x04] early) s =
      .next
        { s with
          sup := { s.sup with pool := { s.sup.pool with shorts := 0, highWater := s.sup.pool.running } }
          link := linkOf 0x04 .ok } ∧
    exec (.countersClear [0x05] early) s =
      .next
        { s with
          egress := { s.egress with alarmFill := Vector.replicate 48 0 }
          link := linkOf 0x05 .ok } ∧
    exec (.countersClear [0x06] early) s =
      .next
        { s with
          link :=
            { linkOf 0x06 .ok with
              framesTaken := 0, badLength := 0, badCheck := 0, badCode := 0, busyHits := 0, dropped := 0 } } ∧
    ∀ group : Byte, 6 < group.toNat →
      exec (.countersClear [group] early) s = .next { s with link := linkOf group .badParam }

/-! ## Egress side -/

/-- The reference search of STOPPED (R147) on one edge, and the entry into RUNNING at a pulse 1,152 edges after the
candidate (R148): position 0, no miss, multiframe counter 0, slot 0 due to be built, STATE posted, the map and its list
untouched (R97). A map request in execution has its response built first, and the link is else unchanged: the model's
reading of R83 (log 10). That no candidate is held from there on is the model's choice (log 27), and that the building of
the due slot is a step of its own (log 9). -/
def Obligations.ReferenceSearchStartsEgress : Prop :=
  ∀ (s : State) (eref : Bool), s.nReset = true → s.egress.running = false →
    let pulse := eref && !s.egress.erefLevel
    (s.egress.candidate = none →
      exec (.referenceCandidate [eref]) s =
        .next { s with egress := { s.egress with erefLevel := eref, candidate := if pulse then some 0 else none } }) ∧
    (∀ c, s.egress.candidate = some c → c + 1 < 1152 →
      exec (.referenceCandidate [eref]) s =
        .next { s with egress := { s.egress with erefLevel := eref, candidate := some (if pulse then 0 else c + 1) } }) ∧
    (s.egress.candidate = some 1151 → pulse = false →
      exec (.referenceCandidate [eref]) s =
        .next { s with egress := { s.egress with erefLevel := eref, candidate := none } }) ∧
    (s.egress.candidate = some 1151 → pulse = true →
      ∃ t : State, exec (.egressRunning eref) s = .next t ∧
        t.egress =
          { s.egress with
            running := true
            framePos := 0
            misses := 0
            mfCount := 0
            candidate := none
            erefLevel := true
            headerDue := true } ∧
        t.sup = { s.sup with notices := addNotice .egress none .state s.sup.notices } ∧
        t.owner = s.owner ∧ t.updates = s.updates ∧ t.mons = s.mons ∧ s.answersRequest t ∧ s.sameBesideEgress t)

/-- The expected frame start (R149, R151, R152, R88). A reference pulse sets the miss count to 0, a first or second miss
adds 1, and a frame start is taken either way: position 0, the multiframe counter up by 1, slot 0 due to be built (its
building is a step of its own by the model's choice, log 9), every pending update applied and none left: owners written,
and, where owners, updates and record states agree (R82), each incoming record ACTIVE and in LIVE with ACTIVATED told, each
outgoing one FREE and held with RETIRED told (R58, R60, R66). The third miss stops the egress side (R150), as losing ECLK
does (R146): outputs low, positions and counts 0, no slot due, the pending list applied whole (R96), STATE queued. A map
request in execution has its response built before the frame start or the stop, and the link is else unchanged: the model's
reading of R83 (log 10). Losing ECLK while STOPPED discards the candidate only. -/
def Obligations.EgressFollowsReference : Prop :=
  ∀ s : State, s.nReset = true → (s.updates.map (·.slot)).Nodup →
    let applied := fun t : State =>
      t.updates = [] ∧ (∀ u ∈ s.updates, pick t.owner u.slot = u.incoming) ∧
        (∀ n, (∀ u ∈ s.updates, u.slot ≠ n) → pick t.owner n = pick s.owner n) ∧ s.sameBesideEgress t ∧
        s.answersRequest t ∧
        (OwnerLaw s → ∀ u ∈ s.updates,
          (∀ r l, u.incoming = some r → s.sup.live r = some l →
            (∃ x, t.sup.live r = some { state := .active, fields := l.fields, sel := x } ∧ x.mode = .live) ∧
              t.sup.tells (.record r) .activated) ∧
          ∀ r, u.outgoing = some r →
            t.sup.live r = none ∧ (t.sup.record r).held = true ∧
              (t.sup.record r).generation = (s.sup.record r).generation ∧ t.sup.tells (.record r) .retired)
    let stopped := fun t : State =>
      t.egress.running = false ∧ t.egress.framePos = 0 ∧ t.egress.misses = 0 ∧ t.egress.candidate = none ∧
        t.egress.out = EgressWord.low ∧ t.egress.sending = none ∧ t.egress.headerDue = false ∧
        t.egress.mfCount = s.egress.mfCount ∧ t.egress.sense = s.egress.sense ∧ t.egress.scope = s.egress.scope ∧
        (s.egress.headerDue = false → t.egress.alarmFill = s.egress.alarmFill) ∧
        t.sup.tells .egress .state ∧ applied t
    (∀ eref : Bool, s.egress.running = true → s.egress.framePos = 1151 →
      let pulse := eref && !s.egress.erefLevel
      ((pulse = true ∨ s.egress.misses + 1 < 3) →
        ∃ t : State, exec (.expectedFrameStart eref) s = .next t ∧ t.egress.running = true ∧ t.egress.framePos = 0 ∧
          t.egress.misses = (if pulse then 0 else s.egress.misses + 1) ∧ t.egress.mfCount = s.egress.mfCount + 1 ∧
          t.egress.erefLevel = eref ∧ t.egress.headerDue = true ∧ applied t ∧
          (s.egress.headerDue = false →
            t.egress =
              { s.egress with
                framePos := 0
                misses := t.egress.misses
                mfCount := t.egress.mfCount
                erefLevel := eref
                headerDue := true })) ∧
      (pulse = false → s.egress.misses = 2 →
        ∃ t : State, exec (.expectedFrameStart eref) s = .next t ∧ stopped t ∧ t.egress.erefLevel = eref)) ∧
    (s.egress.running = true →
      ∃ t : State, exec .egressClockLoss s = .next t ∧ stopped t ∧ t.egress.erefLevel = false) ∧
    (s.egress.running = false →
      exec .egressClockLoss s = .next { s with egress := { s.egress with erefLevel := false, candidate := none } })

/-- EGRESS_SLOT_BUILD at the header word of slot n (R153 to R158, R20): unequipped fill where the slot has no owner; alarm
fill, counted, where the stored condition of its owner's selected source is FAILED or that source has no valid store entry;
else the stored slot-frame, its header regenerated from the record's outgoing name and code. The header word is driven with its parity bit; nothing else
changes. That the edge at a header word and the building of its slot are two steps is the model's choice (log 9). -/
def Obligations.EgressSlotIsBuilt : Prop :=
  ∀ (s : State) (n : SlotIx), s.egress.running = true → s.egress.headerDue = true →
    s.egress.framePos = 24 * n.val →
    let phase := s.egress.mfCount
    let sent := fun (t : State) (x : Sending) (alarmFill : Vector (BitVec 16) 48) =>
      x.sense = s.egress.sense ∧ x.scope = s.egress.scope ∧ x.header.extractLsb' 7 3 = 0 ∧
        t =
          { s with
            egress :=
              { s.egress with
                sending := some x
                headerDue := false
                alarmFill := alarmFill
                out :=
                  { data := x.header
                    ss := true
                    fs := n.val == 0
                    fill := x.fill
                    par := parityBit s.egress.sense s.egress.scope x.header true (n.val == 0) x.fill } } }
    (pick s.owner n = none →
      ∃ (t : State) (x : Sending), exec (.egressSlotBuild []) s = .next t ∧ sent t x s.egress.alarmFill ∧
        x.payload = List.replicate 23 0x0000 ∧ x.fill = false ∧ hdrMK x.header = (phase == 0) ∧
        hdrRF x.header = false ∧ hdrCode x.header = 0 ∧ hdrChar x.header = 0x20) ∧
    ∀ r l, pick s.owner n = some r → s.sup.live r = some l →
      let selected : Option Source :=
        match l.sel.selected with
        | .W => some l.fields.working
        | .P => l.fields.protect
      let stored : Option Judgement :=
        match l.sel.selected with
        | .W => l.sel.w
        | .P => l.sel.p
      ((∀ j, stored = some j → j.condition = .failed) ∨
          (∀ src, selected = some src → pick (s.rx src.bus).store src.slot = none) →
        ∃ (t : State) (x : Sending), exec (.egressSlotBuild []) s = .next t ∧
          sent t x (put s.egress.alarmFill n (satInc (pick s.egress.alarmFill n))) ∧
          x.payload = List.replicate 23 0xFFFF ∧ x.fill = true ∧ hdrMK x.header = (phase == 0) ∧
          hdrRF x.header = false ∧ hdrCode x.header = 15 ∧
          hdrChar x.header = match l.fields.outName with
            | none => 0x20
            | some name => name.getD phase.toNat 0x20) ∧
      (∀ j src frame, stored = some j → j.condition ≠ .failed → selected = some src →
        pick (s.rx src.bus).store src.slot = some frame →
        ∃ (t : State) (x : Sending), exec (.egressSlotBuild []) s = .next t ∧ sent t x s.egress.alarmFill ∧
          x.payload = frame.payload ∧ x.fill = frame.fill ∧ hdrRF x.header = hdrRF frame.header ∧
          hdrMK x.header = (match l.fields.outName with
            | none => hdrMK frame.header
            | some _ => phase == 0) ∧
          hdrChar x.header = (match l.fields.outName with
            | none => hdrChar frame.header
            | some name => name.getD phase.toNat 0x20) ∧
          hdrCode x.header = (match l.fields.outCode with
            | none => hdrCode frame.header
            | some code => code))

/-- Edges of ECLK between header words (R149, R153, section 1.8): each moves the frame position on by one; at a payload
position the slot-frame being sent drives its next word, ESS, EFS and EFILL low; at a header position the slot is built as
EGRESS_SLOT_BUILD builds it there. Nothing but the egress assembler changes. -/
def Obligations.EgressEdgesDriveWords : Prop :=
  ∀ (s : State) (eref : Bool), s.nReset = true → s.egress.running = true → s.egress.headerDue = false →
    s.egress.framePos + 1 < 1152 →
    let pos := s.egress.framePos + 1
    (pos % 24 ≠ 0 → ∀ x, s.egress.sending = some x →
      let data := x.payload.getD (pos % 24 - 1) 0
      let out := { data, ss := false, fs := false, fill := false, par := parityBit x.sense x.scope data false false false }
      exec (.egressSlotBuild [eref]) s =
        .next { s with egress := { s.egress with framePos := pos, erefLevel := eref, out } }) ∧
    (pos % 24 = 0 →
      exec (.egressSlotBuild [eref]) s =
        exec (.egressSlotBuild []) { s with egress := { s.egress with framePos := pos, erefLevel := eref, headerDue := true } })

/-- Rows that carry a list take its words or edges one by one (log 1): the row of a longer list is the row of its first part
and then the row of its rest. And the 23 payload words of slot 0, taken after its header word, complete its slot-frame, as
those of any other slot do. -/
def Obligations.ListsAreTakenOneByOne : Prop :=
  (∀ (s t : State) (b : Bus) (xs ys : List IngressWord),
    (exec (.slotFrameComplete b xs) s = .next t →
      exec (.slotFrameComplete b (xs ++ ys)) s = exec (.slotFrameComplete b ys) t) ∧
    (exec (.frameStartCandidate b xs) s = .next t →
      exec (.frameStartCandidate b (xs ++ ys)) s = exec (.frameStartCandidate b ys) t)) ∧
  (∀ (s t : State) (xs ys : List Bool), exec (.referenceCandidate xs) s = .next t →
    exec (.referenceCandidate (xs ++ ys)) s = exec (.referenceCandidate ys) t ∧
      exec (.egressSlotBuild (xs ++ ys)) s = exec (.egressSlotBuild ys) t) ∧
  ∀ (s : State) (b : Bus) (pf : PartialFrame) (ws : List IngressWord), (s.rx b).state = .aligned →
    (s.rx b).framePos = 0 → (s.rx b).partialFrame = some pf → pf.frame.payload = [] → ws.length = 23 →
    let frame : SlotFrame :=
      { header := pf.frame.header
        payload := ws.map (·.data)
        fill := pf.frame.fill
        errored := pf.frame.errored || ws.any (fun x => !passesParity pf.sense pf.scope x) }
    ∃ t : State, exec (.slotFrameComplete b ws) s = .next t ∧ (t.rx b).framePos = 23 ∧
      pick (t.rx b).store 0 = some frame ∧ (∀ m, m ≠ 0 → pick (t.rx b).store m = pick (s.rx b).store m) ∧
      (t.rx b).frameFault = ((s.rx b).frameFault || ws.any (fun x => x.fs || x.ss)) ∧
      t.monitor ⟨b, 0⟩ = (s.monitor ⟨b, 0⟩).take (s.rx b).threshold frame ∧ s.hears t ⟨b, 0⟩ ∧ s.sameBesideBus t b

/-! ## The management link -/

/-- R180: the check byte is the register of the bytes taken in order from 0, each combined by exclusive-or and shifted left
eight times, a 1 shifted out combining the register with 0x07. The three frames worked through have the check bytes given,
and the register of a whole frame, check byte included, is 0. A command frame ends with the check byte over code, length
and parameters, a response frame with the one over status, length and results. -/
def Obligations.CheckByteIsTheCrc : Prop :=
  crc [] = 0 ∧
  (∀ (bytes : List Byte) (b : Byte),
    crc (bytes ++ [b]) = Nat.repeat (fun r : Byte => (r <<< 1) ^^^ (if r.getLsbD 7 then 0x07 else 0)) 8 (crc bytes ^^^ b)) ∧
  crc [0x01] = 0x07 ∧ crc [0x01, 0x00] = 0x15 ∧ crc [0x20] = 0xE0 ∧ crc [0x20, 0x00] = 0xAE ∧ crc [0x8B] = 0xB8 ∧
  crc [0x8B, 0x00] = 0x21 ∧
  (∀ bytes : List Byte, crc (bytes ++ [crc bytes]) = 0) ∧
  (∀ (c : Command) (params : List Byte),
    commandFrame c params =
      [c.code, byteOfNat params.length] ++ params ++ [crc ([c.code, byteOfNat params.length] ++ params)]) ∧
  ∀ (collided : Bool) (reply : Reply), ∃ status : Byte,
    responseFrame collided reply =
      [status, byteOfNat reply.results.length] ++ reply.results
        ++ [crc ([status, byteOfNat reply.results.length] ++ reply.results)]

/-- A command transfer's bits and frame checks (R176, R178, R179, R182). The bytes taken are the complete bytes on MDI, most
significant bit first, and MDO is low throughout, one bit per edge and one with no edge (log 24). Fewer than eight bits are
no frame: no response, no counter. Else the first check that fails gives the status: its counter goes up by 1, the response
is held without COLLIDED, and no block is reached. -/
def Obligations.FramesAreChecked : Prop :=
  ∀ (s : State) (bits : List Bool), s.ready → LinkLaw s.link →
    let bytes := transferBytes bits
    let mdo := List.replicate (max 1 bits.length) false
    let held := fun code : Byte => { s.link with state := .holding, resp := [code, 0, crc [code, 0]], mdo := mdo }
    let wrongLength := bytes.length < 3 ∨ 64 < bytes.length ∨ 60 < (bytes.getD 1 0).toNat ∨
      bytes.length ≠ 3 + (bytes.getD 1 0).toNat
    let wrongCheck := bytes.getD (bytes.length - 1) 0 ≠ crc (bytes.take (bytes.length - 1))
    let known : List Byte :=
      [0x01, 0x02, 0x08, 0x09, 0x10, 0x11, 0x12, 0x13, 0x14, 0x15, 0x18, 0x19, 0x1A, 0x20, 0x21, 0x28, 0x29]
    bytes.flatMap (fun b => (List.finRange 8).map (fun i => b.getLsbD (7 - i.val))) = bits.take (8 * (bits.length / 8)) ∧
    (bits.length < 8 → exec (.zeroLengthTransfer bits) s = .next { s with link := { s.link with mdo := mdo } }) ∧
    (8 ≤ bits.length → wrongLength →
      exec (.commandFrameRejected bits) s =
        .next { s with link := { held 0x02 with badLength := satInc s.link.badLength } }) ∧
    (¬ wrongLength → wrongCheck →
      exec (.commandFrameRejected bits) s =
        .next { s with link := { held 0x01 with badCheck := satInc s.link.badCheck } }) ∧
    (¬ wrongLength → ¬ wrongCheck → bytes.getD 0 0 ∉ known →
      exec (.commandFrameRejected bits) s =
        .next { s with link := { held 0x03 with badCode := satInc s.link.badCode } })

/-- Transfers outside IDLE, MDO's bits being kept one per edge (R176; log 24). In EXECUTING each is refused: a busy hit, the
collision flag, 0xFF on MDO, nothing else (R184);
EXECUTION_COMPLETE builds the response with COLLIDED and clears the flag (R185). In HOLDING each is a read from byte 0: a
complete one empties the buffer, a partial one leaves it (R186); the hold time discards the response and counts it, at
once or at the end of the partial read in progress (R188). -/
def Obligations.TransfersOutsideIdle : Prop :=
  (∀ (s : State) (bits : List Bool), s.nReset = true → s.link.state = .executing →
    exec (.refusedTransfer bits) s =
      .next
        { s with
          link :=
            { s.link with
              busyHits := satInc s.link.busyHits
              collision := true
              mdo := List.replicate (max 1 bits.length) true } }) ∧
  (∀ (s : State) (reply : Reply), s.link.state = .executing → s.link.result = some reply →
    let status := reply.status.code ||| (if s.link.collision then 0x80 else 0)
    let covered := [status, byteOfNat reply.results.length] ++ reply.results
    exec .executionComplete s =
      .next
        { s with
          link :=
            { s.link with
              state := .holding
              cmd := []
              resp := covered ++ [crc covered]
              collision := false
              result := none } }) ∧
  (∀ (s : State) (bits : List Bool) (holdRunsOut : Bool), s.nReset = true → s.link.state = .holding →
    let len := bits.length / 8
    let out := s.link.resp.flatMap (fun b => (List.finRange 8).map (fun i => b.getLsbD (7 - i.val)))
    let mdo := out.take (max 1 bits.length) ++ List.replicate (max 1 bits.length - out.length) false
    exec (.responseRead bits holdRunsOut) s =
      .next
        { s with
          link :=
            if s.link.resp.length ≤ len then { s.link with state := .idle, resp := [], mdo := mdo }
            else if holdRunsOut then
              { s.link with state := .idle, resp := [], mdo := mdo, dropped := satInc s.link.dropped }
            else { s.link with mdo := mdo } }) ∧
  ∀ s : State, s.link.state = .holding →
    exec .holdTimeExpiry s =
      .next { s with link := { s.link with state := .idle, resp := [], dropped := satInc s.link.dropped } }
end

