-- ==== Sys2Proof/Laws/Checks.lean ====
section
/-! SUPPORT. The laws of the part as computations: a check for each, and that what passes it keeps the law. -/
namespace Sys2Proof.Machine

/-! ## Live records -/

/-- A test passed by every live record. -/
def Supervision.eachLive (u : Supervision) (p : RecIx → Live → Bool) : Bool :=
  (List.finRange 64).all fun r => match u.live r with
    | none => true
    | some l => p r l

theorem Supervision.of_eachLive {u : Supervision} {p : RecIx → Live → Bool} (h : u.eachLive p = true) {r : RecIx} {l : Live}
    (hl : u.live r = some l) : p r l = true := by
  have := List.all_eq_true.1 h r (List.mem_finRange r)
  rw [hl] at this
  exact this

/-! ## Notices -/

def noticeCheck (u : Supervision) : Bool :=
  decide (u.notices.map (·.subject)).Nodup &&
    (u.notices.all fun e => decide (e.kinds ≠ 0) &&
      match e.subject with
      | .record r => decide (e.generation = some (u.record r).generation) && (hasKind e.kinds .retired == (u.live r).isNone)
      | .bus _ => e.generation.isNone
      | .egress => e.generation.isNone) &&
    (List.finRange 64).all fun r =>
      ((u.record r).held == u.notices.any fun e => decide (e.subject = .record r) && hasKind e.kinds .retired) &&
        (!(u.record r).held || (u.live r).isNone)

theorem noticeLaw_of_check {u : Supervision} (h : noticeCheck u = true) : NoticeLaw u := by
  simp only [noticeCheck, Bool.and_eq_true, List.all_eq_true, decide_eq_true_eq, List.mem_finRange, forall_const,
    beq_iff_eq] at h
  obtain ⟨⟨h1, h2⟩, h3⟩ := h
  refine ⟨h1, fun e he => (h2 e he).1, fun e he r hr => ?_, fun e he hr => ?_, fun r => ?_, fun r hr => ?_⟩
  · have := (h2 e he).2
    rw [hr] at this
    simp only [Bool.and_eq_true, decide_eq_true_eq, beq_iff_eq] at this
    exact ⟨this.1, by rw [this.2]⟩
  · have := (h2 e he).2
    cases hs : e.subject with
    | record r => exact absurd hs (hr r)
    | bus b => rw [hs] at this; simpa using this
    | egress => rw [hs] at this; simpa using this
  · rw [(h3 r).1]
    simp [List.any_eq_true]
  · have := (h3 r).2
    simpa [hr] using this

/-! ## References and monitors -/

/-- Every ingress slot. -/
def everySource : List Source := (List.finRange 48).flatMap fun n => [⟨.A, n⟩, ⟨.B, n⟩]

theorem mem_everySource (src : Source) : src ∈ everySource := by
  obtain ⟨b, n⟩ := src
  simp only [everySource, List.mem_flatMap, List.mem_finRange, true_and]
  exact ⟨n, by cases b <;> simp⟩

def referenceCheck (s : State) : Bool :=
  (everySource.all fun src => (s.monitor src).refs == ((List.finRange 64).map (s.sup.naming src)).sum) &&
    s.sup.eachLive fun _ l => decide (l.fields.protect ≠ some l.fields.working)

theorem referenceLaw_of_check {s : State} (h : referenceCheck s = true) : ReferenceLaw s := by
  simp only [referenceCheck, Bool.and_eq_true, List.all_eq_true, beq_iff_eq] at h
  exact ⟨fun src => h.1 src (mem_everySource src), fun r l hl => by simpa using Supervision.of_eachLive h.2 hl⟩

/-- A clean monitor keeps its law, whatever its reference count. -/
theorem monitorLaw_clean (k : Nat) : MonitorLaw (Monitor.clean k) where
  clean := by rintro h; simp only [Monitor.clean] at h; rw [h]
  fillRun := by simp [Monitor.clean]
  candidate := by simp [Monitor.clean]
  position := by simp [Monitor.clean]
  unframed := by simp [Monitor.clean]
  following := by simp [Monitor.clean]
  fails := by simp [Monitor.clean]
  codeRun := by simp [Monitor.clean]
  matchCount := by simp [Monitor.clean]
  names := by simp [Monitor.clean]
  rfRun := by simp [Monitor.clean]
  block := by simp [Monitor.clean]

/-! ## Selectors, pool, owners, fields -/

def rowCheck (x : Selector) : Bool :=
  match x.state with
  | .onW => decide (x.selected = .W ∧ x.timer = none ∧ x.waiting = false)
  | .onP => decide (x.selected = .P ∧ x.timer = none ∧ x.waiting = false)
  | .holdW => decide (x.selected = .W ∧ x.timer.isSome ∧ x.waiting = false ∧ x.mode = .live)
  | .holdP => decide (x.selected = .P ∧ x.timer.isSome ∧ x.waiting = false ∧ x.mode = .live)
  | .ret => decide (x.selected = .P ∧ (x.waiting = x.timer.isNone) ∧ x.mode = .live)

theorem selectorRow_of_check {x : Selector} (h : rowCheck x = true) : selectorRow x := by
  unfold rowCheck at h
  unfold selectorRow
  cases hs : x.state <;> simpa [hs] using h

def selectorCheck (u : Supervision) : Bool :=
  u.eachLive fun _ l =>
    decide (l.sel.mode = l.state.mode) && rowCheck l.sel &&
      (decide (l.sel.selected = .W ∧ l.sel.request ≠ .pinP ∧ l.sel.request ≠ .steerP) || l.fields.protect.isSome)

theorem selectorLaw_of_check {u : Supervision} (h : selectorCheck u = true) : SelectorLaw u := by
  have key : ∀ r l, u.live r = some l →
      l.sel.mode = l.state.mode ∧ rowCheck l.sel = true ∧
        ((l.sel.selected = .W ∧ l.sel.request ≠ .pinP ∧ l.sel.request ≠ .steerP) ∨ l.fields.protect.isSome = true) := by
    intro r l hl
    simpa [and_assoc] using Supervision.of_eachLive h hl
  exact ⟨fun r l hl => (key r l hl).1, fun r l hl => selectorRow_of_check (key r l hl).2.1,
    fun r l hl hp => (key r l hl).2.2.resolve_left (by simp [hp]),
    fun r l hl hp => (key r l hl).2.2.resolve_left (by rcases hp with hp | hp <;> simp [hp])⟩

/-- The selector part of a record, as a test. -/
def Supervision.selIs (u : Supervision) (r : RecIx) (p : Selector → Bool) : Bool :=
  match u.sel r with
  | none => false
  | some x => p x

theorem Supervision.selIs_iff {u : Supervision} {r : RecIx} {p : Selector → Bool} :
    u.selIs r p = true ↔ ∃ x, u.sel r = some x ∧ p x = true := by
  unfold Supervision.selIs
  cases u.sel r <;> simp

def poolCheck (u : Supervision) : Bool :=
  ((List.finRange 24).all fun t =>
    match pick u.pool.timers t with
    | none => true
    | some timer =>
      (u.selIs timer.owner fun x =>
        decide (x.timer = some t ∧ x.state.purpose = some timer.purpose ∧ x.mode = .live)) &&
        decide (1 ≤ timer.remaining ∧ timer.remaining ≤ 90000)) &&
  ((List.finRange 64).all fun r =>
    match (u.sel r).bind (·.timer) with
    | none => true
    | some t =>
      match pick u.pool.timers t with
      | none => false
      | some timer => decide (timer.owner = r)) &&
  ((List.finRange 64).all fun r => u.pool.waiters.contains r == u.selIs r (·.waiting)) &&
  decide u.pool.waiters.Nodup && (u.pool.waiters.isEmpty || u.pool.lowestFree.isNone) &&
  decide (u.pool.running ≤ u.pool.highWater ∧ u.pool.highWater ≤ 24)

theorem poolLaw_of_check {u : Supervision} (h : poolCheck u = true) : PoolLaw u := by
  simp only [poolCheck, Bool.and_eq_true, List.all_eq_true, decide_eq_true_eq, List.mem_finRange, forall_const,
    beq_iff_eq] at h
  obtain ⟨⟨⟨⟨⟨h1, h2⟩, h3⟩, h4⟩, h5⟩, h6⟩ := h
  refine ⟨fun t timer ht => ?_, fun r x t hx ht => ?_, fun r => ?_, h4, fun hw => ?_, fun t timer ht => ?_, h6⟩
  · have := h1 t
    rw [ht] at this
    simp only [Bool.and_eq_true, Supervision.selIs_iff, decide_eq_true_eq] at this
    exact this.1
  · have := h2 r
    rw [hx] at this
    simp only [Option.bind_some, ht] at this
    cases hp : pick u.pool.timers t with
    | none => rw [hp] at this; cases this
    | some timer => rw [hp] at this; exact ⟨timer, rfl, by simpa using this⟩
  · rw [← Supervision.selIs_iff, ← h3 r]
    simp
  · cases hl : u.pool.waiters with
    | nil => exact absurd hl hw
    | cons a as =>
      rw [hl] at h5
      simpa using h5
  · have := h1 t
    rw [ht] at this
    simp only [Bool.and_eq_true, decide_eq_true_eq] at this
    exact this.2

/-- A live record, as a test. -/
def Supervision.liveIs (u : Supervision) (r : RecIx) (p : Live → Bool) : Bool :=
  match u.live r with
  | none => false
  | some l => p l

theorem Supervision.liveIs_iff {u : Supervision} {r : RecIx} {p : Live → Bool} :
    u.liveIs r p = true ↔ ∃ l, u.live r = some l ∧ p l = true := by
  unfold Supervision.liveIs
  cases u.live r <;> simp

def Live.serves (l : Live) : Bool := decide (l.state = .active ∨ l.state = .retiring)

def ownerCheck (s : State) : Bool :=
  ((List.finRange 48).all fun n =>
    match pick s.owner n with
    | none => true
    | some r => s.sup.liveIs r fun l => decide (l.fields.egress = n) && l.serves) &&
  (s.sup.eachLive fun r l =>
    (!l.serves || decide (pick s.owner l.fields.egress = some r)) &&
      (!decide (l.state = .armed) || s.updates.any fun u => decide (u.incoming = some r)) &&
      (!decide (l.state = .retiring) || s.updates.any fun u => decide (u.outgoing = some r))) &&
  decide (s.updates.map (·.slot)).Nodup && (s.egress.running || s.updates.isEmpty) &&
  s.updates.all fun u =>
    (match u.incoming with
      | none => true
      | some r => s.sup.liveIs r fun l => decide (l.state = .armed ∧ l.fields.egress = u.slot)) &&
    (match u.outgoing with
      | none => true
      | some r => s.sup.liveIs r fun l => decide (l.state = .retiring ∧ l.fields.egress = u.slot)) &&
    match u with
    | .enter n _ => (pick s.owner n).isNone
    | .leave _ _ => true
    | .handover _ _ _ => true

theorem ownerLaw_of_check {s : State} (h : ownerCheck s = true) : OwnerLaw s := by
  simp only [ownerCheck, Bool.and_eq_true, List.all_eq_true, decide_eq_true_eq, List.mem_finRange, forall_const] at h
  obtain ⟨⟨⟨⟨h1, h2⟩, h3⟩, h4⟩, h5⟩ := h
  have live : ∀ r l, s.sup.live r = some l →
      (l.serves = true → pick s.owner l.fields.egress = some r) ∧
      (l.state = .armed → ∃ u ∈ s.updates, u.incoming = some r) ∧
      (l.state = .retiring → ∃ u ∈ s.updates, u.outgoing = some r) := by
    intro r l hl
    have := Supervision.of_eachLive h2 hl
    simp only [Bool.and_eq_true, Bool.or_eq_true, Bool.not_eq_true', decide_eq_true_eq, decide_eq_false_iff_not,
      List.any_eq_true] at this
    exact ⟨fun h => this.1.1.resolve_left (by simp [h]), fun h => this.1.2.resolve_left (by simp [h]),
      fun h => this.2.resolve_left (by simp [h])⟩
  refine ⟨fun n r hr => ?_, fun r l hl hs => (live r l hl).1 (by simpa [Live.serves] using hs), h3, fun hr => ?_,
    fun u hu r hr => ?_, fun u hu r hr => ?_, fun r l hl => (live r l hl).2.1, fun r l hl => (live r l hl).2.2,
    fun n r hu => ?_⟩
  · have := h1 n
    rw [hr] at this
    simp only [Supervision.liveIs_iff, Bool.and_eq_true, decide_eq_true_eq, Live.serves] at this
    exact this
  · simpa [hr] using h4
  · have := (h5 u hu).1.1
    rw [hr] at this
    simpa [Supervision.liveIs_iff] using this
  · have := (h5 u hu).1.2
    rw [hr] at this
    simpa [Supervision.liveIs_iff] using this
  · simpa using (h5 _ hu).2

def nameCheck (n : Option Name) : Bool :=
  match n with
  | none => true
  | some n => n.length == 16 && n.all printable

def fieldsCheck (f : Fields) : Bool :=
  decide (f.holdOff.toNat ≤ 250 ∧ 1 ≤ f.returnTime.toNat ∧ f.returnTime.toNat ≤ 900 ∧ f.mask &&& 0x03 = 0 ∧
    f.expectedCode ≠ some 0) && nameCheck f.expectedName && nameCheck f.outName

theorem fieldsLaw_of_check {f : Fields} (h : fieldsCheck f = true) : FieldsLaw f := by
  simp only [fieldsCheck, Bool.and_eq_true, decide_eq_true_eq] at h
  obtain ⟨⟨⟨h1, h2, h3, h4, h5⟩, h6⟩, h7⟩ := h
  have name : ∀ o : Option Name, nameCheck o = true → ∀ n, o = some n → n.length = 16 ∧ n.all printable = true := by
    rintro o ho n rfl
    simpa [nameCheck] using ho
  exact ⟨h1, ⟨h2, h3⟩, h4, h5, fun n hn => hn.elim (name _ h6 n) (name _ h7 n)⟩

/-- Everything about records in service. -/
def serviceCheck (s : State) : Bool :=
  selectorCheck s.sup && poolCheck s.sup && ownerCheck s && (s.sup.eachLive fun _ l => fieldsCheck l.fields)

theorem serviceLaw_of_check {s : State} (h : serviceCheck s = true) (h' : referenceCheck s = true) : ServiceLaw s := by
  simp only [serviceCheck, Bool.and_eq_true] at h
  exact ⟨selectorLaw_of_check h.1.1.1, poolLaw_of_check h.1.1.2, ownerLaw_of_check h.1.2,
    fun r l hl => fieldsLaw_of_check (Supervision.of_eachLive h.2 hl), (referenceLaw_of_check h').once⟩

end Sys2Proof.Machine
end

