-- ==== Sys2Proof/Laws/Notices.lean ====
section
/-! SUPPORT. Postings: what a posting adds to the queue, and what it leaves. -/
namespace Sys2Proof.Machine

/-- A posting for a subject that is not queued makes one entry at the tail. -/
theorem addNotice_new {x : Subject} {g : Option Byte} {k : Kind} {xs : List Entry} (h : ∀ e ∈ xs, e.subject ≠ x) :
    addNotice x g k xs = xs ++ [⟨x, g, k.bit⟩] := by
  induction xs with
  | nil => rfl
  | cons e rest ih =>
    have he : e.subject ≠ x := h e (by simp)
    simp [addNotice, he, ih (fun e' h' => h e' (by simp [h']))]

/-- Every entry after a posting is an old entry, an old entry of the subject with the kind added, or a new one. -/
theorem mem_addNotice {x : Subject} {g : Option Byte} {k : Kind} {xs : List Entry} {e : Entry}
    (h : e ∈ addNotice x g k xs) :
    (e ∈ xs ∧ e.subject ≠ x) ∨ (e ∈ xs ∧ e.subject = x) ∨ (∃ e' ∈ xs, e'.subject = x ∧ e = { e' with kinds := e'.kinds ||| k.bit }) ∨
      ((∀ e' ∈ xs, e'.subject ≠ x) ∧ e = ⟨x, g, k.bit⟩) := by
  by_cases hn : ∀ e' ∈ xs, e'.subject ≠ x
  · rw [addNotice_new hn] at h
    rcases List.mem_append.1 h with h | h
    · exact Or.inl ⟨h, hn e h⟩
    · exact Or.inr (Or.inr (Or.inr ⟨hn, by simpa using h⟩))
  · clear hn
    induction xs with
    | nil => right; right; right; exact ⟨by simp, by simpa [addNotice] using h⟩
    | cons y ys ih =>
      by_cases hy : y.subject = x
      · simp only [addNotice, hy, if_true, List.mem_cons] at h
        rcases h with h | h
        · right; right; left; exact ⟨y, by simp, hy, by subst hy; exact h⟩
        · by_cases he : e.subject = x
          · right; left; exact ⟨by simp [h], he⟩
          · left; exact ⟨by simp [h], he⟩
      · simp only [addNotice, hy, if_false, List.mem_cons] at h
        rcases h with h | h
        · left; subst h; exact ⟨by simp, hy⟩
        · rcases ih h with h' | h' | ⟨e', h', h''⟩ | ⟨h', h''⟩
          · left; exact ⟨by simp [h'.1], h'.2⟩
          · right; left; exact ⟨by simp [h'.1], h'.2⟩
          · right; right; left; exact ⟨e', by simp [h'], h''⟩
          · right; right; right
            refine ⟨?_, h''⟩
            intro e' he'
            rcases List.mem_cons.1 he' with h3 | h3
            · subst h3; exact hy
            · exact h' e' h3

/-- An entry of another subject stays. -/
theorem mem_addNotice_other {x : Subject} {g : Option Byte} {k : Kind} {xs : List Entry} {e : Entry} (h : e ∈ xs)
    (hx : e.subject ≠ x) : e ∈ addNotice x g k xs := by
  induction xs with
  | nil => simp at h
  | cons y ys ih =>
    by_cases hy : y.subject = x
    · simp only [addNotice, hy, if_true, List.mem_cons]
      rcases List.mem_cons.1 h with h | h
      · subst h; exact absurd hy hx
      · exact Or.inr h
    · simp only [addNotice, hy, if_false, List.mem_cons]
      rcases List.mem_cons.1 h with h | h
      · exact Or.inl h
      · exact Or.inr (ih h)

/-- The subjects after a posting: the same ones in their order, or one more at the tail. -/
theorem addNotice_subjects (x : Subject) (g : Option Byte) (k : Kind) (xs : List Entry) :
    (addNotice x g k xs).map (·.subject) =
      if x ∈ xs.map (·.subject) then xs.map (·.subject) else xs.map (·.subject) ++ [x] := by
  induction xs with
  | nil => simp [addNotice]
  | cons y ys ih =>
    by_cases hy : y.subject = x
    · simp [addNotice, hy]
    · have hy' : x ≠ y.subject := fun h => hy h.symm
      simp only [addNotice, hy, if_false, List.map_cons, ih, List.mem_cons, hy', false_or]
      split <;> simp

/-- One entry a subject is kept. -/
theorem addNotice_nodup {x : Subject} {g : Option Byte} {k : Kind} {xs : List Entry} (h : (xs.map (·.subject)).Nodup) :
    ((addNotice x g k xs).map (·.subject)).Nodup := by
  rw [addNotice_subjects]
  split
  · exact h
  · rename_i hx
    rw [List.nodup_append]
    refine ⟨h, by simp, ?_⟩
    intro a ha b hb
    simp only [List.mem_singleton] at hb
    subst hb
    intro hab
    subst hab
    exact hx ha

/-- A kind stays where kinds are added. -/
theorem hasKind_or_left {a b : Byte} {k : Kind} (h : hasKind a k = true) : hasKind (a ||| b) k = true := by
  have e : a &&& k.bit = a &&& ((a ||| b) &&& k.bit) := by
    apply BitVec.eq_of_getLsbD_eq
    intro i _
    simp only [BitVec.getLsbD_and, BitVec.getLsbD_or]
    cases a.getLsbD i <;> cases b.getLsbD i <;> rfl
  simp only [hasKind, bne_iff_ne, ne_eq] at *
  intro hz
  rw [hz] at e
  exact h (by simpa using e)

/-- The kind added is there. -/
theorem hasKind_or_self (a : Byte) (k : Kind) : hasKind (a ||| k.bit) k = true := by
  have e : k.bit = k.bit &&& ((a ||| k.bit) &&& k.bit) := by
    apply BitVec.eq_of_getLsbD_eq
    intro i _
    simp only [BitVec.getLsbD_and, BitVec.getLsbD_or]
    cases a.getLsbD i <;> cases k.bit.getLsbD i <;> rfl
  simp only [hasKind, bne_iff_ne, ne_eq]
  intro hz
  rw [hz] at e
  cases k <;> simp [Kind.bit] at e

/-- Another record kind does not touch RETIRED. -/
theorem hasKind_or_retired {a : Byte} {k : Kind} (h : k ≠ .retired) :
    hasKind (a ||| k.bit) .retired = hasKind a .retired := by
  have e : (a ||| k.bit) &&& Kind.retired.bit = a &&& Kind.retired.bit := by
    have hb : k.bit &&& Kind.retired.bit = 0 := by cases k <;> first | rfl | exact absurd rfl h
    apply BitVec.eq_of_getLsbD_eq
    intro i _
    have hi := congrArg (fun v : Byte => v.getLsbD i) hb
    simp only [BitVec.getLsbD_and, BitVec.getLsbD_or] at hi ⊢
    simp only [BitVec.ofNat_eq_ofNat, BitVec.getLsbD_zero] at hi
    cases ha : a.getLsbD i <;> cases hk : k.bit.getLsbD i <;> simp_all
  simp only [hasKind, e]

/-! ## What is told -/

/-- A posting tells its kind. -/
theorem addNotice_tells (x : Subject) (g : Option Byte) (k : Kind) (xs : List Entry) :
    ∃ e ∈ addNotice x g k xs, e.subject = x ∧ hasKind e.kinds k = true := by
  induction xs with
  | nil => exact ⟨⟨x, g, k.bit⟩, by simp [addNotice], rfl, by simpa using hasKind_or_self 0 k⟩
  | cons y ys ih =>
    by_cases hy : y.subject = x
    · exact ⟨{ y with kinds := y.kinds ||| k.bit }, by simp [addNotice, hy], hy, hasKind_or_self _ _⟩
    · obtain ⟨e, he, h⟩ := ih
      exact ⟨e, by simp [addNotice, hy, he], h⟩

/-- A posting takes nothing back. -/
theorem addNotice_keeps {x y : Subject} {g : Option Byte} {k j : Kind} {xs : List Entry}
    (h : ∃ e ∈ xs, e.subject = y ∧ hasKind e.kinds j = true) :
    ∃ e ∈ addNotice x g k xs, e.subject = y ∧ hasKind e.kinds j = true := by
  obtain ⟨e, he, hs, hj⟩ := h
  induction xs with
  | nil => simp at he
  | cons z zs ih =>
    by_cases hz : z.subject = x
    · rw [addNotice, if_pos hz]
      rcases List.mem_cons.1 he with h | h
      · subst h
        exact ⟨{ e with kinds := e.kinds ||| k.bit }, List.mem_cons_self, hs, hasKind_or_left hj⟩
      · exact ⟨e, by simp [h], hs, hj⟩
    · simp only [addNotice, hz, if_false]
      rcases List.mem_cons.1 he with h | h
      · subst h
        exact ⟨e, by simp, hs, hj⟩
      · obtain ⟨e', he', h'⟩ := ih h
        exact ⟨e', by simp [he'], h'⟩

theorem Supervision.post_tells (u : Supervision) (x : Subject) (k : Kind) : (u.post x k).tells x k :=
  addNotice_tells _ _ _ _

theorem Supervision.post_keeps {u : Supervision} {x y : Subject} {k j : Kind} (h : u.tells y j) : (u.post x k).tells y j :=
  addNotice_keeps h

theorem Supervision.postRecord_tells {u : Supervision} {r : RecIx} {k : Kind} (h : u.masks r k = false) :
    (u.postRecord r k).tells (.record r) k := by
  simp only [Supervision.postRecord, h, Bool.false_eq_true, if_false]
  exact addNotice_tells _ _ _ _

theorem Supervision.postRecord_keeps {u : Supervision} {r : RecIx} {y : Subject} {k j : Kind} (h : u.tells y j) :
    (u.postRecord r k).tells y j := by
  unfold Supervision.postRecord
  split
  · exact h
  · exact addNotice_keeps h

theorem Supervision.postIf_keeps {u : Supervision} {a : Bool} {r : RecIx} {y : Subject} {k j : Kind} (h : u.tells y j) :
    (u.postIf a r k).tells y j := by
  unfold Supervision.postIf
  split
  · exact Supervision.postRecord_keeps h
  · exact h

end Sys2Proof.Machine
end

