-- ==== Sys2Proof/Laws/Tables.lean ====
section
/-! SUPPORT. Reads and writes of fixed tables. -/
namespace Sys2Proof

theorem pick_put_same {α : Type} {n : Nat} (v : Vector α n) (i : Fin n) (x : α) : pick (put v i x) i = x := by
  simp [pick, put]

theorem pick_put_ne {α : Type} {n : Nat} (v : Vector α n) {i j : Fin n} (x : α) (h : i ≠ j) :
    pick (put v i x) j = pick v j := by
  have h' : i.val ≠ j.val := fun e => h (Fin.ext e)
  simp [pick, put, h']

theorem pick_put {α : Type} {n : Nat} (v : Vector α n) (i j : Fin n) (x : α) :
    pick (put v i x) j = if i = j then x else pick v j := by
  by_cases h : i = j
  · subst h; simp [pick_put_same]
  · simp [pick_put_ne v x h, h]

/-- Writing a place with what it holds changes nothing. -/
theorem put_pick {α : Type} {n : Nat} (v : Vector α n) (i : Fin n) : put v i (pick v i) = v := by
  simp [pick, put]

@[simp] theorem pick_mapTable {α β : Type} {n : Nat} (f : α → β) (v : Vector α n) (i : Fin n) :
    pick (mapTable f v) i = f (pick v i) := by
  simp [pick, mapTable]

@[simp] theorem pick_replicate {α : Type} {n : Nat} (x : α) (i : Fin n) : pick (Vector.replicate n x) i = x := by
  simp [pick]

/-- Two tables that agree at every place are equal. -/
theorem table_ext {α : Type} {n : Nat} {v w : Vector α n} (h : ∀ i, pick v i = pick w i) : v = w := by
  apply Vector.ext
  intro i hi
  exact h ⟨i, hi⟩

end Sys2Proof
end

