-- ==== Sys2Proof/Laws/State.lean ====
section
/-! SUPPORT. What each update of the state leaves in each field: one lemma per field and update. -/
namespace Sys2Proof.Machine

@[simp] theorem State.setRx_nReset (s : State) (b : Bus) (rx : Receiver) : (s.setRx b rx).nReset = s.nReset := by cases b <;> rfl
@[simp] theorem State.setRx_monA (s : State) (b : Bus) (rx : Receiver) : (s.setRx b rx).monA = s.monA := by cases b <;> rfl
@[simp] theorem State.setRx_monB (s : State) (b : Bus) (rx : Receiver) : (s.setRx b rx).monB = s.monB := by cases b <;> rfl
@[simp] theorem State.setRx_sup (s : State) (b : Bus) (rx : Receiver) : (s.setRx b rx).sup = s.sup := by cases b <;> rfl
@[simp] theorem State.setRx_owner (s : State) (b : Bus) (rx : Receiver) : (s.setRx b rx).owner = s.owner := by cases b <;> rfl
@[simp] theorem State.setRx_updates (s : State) (b : Bus) (rx : Receiver) : (s.setRx b rx).updates = s.updates := by cases b <;> rfl
@[simp] theorem State.setRx_alertOn (s : State) (b : Bus) (rx : Receiver) : (s.setRx b rx).alertOn = s.alertOn := by cases b <;> rfl
@[simp] theorem State.setRx_egress (s : State) (b : Bus) (rx : Receiver) : (s.setRx b rx).egress = s.egress := by cases b <;> rfl
@[simp] theorem State.setRx_link (s : State) (b : Bus) (rx : Receiver) : (s.setRx b rx).link = s.link := by cases b <;> rfl
@[simp] theorem State.setRx_choices (s : State) (b : Bus) (rx : Receiver) : (s.setRx b rx).choices = s.choices := by cases b <;> rfl
@[simp] theorem State.setRx_pending (s : State) (b : Bus) (rx : Receiver) : (s.setRx b rx).pending = s.pending := by cases b <;> rfl

@[simp] theorem State.setRx_rx (s : State) (b : Bus) (rx : Receiver) : (s.setRx b rx).rx b = rx := by cases b <;> rfl
theorem State.setRx_rx_ne (s : State) {b c : Bus} (rx : Receiver) (h : b ≠ c) : (s.setRx b rx).rx c = s.rx c := by
  cases b <;> cases c <;> first | rfl | exact absurd rfl h
@[simp] theorem State.setRx_mons (s : State) (b c : Bus) (rx : Receiver) : (s.setRx b rx).mons c = s.mons c := by
  cases b <;> cases c <;> rfl
@[simp] theorem State.setRx_monitor (s : State) (b : Bus) (rx : Receiver) (src : Source) :
    (s.setRx b rx).monitor src = s.monitor src := by simp [State.monitor]
theorem State.setRx_self (s : State) (b : Bus) : s.setRx b (s.rx b) = s := by cases b <;> rfl
theorem State.setRx_setRx (s : State) (b : Bus) (x y : Receiver) : (s.setRx b x).setRx b y = s.setRx b y := by
  cases b <;> rfl

@[simp] theorem State.setMons_nReset (s : State) (b : Bus) (ms : Vector Monitor 48) : (s.setMons b ms).nReset = s.nReset := by cases b <;> rfl
@[simp] theorem State.setMons_rxA (s : State) (b : Bus) (ms : Vector Monitor 48) : (s.setMons b ms).rxA = s.rxA := by cases b <;> rfl
@[simp] theorem State.setMons_rxB (s : State) (b : Bus) (ms : Vector Monitor 48) : (s.setMons b ms).rxB = s.rxB := by cases b <;> rfl
@[simp] theorem State.setMons_sup (s : State) (b : Bus) (ms : Vector Monitor 48) : (s.setMons b ms).sup = s.sup := by cases b <;> rfl
@[simp] theorem State.setMons_owner (s : State) (b : Bus) (ms : Vector Monitor 48) : (s.setMons b ms).owner = s.owner := by cases b <;> rfl
@[simp] theorem State.setMons_updates (s : State) (b : Bus) (ms : Vector Monitor 48) : (s.setMons b ms).updates = s.updates := by cases b <;> rfl
@[simp] theorem State.setMons_alertOn (s : State) (b : Bus) (ms : Vector Monitor 48) : (s.setMons b ms).alertOn = s.alertOn := by cases b <;> rfl
@[simp] theorem State.setMons_egress (s : State) (b : Bus) (ms : Vector Monitor 48) : (s.setMons b ms).egress = s.egress := by cases b <;> rfl
@[simp] theorem State.setMons_link (s : State) (b : Bus) (ms : Vector Monitor 48) : (s.setMons b ms).link = s.link := by cases b <;> rfl
@[simp] theorem State.setMons_choices (s : State) (b : Bus) (ms : Vector Monitor 48) : (s.setMons b ms).choices = s.choices := by cases b <;> rfl
@[simp] theorem State.setMons_pending (s : State) (b : Bus) (ms : Vector Monitor 48) : (s.setMons b ms).pending = s.pending := by cases b <;> rfl

@[simp] theorem State.setMons_rx (s : State) (b c : Bus) (ms : Vector Monitor 48) : (s.setMons b ms).rx c = s.rx c := by
  cases b <;> cases c <;> rfl
@[simp] theorem State.setMons_mons (s : State) (b : Bus) (ms : Vector Monitor 48) : (s.setMons b ms).mons b = ms := by
  cases b <;> rfl
theorem State.setMons_mons_ne (s : State) {b c : Bus} (ms : Vector Monitor 48) (h : b ≠ c) :
    (s.setMons b ms).mons c = s.mons c := by
  cases b <;> cases c <;> first | rfl | exact absurd rfl h

@[simp] theorem State.setMonitor_nReset (s : State) (src : Source) (m : Monitor) : (s.setMonitor src m).nReset = s.nReset := State.setMons_nReset s src.bus _
@[simp] theorem State.setMonitor_rxA (s : State) (src : Source) (m : Monitor) : (s.setMonitor src m).rxA = s.rxA := State.setMons_rxA s src.bus _
@[simp] theorem State.setMonitor_rxB (s : State) (src : Source) (m : Monitor) : (s.setMonitor src m).rxB = s.rxB := State.setMons_rxB s src.bus _
@[simp] theorem State.setMonitor_sup (s : State) (src : Source) (m : Monitor) : (s.setMonitor src m).sup = s.sup := State.setMons_sup s src.bus _
@[simp] theorem State.setMonitor_owner (s : State) (src : Source) (m : Monitor) : (s.setMonitor src m).owner = s.owner := State.setMons_owner s src.bus _
@[simp] theorem State.setMonitor_updates (s : State) (src : Source) (m : Monitor) : (s.setMonitor src m).updates = s.updates := State.setMons_updates s src.bus _
@[simp] theorem State.setMonitor_alertOn (s : State) (src : Source) (m : Monitor) : (s.setMonitor src m).alertOn = s.alertOn := State.setMons_alertOn s src.bus _
@[simp] theorem State.setMonitor_egress (s : State) (src : Source) (m : Monitor) : (s.setMonitor src m).egress = s.egress := State.setMons_egress s src.bus _
@[simp] theorem State.setMonitor_link (s : State) (src : Source) (m : Monitor) : (s.setMonitor src m).link = s.link := State.setMons_link s src.bus _
@[simp] theorem State.setMonitor_choices (s : State) (src : Source) (m : Monitor) : (s.setMonitor src m).choices = s.choices := State.setMons_choices s src.bus _
@[simp] theorem State.setMonitor_pending (s : State) (src : Source) (m : Monitor) : (s.setMonitor src m).pending = s.pending := State.setMons_pending s src.bus _

@[simp] theorem State.setMonitor_rx (s : State) (src : Source) (m : Monitor) (b : Bus) : (s.setMonitor src m).rx b = s.rx b := by
  simp [State.setMonitor]
@[simp] theorem State.setMonitor_same (s : State) (src : Source) (m : Monitor) : (s.setMonitor src m).monitor src = m := by
  simp [State.setMonitor, State.monitor, pick_put_same]
theorem State.setMonitor_ne (s : State) {src src' : Source} (m : Monitor) (h : src ≠ src') :
    (s.setMonitor src m).monitor src' = s.monitor src' := by
  obtain ⟨b, n⟩ := src
  obtain ⟨b', n'⟩ := src'
  by_cases hb : b = b'
  · subst hb
    have hn : n ≠ n' := fun e => h (by rw [e])
    simp [State.setMonitor, State.monitor, pick_put_ne _ _ hn]
  · simp [State.setMonitor, State.monitor, State.setMons_mons_ne _ _ hb]
theorem State.setMonitor_mons_ne (s : State) (src : Source) (m : Monitor) {c : Bus} (h : src.bus ≠ c) :
    (s.setMonitor src m).mons c = s.mons c := State.setMons_mons_ne s _ h

@[simp] theorem State.postAlign_nReset (s : State) (b : Bus) : (s.postAlign b).nReset = s.nReset := rfl
@[simp] theorem State.postAlign_rxA (s : State) (b : Bus) : (s.postAlign b).rxA = s.rxA := rfl
@[simp] theorem State.postAlign_rxB (s : State) (b : Bus) : (s.postAlign b).rxB = s.rxB := rfl
@[simp] theorem State.postAlign_monA (s : State) (b : Bus) : (s.postAlign b).monA = s.monA := rfl
@[simp] theorem State.postAlign_monB (s : State) (b : Bus) : (s.postAlign b).monB = s.monB := rfl
@[simp] theorem State.postAlign_owner (s : State) (b : Bus) : (s.postAlign b).owner = s.owner := rfl
@[simp] theorem State.postAlign_updates (s : State) (b : Bus) : (s.postAlign b).updates = s.updates := rfl
@[simp] theorem State.postAlign_alertOn (s : State) (b : Bus) : (s.postAlign b).alertOn = s.alertOn := rfl
@[simp] theorem State.postAlign_egress (s : State) (b : Bus) : (s.postAlign b).egress = s.egress := rfl
@[simp] theorem State.postAlign_link (s : State) (b : Bus) : (s.postAlign b).link = s.link := rfl
@[simp] theorem State.postAlign_choices (s : State) (b : Bus) : (s.postAlign b).choices = s.choices := rfl
@[simp] theorem State.postAlign_pending (s : State) (b : Bus) : (s.postAlign b).pending = s.pending := rfl

@[simp] theorem State.postAlign_rx (s : State) (b c : Bus) : (s.postAlign b).rx c = s.rx c := by cases c <;> rfl
@[simp] theorem State.postAlign_mons (s : State) (b c : Bus) : (s.postAlign b).mons c = s.mons c := by cases c <;> rfl

@[simp] theorem State.postAlign_sup (s : State) (b : Bus) : (s.postAlign b).sup = s.sup.post (.bus b) .align := rfl
@[simp] theorem State.postState_nReset (s : State)  : (s.postState ).nReset = s.nReset := rfl
@[simp] theorem State.postState_rxA (s : State)  : (s.postState ).rxA = s.rxA := rfl
@[simp] theorem State.postState_rxB (s : State)  : (s.postState ).rxB = s.rxB := rfl
@[simp] theorem State.postState_monA (s : State)  : (s.postState ).monA = s.monA := rfl
@[simp] theorem State.postState_monB (s : State)  : (s.postState ).monB = s.monB := rfl
@[simp] theorem State.postState_owner (s : State)  : (s.postState ).owner = s.owner := rfl
@[simp] theorem State.postState_updates (s : State)  : (s.postState ).updates = s.updates := rfl
@[simp] theorem State.postState_alertOn (s : State)  : (s.postState ).alertOn = s.alertOn := rfl
@[simp] theorem State.postState_egress (s : State)  : (s.postState ).egress = s.egress := rfl
@[simp] theorem State.postState_link (s : State)  : (s.postState ).link = s.link := rfl
@[simp] theorem State.postState_choices (s : State)  : (s.postState ).choices = s.choices := rfl
@[simp] theorem State.postState_pending (s : State)  : (s.postState ).pending = s.pending := rfl

@[simp] theorem State.postState_sup (s : State) : s.postState.sup = s.sup.post .egress .state := rfl

@[simp] theorem State.setOwner_nReset (s : State) (n : SlotIx) (r : Option RecIx) : (s.setOwner n r).nReset = s.nReset := rfl
@[simp] theorem State.setOwner_rxA (s : State) (n : SlotIx) (r : Option RecIx) : (s.setOwner n r).rxA = s.rxA := rfl
@[simp] theorem State.setOwner_rxB (s : State) (n : SlotIx) (r : Option RecIx) : (s.setOwner n r).rxB = s.rxB := rfl
@[simp] theorem State.setOwner_monA (s : State) (n : SlotIx) (r : Option RecIx) : (s.setOwner n r).monA = s.monA := rfl
@[simp] theorem State.setOwner_monB (s : State) (n : SlotIx) (r : Option RecIx) : (s.setOwner n r).monB = s.monB := rfl
@[simp] theorem State.setOwner_sup (s : State) (n : SlotIx) (r : Option RecIx) : (s.setOwner n r).sup = s.sup := rfl
@[simp] theorem State.setOwner_updates (s : State) (n : SlotIx) (r : Option RecIx) : (s.setOwner n r).updates = s.updates := rfl
@[simp] theorem State.setOwner_alertOn (s : State) (n : SlotIx) (r : Option RecIx) : (s.setOwner n r).alertOn = s.alertOn := rfl
@[simp] theorem State.setOwner_egress (s : State) (n : SlotIx) (r : Option RecIx) : (s.setOwner n r).egress = s.egress := rfl
@[simp] theorem State.setOwner_link (s : State) (n : SlotIx) (r : Option RecIx) : (s.setOwner n r).link = s.link := rfl
@[simp] theorem State.setOwner_choices (s : State) (n : SlotIx) (r : Option RecIx) : (s.setOwner n r).choices = s.choices := rfl
@[simp] theorem State.setOwner_pending (s : State) (n : SlotIx) (r : Option RecIx) : (s.setOwner n r).pending = s.pending := rfl

@[simp] theorem State.setOwner_owner (s : State) (n : SlotIx) (r : Option RecIx) : (s.setOwner n r).owner = put s.owner n r := rfl

@[simp] theorem State.removeUpdate_nReset (s : State) (u : Update) : (s.removeUpdate u).nReset = s.nReset := rfl
@[simp] theorem State.removeUpdate_rxA (s : State) (u : Update) : (s.removeUpdate u).rxA = s.rxA := rfl
@[simp] theorem State.removeUpdate_rxB (s : State) (u : Update) : (s.removeUpdate u).rxB = s.rxB := rfl
@[simp] theorem State.removeUpdate_monA (s : State) (u : Update) : (s.removeUpdate u).monA = s.monA := rfl
@[simp] theorem State.removeUpdate_monB (s : State) (u : Update) : (s.removeUpdate u).monB = s.monB := rfl
@[simp] theorem State.removeUpdate_sup (s : State) (u : Update) : (s.removeUpdate u).sup = s.sup := rfl
@[simp] theorem State.removeUpdate_owner (s : State) (u : Update) : (s.removeUpdate u).owner = s.owner := rfl
@[simp] theorem State.removeUpdate_alertOn (s : State) (u : Update) : (s.removeUpdate u).alertOn = s.alertOn := rfl
@[simp] theorem State.removeUpdate_egress (s : State) (u : Update) : (s.removeUpdate u).egress = s.egress := rfl
@[simp] theorem State.removeUpdate_link (s : State) (u : Update) : (s.removeUpdate u).link = s.link := rfl
@[simp] theorem State.removeUpdate_choices (s : State) (u : Update) : (s.removeUpdate u).choices = s.choices := rfl
@[simp] theorem State.removeUpdate_pending (s : State) (u : Update) : (s.removeUpdate u).pending = s.pending := rfl

@[simp] theorem State.removeUpdate_updates (s : State) (u : Update) : (s.removeUpdate u).updates = s.updates.filter (· ≠ u) := rfl

@[simp] theorem State.refusedTransfer_nReset (s : State) (edges : Nat) : (s.refusedTransfer edges).nReset = s.nReset := rfl
@[simp] theorem State.refusedTransfer_rxA (s : State) (edges : Nat) : (s.refusedTransfer edges).rxA = s.rxA := rfl
@[simp] theorem State.refusedTransfer_rxB (s : State) (edges : Nat) : (s.refusedTransfer edges).rxB = s.rxB := rfl
@[simp] theorem State.refusedTransfer_monA (s : State) (edges : Nat) : (s.refusedTransfer edges).monA = s.monA := rfl
@[simp] theorem State.refusedTransfer_monB (s : State) (edges : Nat) : (s.refusedTransfer edges).monB = s.monB := rfl
@[simp] theorem State.refusedTransfer_sup (s : State) (edges : Nat) : (s.refusedTransfer edges).sup = s.sup := rfl
@[simp] theorem State.refusedTransfer_owner (s : State) (edges : Nat) : (s.refusedTransfer edges).owner = s.owner := rfl
@[simp] theorem State.refusedTransfer_updates (s : State) (edges : Nat) : (s.refusedTransfer edges).updates = s.updates := rfl
@[simp] theorem State.refusedTransfer_alertOn (s : State) (edges : Nat) : (s.refusedTransfer edges).alertOn = s.alertOn := rfl
@[simp] theorem State.refusedTransfer_egress (s : State) (edges : Nat) : (s.refusedTransfer edges).egress = s.egress := rfl
@[simp] theorem State.refusedTransfer_choices (s : State) (edges : Nat) : (s.refusedTransfer edges).choices = s.choices := rfl
@[simp] theorem State.refusedTransfer_pending (s : State) (edges : Nat) : (s.refusedTransfer edges).pending = s.pending := rfl

@[simp] theorem State.refusedTransfer_link (s : State) (edges : Nat) :
    (s.refusedTransfer edges).link = s.link.refuse edges := rfl

@[simp] theorem State.afterRequest_nReset (s : State)  : (s.afterRequest ).nReset = s.nReset := by unfold State.afterRequest; split <;> rfl
@[simp] theorem State.afterRequest_rxA (s : State)  : (s.afterRequest ).rxA = s.rxA := by unfold State.afterRequest; split <;> rfl
@[simp] theorem State.afterRequest_rxB (s : State)  : (s.afterRequest ).rxB = s.rxB := by unfold State.afterRequest; split <;> rfl
@[simp] theorem State.afterRequest_monA (s : State)  : (s.afterRequest ).monA = s.monA := by unfold State.afterRequest; split <;> rfl
@[simp] theorem State.afterRequest_monB (s : State)  : (s.afterRequest ).monB = s.monB := by unfold State.afterRequest; split <;> rfl
@[simp] theorem State.afterRequest_sup (s : State)  : (s.afterRequest ).sup = s.sup := by unfold State.afterRequest; split <;> rfl
@[simp] theorem State.afterRequest_owner (s : State)  : (s.afterRequest ).owner = s.owner := by unfold State.afterRequest; split <;> rfl
@[simp] theorem State.afterRequest_updates (s : State)  : (s.afterRequest ).updates = s.updates := by unfold State.afterRequest; split <;> rfl
@[simp] theorem State.afterRequest_alertOn (s : State)  : (s.afterRequest ).alertOn = s.alertOn := by unfold State.afterRequest; split <;> rfl
@[simp] theorem State.afterRequest_egress (s : State)  : (s.afterRequest ).egress = s.egress := by unfold State.afterRequest; split <;> rfl
@[simp] theorem State.afterRequest_choices (s : State)  : (s.afterRequest ).choices = s.choices := by unfold State.afterRequest; split <;> rfl
@[simp] theorem State.afterRequest_pending (s : State)  : (s.afterRequest ).pending = s.pending := by unfold State.afterRequest; split <;> rfl

@[simp] theorem State.expireHold_nReset (s : State)  : (s.expireHold ).nReset = s.nReset := by unfold State.expireHold; split <;> rfl
@[simp] theorem State.expireHold_rxA (s : State)  : (s.expireHold ).rxA = s.rxA := by unfold State.expireHold; split <;> rfl
@[simp] theorem State.expireHold_rxB (s : State)  : (s.expireHold ).rxB = s.rxB := by unfold State.expireHold; split <;> rfl
@[simp] theorem State.expireHold_monA (s : State)  : (s.expireHold ).monA = s.monA := by unfold State.expireHold; split <;> rfl
@[simp] theorem State.expireHold_monB (s : State)  : (s.expireHold ).monB = s.monB := by unfold State.expireHold; split <;> rfl
@[simp] theorem State.expireHold_sup (s : State)  : (s.expireHold ).sup = s.sup := by unfold State.expireHold; split <;> rfl
@[simp] theorem State.expireHold_owner (s : State)  : (s.expireHold ).owner = s.owner := by unfold State.expireHold; split <;> rfl
@[simp] theorem State.expireHold_updates (s : State)  : (s.expireHold ).updates = s.updates := by unfold State.expireHold; split <;> rfl
@[simp] theorem State.expireHold_alertOn (s : State)  : (s.expireHold ).alertOn = s.alertOn := by unfold State.expireHold; split <;> rfl
@[simp] theorem State.expireHold_egress (s : State)  : (s.expireHold ).egress = s.egress := by unfold State.expireHold; split <;> rfl
@[simp] theorem State.expireHold_choices (s : State)  : (s.expireHold ).choices = s.choices := by unfold State.expireHold; split <;> rfl
@[simp] theorem State.expireHold_pending (s : State)  : (s.expireHold ).pending = s.pending := by unfold State.expireHold; split <;> rfl

/-! ## Table, pool, queue -/

@[simp] theorem Supervision.setRecord_pool (u : Supervision) (r : RecIx) (x : Record) : (u.setRecord r x).pool = u.pool := rfl
@[simp] theorem Supervision.setRecord_notices (u : Supervision) (r : RecIx) (x : Record) : (u.setRecord r x).notices = u.notices := rfl
theorem Supervision.setRecord_record (u : Supervision) (r q : RecIx) (x : Record) :
    (u.setRecord r x).record q = if r = q then x else u.record q := pick_put _ _ _ _
@[simp] theorem Supervision.setRecord_same (u : Supervision) (r : RecIx) (x : Record) : (u.setRecord r x).record r = x :=
  pick_put_same _ _ _
theorem Supervision.setRecord_ne (u : Supervision) {r q : RecIx} (x : Record) (h : r ≠ q) :
    (u.setRecord r x).record q = u.record q := pick_put_ne _ _ h

@[simp] theorem Supervision.modLive_pool (u : Supervision) (r : RecIx) (f : Live → Live) : (u.modLive r f).pool = u.pool := rfl
@[simp] theorem Supervision.modLive_notices (u : Supervision) (r : RecIx) (f : Live → Live) : (u.modLive r f).notices = u.notices := rfl
@[simp] theorem Supervision.modSel_pool (u : Supervision) (r : RecIx) (f : Selector → Selector) : (u.modSel r f).pool = u.pool := rfl
@[simp] theorem Supervision.modSel_notices (u : Supervision) (r : RecIx) (f : Selector → Selector) : (u.modSel r f).notices = u.notices := rfl

@[simp] theorem Supervision.post_table (u : Supervision) (x : Subject) (k : Kind) : (u.post x k).table = u.table := rfl
@[simp] theorem Supervision.postRecord_table (u : Supervision) (r : RecIx) (k : Kind) : (u.postRecord r k).table = u.table := by
  unfold Supervision.postRecord; split <;> rfl
@[simp] theorem Supervision.postIf_table (u : Supervision) (a : Bool) (r : RecIx) (k : Kind) : (u.postIf a r k).table = u.table := by
  unfold Supervision.postIf; split <;> simp
@[simp] theorem Supervision.post_pool (u : Supervision) (x : Subject) (k : Kind) : (u.post x k).pool = u.pool := rfl
@[simp] theorem Supervision.postRecord_pool (u : Supervision) (r : RecIx) (k : Kind) : (u.postRecord r k).pool = u.pool := by
  unfold Supervision.postRecord; split <;> rfl
@[simp] theorem Supervision.postIf_pool (u : Supervision) (a : Bool) (r : RecIx) (k : Kind) : (u.postIf a r k).pool = u.pool := by
  unfold Supervision.postIf; split <;> simp
@[simp] theorem Supervision.countShort_table (u : Supervision) : u.countShort.table = u.table := rfl
@[simp] theorem Supervision.countShort_notices (u : Supervision) : u.countShort.notices = u.notices := rfl

end Sys2Proof.Machine
end

