-- ==== Sys2Proof/Laws/Supervision.lean ====
section
/-! SUPPORT. What the operations on table, pool and queue leave alone: every one keeps the records but for selector parts,
takes no notice back, and changes the selector part of the records it names alone. -/
namespace Sys2Proof.Machine

/-! ## Records but for their selector parts -/

theorem Supervision.sameRecords_refl (u : Supervision) : u.sameRecords u := fun _ => ⟨rfl, rfl, rfl⟩

theorem Supervision.sameRecords_trans {u v w : Supervision} (h : u.sameRecords v) (h' : v.sameRecords w) :
    u.sameRecords w := fun r =>
  ⟨(h' r).1.trans (h r).1, (h' r).2.1.trans (h r).2.1, (h' r).2.2.trans (h r).2.2⟩

theorem Supervision.sameRecords_of_table {u v : Supervision} (h : v.table = u.table) : u.sameRecords v := fun r => by
  simp [Supervision.record, Supervision.live, h]

/-- A live record stays live, in its state and with its fields. -/
theorem Supervision.sameRecords_live {u v : Supervision} (h : u.sameRecords v) {r : RecIx} {l : Live}
    (hl : u.live r = some l) : ∃ x, v.live r = some { l with sel := x } := by
  have h3 := (h r).2.2
  rw [hl] at h3
  cases hv : v.live r with
  | none => simp [hv] at h3
  | some k =>
    simp only [hv, Option.map_some, Option.some.injEq, Prod.mk.injEq] at h3
    obtain ⟨h1, h2⟩ := h3
    cases k
    cases l
    simp_all

theorem Supervision.sameRecords_none {u v : Supervision} (h : u.sameRecords v) (r : RecIx) :
    v.live r = none ↔ u.live r = none := by
  have h3 := (h r).2.2
  cases hu : u.live r <;> cases hv : v.live r <;> simp_all

/-! ## Changing one record -/

theorem Supervision.modLive_live (u : Supervision) (r q : RecIx) (f : Live → Live) :
    (u.modLive r f).live q = if r = q then (u.live r).map f else u.live q := by
  unfold Supervision.live Supervision.modLive
  rw [Supervision.setRecord_record]
  split <;> rfl

@[simp] theorem Supervision.modLive_same (u : Supervision) (r : RecIx) (f : Live → Live) :
    (u.modLive r f).live r = (u.live r).map f := by simp [Supervision.modLive_live]

theorem Supervision.modLive_ne (u : Supervision) {r q : RecIx} (f : Live → Live) (h : r ≠ q) :
    (u.modLive r f).live q = u.live q := by simp [Supervision.modLive_live, h]

theorem Supervision.modLive_record_ne (u : Supervision) {r q : RecIx} (f : Live → Live) (h : r ≠ q) :
    (u.modLive r f).record q = u.record q := Supervision.setRecord_ne u _ h

@[simp] theorem Supervision.modLive_generation (u : Supervision) (r q : RecIx) (f : Live → Live) :
    ((u.modLive r f).record q).generation = (u.record q).generation := by
  unfold Supervision.modLive
  rw [Supervision.setRecord_record]
  split
  · rename_i h; subst h; rfl
  · rfl

@[simp] theorem Supervision.modLive_held (u : Supervision) (r q : RecIx) (f : Live → Live) :
    ((u.modLive r f).record q).held = (u.record q).held := by
  unfold Supervision.modLive
  rw [Supervision.setRecord_record]
  split
  · rename_i h; subst h; rfl
  · rfl

theorem Supervision.modSel_record_ne (u : Supervision) {r q : RecIx} (f : Selector → Selector) (h : r ≠ q) :
    (u.modSel r f).record q = u.record q := Supervision.modLive_record_ne u _ h

@[simp] theorem Supervision.modSel_live (u : Supervision) (r : RecIx) (f : Selector → Selector) :
    (u.modSel r f).live r = (u.live r).map (fun l => { l with sel := f l.sel }) := Supervision.modLive_same u r _

theorem Supervision.modSel_live_ne (u : Supervision) {r q : RecIx} (f : Selector → Selector) (h : r ≠ q) :
    (u.modSel r f).live q = u.live q := Supervision.modLive_ne u _ h

@[simp] theorem Supervision.modSel_same (u : Supervision) (r : RecIx) (f : Selector → Selector) :
    (u.modSel r f).sel r = (u.sel r).map f := by
  unfold Supervision.sel
  rw [Supervision.modSel_live]
  cases u.live r <;> rfl

theorem Supervision.modSel_ne (u : Supervision) {r q : RecIx} (f : Selector → Selector) (h : r ≠ q) :
    (u.modSel r f).sel q = u.sel q := by
  unfold Supervision.sel
  rw [Supervision.modSel_live_ne u f h]

theorem Supervision.modSel_sameRecords (u : Supervision) (r : RecIx) (f : Selector → Selector) :
    u.sameRecords (u.modSel r f) := fun q => by
  refine ⟨Supervision.modLive_generation _ _ _ _, Supervision.modLive_held _ _ _ _, ?_⟩
  by_cases h : r = q
  · subst h
    rw [Supervision.modSel_live]
    cases u.live r <;> rfl
  · rw [Supervision.modSel_live_ne u f h]

/-- Table reads of states with one table agree. -/
theorem Supervision.live_of_table {u v : Supervision} (h : v.table = u.table) (r : RecIx) : v.live r = u.live r := by
  simp [Supervision.live, Supervision.record, h]

theorem Supervision.sel_of_table {u v : Supervision} (h : v.table = u.table) (r : RecIx) : v.sel r = u.sel r := by
  simp [Supervision.sel, Supervision.live_of_table h]

theorem Supervision.record_of_table {u v : Supervision} (h : v.table = u.table) (r : RecIx) : v.record r = u.record r := by
  simp [Supervision.record, h]

/-! ## Operations that keep records and notices

`SelectorsOnly` says what every claim on the pool and every settling of a selection does: the records but for selector
parts are the same, in these the mode, the request and the judgements are, and the notices are the same. -/

/-- The parts of a selector part that no settling changes. -/
def Selector.kept (x : Selector) : Mode × Request × Option Judgement × Option Judgement := (x.mode, x.request, x.w, x.p)

/-- Only where selections stand, the claims on timers, and the pool differ. -/
structure Supervision.SelectorsOnly (u v : Supervision) : Prop where
  records : u.sameRecords v
  notices : v.notices = u.notices
  kept : ∀ r, (v.sel r).map Selector.kept = (u.sel r).map Selector.kept

theorem Supervision.SelectorsOnly.refl (u : Supervision) : u.SelectorsOnly u := ⟨u.sameRecords_refl, rfl, fun _ => rfl⟩

theorem Supervision.SelectorsOnly.trans {u v w : Supervision} (h : u.SelectorsOnly v) (h' : v.SelectorsOnly w) :
    u.SelectorsOnly w :=
  ⟨Supervision.sameRecords_trans h.records h'.records, h'.notices.trans h.notices, fun r => (h'.kept r).trans (h.kept r)⟩

theorem Supervision.modSel_selectorsOnly (u : Supervision) (r : RecIx) (f : Selector → Selector)
    (hf : ∀ x, (f x).kept = x.kept := by intro; rfl) : u.SelectorsOnly (u.modSel r f) := by
  refine ⟨u.modSel_sameRecords r f, rfl, fun q => ?_⟩
  by_cases h : r = q
  · subst h
    rw [Supervision.modSel_same]
    cases u.sel r <;> simp [hf]
  · rw [Supervision.modSel_ne u f h]

theorem Supervision.withPool_selectorsOnly (u : Supervision) (p : Pool) : u.SelectorsOnly { u with pool := p } :=
  ⟨Supervision.sameRecords_of_table rfl, rfl, fun _ => rfl⟩

theorem Supervision.handOver_selectorsOnly (u : Supervision) (t : TimerIx) : u.SelectorsOnly (u.handOver t) := by
  unfold Supervision.handOver
  split
  · exact .refl u
  · exact (u.withPool_selectorsOnly _).trans (Supervision.modSel_selectorsOnly _ _ _)

theorem Supervision.freeTimer_selectorsOnly (u : Supervision) (r : RecIx) (t : TimerIx) :
    u.SelectorsOnly (u.freeTimer r t) := by
  unfold Supervision.freeTimer
  exact ((u.withPool_selectorsOnly _).trans (Supervision.modSel_selectorsOnly _ _ _)).trans
    (Supervision.handOver_selectorsOnly _ _)

theorem Supervision.releaseTimer_selectorsOnly (u : Supervision) (r : RecIx) : u.SelectorsOnly (u.releaseTimer r) := by
  unfold Supervision.releaseTimer
  split
  · exact .refl u
  · exact u.freeTimer_selectorsOnly r _

theorem Supervision.leave_selectorsOnly (u : Supervision) (r : RecIx) : u.SelectorsOnly (u.leave r) :=
  (u.withPool_selectorsOnly _).trans (Supervision.modSel_selectorsOnly _ _ _)

theorem Supervision.join_selectorsOnly (u : Supervision) (r : RecIx) : u.SelectorsOnly (u.join r) :=
  (u.withPool_selectorsOnly _).trans (Supervision.modSel_selectorsOnly _ _ _)

theorem Supervision.endWaits_selectorsOnly (u : Supervision) (r : RecIx) : u.SelectorsOnly (u.endWaits r) :=
  (u.releaseTimer_selectorsOnly r).trans (Supervision.leave_selectorsOnly _ r)

theorem Supervision.reloadTimer_selectorsOnly (u : Supervision) (r : RecIx) (p : Purpose) (n : Nat) :
    u.SelectorsOnly (u.reloadTimer r p n) := by
  unfold Supervision.reloadTimer
  split
  · exact .refl u
  · exact u.withPool_selectorsOnly _

theorem Supervision.takeTimer_selectorsOnly {u v : Supervision} {r : RecIx} {p : Purpose} {n : Nat}
    (h : u.takeTimer r p n = some v) : u.SelectorsOnly v := by
  unfold Supervision.takeTimer at h
  split at h
  · cases h
  · cases h
    exact (u.withPool_selectorsOnly _).trans (Supervision.modSel_selectorsOnly _ _ _)

theorem Supervision.countShort_selectorsOnly (u : Supervision) : u.SelectorsOnly u.countShort :=
  u.withPool_selectorsOnly _

theorem Supervision.selectAt_selectorsOnly (u : Supervision) (r : RecIx) (side : Side) :
    u.SelectorsOnly (u.selectAt r side) := u.modSel_selectorsOnly r _

theorem Supervision.setSelState_selectorsOnly (u : Supervision) (r : RecIx) (st : SelState) :
    u.SelectorsOnly (u.setSelState r st) := u.modSel_selectorsOnly r _

theorem Supervision.leaveSource_selectorsOnly (u : Supervision) (r : RecIx) (f : Fields) (side : Side) :
    u.SelectorsOnly (u.leaveSource r f side).1 := by
  unfold Supervision.leaveSource
  split
  · exact u.selectAt_selectorsOnly r _
  · split
    · rename_i v h
      exact (Supervision.takeTimer_selectorsOnly h).trans (Supervision.setSelState_selectorsOnly _ _ _)
    · exact u.countShort_selectorsOnly.trans (Supervision.selectAt_selectorsOnly _ _ _)

theorem Supervision.beginReturn_selectorsOnly (u : Supervision) (r : RecIx) (f : Fields) :
    u.SelectorsOnly (u.beginReturn r f).1 := by
  unfold Supervision.beginReturn
  split
  · rename_i v h
    exact (Supervision.takeTimer_selectorsOnly h).trans (Supervision.setSelState_selectorsOnly _ _ _)
  · exact (u.countShort_selectorsOnly.trans (Supervision.join_selectorsOnly _ _)).trans
      (Supervision.setSelState_selectorsOnly _ _ _)

theorem Supervision.ite_selectorsOnly {u : Supervision} {p : Prop} [Decidable p] {a b : Supervision × Bool}
    (ha : u.SelectorsOnly a.1) (hb : u.SelectorsOnly b.1) : u.SelectorsOnly (if p then a else b).1 := by
  split
  · exact ha
  · exact hb

theorem Supervision.stateRow_selectorsOnly (u : Supervision) (r : RecIx) (f : Fields) (x : Selector) (mw mp : Int) :
    u.SelectorsOnly (u.stateRow r f x mw mp).1 := by
  have settled (st : SelState) : u.SelectorsOnly ((u.endWaits r).setSelState r st) :=
    (u.endWaits_selectorsOnly r).trans (Supervision.setSelState_selectorsOnly _ _ _)
  have released (st : SelState) : u.SelectorsOnly ((u.releaseTimer r).setSelState r st) :=
    (u.releaseTimer_selectorsOnly r).trans (Supervision.setSelState_selectorsOnly _ _ _)
  have reloaded (p : Purpose) (n : Nat) (st : SelState) : u.SelectorsOnly ((u.reloadTimer r p n).setSelState r st) :=
    (u.reloadTimer_selectorsOnly r p n).trans (Supervision.setSelState_selectorsOnly _ _ _)
  unfold Supervision.stateRow
  cases x.state with
  | onW => exact ite_selectorsOnly (u.leaveSource_selectorsOnly r f _) (.refl u)
  | holdW => exact ite_selectorsOnly (.refl u) (released _)
  | onP =>
    exact ite_selectorsOnly (u.leaveSource_selectorsOnly r f _)
      (ite_selectorsOnly (u.beginReturn_selectorsOnly r f) (.refl u))
  | holdP => exact ite_selectorsOnly (.refl u) (ite_selectorsOnly (reloaded _ _ _) (released _))
  | ret =>
    exact ite_selectorsOnly
      (ite_selectorsOnly ((u.endWaits_selectorsOnly r).trans (Supervision.selectAt_selectorsOnly _ _ _))
        (ite_selectorsOnly
          (((u.leave_selectorsOnly r).trans (Supervision.countShort_selectorsOnly _)).trans
            (Supervision.selectAt_selectorsOnly _ _ _))
          (reloaded _ _ _)))
      (ite_selectorsOnly (.refl u) (settled _))

theorem Supervision.settleLive_selectorsOnly (u : Supervision) (r : RecIx) (f : Fields) (x : Selector) (mw mp : Int) :
    u.SelectorsOnly (u.settleLive r f x mw mp).1 := by
  unfold Supervision.settleLive
  split
  · exact (u.endWaits_selectorsOnly r).trans (Supervision.selectAt_selectorsOnly _ _ _)
  · exact u.stateRow_selectorsOnly r f x mw mp

theorem Supervision.settle_selectorsOnly (u : Supervision) (r : RecIx) (expiry : Bool) (f : Fields) (x : Selector)
    (mw mp : Int) : u.SelectorsOnly (u.settle r expiry f x mw mp).1 := by
  unfold Supervision.settle
  split
  · exact u.selectAt_selectorsOnly r _
  · split
    · exact (u.modSel_selectorsOnly r _).trans (Supervision.stateRow_selectorsOnly _ _ _ _ _ _)
    · exact u.settleLive_selectorsOnly r f x mw mp
  · exact .refl u

theorem Supervision.freeze_sameRecords (u : Supervision) (r : RecIx) : u.sameRecords (u.freeze r) :=
  Supervision.sameRecords_trans (u.endWaits_selectorsOnly r).records (Supervision.modSel_sameRecords _ _ _)

@[simp] theorem Supervision.freeze_notices (u : Supervision) (r : RecIx) : (u.freeze r).notices = u.notices :=
  (u.endWaits_selectorsOnly r).notices

/-! ## Evaluations -/

theorem Supervision.postIf_sameRecords (u : Supervision) (a : Bool) (r : RecIx) (k : Kind) :
    u.sameRecords (u.postIf a r k) := Supervision.sameRecords_of_table (by simp)

theorem Supervision.postRecord_sameRecords (u : Supervision) (r : RecIx) (k : Kind) :
    u.sameRecords (u.postRecord r k) := Supervision.sameRecords_of_table (by simp)

theorem Supervision.post_sameRecords (u : Supervision) (x : Subject) (k : Kind) : u.sameRecords (u.post x k) :=
  Supervision.sameRecords_of_table rfl

/-- An evaluation changes selector parts alone. -/
theorem Supervision.evaluate_sameRecords (u : Supervision) (r : RecIx) (expiry : Bool) (w : Judgement)
    (p : Option Judgement) : u.sameRecords (u.evaluate r expiry w p) := by
  unfold Supervision.evaluate
  split
  · exact u.sameRecords_refl
  · rename_i l hl
    have h1 := u.modSel_sameRecords r (fun x => { x with w := some w, p := p })
    have h2 := (Supervision.settle_selectorsOnly (u.modSel r (fun x => { x with w := some w, p := p })) r expiry l.fields
      { l.sel with w := some w, p := p } (meritOf l.fields.degradeSwitch (some w)) (meritOf l.fields.degradeSwitch p)).records
    refine Supervision.sameRecords_trans (Supervision.sameRecords_trans h1 h2) ?_
    refine Supervision.sameRecords_trans ?_ (Supervision.postIf_sameRecords _ _ _ _)
    refine Supervision.sameRecords_trans ?_ (Supervision.postIf_sameRecords _ _ _ _)
    refine Supervision.sameRecords_trans ?_ (Supervision.postIf_sameRecords _ _ _ _)
    refine Supervision.sameRecords_trans ?_ (Supervision.postIf_sameRecords _ _ _ _)
    split
    · exact Supervision.modSel_sameRecords _ _ _
    · exact Supervision.sameRecords_refl _

/-- An evaluation takes no notice back. -/
theorem Supervision.evaluate_keeps {u : Supervision} {r : RecIx} {expiry : Bool} {w : Judgement} {p : Option Judgement}
    {y : Subject} {j : Kind} (h : u.tells y j) : (u.evaluate r expiry w p).tells y j := by
  unfold Supervision.evaluate
  split
  · exact h
  · rename_i l hl
    apply Supervision.postIf_keeps
    apply Supervision.postIf_keeps
    apply Supervision.postIf_keeps
    apply Supervision.postIf_keeps
    have h2 := (Supervision.settle_selectorsOnly (u.modSel r (fun x => { x with w := some w, p := p })) r expiry l.fields
      { l.sel with w := some w, p := p } (meritOf l.fields.degradeSwitch (some w)) (meritOf l.fields.degradeSwitch p)).notices
    split <;> simpa [Supervision.tells, h2] using h

end Sys2Proof.Machine
end

