-- ==== Sys2Proof/Laws/Tasks.lean ====
section
/-! SUPPORT. What the tasks of one event can do, in whatever order they are taken. -/
namespace Sys2Proof.Machine

/-! ## The free order -/

theorem mem_insertBy {α : Type} {rank : α → Nat} {x y : α} {xs : List α} :
    y ∈ insertBy rank x xs ↔ y = x ∨ y ∈ xs := by
  induction xs with
  | nil => simp [insertBy]
  | cons z zs ih =>
    unfold insertBy
    split
    · simp
    · simp only [List.mem_cons, ih]
      tauto

theorem mem_orderBy {α : Type} {rank : α → Nat} {y : α} {xs : List α} : y ∈ orderBy rank xs ↔ y ∈ xs := by
  induction xs with
  | nil => simp [orderBy]
  | cons z zs ih => simp [orderBy, mem_insertBy, ih]

theorem insertBy_perm {α : Type} (rank : α → Nat) (x : α) (xs : List α) : (insertBy rank x xs).Perm (x :: xs) := by
  induction xs with
  | nil => exact List.Perm.refl _
  | cons z zs ih =>
    unfold insertBy
    split
    · exact List.Perm.refl _
    · exact (ih.cons z).trans (List.Perm.swap x z zs)

theorem orderBy_perm {α : Type} (rank : α → Nat) (xs : List α) : (orderBy rank xs).Perm xs := by
  induction xs with
  | nil => exact List.Perm.refl _
  | cons z zs ih => exact (insertBy_perm rank z _).trans (ih.cons z)

/-! ## What a task leaves alone -/

/-- Only selector parts, the pool, the queue (which loses nothing) and the count of free choices differ. -/
structure State.Supervises (s t : State) : Prop where
  nReset : t.nReset = s.nReset
  rxA : t.rxA = s.rxA
  rxB : t.rxB = s.rxB
  monA : t.monA = s.monA
  monB : t.monB = s.monB
  owner : t.owner = s.owner
  updates : t.updates = s.updates
  alertOn : t.alertOn = s.alertOn
  egress : t.egress = s.egress
  link : t.link = s.link
  pending : t.pending = s.pending
  records : s.sup.sameRecords t.sup
  keeps : ∀ x k, s.sup.tells x k → t.sup.tells x k

theorem State.Supervises.refl (s : State) : s.Supervises s :=
  ⟨rfl, rfl, rfl, rfl, rfl, rfl, rfl, rfl, rfl, rfl, rfl, s.sup.sameRecords_refl, fun _ _ h => h⟩

theorem State.Supervises.trans {s t v : State} (h : s.Supervises t) (h' : t.Supervises v) : s.Supervises v where
  nReset := h'.nReset.trans h.nReset
  rxA := h'.rxA.trans h.rxA
  rxB := h'.rxB.trans h.rxB
  monA := h'.monA.trans h.monA
  monB := h'.monB.trans h.monB
  owner := h'.owner.trans h.owner
  updates := h'.updates.trans h.updates
  alertOn := h'.alertOn.trans h.alertOn
  egress := h'.egress.trans h.egress
  link := h'.link.trans h.link
  pending := h'.pending.trans h.pending
  records := Supervision.sameRecords_trans h.records h'.records
  keeps := fun x k hx => h'.keeps x k (h.keeps x k hx)

theorem State.supervises_of_sup {s : State} {u : Supervision} (h : s.sup.sameRecords u)
    (h' : ∀ x k, s.sup.tells x k → u.tells x k) : s.Supervises { s with sup := u } :=
  ⟨rfl, rfl, rfl, rfl, rfl, rfl, rfl, rfl, rfl, rfl, rfl, h, h'⟩

theorem State.supervises_choices (s : State) (n : Nat) : s.Supervises { s with choices := n } :=
  ⟨rfl, rfl, rfl, rfl, rfl, rfl, rfl, rfl, rfl, rfl, rfl, s.sup.sameRecords_refl, fun _ _ h => h⟩

theorem State.Supervises.rx {s t : State} (h : s.Supervises t) (b : Bus) : t.rx b = s.rx b := by
  cases b
  · exact h.rxA
  · exact h.rxB

theorem State.Supervises.mons {s t : State} (h : s.Supervises t) (b : Bus) : t.mons b = s.mons b := by
  cases b
  · exact h.monA
  · exact h.monB

theorem State.Supervises.monitor {s t : State} (h : s.Supervises t) (src : Source) : t.monitor src = s.monitor src := by
  unfold State.monitor
  rw [h.mons]

theorem State.Supervises.judge {s t : State} (h : s.Supervises t) (f : Fields) (src : Source) :
    t.judge f src = s.judge f src := by
  unfold State.judge
  rw [h.rx, h.monitor]

theorem State.evaluateBy_supervises (s : State) (expiry : Bool) (r : RecIx) : s.Supervises (s.evaluateBy expiry r) := by
  unfold State.evaluateBy
  split
  · exact .refl s
  · exact State.supervises_of_sup (Supervision.evaluate_sameRecords _ _ _ _ _) fun _ _ h => Supervision.evaluate_keeps h

theorem State.postAlign_supervises (s : State) (b : Bus) : s.Supervises (s.postAlign b) :=
  State.supervises_of_sup (Supervision.post_sameRecords _ _ _) fun _ _ h => Supervision.post_keeps h

theorem State.runTask_supervises (s : State) (t : Task) : s.Supervises (s.runTask t) := by
  cases t with
  | evaluate r => exact s.evaluateBy_supervises false r
  | post r k =>
    exact State.supervises_of_sup (Supervision.postRecord_sameRecords _ _ _) fun _ _ h => Supervision.postRecord_keeps h
  | align b => exact s.postAlign_supervises b

/-! ## Lists of tasks -/

theorem State.foldTasks_keep {P : State → Prop} {ts : List Task} (step : ∀ t ∈ ts, ∀ s, P s → P (s.runTask t)) {s : State}
    (h : P s) : P (ts.foldl State.runTask s) := by
  induction ts generalizing s with
  | nil => exact h
  | cons t ts ih => exact ih (fun t' ht' => step t' (by simp [ht'])) (step t (by simp) s h)

/-- What every task keeps, and the count of choices does not touch, the tasks of an event keep. -/
theorem State.runTasks_keep {P : State → Prop} {ts : List Task} (step : ∀ t ∈ ts, ∀ s, P s → P (s.runTask t))
    (choice : ∀ s n, P s → P { s with choices := n }) {s : State} (h : P s) : P (s.runTasks ts) := by
  unfold State.runTasks
  split
  · exact h
  · rename_i t
    exact step t (by simp) s h
  · exact State.foldTasks_keep (fun t ht => step t (mem_orderBy.1 ht)) (choice _ _ h)

theorem State.runTasks_supervises (s : State) (ts : List Task) : s.Supervises (s.runTasks ts) :=
  State.runTasks_keep (P := s.Supervises) (fun t _ _ h => h.trans (State.runTask_supervises _ t))
    (fun _ n h => h.trans (State.supervises_choices _ n)) (State.Supervises.refl s)

theorem State.foldTasks_reach {P Q : State → Prop} {ts : List Task} {t : Task} (ht : t ∈ ts)
    (step : ∀ t' ∈ ts, ∀ s, P s → P (s.runTask t')) (does : ∀ s, P s → Q (s.runTask t))
    (stays : ∀ t' ∈ ts, ∀ s, P s → Q s → Q (s.runTask t')) {s : State} (h : P s) : Q (ts.foldl State.runTask s) := by
  induction ts generalizing s with
  | nil => simp at ht
  | cons a as ih =>
    simp only [List.foldl_cons]
    rcases List.mem_cons.1 ht with hta | hta
    · subst hta
      have base : P (s.runTask t) ∧ Q (s.runTask t) := ⟨step t (by simp) s h, does s h⟩
      exact (State.foldTasks_keep (P := fun s => P s ∧ Q s)
        (fun t' ht' s hs => ⟨step t' (by simp [ht']) s hs.1, stays t' (by simp [ht']) s hs.1 hs.2⟩) base).2
    · exact ih hta (fun t' ht' => step t' (by simp [ht'])) (fun t' ht' => stays t' (by simp [ht']))
        (step a (by simp) s h)

/-- What one task brings about, and no task takes back, holds after the tasks of the event; `P` is kept all along. -/
theorem State.runTasks_reach {P Q : State → Prop} {ts : List Task} {t : Task} (ht : t ∈ ts)
    (step : ∀ t' ∈ ts, ∀ s, P s → P (s.runTask t')) (does : ∀ s, P s → Q (s.runTask t))
    (stays : ∀ t' ∈ ts, ∀ s, P s → Q s → Q (s.runTask t')) (choice : ∀ s n, P s → P { s with choices := n }) {s : State}
    (h : P s) : Q (s.runTasks ts) := by
  unfold State.runTasks
  split
  · simp at ht
  · rename_i t'
    have : t = t' := by simpa using ht
    subst this
    exact does s h
  · exact State.foldTasks_reach (mem_orderBy.2 ht) (fun t' ht' => step t' (mem_orderBy.1 ht')) does
      (fun t' ht' => stays t' (mem_orderBy.1 ht')) (choice _ _ h)

/-- The tasks of an event that holds ALIGN queue it. -/
theorem State.runTasks_align {s : State} {ts : List Task} {b : Bus} (h : Task.align b ∈ ts) :
    (s.runTasks ts).sup.tells (.bus b) .align :=
  State.runTasks_reach (P := fun _ => True) (Q := fun s => s.sup.tells (.bus b) .align) h (fun _ _ _ _ => trivial)
    (fun _ _ => Supervision.post_tells _ _ _) (fun t' _ s _ hq => (State.runTask_supervises s t').keeps _ _ hq)
    (fun _ _ _ => trivial) trivial

/-- The tasks of an event that holds a posting queue it, unless the record's mask stops it. -/
theorem State.runTasks_post {s : State} {ts : List Task} {r : RecIx} {k : Kind} {l : Live} (h : Task.post r k ∈ ts)
    (hl : s.sup.live r = some l) (hm : (k.maskable && hasKind l.fields.mask k) = false) :
    (s.runTasks ts).sup.tells (.record r) k := by
  refine State.runTasks_reach (P := fun s => ∃ x, s.sup.live r = some { l with sel := x })
    (Q := fun s => s.sup.tells (.record r) k) h ?_ ?_ (fun t' _ s _ hq => (State.runTask_supervises s t').keeps _ _ hq)
    (fun _ _ hp => hp) ⟨l.sel, hl⟩
  · rintro t' _ s ⟨x, hx⟩
    obtain ⟨y, hy⟩ := Supervision.sameRecords_live (State.runTask_supervises s t').records hx
    exact ⟨y, hy⟩
  · rintro s ⟨x, hx⟩
    exact Supervision.postRecord_tells (by simpa [Supervision.masks, hx] using hm)

end Sys2Proof.Machine
end

