-- ==== Sys2Proof/Laws/Evaluation.lean ====
section
/-! SUPPORT. What an evaluation, and the evaluations among the tasks of an event, leave in the records. -/
namespace Sys2Proof.Machine

/-! ## Postings leave the table alone -/

@[simp] theorem Supervision.postIf_live (u : Supervision) (a : Bool) (r q : RecIx) (k : Kind) :
    (u.postIf a r k).live q = u.live q := Supervision.live_of_table (by simp) q

@[simp] theorem Supervision.postIf_sel (u : Supervision) (a : Bool) (r q : RecIx) (k : Kind) :
    (u.postIf a r k).sel q = u.sel q := Supervision.sel_of_table (by simp) q

@[simp] theorem Supervision.postRecord_live (u : Supervision) (r q : RecIx) (k : Kind) :
    (u.postRecord r k).live q = u.live q := Supervision.live_of_table (by simp) q

@[simp] theorem Supervision.postRecord_sel (u : Supervision) (r q : RecIx) (k : Kind) :
    (u.postRecord r k).sel q = u.sel q := Supervision.sel_of_table (by simp) q

@[simp] theorem Supervision.post_sel (u : Supervision) (x : Subject) (q : RecIx) (k : Kind) :
    (u.post x k).sel q = u.sel q := rfl

/-! ## One evaluation -/

theorem Supervision.sel_of_live {u : Supervision} {r : RecIx} {l : Live} (h : u.live r = some l) : u.sel r = some l.sel := by
  simp [Supervision.sel, h]

/-- The evaluated record holds the judgements derived, in its mode. -/
theorem Supervision.evaluate_stores {u : Supervision} {r : RecIx} {l : Live} (h : u.live r = some l) (expiry : Bool)
    (w : Judgement) (p : Option Judgement) :
    ∃ x, (u.evaluate r expiry w p).sel r = some x ∧ x.w = some w ∧ x.p = p ∧ x.mode = l.sel.mode := by
  unfold Supervision.evaluate
  rw [h]
  simp only [Supervision.postIf_sel]
  have hs := (Supervision.settle_selectorsOnly (u.modSel r (fun x => { x with w := some w, p := p })) r expiry l.fields
      { l.sel with w := some w, p := p } (meritOf l.fields.degradeSwitch (some w)) (meritOf l.fields.degradeSwitch p)).kept r
  rw [Supervision.modSel_same, Supervision.sel_of_live h] at hs
  generalize (Supervision.settle _ _ _ _ _ _ _) = out at hs ⊢
  cases hx : out.1.sel r with
  | none => simp [hx] at hs
  | some x =>
    simp only [hx, Option.map_some, Option.some.injEq, Selector.kept, Prod.mk.injEq] at hs
    split
    · rw [Supervision.modSel_same, hx]
      exact ⟨_, rfl, hs.2.2.1, hs.2.2.2, hs.1⟩
    · exact ⟨x, hx, hs.2.2.1, hs.2.2.2, hs.1⟩

/-- Another record keeps its mode, its request and its judgements. -/
theorem Supervision.evaluate_kept_ne (u : Supervision) {r q : RecIx} (h : r ≠ q) (expiry : Bool) (w : Judgement)
    (p : Option Judgement) : ((u.evaluate r expiry w p).sel q).map Selector.kept = (u.sel q).map Selector.kept := by
  unfold Supervision.evaluate
  split
  · rfl
  · rename_i l hl
    simp only [Supervision.postIf_sel]
    have hs := (Supervision.settle_selectorsOnly (u.modSel r (fun x => { x with w := some w, p := p })) r expiry l.fields
      { l.sel with w := some w, p := p } (meritOf l.fields.degradeSwitch (some w)) (meritOf l.fields.degradeSwitch p)).kept q
    rw [Supervision.modSel_ne u _ h] at hs
    split
    · rw [Supervision.modSel_ne _ _ h]
      exact hs
    · exact hs

/-! ## Evaluations among tasks -/

/-- The stored judgements of a record are those derived now. -/
def State.Judged (s : State) (r : RecIx) : Prop :=
  ∀ l, s.sup.live r = some l →
    l.sel.w = some (s.judge l.fields l.fields.working) ∧ l.sel.p = l.fields.protect.map (s.judge l.fields)

theorem State.evaluateBy_judged (s : State) (expiry : Bool) (r : RecIx) : (s.evaluateBy expiry r).Judged r := by
  intro l hl
  have hk := s.evaluateBy_supervises expiry r
  cases h : s.sup.live r with
  | none =>
    have := (Supervision.sameRecords_none hk.records r).2 h
    rw [this] at hl
    cases hl
  | some k =>
    obtain ⟨x, hx⟩ := Supervision.sameRecords_live hk.records h
    have hl' := hx.symm.trans hl
    obtain ⟨y, hy, hw, hp, _⟩ := Supervision.evaluate_stores h expiry (s.judge k.fields k.fields.working)
      (k.fields.protect.map (s.judge k.fields))
    have hsel : (s.evaluateBy expiry r).sup.sel r = some y := by
      unfold State.evaluateBy
      rw [h]
      exact hy
    rw [Supervision.sel_of_live hl] at hsel
    cases hl'
    cases hsel
    refine ⟨?_, ?_⟩
    · rw [hk.judge]
      exact hw
    · rw [show (s.evaluateBy expiry r).judge k.fields = s.judge k.fields from funext fun src => hk.judge _ src]
      exact hp

theorem State.judged_of_kept {s t : State} {r : RecIx} (h : s.Supervises t)
    (hk : (t.sup.sel r).map Selector.kept = (s.sup.sel r).map Selector.kept) (hj : s.Judged r) : t.Judged r := by
  intro l hl
  cases hs : s.sup.live r with
  | none =>
    have := (Supervision.sameRecords_none h.records r).2 hs
    rw [this] at hl
    cases hl
  | some k =>
    obtain ⟨x, hx⟩ := Supervision.sameRecords_live h.records hs
    have hl' := hx.symm.trans hl
    obtain ⟨h1, h2⟩ := hj k hs
    rw [Supervision.sel_of_live hl, Supervision.sel_of_live hs] at hk
    simp only [Option.map_some, Option.some.injEq, Selector.kept, Prod.mk.injEq] at hk
    cases hl'
    refine ⟨?_, ?_⟩
    · rw [h.judge, hk.2.2.1]
      exact h1
    · rw [show t.judge k.fields = s.judge k.fields from funext fun src => h.judge _ src, hk.2.2.2]
      exact h2

theorem State.runTask_judged {s : State} {t : Task} {r : RecIx} (h : s.Judged r) : (s.runTask t).Judged r := by
  cases t with
  | evaluate q =>
    by_cases hq : q = r
    · subst hq
      exact s.evaluateBy_judged false q
    · refine State.judged_of_kept (s.evaluateBy_supervises false q) ?_ h
      simp only [State.runTask, State.evaluate, State.evaluateBy]
      split
      · rfl
      · exact Supervision.evaluate_kept_ne _ hq _ _ _
  | post q k => exact State.judged_of_kept (s.runTask_supervises (.post q k)) (by simp [State.runTask]) h
  | align b => exact State.judged_of_kept (s.runTask_supervises (.align b)) rfl h

/-- A record that an event evaluates is judged as everything stands after it. -/
theorem State.runTasks_judged {s : State} {ts : List Task} {r : RecIx} (h : Task.evaluate r ∈ ts) :
    (s.runTasks ts).Judged r :=
  State.runTasks_reach (P := fun _ => True) (Q := fun s => s.Judged r) h (fun _ _ _ _ => trivial)
    (fun s _ => s.evaluateBy_judged false r) (fun _ _ _ _ hq => State.runTask_judged hq) (fun _ _ _ => trivial) trivial

end Sys2Proof.Machine
end

