-- ==== Sys2Proof/Laws/Ingress.lean ====
section
/-! SUPPORT. The ingress receivers: what an event of one bus leaves alone, and what a loss of alignment leaves. -/
namespace Sys2Proof.Machine

/-! ## One bus -/

theorem State.sameBesideBus_refl (s : State) (b : Bus) : s.sameBesideBus s b :=
  ⟨rfl, fun _ _ => rfl, fun _ _ => rfl, s.sup.sameRecords_refl, rfl, rfl, rfl, rfl, rfl, rfl⟩

theorem State.sameBesideBus.trans {s t v : State} {b : Bus} (h : s.sameBesideBus t b) (h' : t.sameBesideBus v b) :
    s.sameBesideBus v b where
  nReset := h'.nReset.trans h.nReset
  receiver := fun c hc => (h'.receiver c hc).trans (h.receiver c hc)
  monitors := fun c hc => (h'.monitors c hc).trans (h.monitors c hc)
  records := Supervision.sameRecords_trans h.records h'.records
  owner := h'.owner.trans h.owner
  updates := h'.updates.trans h.updates
  alertOn := h'.alertOn.trans h.alertOn
  egress := h'.egress.trans h.egress
  link := h'.link.trans h.link
  pending := h'.pending.trans h.pending

theorem State.Supervises.sameBesideBus {s t : State} (h : s.Supervises t) (b : Bus) : s.sameBesideBus t b :=
  ⟨h.nReset, fun c _ => h.rx c, fun c _ => h.mons c, h.records, h.owner, h.updates, h.alertOn, h.egress, h.link, h.pending⟩

theorem State.setRx_sameBesideBus (s : State) (b : Bus) (rx : Receiver) : s.sameBesideBus (s.setRx b rx) b :=
  ⟨by simp, fun _ hc => s.setRx_rx_ne rx hc.symm, fun _ _ => by simp, Supervision.sameRecords_of_table (by simp), by simp,
    by simp, by simp, by simp, by simp, by simp⟩

theorem State.setMons_sameBesideBus (s : State) (b : Bus) (ms : Vector Monitor 48) : s.sameBesideBus (s.setMons b ms) b :=
  ⟨by simp, fun _ _ => by simp, fun _ hc => s.setMons_mons_ne ms hc.symm, Supervision.sameRecords_of_table (by simp),
    by simp, by simp, by simp, by simp, by simp, by simp⟩

theorem State.postAlign_sameBesideBus (s : State) (b c : Bus) : s.sameBesideBus (s.postAlign b) c :=
  (s.postAlign_supervises b).sameBesideBus c

theorem State.runTasks_sameBesideBus (s : State) (ts : List Task) (b : Bus) : s.sameBesideBus (s.runTasks ts) b :=
  (s.runTasks_supervises ts).sameBesideBus b

theorem State.loseAlignment_sameBesideBus (s : State) (b : Bus) (st : BusState) :
    s.sameBesideBus (s.loseAlignment b st) b :=
  ((s.setRx_sameBesideBus b _).trans (State.setMons_sameBesideBus _ b _)).trans (State.runTasks_sameBesideBus _ _ b)

theorem State.loseClock_sameBesideBus (s : State) (b : Bus) : s.sameBesideBus (s.loseClock b) b := by
  unfold State.loseClock
  split
  · exact s.sameBesideBus_refl b
  · exact s.sameBesideBus_refl b
  · exact (s.setRx_sameBesideBus b _).trans (State.postAlign_sameBesideBus _ b b)
  · exact s.loseAlignment_sameBesideBus b _

theorem State.handFrame_sameBesideBus (s : State) (b : Bus) (n : SlotIx) (frame : SlotFrame) :
    s.sameBesideBus (s.handFrame b n frame) b :=
  (s.setMons_sameBesideBus b _).trans (State.runTasks_sameBesideBus _ _ b)

theorem State.completeFrame_sameBesideBus (s : State) (b : Bus) (n : SlotIx) : s.sameBesideBus (s.completeFrame b n) b := by
  unfold State.completeFrame
  split
  · exact s.sameBesideBus_refl b
  · exact (s.setRx_sameBesideBus b _).trans (State.handFrame_sameBesideBus _ b n _)

/-- A word of one bus touches that bus, selector parts, the pool and the queue alone. -/
theorem State.takeWord_sameBesideBus (s : State) (b : Bus) (w : IngressWord) : s.sameBesideBus (s.takeWord b w) b := by
  unfold State.takeWord
  split
  · exact s.sameBesideBus_refl b
  · exact (s.setRx_sameBesideBus b _).trans (State.postAlign_sameBesideBus _ b b)
  · unfold State.searchWord
    simp only
    split
    · split
      · exact s.setRx_sameBesideBus b _
      · exact s.sameBesideBus_refl b
    · split
      · exact s.setRx_sameBesideBus b _
      · split
        · exact (s.setRx_sameBesideBus b _).trans (State.runTasks_sameBesideBus _ _ b)
        · exact s.setRx_sameBesideBus b _
  · split
    · unfold State.checkFrame
      simp only
      split
      · split
        · exact (s.setRx_sameBesideBus b _).trans (State.loseAlignment_sameBesideBus _ b _)
        · exact s.setRx_sameBesideBus b _
      · exact s.setRx_sameBesideBus b _
    · unfold State.fillFrame
      simp only
      split
      · split
        · exact (s.setRx_sameBesideBus b _).trans (State.completeFrame_sameBesideBus _ b _)
        · exact s.setRx_sameBesideBus b _
      · exact s.setRx_sameBesideBus b _

theorem State.takeWords_sameBesideBus (s : State) (b : Bus) (ws : List IngressWord) :
    s.sameBesideBus (s.takeWords b ws) b := by
  unfold State.takeWords
  induction ws generalizing s with
  | nil => exact s.sameBesideBus_refl b
  | cons w ws ih => exact (s.takeWord_sameBesideBus b w).trans (ih _)

theorem State.disableBus_sameBesideBus (s : State) (b : Bus) : s.sameBesideBus (s.disableBus b) b := by
  unfold State.disableBus
  exact (((s.setRx_sameBesideBus b _).trans (State.setMons_sameBesideBus _ b _)).trans
    (State.runTasks_sameBesideBus _ _ b)).trans (State.postAlign_sameBesideBus _ b b)

/-! ## Words of a slot-frame -/

/-- A header word in ALIGNED, other than slot 0's, opens a slot-frame. -/
theorem State.takeWord_header {s : State} {b : Bus} (w : IngressWord) (h : (s.rx b).state = .aligned)
    (hp : (s.rx b).framePos + 1 ≠ 1152) (hm : ((s.rx b).framePos + 1) % 24 = 0) :
    ∃ fault, s.takeWord b w =
      s.setRx b
        { s.rx b with
          framePos := (s.rx b).framePos + 1
          frameFault := fault
          partialFrame := some ((s.rx b).openFrame w)
          parityErrored :=
            if passesParity (s.rx b).sense (s.rx b).scope w then (s.rx b).parityErrored
            else satInc (s.rx b).parityErrored } := by
  refine ⟨(s.rx b).frameFault || lineFault ((s.rx b).framePos + 1) w, ?_⟩
  simp only [State.takeWord, h, frameWords, hp, if_false, State.fillFrame, Receiver.place, Receiver.extendFrame, hm,
    Receiver.failsParity, if_true]
  cases passesParity (s.rx b).sense (s.rx b).scope w <;> simp

/-- A payload word in ALIGNED, other than a slot's last, is added to the slot-frame in progress. -/
theorem State.takeWord_payload {s : State} {b : Bus} (w : IngressWord) {pf : PartialFrame} (h : (s.rx b).state = .aligned)
    (hp : (s.rx b).framePos + 1 ≠ 1152) (hm : ((s.rx b).framePos + 1) % 24 ≠ 0) (hm' : ((s.rx b).framePos + 1) % 24 ≠ 23)
    (hpf : (s.rx b).partialFrame = some pf) :
    ∃ fault, s.takeWord b w =
      s.setRx b
        { s.rx b with
          framePos := (s.rx b).framePos + 1
          frameFault := fault
          partialFrame := some (pf.add w)
          parityErrored :=
            if passesParity pf.sense pf.scope w then (s.rx b).parityErrored else satInc (s.rx b).parityErrored } := by
  refine ⟨(s.rx b).frameFault || lineFault ((s.rx b).framePos + 1) w, ?_⟩
  simp only [State.takeWord, h, frameWords, hp, if_false, State.fillFrame, hm', Receiver.place, Receiver.extendFrame, hm, hpf,
    Receiver.failsParity, Option.map_some]
  cases passesParity pf.sense pf.scope w <;> simp

/-- A slot-frame with words added. -/
def PartialFrame.addAll (pf : PartialFrame) (ws : List IngressWord) : PartialFrame := ws.foldl PartialFrame.add pf

theorem PartialFrame.addAll_eq (ws : List IngressWord) (pf : PartialFrame) :
    pf.addAll ws =
      { pf with
        frame :=
          { pf.frame with
            payload := pf.frame.payload ++ ws.map (·.data)
            errored := pf.frame.errored || ws.any (fun x => !passesParity pf.sense pf.scope x) } } := by
  induction ws generalizing pf with
  | nil => simp [PartialFrame.addAll]
  | cons w ws ih =>
    have : pf.addAll (w :: ws) = (pf.add w).addAll ws := rfl
    rw [this, ih]
    simp [PartialFrame.add, Bool.or_assoc]

/-- Payload words short of a slot's last, one after another. -/
theorem State.takeWords_payload (b : Bus) (ws : List IngressWord) {s : State} {pf : PartialFrame}
    (h : (s.rx b).state = .aligned) (hpf : (s.rx b).partialFrame = some pf) (hl : (s.rx b).framePos % 24 + ws.length ≤ 22)
    (hp : (s.rx b).framePos < 1152) :
    ∃ fault, s.takeWords b ws =
      s.setRx b
        { s.rx b with
          framePos := (s.rx b).framePos + ws.length
          frameFault := fault
          partialFrame := some (pf.addAll ws)
          parityErrored :=
            satAdd (s.rx b).parityErrored (ws.countP (fun x => !passesParity pf.sense pf.scope x)) } := by
  induction ws generalizing s pf with
  | nil =>
    refine ⟨(s.rx b).frameFault, ?_⟩
    simp only [State.takeWords, List.foldl_nil, List.length_nil, Nat.add_zero, PartialFrame.addAll, List.countP_nil, satAdd, ← hpf]
    exact (s.setRx_self b).symm
  | cons w ws ih =>
    simp only [List.length_cons] at hl
    obtain ⟨fault, hw⟩ := State.takeWord_payload w h (by omega) (by omega) (by omega) hpf
    obtain ⟨fault', ht⟩ := ih (s := s.takeWord b w) (pf := pf.add w) (by rw [hw]; simp [h]) (by rw [hw]; simp)
      (by rw [hw]; simp only [State.setRx_rx]; omega) (by rw [hw]; simp only [State.setRx_rx]; omega)
    refine ⟨fault', ?_⟩
    have : s.takeWords b (w :: ws) = (s.takeWord b w).takeWords b ws := rfl
    rw [this, ht, hw, State.setRx_rx, State.setRx_setRx]
    congr 1
    simp only [List.length_cons, Receiver.mk.injEq, true_and, and_true]
    refine ⟨by omega, rfl, ?_⟩
    simp only [PartialFrame.add, List.countP_cons]
    cases passesParity pf.sense pf.scope w <;> simp [satAdd]

/-! ## Records on a bus -/

theorem State.mem_usersOf {s : State} {b : Bus} {r : RecIx} {l : Live} (hl : s.sup.live r = some l) :
    r ∈ s.usersOf b ↔ ∃ src ∈ l.fields.sources, src.bus = b := by
  simp [State.usersOf, hl]

theorem State.mem_namers {s : State} {src : Source} {r : RecIx} {l : Live} (hl : s.sup.live r = some l) :
    r ∈ s.namers src ↔ src ∈ l.fields.sources := by
  simp [State.namers, hl]

theorem Fields.working_mem (f : Fields) : f.working ∈ f.sources := by simp [Fields.sources]

theorem Fields.protect_mem {f : Fields} {src : Source} (h : f.protect = some src) : src ∈ f.sources := by
  simp [Fields.sources, h]

/-- After a loss of alignment the receiver and the monitors stand as R10 says, ALIGN is queued, and every record with a
source on the bus is judged as everything stands. -/
theorem State.loseAlignment_leaves (s : State) (b : Bus) (st : BusState) :
    (s.loseAlignment b st).rx b = { (s.rx b).unaligned st with alignLosses := satInc (s.rx b).alignLosses } ∧
    (s.loseAlignment b st).mons b = mapTable Monitor.alignReset (s.mons b) ∧
    (s.loseAlignment b st).sup.tells (.bus b) .align ∧
    ∀ r l, s.sup.live r = some l → (∃ src ∈ l.fields.sources, src.bus = b) → (s.loseAlignment b st).Judged r := by
  refine ⟨?_, ?_, ?_, ?_⟩
  · unfold State.loseAlignment
    rw [(State.runTasks_supervises _ _).rx]
    simp [Receiver.unaligned]
  · unfold State.loseAlignment
    rw [(State.runTasks_supervises _ _).mons]
    simp
  · exact State.runTasks_align (by simp)
  · intro r l hl hs
    apply State.runTasks_judged
    have hl' : ((s.setRx b { (s.rx b).unaligned st with alignLosses := satInc ((s.rx b).unaligned st).alignLosses }).setMons b
        (mapTable Monitor.alignReset (s.mons b))).sup.live r = some l := by simpa using hl
    simp only [State.busEvaluations, List.mem_cons, reduceCtorEq, List.mem_map, Task.evaluate.injEq, exists_eq_right,
      false_or, State.setRx_mons]
    exact (State.mem_usersOf hl').2 hs

end Sys2Proof.Machine
end

