-- ==== Sys2Proof/Laws/Link.lean ====
section
/-! SUPPORT. The link: a command's own frame passes the frame checks, and what its transfer comes to. -/
namespace Sys2Proof.Machine

theorem crc_snoc (bytes : List Byte) (b : Byte) : crc (bytes ++ [b]) = crcByte (crc bytes) b := by
  simp [crc, List.foldl_append]

theorem commandFrame_length (c : Command) (params : List Byte) : (commandFrame c params).length = params.length + 3 := by
  simp [commandFrame]

theorem readCommand_code (c : Command) : readCommand c.code = some c := by cases c <;> rfl

/-- The frame of a command with at most 60 parameter bytes passes the checks of R179 and reads back as that command. -/
theorem checkCommandFrame_commandFrame (c : Command) {params : List Byte} (h : params.length ≤ 60) :
    checkCommandFrame (commandFrame c params) = .ok (c, params) := by
  have h256 : params.length < 256 := by omega
  have h1 : (byteAt (commandFrame c params) 1).toNat = params.length := by
    have : byteAt (commandFrame c params) 1 = byteOfNat params.length := rfl
    rw [this]
    simp [byteOfNat, Nat.mod_eq_of_lt h256]
  have h0 : byteAt (commandFrame c params) 0 = c.code := rfl
  have hl := commandFrame_length c params
  have ht : (commandFrame c params).take ((commandFrame c params).length - 1) = c.code :: byteOfNat params.length :: params := by
    rw [hl]
    simp [commandFrame]
  have hz : byteAt (commandFrame c params) ((commandFrame c params).length - 1)
      = crc (c.code :: byteOfNat params.length :: params) := by
    rw [hl]
    simp [commandFrame, byteAt]
  have hp : ((commandFrame c params).drop 2).take ((commandFrame c params).length - 3) = params := by
    rw [hl]
    simp [commandFrame]
  unfold checkCommandFrame
  rw [h1, hz, ht, h0, hp, readCommand_code, hl]
  rw [if_neg (by omega), if_neg (by simp)]

theorem mdoAfterRefusals_cons (bits : List Bool) (early : List (List Bool)) (before : List Bool) :
    mdoAfterRefusals (bits :: early) before = mdoAfterRefusals early (List.replicate (max 1 bits.length) true) := by
  cases early with
  | nil => rfl
  | cons x xs => simp [mdoAfterRefusals, List.getLast?_cons]

/-- What refused transfers leave in the link (R184). -/
theorem Link.refuseMany_eq (early : List (List Bool)) (l : Link) : Link.refuseMany early l = l.refused early := by
  induction early generalizing l with
  | nil => simp [Link.refuseMany, Link.refused, satAdd, mdoAfterRefusals]
  | cons bits early ih =>
    rw [Link.refuseMany, List.foldl_cons, ← Link.refuseMany, ih]
    simp [Link.refused, Link.refuse, satAdd, mdoAfterRefusals_cons, mdoLength]

@[simp] theorem Link.refused_nil (l : Link) : l.refused [] = l := by
  simp [Link.refused, satAdd, mdoAfterRefusals]

/-- The link while a command's owning block performs it. -/
def Link.performing (l : Link) (c : Command) (params : List Byte) (early : List (List Bool)) : Link :=
  Link.refused
    { l with
      state := .executing
      cmd := commandFrame c params
      mdo := List.replicate (8 * (params.length + 3)) false
      framesTaken := satInc l.framesTaken }
    early

/-- A command's transfer in IDLE: its block performs it, and the link holds the reply (R183). -/
theorem State.send_ready {s : State} (h : s.ready) (c : Command) {params : List Byte} (hp : params.length ≤ 60)
    (early : List (List Bool)) :
    s.send c params early =
      { (perform c params { s with link := s.link.performing c params early }).1 with
        link :=
          { (perform c params { s with link := s.link.performing c params early }).1.link with
            result := some (perform c params { s with link := s.link.performing c params early }).2 } } := by
  have hne : commandFrame c params ≠ [] := by simp [commandFrame]
  have hl := commandFrame_length c params
  have ht : (commandFrame c params).take 64 = commandFrame c params := List.take_of_length_le (by omega)
  have hm : mdoLength (8 * (params.length + 3)) = 8 * (params.length + 3) := by unfold mdoLength; omega
  unfold State.send State.transfer
  rw [if_pos h.1, h.2]
  simp only [State.commandTransfer, hne, if_false, checkCommandFrame_commandFrame c hp, Link.refuseMany_eq, Link.collect,
    Link.execute, ht, hl, hm, Link.performing]

/-- The link as it stands when a reply is recorded, no transfer having been refused. -/
theorem Link.performing_taken (l : Link) (c : Command) (params : List Byte) (reply : Reply) :
    { l.performing c params [] with result := some reply } = l.taken (commandFrame c params) reply := by
  simp [Link.performing, Link.taken, commandFrame_length]

/-- A command whose block leaves the link alone answers its reply. -/
theorem State.send_answer {s t : State} (h : s.ready) {c : Command} {params : List Byte} (hp : params.length ≤ 60)
    {reply : Reply}
    (hc : perform c params { s with link := s.link.performing c params [] } =
      ({ t with link := s.link.performing c params [] }, reply))
    (hl : t.link = s.link) : s.send c params [] = t.answer c params reply := by
  rw [State.send_ready h c hp, hc]
  simp only [State.answer, hl, Link.performing_taken]

/-! ## Bits and bytes of a transfer -/

theorem byteOfBits_bits (l : List Bool) (h : l.length = 8) :
    (List.range 8).map (fun i => (byteOfBits l).getLsbD (7 - i)) = l := by
  match l, h with
  | [a, b, c, d, e, f, g, i], _ => revert a b c d e f g i; decide

/-- Bytes taken from bits, most significant bit first, carry those bits in order (R176). -/
theorem bitsOfBytes_bytesOfBits (k : Nat) (l : List Bool) (h : 8 * k ≤ l.length) :
    bitsOfBytes (bytesOfBits k l) = l.take (8 * k) := by
  induction k generalizing l with
  | zero => simp [bytesOfBits, bitsOfBytes]
  | succ k ih =>
    have ih := ih (l.drop 8) (by simp; omega)
    unfold bitsOfBytes at ih ⊢
    rw [bytesOfBits, List.flatMap_cons, byteOfBits_bits _ (by simp; omega), ih,
      show 8 * (k + 1) = 8 + 8 * k by ring, List.take_add]

theorem bitsOfBytes_length (bytes : List Byte) : (bitsOfBytes bytes).length = 8 * bytes.length := by
  induction bytes with
  | nil => rfl
  | cons b bs ih =>
    unfold bitsOfBytes at ih ⊢
    simp only [List.flatMap_cons, List.length_append, List.length_map, List.length_range, List.length_cons, ih]
    ring

theorem one_le_mdoLength (edges : Nat) : 1 ≤ mdoLength edges := le_max_left _ _

/-! ## A map request in execution (R83; log 10) -/

theorem Link.mapRequest_iff {l : Link} :
    l.mapRequest = true ↔ (∃ reply, l.result = some reply ∧ reply.status = .ok) ∧ l.cmd.getD 0 0 ∈ [0x12#8, 0x13#8, 0x14#8] := by
  unfold Link.mapRequest
  cases l.result <;> simp

/-- Before a map event the response of an accepted map request is built, and nothing else happens to the link. -/
theorem State.afterRequest_answersRequest (s : State) : s.answersRequest s.afterRequest where
  built reply he hr hk hc := by
    have hm : s.link.mapRequest = true := Link.mapRequest_iff.2 ⟨⟨reply, hr, hk⟩, hc⟩
    unfold State.afterRequest
    rw [if_pos hm]
    simp only [Link.complete, he, hr, responseFrame, hk, Status.code]
    cases s.link.collision <;> rfl
  kept h := by
    unfold State.afterRequest
    split
    · rename_i hm
      obtain ⟨⟨reply, hr, hk⟩, hc⟩ := Link.mapRequest_iff.1 hm
      have he : s.link.state ≠ .executing := fun he => h reply he hr hk hc
      show s.link.complete = s.link
      unfold Link.complete
      split
      · rename_i hx _; exact absurd hx he
      · rfl
    · rfl

end Sys2Proof.Machine
end

