-- ==== Sys2Proof/Laws/Monitor.lean ====
section
/-! SUPPORT. A monitor taking one slot-frame: which part changes which fields. -/
namespace Sys2Proof.Machine

/-- Part 1 changes the fill state, the fill run and the declarations alone. -/
theorem Monitor.takeFill_leaves (m : Monitor) (fill : Bool) :
    m.takeFill fill =
      { m with
        filled := (m.takeFill fill).filled
        fillRun := (m.takeFill fill).fillRun
        fillDeclarations := (m.takeFill fill).fillDeclarations } := by
  unfold Monitor.takeFill
  split
  · rfl
  · split <;> rfl

/-- Part 2 changes the block, the degrade state and the errored slot-frames alone. -/
theorem Monitor.takeBlock_leaves (m : Monitor) (threshold : Byte) (errored : Bool) :
    m.takeBlock threshold errored =
      { m with
        degraded := (m.takeBlock threshold errored).degraded
        blockPos := (m.takeBlock threshold errored).blockPos
        blockErrored := (m.takeBlock threshold errored).blockErrored
        erroredFrames := (m.takeBlock threshold errored).erroredFrames } := by
  unfold Monitor.takeBlock
  simp only
  split <;> rfl

/-- What part 3 leaves alone. -/
structure Monitor.SameOutside (m m' : Monitor) : Prop where
  refs : m'.refs = m.refs
  filled : m'.filled = m.filled
  fillRun : m'.fillRun = m.fillRun
  degraded : m'.degraded = m.degraded
  blockPos : m'.blockPos = m.blockPos
  blockErrored : m'.blockErrored = m.blockErrored
  erroredFrames : m'.erroredFrames = m.erroredFrames
  fillDeclarations : m'.fillDeclarations = m.fillDeclarations

theorem Monitor.SameOutside.trans {a b c : Monitor} (h : a.SameOutside b) (h' : b.SameOutside c) : a.SameOutside c :=
  ⟨h'.refs.trans h.refs, h'.filled.trans h.filled, h'.fillRun.trans h.fillRun, h'.degraded.trans h.degraded,
    h'.blockPos.trans h.blockPos, h'.blockErrored.trans h.blockErrored, h'.erroredFrames.trans h.erroredFrames,
    h'.fillDeclarations.trans h.fillDeclarations⟩

theorem Monitor.takeCode_sameOutside (m : Monitor) (code : BitVec 4) : m.SameOutside (m.takeCode code) :=
  ⟨rfl, rfl, rfl, rfl, rfl, rfl, rfl, rfl⟩

theorem Monitor.takeRf_sameOutside (m : Monitor) (rf : Bool) : m.SameOutside (m.takeRf rf) := by
  unfold Monitor.takeRf
  split
  · exact ⟨rfl, rfl, rfl, rfl, rfl, rfl, rfl, rfl⟩
  · split <;> exact ⟨rfl, rfl, rfl, rfl, rfl, rfl, rfl, rfl⟩

theorem Monitor.judgeName_sameOutside (m : Monitor) (pass : Bool) : m.SameOutside (m.judgeName pass) := by
  unfold Monitor.judgeName
  split <;> exact ⟨rfl, rfl, rfl, rfl, rfl, rfl, rfl, rfl⟩

theorem Monitor.searchFrame_sameOutside (m : Monitor) (mk : Bool) (char : PathChar) : m.SameOutside (m.searchFrame mk char) := by
  unfold Monitor.searchFrame
  (repeat' split) <;> exact ⟨rfl, rfl, rfl, rfl, rfl, rfl, rfl, rfl⟩

theorem Monitor.checkMultiframe_sameOutside (m : Monitor) (mk : Bool) (char : PathChar) :
    m.SameOutside (m.checkMultiframe mk char) := by
  have h := m.judgeName_sameOutside (mk && !m.stray)
  unfold Monitor.checkMultiframe
  simp only
  (repeat' split) <;>
    exact ⟨h.refs, h.filled, h.fillRun, h.degraded, h.blockPos, h.blockErrored, h.erroredFrames, h.fillDeclarations⟩

theorem Monitor.followFrame_sameOutside (m : Monitor) (mk : Bool) (char : PathChar) : m.SameOutside (m.followFrame mk char) := by
  unfold Monitor.followFrame
  split
  · exact m.checkMultiframe_sameOutside mk char
  · exact ⟨rfl, rfl, rfl, rfl, rfl, rfl, rfl, rfl⟩

/-- The evaluation of a header word leaves references, fill, block and counters alone. -/
theorem Monitor.takeHeader_sameOutside (m : Monitor) (header : Word) : m.SameOutside (m.takeHeader header) := by
  unfold Monitor.takeHeader
  simp only
  refine Monitor.SameOutside.trans ?_ ((Monitor.takeCode_sameOutside _ _).trans (Monitor.takeRf_sameOutside _ _))
  split
  · exact m.followFrame_sameOutside _ _
  · exact m.searchFrame_sameOutside _ _

/-- A monitor without references ignores slot-frames (R23). -/
theorem Monitor.take_unreferenced {m : Monitor} (h : m.refs = 0) (threshold : Byte) (frame : SlotFrame) :
    m.take threshold frame = m := by simp [Monitor.take, h]

/-- A referenced monitor whose fill state after part 1 is CLEAR evaluates the header word. -/
theorem Monitor.take_clear {m : Monitor} (h : m.refs ≠ 0) {threshold : Byte} {frame : SlotFrame}
    (hc : (m.takeFill frame.fill).filled = false) :
    m.take threshold frame = ((m.takeFill frame.fill).takeBlock threshold frame.errored).takeHeader frame.header := by
  have hb : ((m.takeFill frame.fill).takeBlock threshold frame.errored).filled = false := by
    rw [Monitor.takeBlock_leaves]
    exact hc
  simp [Monitor.take, h, hb]

/-- A referenced monitor whose fill state after part 1 is FILLED does not evaluate the header word (R25). -/
theorem Monitor.take_filled {m : Monitor} (h : m.refs ≠ 0) {threshold : Byte} {frame : SlotFrame}
    (hc : (m.takeFill frame.fill).filled = true) :
    m.take threshold frame = (m.takeFill frame.fill).takeBlock threshold frame.errored := by
  have hb : ((m.takeFill frame.fill).takeBlock threshold frame.errored).filled = true := by
    rw [Monitor.takeBlock_leaves]
    exact hc
  simp [Monitor.take, h, hb]

/-- Whatever the slot-frame, the fields of parts 1 and 2 are those the two parts leave. -/
theorem Monitor.take_sameOutside {m : Monitor} (h : m.refs ≠ 0) (threshold : Byte) (frame : SlotFrame) :
    ((m.takeFill frame.fill).takeBlock threshold frame.errored).SameOutside (m.take threshold frame) := by
  cases hc : (m.takeFill frame.fill).filled with
  | true =>
    rw [Monitor.take_filled h hc]
    exact ⟨rfl, rfl, rfl, rfl, rfl, rfl, rfl, rfl⟩
  | false =>
    rw [Monitor.take_clear h hc]
    exact Monitor.takeHeader_sameOutside _ _

@[simp] theorem Monitor.takeFill_refs (m : Monitor) (fill : Bool) : (m.takeFill fill).refs = m.refs := by
  rw [Monitor.takeFill_leaves]

@[simp] theorem Monitor.takeBlock_refs (m : Monitor) (threshold : Byte) (errored : Bool) :
    (m.takeBlock threshold errored).refs = m.refs := by
  rw [Monitor.takeBlock_leaves]

/-- A slot-frame changes no reference count. -/
@[simp] theorem Monitor.take_refs (m : Monitor) (threshold : Byte) (frame : SlotFrame) :
    (m.take threshold frame).refs = m.refs := by
  by_cases h : m.refs = 0
  · rw [Monitor.take_unreferenced h]
  · rw [(Monitor.take_sameOutside h threshold frame).refs]
    simp

end Sys2Proof.Machine
end

