-- ==== Sys2Proof/Laws/Operands.lean ====
section
/-! SUPPORT. Parameters read back: the bytes of refs, sources, flags and names give what they were written from. -/
namespace Sys2Proof.Machine

theorem readIndex_byte (r : RecIx) : readIndex (byteOfNat r.val) = some r := by
  have h : (byteOfNat r.val).toNat = r.val := by
    have := r.isLt
    simp only [byteOfNat, BitVec.toNat_ofNat]
    omega
  have h' : (byteOfNat r.val).toNat < 64 := by rw [h]; exact r.isLt
  simp [readIndex, h]

theorem readIndex_none {b : Byte} (h : 64 ≤ b.toNat) : readIndex b = none := by
  simp [readIndex, Nat.not_lt.2 h]

theorem readIndex_some {b : Byte} {r : RecIx} (h : r.val = b.toNat) : readIndex b = some r := by
  have h' : b.toNat < 64 := by rw [← h]; exact r.isLt
  simp [readIndex, ← h]

theorem readSlot_val (n : SlotIx) : readSlot n.val = some n := by simp [readSlot]

theorem readSlot_byte (n : SlotIx) : readSlot (byteOfNat n.val).toNat = some n := by
  have h : (byteOfNat n.val).toNat = n.val := by
    have := n.isLt
    simp only [byteOfNat, BitVec.toNat_ofNat]
    omega
  rw [h, readSlot_val]

theorem readSource_byte (src : Source) : readSource src.byte = some src := by
  obtain ⟨b, n⟩ := src
  revert n
  cases b <;> decide

theorem Source.byte_ne_none (src : Source) : src.byte ≠ 0xFF := by
  obtain ⟨b, n⟩ := src
  revert n
  cases b <;> decide

theorem readProtect_byte (p : Option Source) : readProtect ((p.map Source.byte).getD 0xFF) = some p := by
  cases p with
  | none => rfl
  | some src => simp only [Option.map_some, Option.getD_some, readProtect, src.byte_ne_none, if_false, readSource_byte]

theorem readSense_byte (x : Sense) : readSense x.byte = some x := by cases x <;> rfl

theorem readScope_byte (x : Scope) : readScope x.byte = some x := by cases x <;> rfl

theorem readFlag_byte (x : Bool) : readFlag (byteOfBool x) = some x := by cases x <;> rfl

theorem readSelector_byte (b : Bus) : readSelector (busSelector b) = some (some b) := by cases b <;> rfl

theorem readRequest_byte (x : Request) : readRequest x.byte = some x := by cases x <;> rfl

theorem readName_bytes {n : Name} (h : n.all printable = true) : readName (nameBytes n) = some n := by
  have h1 : (nameBytes n).all (fun b => 0x20 ≤ b.toNat && b.toNat ≤ 0x7E) = true := by
    rw [List.all_eq_true] at h ⊢
    intro b hb
    obtain ⟨c, hc, rfl⟩ := List.mem_map.1 hb
    have h2 := h c hc
    have h3 : (c.setWidth 8).toNat = c.toNat := by
      have := c.isLt
      simp only [BitVec.toNat_setWidth]
      omega
    rw [h3]
    exact h2
  have h2 : (nameBytes n).map (·.setWidth 7) = n := by
    simp [nameBytes, Function.comp_def]
  rw [readName, if_pos h1, h2]

theorem nameBytes_length (n : Name) : (nameBytes n).length = n.length := by simp [nameBytes]

/-! ## CREATE -/

theorem Fields.flags_bits (f : Fields) :
    f.flags.getLsbD 0 = f.revertive ∧ f.flags.getLsbD 1 = f.degradeSwitch ∧ f.flags.getLsbD 2 = f.expectedName.isSome ∧
      f.flags.getLsbD 3 = f.expectedCode.isSome ∧ f.flags.getLsbD 4 = f.outName.isSome ∧
      f.flags.getLsbD 5 = f.outCode.isSome ∧ f.flags &&& 0xC0 = 0 := by
  unfold Fields.flags
  generalize f.revertive = a, f.degradeSwitch = b, f.expectedName.isSome = c, f.expectedCode.isSome = d, f.outName.isSome = e,
    f.outCode.isSome = g
  revert a b c d e g
  decide

theorem readExpectedCode_width {c : BitVec 4} (h : c ≠ 0) : readExpectedCode (c.setWidth 8) = some c := by
  revert c
  decide

theorem readOutCode_width (c : BitVec 4) : readOutCode (c.setWidth 8) = some c := by
  revert c
  decide

theorem bytes16_joined (v : BitVec 16) : v.extractLsb' 8 8 ++ v.extractLsb' 0 8 = v := by
  apply BitVec.eq_of_getLsbD_eq
  intro i hi
  rw [BitVec.getLsbD_append, BitVec.getLsbD_extractLsb', BitVec.getLsbD_extractLsb']
  by_cases h : i < 8
  · simp [h]
  · have h1 : i - 8 < 8 := by omega
    have h2 : 8 + (i - 8) = i := by omega
    simp [h, h1, h2]

theorem readHoldOff_some {b : Byte} (h : b.toNat ≤ 250) : readHoldOff b = some b := by simp [readHoldOff, h]

theorem readReturn_some {v : BitVec 16} (h : 1 ≤ v.toNat ∧ v.toNat ≤ 900) : readReturn v = some v := by
  simp [readReturn, h.1, h.2]

theorem readMask_some {b : Byte} (h : b &&& 0x03 = 0) : readMask b = some b := by rw [readMask, if_pos h]

/-- The two names of a CREATE, read at their places. -/
theorem readNames {xs : List Byte} (hx : xs.length = 10) {a b : Option Name}
    (ha : ∀ n, a = some n → n.length = 16 ∧ n.all printable = true) (hb : ∀ n, b = some n → n.length = 16 ∧ n.all printable = true) :
    readIf a.isSome (readName (((xs ++ nameBytes (a.getD []) ++ nameBytes (b.getD [])).drop 10).take 16)) = some a ∧
    readIf b.isSome
      (readName (((xs ++ nameBytes (a.getD []) ++ nameBytes (b.getD [])).drop (if a.isSome then 26 else 10)).take 16)) = some b := by
  have hd : (xs ++ nameBytes (a.getD []) ++ nameBytes (b.getD [])).drop 10 = nameBytes (a.getD []) ++ nameBytes (b.getD []) := by
    rw [List.append_assoc, List.drop_append_of_le_length (by omega), List.drop_of_length_le (by omega), List.nil_append]
  have h26 : (xs ++ nameBytes (a.getD []) ++ nameBytes (b.getD [])).drop 26 = (nameBytes (a.getD []) ++ nameBytes (b.getD [])).drop 16 := by
    rw [← hd, List.drop_drop]
  constructor
  · cases a with
    | none => rfl
    | some n =>
      obtain ⟨hl, hp⟩ := ha n rfl
      rw [hd, List.take_append_of_le_length (by simp [nameBytes_length, hl]), List.take_of_length_le (by simp [nameBytes_length, hl])]
      simp [readIf, readName_bytes hp]
  · cases b with
    | none => rfl
    | some m =>
      obtain ⟨hl, hp⟩ := hb m rfl
      have : ((xs ++ nameBytes (a.getD []) ++ nameBytes ((some m).getD [])).drop (if a.isSome then 26 else 10)).take 16 = nameBytes m := by
        cases a with
        | none =>
          simp only [Option.isSome_none, Bool.false_eq_true, if_false]
          rw [hd]
          simp [nameBytes, hl]
        | some n =>
          obtain ⟨hl', _⟩ := ha n rfl
          simp only [Option.isSome_some, if_true]
          rw [h26, List.drop_append_of_le_length (by simp [nameBytes_length, hl']), List.drop_of_length_le (by simp [nameBytes_length, hl'])]
          simp [nameBytes, hl]
      rw [this]
      simp [readIf, readName_bytes hp]

/-- The fields of a CREATE read back, and the length its flags ask for. -/
theorem readCreate_createParams {f : Fields} (law : FieldsLaw f) (hd : f.protect ≠ some f.working) :
    readCreate (createParams f) = some f ∧ (createParams f).length = createLength (byteAt (createParams f) 3) ∧
      4 ≤ (createParams f).length ∧ (createParams f).length ≤ 60 := by
  obtain ⟨f0, f1, f2, f3, f4, f5, f67⟩ := f.flags_bits
  have hcode : readIf f.expectedCode.isSome (readExpectedCode ((f.expectedCode.map (·.setWidth 8)).getD 0)) = some f.expectedCode := by
    cases h : f.expectedCode with
    | none => rfl
    | some c =>
      have : c ≠ 0 := by rintro rfl; exact law.code h
      simp [readIf, readExpectedCode_width this]
  have hout : readIf f.outCode.isSome (readOutCode ((f.outCode.map (·.setWidth 8)).getD 0)) = some f.outCode := by
    cases f.outCode with
    | none => rfl
    | some c => simp [readIf, readOutCode_width]
  have hn := readNames (xs := [byteOfNat f.egress.val, f.working.byte, (f.protect.map Source.byte).getD 0xFF, f.flags,
    (f.expectedCode.map (·.setWidth 8)).getD 0, (f.outCode.map (·.setWidth 8)).getD 0, f.holdOff]
    ++ bytes16 f.returnTime ++ [f.mask]) rfl (a := f.expectedName) (b := f.outName)
    (fun n h => law.names n (Or.inl h)) (fun n h => law.names n (Or.inr h))
  have hlen : (createParams f).length = createLength f.flags := by
    have h1 : ∀ a : Option Name, (∀ n, a = some n → n.length = 16) → (nameBytes (a.getD [])).length = if a.isSome then 16 else 0 := by
      intro a ha
      cases a with
      | none => rfl
      | some n => simp [nameBytes_length, ha n rfl]
    unfold createParams createLength
    rw [f2, f4]
    simp only [List.length_append, h1 _ (fun n h => (law.names n (Or.inl h)).1), h1 _ (fun n h => (law.names n (Or.inr h)).1)]
    rfl
  refine ⟨?_, hlen, ?_, ?_⟩
  · unfold readCreate
    simp only [show byteAt (createParams f) 3 = f.flags from rfl, show byteAt (createParams f) 0 = byteOfNat f.egress.val from rfl,
      show byteAt (createParams f) 1 = f.working.byte from rfl,
      show byteAt (createParams f) 2 = (f.protect.map Source.byte).getD 0xFF from rfl,
      show byteAt (createParams f) 4 = (f.expectedCode.map (·.setWidth 8)).getD 0 from rfl,
      show byteAt (createParams f) 5 = (f.outCode.map (·.setWidth 8)).getD 0 from rfl,
      show byteAt (createParams f) 6 = f.holdOff from rfl,
      show wordAt (createParams f) 7 = f.returnTime.extractLsb' 8 8 ++ f.returnTime.extractLsb' 0 8 from rfl,
      show byteAt (createParams f) 9 = f.mask from rfl, bytes16_joined, readSlot_byte, readSource_byte, readProtect_byte,
      f0, f1, f2, f3, f4, f5, hcode, hout, readHoldOff_some law.holdOff, readReturn_some law.returnTime,
      readMask_some law.mask]
    simp only [createParams, hn.1, hn.2, Option.bind_eq_bind, Option.bind_some, f67, ne_eq, hd, not_false_eq_true, and_self, if_true]
  · rw [hlen]
    simp only [createLength]
    omega
  · rw [hlen]
    simp only [createLength]
    split <;> split <;> omega

end Sys2Proof.Machine
end

