-- ==== Sys2Proof/Laws/Ownership.lean ====
section
/-! SUPPORT. The ownership map: what applying updates writes, and what it leaves alone. -/
namespace Sys2Proof.Machine

/-- Receivers, egress side, link, pending list, alert enable and waiting commands are the same. -/
structure State.SamePorts (s t : State) : Prop where
  nReset : t.nReset = s.nReset
  rxA : t.rxA = s.rxA
  rxB : t.rxB = s.rxB
  updates : t.updates = s.updates
  alertOn : t.alertOn = s.alertOn
  egress : t.egress = s.egress
  link : t.link = s.link
  choices : t.choices = s.choices
  pending : t.pending = s.pending

theorem State.SamePorts.refl (s : State) : s.SamePorts s := ⟨rfl, rfl, rfl, rfl, rfl, rfl, rfl, rfl, rfl⟩

theorem State.SamePorts.trans {s t v : State} (h : s.SamePorts t) (h' : t.SamePorts v) : s.SamePorts v :=
  ⟨h'.nReset.trans h.nReset, h'.rxA.trans h.rxA, h'.rxB.trans h.rxB, h'.updates.trans h.updates, h'.alertOn.trans h.alertOn,
    h'.egress.trans h.egress, h'.link.trans h.link, h'.choices.trans h.choices, h'.pending.trans h.pending⟩

theorem State.withSup_samePorts (s : State) (u : Supervision) : s.SamePorts { s with sup := u } :=
  ⟨rfl, rfl, rfl, rfl, rfl, rfl, rfl, rfl, rfl⟩

theorem State.evaluateBy_samePorts (s : State) (expiry : Bool) (r : RecIx) : s.SamePorts (s.evaluateBy expiry r) := by
  unfold State.evaluateBy
  split
  · exact .refl s
  · exact s.withSup_samePorts _

theorem State.setMonitor_samePorts (s : State) (src : Source) (m : Monitor) : s.SamePorts (s.setMonitor src m) :=
  ⟨by simp, by simp, by simp, by simp, by simp, by simp, by simp, by simp, by simp⟩

theorem State.takeRefs_samePorts (s : State) (srcs : List Source) : s.SamePorts (s.takeRefs srcs) := by
  unfold State.takeRefs
  induction srcs generalizing s with
  | nil => exact .refl s
  | cons x xs ih => exact (s.setMonitor_samePorts x _).trans (ih _)

theorem State.dropRefs_samePorts (s : State) (srcs : List Source) : s.SamePorts (s.dropRefs srcs) := by
  unfold State.dropRefs
  induction srcs generalizing s with
  | nil => exact .refl s
  | cons x xs ih => exact (s.setMonitor_samePorts x _).trans (ih _)

@[simp] theorem State.takeRefs_sup (s : State) (srcs : List Source) : (s.takeRefs srcs).sup = s.sup := by
  unfold State.takeRefs
  induction srcs generalizing s with
  | nil => rfl
  | cons x xs ih => exact (ih _).trans (by simp)

@[simp] theorem State.dropRefs_sup (s : State) (srcs : List Source) : (s.dropRefs srcs).sup = s.sup := by
  unfold State.dropRefs
  induction srcs generalizing s with
  | nil => rfl
  | cons x xs ih => exact (ih _).trans (by simp)

@[simp] theorem State.takeRefs_owner (s : State) (srcs : List Source) : (s.takeRefs srcs).owner = s.owner := by
  unfold State.takeRefs
  induction srcs generalizing s with
  | nil => rfl
  | cons x xs ih => exact (ih _).trans (by simp)

@[simp] theorem State.dropRefs_owner (s : State) (srcs : List Source) : (s.dropRefs srcs).owner = s.owner := by
  unfold State.dropRefs
  induction srcs generalizing s with
  | nil => rfl
  | cons x xs ih => exact (ih _).trans (by simp)

/-! ## Records entering and leaving service -/

theorem State.freeRecord_samePorts (s : State) (r : RecIx) : s.SamePorts (s.freeRecord r) := by
  unfold State.freeRecord
  split
  · exact .refl s
  · exact ((s.withSup_samePorts _).trans (State.dropRefs_samePorts _ _)).trans (State.withSup_samePorts _ _)

@[simp] theorem State.freeRecord_owner (s : State) (r : RecIx) : (s.freeRecord r).owner = s.owner := by
  unfold State.freeRecord
  split
  · rfl
  · exact State.dropRefs_owner _ _

theorem State.enterService_samePorts (s : State) (r : RecIx) : s.SamePorts (s.enterService r) := by
  unfold State.enterService
  split
  · exact .refl s
  · exact ((s.withSup_samePorts _).trans (State.withSup_samePorts _ _)).trans (State.evaluateBy_samePorts _ _ _)

@[simp] theorem State.enterService_owner (s : State) (r : RecIx) : (s.enterService r).owner = s.owner := by
  unfold State.enterService
  split
  · rfl
  · exact (State.evaluateBy_supervises _ _ _).owner

theorem State.setOwner_samePorts (s : State) (n : SlotIx) (r : Option RecIx) : s.SamePorts (s.setOwner n r) :=
  ⟨rfl, rfl, rfl, rfl, rfl, rfl, rfl, rfl, rfl⟩

/-! ## Updates -/

/-- One update writes the owner of its slot and leaves the ports alone. -/
theorem State.applyUpdate_leaves (s : State) (u : Update) :
    s.SamePorts (s.applyUpdate u) ∧ (s.applyUpdate u).owner = put s.owner u.slot u.incoming := by
  cases u with
  | enter n r => exact ⟨(s.setOwner_samePorts _ _).trans (State.enterService_samePorts _ _), State.enterService_owner _ _⟩
  | leave n r => exact ⟨(s.setOwner_samePorts _ _).trans (State.freeRecord_samePorts _ _), State.freeRecord_owner _ _⟩
  | handover n o r =>
    exact ⟨((s.setOwner_samePorts _ _).trans (State.freeRecord_samePorts _ _)).trans (State.enterService_samePorts _ _),
      (State.enterService_owner _ _).trans (State.freeRecord_owner _ _)⟩

/-- Updates of different slots, applied in turn, write the owners of their slots alone. -/
theorem State.applyEach_leaves (us : List Update) {s : State} (h : (us.map (·.slot)).Nodup) :
    s.SamePorts (us.foldl State.applyUpdate s) ∧
    (∀ u ∈ us, pick (us.foldl State.applyUpdate s).owner u.slot = u.incoming) ∧
    ∀ n, (∀ u ∈ us, u.slot ≠ n) → pick (us.foldl State.applyUpdate s).owner n = pick s.owner n := by
  induction us generalizing s with
  | nil => exact ⟨.refl s, by simp, fun _ _ => rfl⟩
  | cons u us ih =>
    simp only [List.map_cons, List.nodup_cons] at h
    obtain ⟨ports, written, kept⟩ := ih (s := s.applyUpdate u) h.2
    obtain ⟨ports', owner⟩ := s.applyUpdate_leaves u
    refine ⟨ports'.trans ports, fun v hv => ?_, fun n hn => ?_⟩
    · rcases List.mem_cons.1 hv with hv | hv
      · subst hv
        simp only [List.foldl_cons]
        rw [kept v.slot (fun w hw e => h.1 (e ▸ List.mem_map_of_mem hw)), owner, pick_put_same]
      · exact written v hv
    · simp only [List.foldl_cons]
      rw [kept n (fun w hw => hn w (by simp [hw])), owner, pick_put_ne _ _ (hn u (by simp))]

end Sys2Proof.Machine
end

