-- ==== Sys2Proof/Laws/Pool.lean ====
section
/-! SUPPORT. The timer pool: ticks, takes, releases, hand-overs, and the records they touch. -/
namespace Sys2Proof.Machine

@[simp] theorem Supervision.withPool_sel (u : Supervision) (p : Pool) (r : RecIx) :
    ({ u with pool := p } : Supervision).sel r = u.sel r := rfl

@[simp] theorem Supervision.withPool_live (u : Supervision) (p : Pool) (r : RecIx) :
    ({ u with pool := p } : Supervision).live r = u.live r := rfl

@[simp] theorem Supervision.countShort_sel (u : Supervision) (r : RecIx) : u.countShort.sel r = u.sel r := rfl

/-! ## The lowest FREE timer -/

theorem find_finRange_eq_some {n : Nat} {p : Fin n → Bool} {t : Fin n} :
    (List.finRange n).find? p = some t ↔ p t = true ∧ ∀ k, k < t → p k = false := by
  rw [List.find?_eq_some_iff_getElem]
  constructor
  · rintro ⟨h, i, hi, rfl, hj⟩
    refine ⟨h, fun k hk => ?_⟩
    have hk' : k.val < i := by simpa [Fin.lt_def] using hk
    simpa using hj k.val hk'
  · rintro ⟨h, hk⟩
    exact ⟨h, t.val, by simp, by simp, fun j hj => by simpa using hk ⟨j, by omega⟩ (by simpa [Fin.lt_def] using hj)⟩

theorem find_finRange_eq_none {n : Nat} {p : Fin n → Bool} : (List.finRange n).find? p = none ↔ ∀ k, p k = false := by
  simp [List.find?_eq_none]

theorem Pool.lowestFree_eq_some {p : Pool} {t : TimerIx} :
    p.lowestFree = some t ↔ pick p.timers t = none ∧ ∀ k, k < t → (pick p.timers k).isSome = true := by
  unfold Pool.lowestFree
  rw [find_finRange_eq_some, Option.isNone_iff_eq_none]
  refine and_congr_right fun _ => forall_congr' fun k => imp_congr_right fun _ => ?_
  cases pick p.timers k <;> simp

theorem Pool.lowestFree_eq_none {p : Pool} : p.lowestFree = none ↔ ∀ t, (pick p.timers t).isSome = true := by
  unfold Pool.lowestFree
  rw [find_finRange_eq_none]
  refine forall_congr' fun k => ?_
  cases pick p.timers k <;> simp

/-! ## The timer a record holds -/

theorem Supervision.heldTimer_of_none {u : Supervision} {r : RecIx} {x : Selector} (hx : u.sel r = some x)
    (ht : x.timer = none) : u.heldTimer r = none := by
  simp [Supervision.heldTimer, hx, ht]

theorem Supervision.heldTimer_of_some {u : Supervision} (law : PoolLaw u) {r : RecIx} {x : Selector} {t : TimerIx}
    (hx : u.sel r = some x) (ht : x.timer = some t) : u.heldTimer r = some t := by
  obtain ⟨timer, h, ho⟩ := law.holds r x t hx ht
  simp [Supervision.heldTimer, hx, ht, h, ho]

/-- A record that waits holds no timer, and its number stands in the queue. -/
theorem Supervision.mem_waiters_iff {u : Supervision} (law : PoolLaw u) {r : RecIx} {x : Selector} (hx : u.sel r = some x) :
    r ∈ u.pool.waiters ↔ x.waiting = true := by
  rw [law.waiters r, hx]
  simp

/-! ## Hand-over and release -/

theorem Supervision.handOver_empty {u : Supervision} (t : TimerIx) (h : u.pool.waiters = []) : u.handOver t = u := by
  simp [Supervision.handOver, h]

/-- A freed timer goes to the head waiter. -/
theorem Supervision.handOver_cons {u : Supervision} (t : TimerIx) {h : RecIx} {rest : List RecIx}
    (hw : u.pool.waiters = h :: rest) :
    (u.handOver t).pool = { u.pool with waiters := rest }.lend t (.loaded h .ret (u.returnTicks h)) ∧
    (u.handOver t).sel h = (u.sel h).map (fun x => { x with timer := some t, waiting := false }) ∧
    ∀ q, q ≠ h → (u.handOver t).sel q = u.sel q := by
  simp only [Supervision.handOver, hw]
  refine ⟨rfl, ?_, fun q hq => ?_⟩
  · rw [Supervision.modSel_same]
    rfl
  · rw [Supervision.modSel_ne _ _ hq.symm]
    rfl

theorem Supervision.handOver_waiters (u : Supervision) (t : TimerIx) : (u.handOver t).pool.waiters = u.pool.waiters.tail := by
  unfold Supervision.handOver
  split
  · rename_i h; simp [h]
  · rename_i h; simp [h, Pool.lend]

theorem Supervision.handOver_shorts (u : Supervision) (t : TimerIx) : (u.handOver t).pool.shorts = u.pool.shorts := by
  unfold Supervision.handOver
  split <;> rfl

/-- The selector part of a record that a hand-over does not serve. -/
theorem Supervision.handOver_sel {u : Supervision} (t : TimerIx) {r : RecIx} (h : r ∉ u.pool.waiters) :
    (u.handOver t).sel r = u.sel r := by
  cases hw : u.pool.waiters with
  | nil => rw [Supervision.handOver_empty t hw]
  | cons q rest => exact (Supervision.handOver_cons t hw).2.2 r (by rintro rfl; simp [hw] at h)

theorem Supervision.freeTimer_sel {u : Supervision} (t : TimerIx) {r : RecIx} (h : r ∉ u.pool.waiters) :
    (u.freeTimer r t).sel r = (u.sel r).map (fun x => { x with timer := none }) := by
  unfold Supervision.freeTimer
  rw [Supervision.handOver_sel t (by simpa using h), Supervision.modSel_same]
  rfl

/-- A release leaves the record without a timer. -/
theorem Supervision.releaseTimer_sel {u : Supervision} (law : PoolLaw u) {r : RecIx} {x : Selector} (hx : u.sel r = some x)
    (hw : x.waiting = x.timer.isNone ∨ x.waiting = false) :
    (u.releaseTimer r).sel r = some { x with timer := none } := by
  unfold Supervision.releaseTimer
  cases ht : x.timer with
  | none =>
    rw [Supervision.heldTimer_of_none hx ht]
    simp only [hx, Option.some.injEq]
    cases x
    simp_all
  | some t =>
    rw [Supervision.heldTimer_of_some law hx ht]
    have hn : r ∉ u.pool.waiters := by
      rw [Supervision.mem_waiters_iff law hx]
      rcases hw with h | h <;> simp [h, ht]
    simp only [Supervision.freeTimer_sel t hn, hx, Option.map_some]

/-- After the record's waits have ended it holds no timer and does not wait. -/
theorem Supervision.endWaits_sel {u : Supervision} (law : PoolLaw u) {r : RecIx} {x : Selector} (hx : u.sel r = some x)
    (hw : x.waiting = x.timer.isNone ∨ x.waiting = false) :
    (u.endWaits r).sel r = some { x with timer := none, waiting := false } := by
  unfold Supervision.endWaits Supervision.leave
  rw [Supervision.modSel_same]
  have h := Supervision.releaseTimer_sel law hx hw
  show Option.map _ ((u.releaseTimer r).sel r) = _
  rw [h]
  rfl

theorem Supervision.endWaits_waiters (u : Supervision) (r : RecIx) : r ∉ (u.endWaits r).pool.waiters := by
  simp [Supervision.endWaits, Supervision.leave]

theorem Supervision.releaseTimer_shorts (u : Supervision) (r : RecIx) : (u.releaseTimer r).pool.shorts = u.pool.shorts := by
  unfold Supervision.releaseTimer
  split
  · rfl
  · exact Supervision.handOver_shorts _ _

theorem Supervision.endWaits_shorts (u : Supervision) (r : RecIx) : (u.endWaits r).pool.shorts = u.pool.shorts :=
  u.releaseTimer_shorts r

/-! ## A take -/

/-- A take lends the lowest FREE timer. -/
theorem Supervision.takeTimer_eq {u : Supervision} (r : RecIx) (purpose : Purpose) (ticks : Nat) {t : TimerIx}
    (h : u.pool.lowestFree = some t) :
    u.takeTimer r purpose ticks =
      some ({ u with pool := u.pool.lend t (.loaded r purpose ticks) }.modSel r (fun x => { x with timer := some t })) := by
  simp [Supervision.takeTimer, h]

theorem Supervision.takeTimer_none {u : Supervision} (r : RecIx) (purpose : Purpose) (ticks : Nat)
    (h : u.pool.lowestFree = none) : u.takeTimer r purpose ticks = none := by
  simp [Supervision.takeTimer, h]

/-- A FREE timer put in use adds one to the number RUNNING. -/
theorem Pool.running_put {p : Pool} {t : TimerIx} (timer : Timer) (h : pick p.timers t = none) :
    ({ p with timers := put p.timers t (some timer) } : Pool).running = p.running + 1 := by
  have hlen : t.val < p.timers.toList.length := by simp
  have hget : p.timers.toList[t.val] = none := by simpa [pick] using h
  have hset : (put p.timers t (some timer)).toList = p.timers.toList.set t.val (some timer) := by
    simp [put, Vector.toList_set]
  unfold Pool.running
  simp only [hset]
  rw [List.countP_set hlen]
  simp [hget]

/-! ## A tick -/

@[simp] theorem Pool.pick_tick (p : Pool) (t : TimerIx) : pick p.tick.timers t = (pick p.timers t).map Timer.tick := by
  simp [Pool.tick, pick, mapTable]

@[simp] theorem Pool.tick_waiters (p : Pool) : p.tick.waiters = p.waiters := rfl

@[simp] theorem Pool.tick_shorts (p : Pool) : p.tick.shorts = p.shorts := rfl

@[simp] theorem Pool.tick_highWater (p : Pool) : p.tick.highWater = p.highWater := rfl

/-- The timers whose expiries are to be taken are those that have reached 0. -/
theorem Pool.mem_expiring {p : Pool} {t : TimerIx} :
    t ∈ p.expiring ↔ ∃ timer, pick p.timers t = some timer ∧ timer.remaining = 0 := by
  unfold Pool.expiring
  cases h : pick p.timers t <;> simp [h]

theorem Pool.nodup_expiring (p : Pool) : p.expiring.Nodup := (List.nodup_finRange 24).filter _

/-- A tick at which no timer reaches 0 counts the timers and does nothing else. -/
theorem State.tick_eq_of_no_expiry {s : State} (hr : s.nReset = true)
    (h : ∀ t timer, pick s.sup.pool.tick.timers t = some timer → timer.remaining ≠ 0) :
    s.tick = { s with sup := { s.sup with pool := s.sup.pool.tick } } := by
  have : s.sup.pool.tick.expiring = [] :=
    List.eq_nil_iff_forall_not_mem.2 fun t ht => by
      obtain ⟨timer, h1, h2⟩ := Pool.mem_expiring.1 ht
      exact h t timer h1 h2
  simp [State.tick, hr, State.takeExpiries, this]

/-! ## What freeing a timer comes to -/

/-- A timer freed for a record that does not wait (R135, R139, R115). -/
theorem Supervision.freeTimer_frees {u : Supervision} {r : RecIx} (t : TimerIx) (hn : r ∉ u.pool.waiters) :
    u.frees (u.freeTimer r t) r t := by
  unfold Supervision.freeTimer
  generalize hv : Supervision.modSel _ r (fun x => { x with timer := none }) = v
  have hp : v.pool = { u.pool with timers := put u.pool.timers t none } := by rw [← hv]; rfl
  have hr : ∀ q, r ≠ q → v.record q = u.record q := fun q hq => by
    rw [← hv]
    exact Supervision.modSel_record_ne _ _ hq
  cases hw : u.pool.waiters with
  | nil =>
    have hw' : v.pool.waiters = [] := by rw [hp]; exact hw
    rw [Supervision.handOver_empty t hw']
    exact
      { timers := fun k hk => by rw [hp]; exact pick_put_ne _ _ hk.symm
        shorts := by rw [hp]
        free := fun _ => ⟨by rw [hp]; exact pick_put_same _ _ _, hw'⟩
        handed := fun h rest l e => by simp [hw] at e
        records := fun q hq _ => hr q hq.symm }
  | cons h rest =>
    have hne : r ≠ h := by rintro rfl; simp [hw] at hn
    have hw' : v.pool.waiters = h :: rest := by rw [hp]; exact hw
    have hpool := (Supervision.handOver_cons t hw').1
    refine
      { timers := fun k hk => by
          rw [hpool, hp]
          simp only [Pool.lend]
          rw [pick_put_ne _ _ hk.symm, pick_put_ne _ _ hk.symm]
        shorts := by rw [Supervision.handOver_shorts, hp]
        free := fun e => by simp [hw] at e
        handed := fun h' rest' l e hl => ?_
        records := fun q hq hh => ?_ }
    · rw [hw, List.cons.injEq] at e
      obtain ⟨rfl, rfl⟩ := e
      have hl' : v.live h = some l := by rw [← hl, Supervision.live, hr h hne]; rfl
      refine ⟨?_, by rw [hpool]; rfl, ?_⟩
      · rw [hpool]
        simp only [Pool.lend, pick_put_same, Timer.loaded, Supervision.returnTicks, hl', Fields.returnTicks]
      · simp only [Supervision.handOver, hw', Supervision.modSel_live]
        show Option.map _ (v.live h) = _
        rw [hl']
        rfl
    · simp only [Supervision.handOver, hw']
      rw [Supervision.modSel_record_ne _ _ (by rintro rfl; simp [hw] at hh)]
      exact hr q hq.symm

/-- What a release comes to, and a change of the record's own selector part after it. -/
theorem Supervision.frees.modSel {u v : Supervision} {r : RecIx} {t : TimerIx} (h : u.frees v r t) (hn : r ∉ u.pool.waiters)
    (f : Selector → Selector) : u.frees (v.modSel r f) r t where
  timers := h.timers
  shorts := h.shorts
  free := h.free
  handed q rest l hw hl := by
    rw [Supervision.modSel_live_ne _ _ (by rintro rfl; simp [hw] at hn)]
    exact h.handed q rest l hw hl
  records q hq hh := by rw [Supervision.modSel_record_ne _ _ hq.symm]; exact h.records q hq hh

theorem Supervision.releaseTimer_frees {u : Supervision} (law : PoolLaw u) {r : RecIx} {x : Selector} {t : TimerIx}
    (hx : u.sel r = some x) (ht : x.timer = some t) (hw : x.waiting = false) : u.frees (u.releaseTimer r) r t := by
  unfold Supervision.releaseTimer
  rw [Supervision.heldTimer_of_some law hx ht]
  exact Supervision.freeTimer_frees t (by rw [Supervision.mem_waiters_iff law hx]; simp [hw])

/-- The waits of a record that holds a timer end (R110, R123). -/
theorem Supervision.endWaits_frees {u : Supervision} (law : PoolLaw u) {r : RecIx} {x : Selector} {t : TimerIx}
    (hx : u.sel r = some x) (ht : x.timer = some t) (hw : x.waiting = false) : u.frees (u.endWaits r) r t := by
  have hn : r ∉ u.pool.waiters := by rw [Supervision.mem_waiters_iff law hx]; simp [hw]
  have h := Supervision.releaseTimer_frees law hx ht hw
  have hr : r ∉ (u.releaseTimer r).pool.waiters := by
    unfold Supervision.releaseTimer
    rw [Supervision.heldTimer_of_some law hx ht]
    show r ∉ (Supervision.handOver _ t).pool.waiters
    rw [Supervision.handOver_waiters]
    exact fun hm => hn (List.mem_of_mem_tail hm)
  have hf : (u.releaseTimer r).pool.waiters.filter (fun q => decide (q ≠ r)) = (u.releaseTimer r).pool.waiters :=
    List.filter_eq_self.2 fun q hq => by simpa using fun e : q = r => hr (e ▸ hq)
  have hl : u.endWaits r = (u.releaseTimer r).modSel r (fun x => { x with waiting := false }) := by
    unfold Supervision.endWaits Supervision.leave
    rw [hf]
  rw [hl]
  exact h.modSel hn _

/-- The waits of a record without a timer end: it leaves the queue. -/
theorem Supervision.endWaits_pool_of_none {u : Supervision} {r : RecIx} {x : Selector} (hx : u.sel r = some x)
    (ht : x.timer = none) :
    (u.endWaits r).pool = { u.pool with waiters := u.pool.waiters.filter (fun q => decide (q ≠ r)) } := by
  unfold Supervision.endWaits Supervision.releaseTimer
  rw [Supervision.heldTimer_of_none hx ht]
  rfl

end Sys2Proof.Machine
end

