-- ==== Sys2Proof/WellFormed.lean ====
section
/-! DEFINITION. Which steps have the shape their row describes. exec gives every step a meaning, well-formed or not. -/
namespace Sys2Proof

/-- The shape of each row's operands: a transfer of fewer than eight bits has length 0 (R176, R179); a rejected frame
has at least one byte; a command frame carries 0 to 60 parameter bytes (section 9.3); a slot-frame has 24 words (R14). -/
def Instr.wellFormed : Instr → Bool
  | .hardReset => true
  | .resetRelease => true
  | .clockLoss _ => true
  | .clockReturn _ _ => true
  | .alignConfirm _ _ => true
  | .slotFrameComplete _ words => 1 ≤ words.length && words.length ≤ 24
  | .frameCheck _ _ => true
  | .egressClockLoss => true
  | .egressRunning _ => true
  | .expectedFrameStart _ => true
  | .egressSlotBuild edges => edges.length ≤ 24
  | .timerExpiry _ => true
  | .zeroLengthTransfer bits => bits.length < 8
  | .commandFrameRejected bits => 8 ≤ bits.length
  | .refusedTransfer _ => true
  | .responseRead _ _ => true
  | .holdTimeExpiry => true
  | .ident params => params.length ≤ 60
  | .softReset params => params.length ≤ 60
  | .busSet params => params.length ≤ 60
  | .busEnable params => params.length ≤ 60
  | .busDisable params => params.length ≤ 60
  | .egressParitySet params => params.length ≤ 60
  | .busRead params => params.length ≤ 60
  | .create params => params.length ≤ 60
  | .amend params => params.length ≤ 60
  | .activate params => params.length ≤ 60
  | .replace params => params.length ≤ 60
  | .retire params => params.length ≤ 60
  | .pin params => params.length ≤ 60
  | .steer params => params.length ≤ 60
  | .release params => params.length ≤ 60
  | .recordRead params => params.length ≤ 60
  | .mapRead params => params.length ≤ 60
  | .sourceRead params => params.length ≤ 60
  | .noticeFetch params => params.length ≤ 60
  | .alertSet params => params.length ≤ 60
  | .linkRead params _ => params.length ≤ 60
  | .countersClear params _ => params.length ≤ 60
  | .frameStartCandidate _ words => 1 ≤ words.length
  | .referenceCandidate edges => 1 ≤ edges.length
  | .executionComplete => true

end Sys2Proof
end

