-- ==== Sys2Proof/Tests/Slice0.lean ====
section
/-! SUPPORT. Tests on fixed values: shapes, worked examples of the spec, one step of every row, and for every statement a
concrete case that meets its hypotheses. -/
namespace Sys2Proof.Tests
open Sys2Proof Sys2Proof.Machine
set_option Elab.async false

/-! ## Small states -/

/-- A table that begins with the given entries and goes on with one value. -/
def tableOf {α : Type} (n : Nat) (rest : α) (xs : List α) : Vector α n :=
  ⟨((xs ++ List.replicate n rest).take n).toArray, by simp⟩

/-- Fields naming an egress slot and the sources. -/
def fieldsOf (egress : SlotIx) (working : Source) (protect : Option Source) : Fields where
  egress := egress
  working := working
  protect := protect
  revertive := false
  degradeSwitch := false
  expectedName := none
  expectedCode := none
  outName := none
  outCode := none
  holdOff := 5
  returnTime := 900
  mask := 0

def noCauses : Causes := ⟨false, false, false, false, false, false, false⟩

/-- A selector part resting on W, its working source judged GOOD. -/
def selOf (mode : Mode) : Selector where
  mode := mode
  state := .onW
  selected := .W
  request := .none
  timer := none
  waiting := false
  w := some ⟨.good, noCauses⟩
  p := none

/-- A live record of generation 1. -/
def recordOf (state : LiveState) (fields : Fields) (sel : Selector) : Record :=
  { generation := 1, held := false, live := some ⟨state, fields, sel⟩ }

/-- Fields of record `n`: egress slot `n`, working source A`n`, protect source B`n`. -/
def twoSources (n : SlotIx) : Fields := fieldsOf n ⟨.A, n⟩ (some ⟨.B, n⟩)

def timerOf (owner : RecIx) (purpose : Purpose) : Timer :=
  { owner := owner, purpose := purpose, remaining := 3, fresh := false }

/-- Records in every state: 0 STAGED, 1 ACTIVE, 2 ARMED to enter slot 2, 3 RETIRING and 4 ARMED to take slot 3 over,
5 FREE and held, 6 in HOLD_W, 7 in RETURN, 8 in HOLD_P, 9 in ON_P, 10 and 11 STAGED for the slots of 1 and 2. -/
def someRecords : List Record :=
  [recordOf .staged (twoSources 0) (selOf .preview),
   recordOf .active (twoSources 1) (selOf .live),
   recordOf .armed (twoSources 2) (selOf .preview),
   recordOf .retiring (twoSources 3) (selOf .frozen),
   recordOf .armed (fieldsOf 3 ⟨.A, 4⟩ (some ⟨.B, 4⟩)) (selOf .preview),
   { generation := 7, held := true, live := none },
   recordOf .active (twoSources 6) { selOf .live with state := .holdW, timer := some 0 },
   recordOf .active (twoSources 7) { selOf .live with state := .ret, selected := .P, timer := some 1 },
   recordOf .active (twoSources 8) { selOf .live with state := .holdP, selected := .P, timer := some 2 },
   recordOf .active (twoSources 9) { selOf .live with state := .onP, selected := .P },
   recordOf .staged (fieldsOf 1 ⟨.A, 10⟩ none) (selOf .preview),
   recordOf .staged (fieldsOf 2 ⟨.A, 11⟩ none) (selOf .preview)]

def someNotices : List Entry :=
  [⟨.record 5, some 7, 0x02⟩, ⟨.record 1, some 1, 0x08⟩, ⟨.bus .A, none, 0x01⟩, ⟨.egress, none, 0x01⟩]

/-- Monitors of one bus, the slots given referenced once. -/
def monitorsOf (named : List Nat) : Vector Monitor 48 :=
  tableOf 48 (Monitor.clean 0) ((List.range 12).map (fun n => Monitor.clean (if named.contains n then 1 else 0)))

/-- A part in service, the egress side RUNNING, two updates pending. -/
def served : State :=
  { State.reset with
    monA := monitorsOf [0, 1, 2, 3, 4, 6, 7, 8, 9, 10, 11]
    monB := monitorsOf [0, 1, 2, 3, 4, 6, 7, 8, 9]
    sup :=
      { table := tableOf 64 Record.reset someRecords
        pool :=
          { timers := tableOf 24 none [some (timerOf 6 .holdoff), some (timerOf 7 .ret), some (timerOf 8 .holdoff)]
            waiters := []
            shorts := 0
            highWater := 3 }
        notices := someNotices }
    owner := tableOf 48 none [none, some 1, none, some 3, none, none, some 6, some 7, some 8, some 9]
    updates := [.enter 2 2, .handover 3 3 4]
    egress := { Egress.reset with running := true, headerDue := true } }

/-- The same part without the two updates and their records, the egress side STOPPED. -/
def halted : State :=
  { served with
    monA := monitorsOf [0, 1, 6, 7, 8, 9, 10, 11]
    monB := monitorsOf [0, 1, 6, 7, 8, 9]
    sup :=
      { served.sup with
        table :=
          tableOf 64 Record.reset
            (someRecords.take 2 ++ [Record.reset, Record.reset, Record.reset] ++ someRecords.drop 5) }
    owner := tableOf 48 none [none, some 1, none, none, none, none, some 6, some 7, some 8, some 9]
    updates := []
    egress := Egress.reset }

/-- All 24 timers lent to records 0 to 23 in HOLD_W, record 24 waiting in RETURN, 25 in ON_W, 26 in ON_P. -/
def crowded : Supervision :=
  { table :=
      tableOf 64 Record.reset
        (((List.finRange 24).map fun t =>
            recordOf .active (twoSources ⟨t.val, by omega⟩) { selOf .live with state := .holdW, timer := some t })
          ++ [recordOf .active (twoSources 24) { selOf .live with state := .ret, selected := .P, waiting := true },
              recordOf .active (twoSources 25) (selOf .live),
              recordOf .active (twoSources 26) { selOf .live with state := .onP, selected := .P }])
    pool :=
      { timers := tableOf 24 none ((List.finRange 24).map fun t => some (timerOf ⟨t.val, by omega⟩ .holdoff))
        waiters := [24]
        shorts := 1
        highWater := 24 }
    notices := [] }

/-! ## The small states keep the laws -/

theorem served_notices : NoticeLaw served.sup := noticeLaw_of_check (by decide +kernel)
theorem served_references : ReferenceLaw served := referenceLaw_of_check (by decide +kernel)
theorem served_service : ServiceLaw served := serviceLaw_of_check (by decide +kernel) (by decide +kernel)
theorem halted_notices : NoticeLaw halted.sup := noticeLaw_of_check (by decide +kernel)
theorem halted_references : ReferenceLaw halted := referenceLaw_of_check (by decide +kernel)
theorem halted_service : ServiceLaw halted := serviceLaw_of_check (by decide +kernel) (by decide +kernel)
theorem crowded_pool : PoolLaw crowded := poolLaw_of_check (by decide +kernel)

theorem monitorsOf_law (named : List Nat) (n : SlotIx) : MonitorLaw (pick (monitorsOf named) n) := by
  have h : ∃ k, pick (monitorsOf named) n = Monitor.clean k := by
    have mem : pick (monitorsOf named) n ∈ (monitorsOf named).toList := by simp [pick]
    simp only [monitorsOf, tableOf, Vector.toList_mk] at mem
    rcases List.mem_append.1 (List.mem_of_mem_take mem) with h | h
    · obtain ⟨k, _, hk⟩ := List.mem_map.1 h
      exact ⟨_, hk.symm⟩
    · exact ⟨0, (List.mem_replicate.1 h).2⟩
  obtain ⟨k, hk⟩ := h
  rw [hk]
  exact monitorLaw_clean k

theorem receiverLaw_reset : ReceiverLaw Receiver.reset where
  unaligned := by simp [Receiver.reset]
  searching := by simp [Receiver.reset]
  candidate := by simp [Receiver.reset]
  position := by simp [Receiver.reset]
  badChecks := by simp [Receiver.reset]
  enabled := by simp [Receiver.reset]
  inProgress := by simp [Receiver.reset]
  stored := by simp [Receiver.reset]

theorem linkLaw_reset : LinkLaw Link.reset where
  idle := by simp [Link.reset]
  executing := by simp [Link.reset]
  holding := by simp [Link.reset]
  taking := by simp [Link.reset]
  results := by simp [Link.reset]

theorem served_inv : Inv served where
  notices := served_notices
  references := served_references
  monitors := by
    rintro ⟨b, n⟩
    cases b <;> exact monitorsOf_law _ n
  receivers := by
    intro b
    cases b <;> exact receiverLaw_reset
  egress := by constructor <;> simp [served, Egress.reset]
  link := linkLaw_reset
  service := served_service
  inReset := by simp [served, State.reset]

theorem halted_inv : Inv halted where
  notices := halted_notices
  references := halted_references
  monitors := by
    rintro ⟨b, n⟩
    cases b <;> exact monitorsOf_law _ n
  receivers := by
    intro b
    cases b <;> exact receiverLaw_reset
  egress := by constructor <;> simp [halted, Egress.reset]
  link := linkLaw_reset
  service := halted_service
  inReset := by simp [halted, served, State.reset]

/-! ## Shapes (WellFormed): an ill-formed term for each check -/

theorem test_shape_slotFrame_empty : (Instr.slotFrameComplete .A []).wellFormed = false := rfl
theorem test_shape_slotFrame_long : (Instr.slotFrameComplete .A (List.replicate 25 ⟨0, false, false, false, false⟩)).wellFormed = false := rfl
theorem test_shape_slotBuild_long : (Instr.egressSlotBuild (List.replicate 25 false)).wellFormed = false := rfl
theorem test_shape_zeroLength_byte : (Instr.zeroLengthTransfer (List.replicate 8 false)).wellFormed = false := rfl
theorem test_shape_rejected_short : (Instr.commandFrameRejected (List.replicate 7 false)).wellFormed = false := rfl
theorem test_shape_candidate_empty : (Instr.frameStartCandidate .A []).wellFormed = false := rfl
theorem test_shape_reference_empty : (Instr.referenceCandidate []).wellFormed = false := rfl

/-- Every command frame of 61 parameter bytes is refused; one of 60 is not. -/
theorem test_shape_commands :
    (let p : List Byte := List.replicate 61 0
     [Instr.ident p, .softReset p, .busSet p, .busEnable p, .busDisable p, .egressParitySet p, .busRead p, .create p, .amend p,
      .activate p, .replace p, .retire p, .pin p, .steer p, .release p, .recordRead p, .mapRead p, .sourceRead p,
      .noticeFetch p, .alertSet p, .linkRead p [], .countersClear p []].all (fun i => !i.wellFormed)) = true := by
  decide +kernel

theorem test_shape_commands_full : (Instr.create (List.replicate 60 0)).wellFormed = true := by decide +kernel

/-! ## Worked values of the spec -/

/-- The frames worked through in R180, and the response of section 9.11 without COLLIDED. -/
theorem test_crc_ident : crc [0x01, 0x00] = 0x15 := by decide +kernel
theorem test_crc_noticeFetch : crc [0x20, 0x00] = 0xAE := by decide +kernel
theorem test_crc_collided : crc [0x8B, 0x00] = 0x21 := by decide +kernel
theorem test_crc_queueEmpty : crc [0x0B, 0x00] = 0x97 := by decide +kernel

/-- Header layout (R202): MK bit 15, RF bit 14, CODE bits 13 to 10, spare bits 9 to 7, CHAR bits 6 to 0. -/
theorem test_header : mkHeader true false 15 0x20 = 0xBC20 := by decide +kernel
theorem test_header_read : hdrMK 0x8C41 = true ∧ hdrRF 0x8C41 = false ∧ hdrCode 0x8C41 = 3 ∧ hdrChar 0x8C41 = 0x41 := by
  decide +kernel

/-- Parity (R13): 0x8001 has two high lines, so xPAR is low under EVEN and high under ODD; WORD_CTRL counts xSS too. -/
theorem test_parity :
    passesParity .even .word ⟨0x8001, true, false, false, false⟩ = true ∧
    passesParity .odd .word ⟨0x8001, true, false, false, true⟩ = true ∧
    passesParity .even .wordCtrl ⟨0x8001, true, false, false, true⟩ = true ∧
    passesParity .even .wordCtrl ⟨0x8001, true, false, false, false⟩ = false := by decide +kernel

/-- The source bytes of section 10.6: A5 is 0x05, B5 is 0x85. -/
theorem test_source_bytes : Source.byte ⟨.A, 5⟩ = 0x05 ∧ Source.byte ⟨.B, 5⟩ = 0x85 := by decide +kernel

/-- A counter saturates (00_scope section 5). -/
theorem test_saturates : satInc (0xFFFF#16) = 0xFFFF ∧ satInc (0xFFFE#16) = 0xFFFF := by decide +kernel

/-! ## One step of each kind -/

/-- The state after a step; every step answers one. -/
def after (i : Instr) (s : State) : State :=
  match exec i s with
  | .next t => t
  | .fault _ => s
  | .refused _ => s

/-- The bits of bytes as a transfer carries them. -/
abbrev bitsOf := bitsOfBytes

/-- Section 9.11: NOTICE_FETCH, a refused IDENT, the response with COLLIDED, a partial and a complete read. -/
def fetching : State := after (.noticeFetch []) State.reset
def collided : State := after (.refusedTransfer (bitsOf [0x01, 0x00, 0x15])) fetching
def answered : State := after .executionComplete collided

theorem test_link_taken : fetching.link.state = .executing ∧ fetching.link.framesTaken = 1 ∧ fetching.link.cmd = [0x20, 0x00, 0xAE] := by
  decide +kernel
theorem test_link_refused :
    collided.link.busyHits = 1 ∧ collided.link.collision = true ∧ collided.link.mdo = List.replicate 24 true := by decide +kernel
theorem test_link_response : answered.link.state = .holding ∧ answered.link.resp = [0x8B, 0x00, 0x21] ∧ answered.link.collision = false := by
  decide +kernel
theorem test_link_partial :
    (after (.responseRead (List.replicate 16 false) false) answered).link.resp = [0x8B, 0x00, 0x21] ∧
    (after (.responseRead (List.replicate 20 false) false) answered).link.mdo = bitsOf [0x8B, 0x00] ++ [false, false, true, false] := by
  decide +kernel
theorem test_link_complete :
    (after (.responseRead (List.replicate 24 false) false) answered).link.state = .idle ∧
    (after (.responseRead (List.replicate 24 false) false) answered).link.resp = [] := by decide +kernel
theorem test_link_badCheck :
    (after (.commandFrameRejected (bitsOf [0x01, 0x00, 0x16])) State.reset).link.resp = [0x01, 0x00, 0x15] ∧
    (after (.commandFrameRejected (bitsOf [0x01, 0x00, 0x16])) State.reset).link.badCheck = 1 := by decide +kernel
theorem test_link_dropped : (after .holdTimeExpiry answered).link.dropped = 1 ∧ (after .holdTimeExpiry answered).link.state = .idle := by
  decide +kernel
theorem test_link_zeroLength :
    (after (.zeroLengthTransfer [true, false]) State.reset).link.state = .idle ∧
    (after (.zeroLengthTransfer [true, false]) State.reset).link.mdo = [false, false] ∧
    (after (.responseRead [] false) answered).link.mdo = [true] := by decide +kernel

/-- The result bytes of the command in execution. -/
def results (s : State) : Option (Status × List Byte) := s.link.result.map fun r => (r.status, r.results)

theorem test_ident : results (after (.ident []) State.reset) = some (.ok, [0x48, 0x30, 0x01]) := by decide +kernel
theorem test_busEnable :
    (after (.busEnable [0x01, 1, 1, 1, 5]) State.reset).rxB.state = .down ∧
    (after (.busEnable [0x01, 1, 1, 1, 5]) State.reset).sup.notices = [⟨.bus .B, none, 0x01⟩] := by decide +kernel
theorem test_busDisable : (after (.busDisable [0x01, 0, 0, 0, 5]) { after (.busEnable [0x01, 1, 1, 1, 5]) State.reset with link := Link.reset }).rxB.state =
    .off := by decide +kernel
theorem test_busSet_range : results (after (.busSet [0x00, 1, 0, 0, 0]) State.reset) = some (.badParam, []) := by decide +kernel
theorem test_egressParity :
    (after (.egressParitySet [0x02, 9, 1, 1, 0]) State.reset).egress.sense = .odd ∧
    (after (.egressParitySet [0x02, 9, 1, 1, 0]) State.reset).egress.scope = .wordCtrl := by decide +kernel
theorem test_busRead : results (after (.busRead [0x00]) State.reset) = some (.ok, [0, 0, 0, 0, 0, 32] ++ List.replicate 12 0) := by
  decide +kernel

/-- Section 10.6 step 1: CREATE with 26 parameter bytes gives ref 0/1, both sources FAILED {UNFRAMED, NOCODE, NAME}. -/
def cityRing : List Byte := [0x43, 0x49, 0x54, 0x59, 0x2D, 0x52, 0x49, 0x4E, 0x47, 0x2D, 0x35, 0x20, 0x20, 0x20, 0x20, 0x20]
def provisioning : State :=
  { State.reset with
    rxA := { Receiver.reset with state := .aligned, enable := true }
    rxB := { Receiver.reset with state := .aligned, enable := true } }
def provisioned : State :=
  after (.create ([9, 0x05, 0x85, 0x05, 0, 0, 50, 0x01, 0x2C, 0x00] ++ cityRing)) provisioning

theorem test_create_ref : results provisioned = some (.ok, [0, 1]) := by decide +kernel
theorem test_create_record :
    (provisioned.sup.live 0).map (fun l => (l.state, l.sel.state, l.sel.w.map (·.causes.byte), l.sel.p.map (·.causes.byte))) =
      some (.staged, .onW, some 0x4C, some 0x4C) ∧
    provisioned.sup.notices = [⟨.record 0, some 1, 0x08⟩] := by decide +kernel
theorem test_create_length : results (after (.create ([9, 0x05, 0x85, 0x05, 0, 0, 50, 0x01, 0x2C, 0x00])) provisioning) = some (.badLength, []) := by
  decide +kernel
theorem test_activate_stopped :
    results (after (.activate [0, 1]) { provisioned with link := Link.reset }) = some (.ok, [1]) ∧
    pick (after (.activate [0, 1]) { provisioned with link := Link.reset }).owner 9 = some 0 := by decide +kernel
theorem test_activate_stale : results (after (.activate [0, 2]) { provisioned with link := Link.reset }) = some (.staleRef, []) := by
  decide +kernel
theorem test_amend :
    ((after (.amend [0, 1, 0x02, 0x00, 7]) { provisioned with link := Link.reset }).sup.live 0).map (·.fields.holdOff) = some 7 := by
  decide +kernel
theorem test_pin :
    results (after (.pin [0, 1, 2]) { provisioned with link := Link.reset }) = some (.ok, [0, 1, 1, 2]) := by decide +kernel
theorem test_steer :
    results (after (.steer [0, 1, 4]) { provisioned with link := Link.reset }) = some (.ok, [0, 1, 1, 4]) := by decide +kernel
theorem test_release :
    results (after (.release [0, 1, 0]) { provisioned with link := Link.reset }) = some (.ok, [0, 0, 0, 0]) := by decide +kernel
theorem test_retire :
    results (after (.retire [0, 1]) { provisioned with link := Link.reset }) = some (.ok, [1]) ∧
    ((after (.retire [0, 1]) { provisioned with link := Link.reset }).sup.record 0).held = true := by decide +kernel
theorem test_replace : results (after (.replace [1, 1, 10, 1]) halted) = some (.ok, [1]) := by decide +kernel
theorem test_sourceRead :
    results (after (.sourceRead [0x05]) { provisioned with link := Link.reset }) =
      some (.ok, [3, 1, 0, 0, 0, 0, 0, 0xFF, 0xFF, 0, 0, 0, 0, 0, 0, 0] ++ List.replicate 6 0) := by decide +kernel
theorem test_mapRead : results (after (.mapRead [2, 2]) served) =
    some (.ok, [1, 2, 0x80, 0, 0x42, 1, 1, 0, 0, 0x43, 1, 0xC4, 1, 2, 0, 0]) := by decide +kernel
theorem test_recordRead : results (after (.recordRead [6, 1]) served) =
    some (.ok, [3, 1, 6, 0x06, 0x86, 0, 0, 0xFF, 5, 0x03, 0x84, 0, 1, 2, 0, 0, 2, 0, 0xFF, 0, 0, 0, 0, 0, 3, 0, 0]) := by
  decide +kernel
/-- The bits of a refused transfer of one byte and three bits more. -/
def elevenBits : List Bool := List.replicate 11 false

theorem test_linkRead : results (after (.linkRead [] [elevenBits]) served) =
    some (.ok, [0, 1, 0, 0, 0, 0, 0, 0, 0, 1, 0, 0, 3, 0, 0xFF, 0, 0, 3]) := by decide +kernel
theorem test_noticeFetch : results (after (.noticeFetch []) served) = some (.ok, [5, 7, 0x02, 3, 0]) ∧
    ((after (.noticeFetch []) served).sup.record 5).held = false := by decide +kernel
theorem test_alertSet : results (after (.alertSet [0]) served) = some (.ok, [0, 4]) ∧ (after (.alertSet [0]) served).nALERTLow = false := by
  decide +kernel
theorem test_linkRead_mdo : (after (.linkRead [] [[], elevenBits]) served).link.mdo = List.replicate 11 true ∧
    (after (.linkRead [] [elevenBits, []]) served).link.mdo = [true] ∧
    (after (.linkRead [] []) served).link.mdo = List.replicate 24 false := by decide +kernel
theorem test_countersClear :
    (after (.countersClear [6] [elevenBits]) served).link.busyHits = 0 ∧
    (after (.countersClear [6] [elevenBits]) served).link.collision = true := by
  decide +kernel
theorem test_softReset : (after (.softReset []) served).sup.notices = [] ∧ ((after (.softReset []) served).sup.record 5).generation = 7 := by
  decide +kernel
theorem test_hardReset : (after .hardReset served).nMRDYHigh = true ∧ (after .resetRelease (after .hardReset served)).nMRDYHigh = false := by
  decide +kernel

/-- Bus A searching, aligned, and one word from the events of chapter 1. -/
def busA (rx : Receiver) : State := { State.reset with rxA := { rx with enable := true } }
def start : IngressWord := ⟨0x8C41, true, true, false, true⟩
def payloadWord : IngressWord := ⟨0x1111, false, false, false, false⟩

theorem test_clockLoss : (after (.clockLoss .A) (busA { Receiver.reset with state := .seek, candidate := some 7 })).rxA.state = .down := by
  decide +kernel
theorem test_clockReturn : (after (.clockReturn .A start) (busA { Receiver.reset with state := .down })).rxA.state = .seek := by
  decide +kernel
theorem test_candidate : (after (.frameStartCandidate .A [payloadWord, start, payloadWord]) (busA { Receiver.reset with state := .seek })).rxA.candidate = some 1 := by
  decide +kernel
theorem test_alignConfirm : (after (.alignConfirm .A start) (busA { Receiver.reset with state := .seek, candidate := some 1151 })).rxA.state = .aligned := by
  decide +kernel
theorem test_frameCheck :
    (after (.frameCheck .A payloadWord) (busA { Receiver.reset with state := .aligned, framePos := 1151, badChecks := 2 })).rxA.state = .seek ∧
    (after (.frameCheck .A start) (busA { Receiver.reset with state := .aligned, framePos := 1151, badChecks := 2 })).rxA.badChecks = 0 := by
  decide +kernel
theorem test_slotFrame :
    (pick (after (.slotFrameComplete .A (start :: List.replicate 23 payloadWord))
      (busA { Receiver.reset with state := .aligned, framePos := 23 })).rxA.store 1).map (fun f => (f.header, f.payload.length, f.errored)) =
      some (0x8C41, 23, false) := by decide +kernel

/-- Frames F2 and F3 of section 7.9: slot 14 forwarded from A3 with the outgoing name, then alarm fill. -/
def eastLink : Name := [0x45, 0x41, 0x53, 0x54, 0x2D, 0x4C, 0x49, 0x4E, 0x4B, 0x2D, 0x31, 0x34, 0x20, 0x20, 0x20, 0x20]
def sendingSlot (judgement : Judgement) (ctr : BitVec 4) : State :=
  { State.reset with
    rxA :=
      { Receiver.reset with
        state := .aligned
        store := put (Vector.replicate 48 none) 3 (some ⟨0x8C41, List.replicate 23 0x1111, false, false⟩) }
    sup :=
      { Supervision.reset with
        table :=
          put (Vector.replicate 64 Record.reset) 7
            (recordOf .active { fieldsOf 14 ⟨.A, 3⟩ (some ⟨.B, 3⟩) with outName := some eastLink }
              { selOf .live with w := some judgement }) }
    owner := put (Vector.replicate 48 none) 14 (some 7)
    egress := { Egress.reset with running := true, framePos := 24 * 14, headerDue := true, mfCount := ctr } }

theorem test_slotBuild_forwarded :
    (after (.egressSlotBuild []) (sendingSlot ⟨.good, noCauses⟩ 7)).egress.out = ⟨mkHeader false false 3 0x4E, true, false, false, false⟩ := by
  decide +kernel
theorem test_slotBuild_alarm :
    (after (.egressSlotBuild []) (sendingSlot ⟨.failed, noCauses⟩ 8)).egress.out.data = mkHeader false false 15 0x4B ∧
    pick (after (.egressSlotBuild []) (sendingSlot ⟨.failed, noCauses⟩ 8)).egress.alarmFill 14 = 1 := by decide +kernel

/-- Section 7.10: the third miss stops the egress side; a pulse 1,152 edges after the candidate starts it again. -/
def egressAt (e : Egress) : State := { State.reset with egress := e }
theorem test_egress_third_miss :
    (after (.expectedFrameStart false) (egressAt { Egress.reset with running := true, framePos := 1151, misses := 2 })).egress.running = false := by
  decide +kernel
theorem test_egress_start :
    (after (.egressRunning true) (egressAt { Egress.reset with candidate := some 1151 })).egress.running = true ∧
    (after (.referenceCandidate [true, true, false, true]) (egressAt Egress.reset)).egress.candidate = some 0 := by decide +kernel
theorem test_egress_clockLoss : (after .egressClockLoss (egressAt { Egress.reset with running := true })).sup.notices = [⟨.egress, none, 0x01⟩] := by
  decide +kernel

/-- The expiry of record 6's hold-off: bus A and bus B OFF, both sources FAILED, so the record returns to ON_W. On idle ticks
a timer with one tick left expires at the next tick, and one just loaded with 1 at the second. -/
def lent (timer : Timer) : State :=
  { served with sup := { served.sup with pool := { served.sup.pool with timers := tableOf 24 none [some timer] } } }
theorem test_timerExpiry :
    ((after (.timerExpiry 0) (lent (timerOf 6 .holdoff))).sup.live 6).map (fun l => (l.sel.state, l.sel.timer)) = some (.onW, none) ∧
    pick (after (.timerExpiry 0) (lent (timerOf 6 .holdoff))).sup.pool.timers 0 = none ∧
    pick (after (.timerExpiry 3) served).sup.pool.timers 3 = none := by decide +kernel
theorem test_tick_expires :
    pick (lent { timerOf 6 .holdoff with remaining := 1 }).tick.sup.pool.timers 0 = none ∧
    pick (lent (.loaded 6 .holdoff 1)).tick.sup.pool.timers 0 = some { timerOf 6 .holdoff with remaining := 1 } ∧
    pick (lent (.loaded 6 .holdoff 1)).tick.tick.sup.pool.timers 0 = none := by decide +kernel

/-! ## The statements' hypotheses are met

One theorem for each statement that has hypotheses: concrete states and operands that meet all of them together, at a
boundary value for each clause. -/

theorem served_ready : served.ready := ⟨rfl, rfl⟩
theorem halted_ready : halted.ready := ⟨rfl, rfl⟩
theorem reset_ready : State.reset.ready := ⟨rfl, rfl⟩

theorem test_meets_StepRunsFrontCommand :
    ({ State.reset with pending := [.executionComplete, .hardReset] } : State).pending = .executionComplete :: [.hardReset] := rfl

/-- Timers just loaded at 1, at 2, and FREE; one of them at 1; two of them at 1. -/
def ticking (left : List Nat) : State :=
  { State.reset with
    sup :=
      { Supervision.reset with
        pool :=
          { Pool.reset with
            timers :=
              tableOf 24 none
                (some { timerOf 0 .ret with remaining := 1, fresh := true } ::
                  left.map fun n => some { timerOf 1 .ret with remaining := n }) } } }

/-- The numbers of the timers that reach 0 at the next tick. -/
def reaching (s : State) : List TimerIx := s.sup.pool.tick.expiring

theorem test_meets_EmptyQueueTakesOneTick :
    (∀ left, (ticking left).pending = [] ∧ (ticking left).nReset = true) ∧
    reaching (ticking [2, 2]) = [] ∧ reaching (ticking [1, 2]) = [1] ∧ reaching (ticking [1, 1]) = [1, 2] :=
  ⟨fun _ => ⟨rfl, rfl⟩, by decide +kernel, by decide +kernel, by decide +kernel⟩

theorem test_meets_NothingMovesInReset :
    State.reset.hardReset.nReset = false ∧ State.reset.hardReset = State.reset.hardReset.hardReset ∧
    Instr.clockLoss .A ≠ Instr.resetRelease := ⟨rfl, rfl, by decide⟩

theorem test_meets_SoftResetClears : served.ready ∧ ([0] : List Byte) ≠ [] ∧ (List.replicate 60 (0 : Byte)).length ≤ 60 :=
  ⟨served_ready, by decide, by decide⟩

theorem test_meets_NoticeLawKept : NoticeLaw served.sup ∧ step served = .next served.tick := ⟨served_notices, rfl⟩

theorem test_meets_ReferenceLawKept : ReferenceLaw served ∧ step served = .next served.tick := ⟨served_references, rfl⟩

theorem test_meets_MonitorLawKept : (∀ src, MonitorLaw (served.monitor src)) ∧ step served = .next served.tick :=
  ⟨served_inv.monitors, rfl⟩

theorem test_meets_PortLawsKept :
    step served = .next served.tick ∧ (∀ b, ReceiverLaw (served.rx b)) ∧ EgressLaw served.egress ∧ LinkLaw served.link ∧
    (∀ src, MonitorLaw (served.monitor src)) ∧ ∀ r l, served.sup.live r = some l → FieldsLaw l.fields :=
  ⟨rfl, served_inv.receivers, served_inv.egress, served_inv.link, served_inv.monitors, served_service.fields⟩

theorem test_meets_LawsKept : Inv served := served_inv

theorem test_meets_GenerationAdvancesOnlyAtAllocation :
    let i := Instr.create (createParams (twoSources 9))
    i ≠ .hardReset ∧ exec i State.reset = .next (State.reset.send .create (createParams (twoSources 9)) []) ∧
    State.reset.sup.live 0 = none ∧ (((State.reset.send .create (createParams (twoSources 9)) []).sup.live 0).isSome = true) :=
  ⟨by decide, rfl, by decide +kernel, by decide +kernel⟩

/-- A row of raw bits that spell a good CREATE frame allocates too. -/
theorem test_create_as_bits :
    ((after (.zeroLengthTransfer (bitsOf (commandFrame .create (createParams (twoSources 9))))) State.reset).sup.live 0).isSome = true := by
  decide +kernel

/-- An ACTIVATE by its bits: code 0x12. -/
theorem test_activate_code : readCommand 0x12 = some .activate ∧ commandFrame .activate [0, 1] = [0x12, 2, 0, 1, crc [0x12, 2, 0, 1]] := by
  decide +kernel

/-- PIN_P asked of a record without a protect source breaks the selector law. -/
theorem test_selectorCheck_request :
    selectorCheck ((served.sup.modLive 10 fun l => { l with fields := fieldsOf 1 ⟨.A, 10⟩ none }).modSel 10 fun x => { x with request := .pinP }) = false := by
  decide +kernel

theorem test_meets_CommandIsPerformedWhole :
    commandOf (.countersClear (List.replicate 60 0) [[], [true]]) = some (.countersClear, List.replicate 60 0, [[], [true]]) ∧
    (List.replicate 60 (0 : Byte)).length ≤ 60 ∧ served.ready := ⟨rfl, by decide, served_ready⟩

theorem test_meets_IdentAnswers : served.ready ∧ ([0xFF] : List Byte) ≠ [] ∧ ([0xFF] : List Byte).length ≤ 60 :=
  ⟨served_ready, by decide, by decide⟩

theorem receiverLaw_down : ReceiverLaw { Receiver.reset with state := .down, enable := true } where
  unaligned := by simp [Receiver.reset]
  searching := by simp [Receiver.reset]
  candidate := by simp [Receiver.reset]
  position := by simp [Receiver.reset]
  badChecks := by simp [Receiver.reset]
  enabled := by simp
  inProgress := by simp
  stored := by simp [Receiver.reset]

theorem receiverLaw_seek : ReceiverLaw { Receiver.reset with state := .seek, candidate := some 1151, enable := true } where
  unaligned := by simp [Receiver.reset]
  searching := by simp
  candidate := by simp
  position := by simp [Receiver.reset]
  badChecks := by simp [Receiver.reset]
  enabled := by simp
  inProgress := by simp
  stored := by simp [Receiver.reset]

/-- BUS_SET: any bus and threshold other than 0; an OFF bus; and each value just out of range. -/
theorem test_meets_BusSetWritesConfiguration :
    State.reset.ready ∧ (1 : Byte) ≠ 0 ∧ (State.reset.rx .A).state = .off ∧ ReceiverLaw (State.reset.rx .A) ∧
    2 < (3 : Byte).toNat ∧ 1 < (2 : Byte).toNat ∧ ((1 : Byte).toNat < 2 ∧ ((1 < (2 : Byte).toNat) ∨ (0 : Byte) = 0)) :=
  ⟨reset_ready, by decide, rfl, receiverLaw_reset, by decide, by decide, by decide⟩

/-- Bus A in a state, with the records of `served`. -/
def servedOn (rx : Receiver) : State := { served with rxA := { rx with enable := true }, rxB := { rx with enable := true } }

theorem test_meets_BusDisableClears :
    let s := servedOn { Receiver.reset with state := .aligned }
    s.ready ∧ (0xFF : Byte) ≠ 0 ∧ (s.rx .A).state ≠ .off := ⟨⟨rfl, rfl⟩, by decide, by decide⟩

/-- A monitor with a name and a remote fault, referenced by a record that masks neither. -/
theorem test_meets_BusDisableClears_posts :
    let s : State := { servedOn { Receiver.reset with state := .seek } with
      monA := put served.monA 1 { Monitor.clean 1 with name := some eastLink, rf := true } }
    (s.rx .A).state ≠ .off ∧ (s.monitor ⟨.A, 1⟩).refs ≠ 0 ∧ s.sup.live 1 = some ⟨.active, twoSources 1, selOf .live⟩ ∧
    (⟨.A, 1⟩ : Source) ∈ (twoSources 1).sources ∧ (s.monitor ⟨.A, 1⟩).name.isSome ∧
    hasKind (twoSources 1).mask .name = false ∧ (s.monitor ⟨.A, 1⟩).rf = true ∧ hasKind (twoSources 1).mask .rfault = false := by
  decide +kernel

/-- A monitor with an accepted code on a bus that is ALIGNED, and on one that is not; record 1 names A1 and B1. -/
theorem test_meets_BusDisableClears_judges :
    let s := fun st : BusState => { servedOn { Receiver.reset with state := st } with
      monA := put served.monA 1 { Monitor.clean 1 with code := some 3 } }
    (∀ st : BusState, ((s st).rx .A).state = st) ∧ ((s .down).monitor ⟨.A, 1⟩).refs ≠ 0 ∧
    ((s .down).monitor ⟨.A, 1⟩).code.isSome = true ∧ (s .down).sup.live 1 = some ⟨.active, twoSources 1, selOf .live⟩ ∧
    (twoSources 1).working.bus = .A ∧ (twoSources 1).protect = some ⟨.B, 1⟩ :=
  ⟨fun _ => rfl, by decide +kernel, by decide +kernel, by decide +kernel, rfl, rfl⟩

theorem test_meets_EgressParitySetWrites : State.reset.ready ∧ 1 < (2 : Byte).toNat := ⟨reset_ready, by decide⟩

theorem test_meets_ClockLossEntersDown :
    (State.reset.rx .A).state = .off ∧ ((busA { Receiver.reset with state := .down }).rx .A).state = .down ∧
    ((busA { Receiver.reset with state := .seek, candidate := some 1151 }).rx .A).state = .seek ∧
    ReceiverLaw ((busA { Receiver.reset with state := .seek, candidate := some 1151 }).rx .A) :=
  ⟨rfl, rfl, rfl, receiverLaw_seek⟩

/-- Record 1 names A1 as working and B1 as protect source. -/
theorem test_meets_ClockLossEntersDown_aligned :
    let s := servedOn { Receiver.reset with state := .aligned }
    (∀ b, (s.rx b).state = .aligned) ∧ s.sup.live 1 = some ⟨.active, twoSources 1, selOf .live⟩ ∧
    (twoSources 1).working.bus = .A ∧ (twoSources 1).protect = some ⟨.B, 1⟩ ∧ (s.monitor ⟨.A, 1⟩).refs ≠ 0 ∧
    (s.monitor ⟨.A, 5⟩).refs = 0 :=
  ⟨by intro b; cases b <;> rfl, by decide +kernel, rfl, rfl, by decide +kernel, by decide +kernel⟩

theorem test_meets_SearchFollowsCandidate :
    ((busA { Receiver.reset with state := .down }).rx .A).state = .down ∧
    ReceiverLaw ((busA { Receiver.reset with state := .down }).rx .A) ∧
    ((busA { Receiver.reset with state := .seek }).rx .A).candidate = none ∧
    (((busA { Receiver.reset with state := .seek, candidate := some 1150 }).rx .A).candidate = some 1150 ∧ 1150 + 1 < 1152) ∧
    ((busA { Receiver.reset with state := .seek, candidate := some 1151 }).rx .A).candidate = some 1151 ∧
    (payloadWord.fs && payloadWord.ss) = false := ⟨rfl, receiverLaw_down, rfl, ⟨rfl, by decide⟩, rfl, rfl⟩

theorem test_meets_AlignConfirmEntersAligned :
    let s := servedOn { Receiver.reset with state := .seek, candidate := some 1151 }
    (s.rx .A).state = .seek ∧ (s.rx .A).candidate = some 1151 ∧ start.fs = true ∧ start.ss = true ∧
    s.sup.live 1 = some ⟨.active, twoSources 1, selOf .live⟩ ∧ (twoSources 1).working.bus = .A ∧
    (twoSources 1).protect = some ⟨.B, 1⟩ := ⟨rfl, rfl, rfl, rfl, by decide +kernel, rfl, rfl⟩

/-- A bad check with one behind it, and a good check with two behind it. -/
theorem test_meets_FrameCheckCounts :
    let s := busA { Receiver.reset with state := .aligned, framePos := 1151, badChecks := 1 }
    let t := busA { Receiver.reset with state := .aligned, framePos := 1151, badChecks := 2 }
    ((s.rx .A).state = .aligned ∧ (s.rx .A).framePos = 1151 ∧ (s.rx .A).badChecks < 2) ∧
    (t.rx .A).state = .aligned ∧ (t.rx .A).framePos = 1151 ∧ (!start.fs || !start.ss || (t.rx .A).frameFault) = false := by
  decide +kernel

theorem test_meets_ThirdBadCheckLosesAlignment :
    let s := servedOn { Receiver.reset with state := .aligned, framePos := 1151, badChecks := 2 }
    (s.rx .A).state = .aligned ∧ (s.rx .A).framePos = 1151 ∧ (s.rx .A).badChecks = 2 ∧ payloadWord.fs = false ∧
    s.sup.live 1 = some ⟨.active, twoSources 1, selOf .live⟩ := ⟨rfl, rfl, rfl, rfl, by decide +kernel⟩

/-- Slot 1 and slot 47. -/
theorem test_meets_SlotFrameStoredWhole :
    ((busA { Receiver.reset with state := .aligned, framePos := 23 }).rx .A).framePos + 1 = 24 * (1 : SlotIx).val ∧
    ((busA { Receiver.reset with state := .aligned, framePos := 1127 }).rx .A).framePos + 1 = 24 * (47 : SlotIx).val ∧
    (List.replicate 23 payloadWord).length = 23 := ⟨rfl, rfl, rfl⟩

/-- Record 1 names A1, whose monitor is one slot-frame short of a new code, and of a remote fault. -/
theorem test_meets_SlotFrameStoredWhole_hears :
    let m : Monitor := { Monitor.clean 1 with codeCandidate := some 3, codeRun := 4, rfRun := 4 }
    let s : State := { servedOn { Receiver.reset with state := .aligned, framePos := 23 } with monA := put served.monA 1 m }
    let frame : SlotFrame := ⟨mkHeader false true 3 0x41, List.replicate 23 0, false, false⟩
    (s.rx .A).state = .aligned ∧ s.monitor ⟨.A, 1⟩ = m ∧ (m.take 32 frame).code ≠ m.code ∧ (m.take 32 frame).rf ≠ m.rf ∧
    s.sup.live 1 = some ⟨.active, twoSources 1, selOf .live⟩ ∧ (⟨.A, 1⟩ : Source) ∈ (twoSources 1).sources ∧
    hasKind (twoSources 1).mask .rfault = false := by decide +kernel

theorem test_meets_BusStepsTouchOneBus : exec (.clockLoss .A) served = .next (served.loseClock .A) := rfl

/-! ### Monitors -/

def quiet : SlotFrame := ⟨mkHeader false false 3 0x41, List.replicate 23 0, false, false⟩
def marked : SlotFrame := ⟨mkHeader true false 3 0x41, List.replicate 23 0, false, false⟩
def filled : SlotFrame := ⟨mkHeader false false 15 0x20, List.replicate 23 0xFFFF, true, true⟩
def faulty : SlotFrame := ⟨mkHeader false true 3 0x41, List.replicate 23 0, false, false⟩

/-- Agreement, a first, and a third slot-frame that disagrees; no reference; FILLED; the 255th slot-frame of a block. -/
theorem test_meets_FillNeedsThreeAndFreezesHeader :
    ((Monitor.clean 1).refs ≠ 0 ∧ (Monitor.clean 1).fillRun ≤ 2 ∧ quiet.fill = (Monitor.clean 1).filled) ∧
    (filled.fill ≠ (Monitor.clean 1).filled ∧ (Monitor.clean 1).fillRun ≠ 2) ∧
    (({ Monitor.clean 1 with fillRun := 2 } : Monitor).fillRun = 2 ∧ filled.fill ≠ ({ Monitor.clean 1 with fillRun := 2 } : Monitor).filled) ∧
    (Monitor.clean 0).refs = 0 ∧ (({ Monitor.clean 1 with fillRun := 2 } : Monitor).take 32 filled).filled = true ∧
    ({ Monitor.clean 1 with blockPos := 254 } : Monitor).blockPos ≤ 254 := by decide +kernel

theorem test_meets_CodeAndRemoteFaultNeedFive :
    ((Monitor.clean 1).refs ≠ 0 ∧ (Monitor.clean 1).filled = false ∧ (List.replicate 5 quiet).length = 5 ∧
      ∀ f ∈ List.replicate 5 quiet, f.fill = false ∧ hdrCode f.header = 3) ∧
    (let m : Monitor := { Monitor.clean 1 with codeCandidate := some 3, codeRun := 4 }
     (m.take 32 quiet).code ≠ m.code) ∧
    (((Monitor.clean 1).take 32 quiet).filled = false ∧ hdrRF quiet.header = (Monitor.clean 1).rf) ∧
    (((Monitor.clean 1).take 32 faulty).filled = false ∧ hdrRF faulty.header ≠ (Monitor.clean 1).rf ∧ (Monitor.clean 1).rfRun ≠ 4) ∧
    (let m : Monitor := { Monitor.clean 1 with rfRun := 4 }
     m.rfRun ≤ 4 ∧ (m.take 32 faulty).filled = false ∧ hdrRF faulty.header ≠ m.rf ∧ m.rfRun = 4) := by decide +kernel

theorem test_meets_BlockJudgedAtItsEnd :
    (Monitor.clean 1).refs ≠ 0 ∧ (Monitor.clean 1).blockPos = 0 ∧ (Monitor.clean 1).blockErrored = 0 ∧
    (List.replicate 256 filled).length = 256 ∧ ({ Monitor.clean 1 with blockPos := 254 } : Monitor).blockPos < 255 := by decide +kernel

theorem test_meets_FramingFoundAndLost :
    ((Monitor.clean 1).refs ≠ 0 ∧ (Monitor.clean 1).filled = false ∧ (Monitor.clean 1).framed = false ∧
      (Monitor.clean 1).mkCandidate = none ∧ marked.fill = false ∧ hdrMK marked.header = true ∧
      (List.replicate 15 quiet).length = 15 ∧ ∀ f ∈ List.replicate 15 quiet, f.fill = false ∧ hdrMK f.header = false) ∧
    (let m : Monitor := { Monitor.clean 1 with framed := true, mfPos := 15, fails := 1, gathered := eastLink }
     m.refs ≠ 0 ∧ m.framed = true ∧ m.mfPos = 15 ∧ hdrMK quiet.header = false ∧ (m.take 32 quiet).filled = false ∧ m.fails = 1) ∧
    (let m : Monitor := { Monitor.clean 1 with framed := true, mfPos := 15, stray := true, gathered := eastLink }
     m.stray = true ∧ (m.take 32 marked).filled = false ∧ m.fails = 0) ∧
    (let m : Monitor := { Monitor.clean 1 with framed := true, mfPos := 15, fails := 1, gathered := eastLink }
     m.stray = false ∧ hdrMK marked.header = true ∧ (m.take 32 marked).filled = false ∧ (m.take 32 marked).fails = 0) ∧
    (let m : Monitor := { Monitor.clean 1 with framed := true, mfPos := 14, gathered := eastLink.take 15 }
     m.mfPos < 15 ∧ (m.take 32 marked).filled = false ∧ (m.take 32 marked).stray = true) ∧
    (let m : Monitor := { Monitor.clean 1 with mkCandidate := some 14 }
     m.framed = false ∧ 14 + 1 < 16 ∧ (m.take 32 marked).filled = false ∧ (m.take 32 marked).mkCandidate = some 0) ∧
    (let m : Monitor := { Monitor.clean 1 with mkCandidate := some 15 }
     (m.take 32 quiet).filled = false ∧ (m.take 32 quiet).mkCandidate = none ∧ (m.take 32 marked).framed = true) := by
  decide +kernel

/-- The 48 slot-frames after a name's first character. -/
def spelling : List SlotFrame :=
  (List.range 48).map fun i => ⟨mkHeader ((i + 1) % 16 == 0) false 3 (eastLink.getD ((i + 1) % 16) 0), List.replicate 23 0, false, false⟩

theorem test_meets_NameNeedsThreeMultiframes :
    (let m : Monitor := { Monitor.clean 1 with framed := true, gathered := [0x45] }
     m.refs ≠ 0 ∧ m.filled = false ∧ m.framed = true ∧ m.mfPos = 0 ∧ m.stray = false ∧ m.gathered = eastLink.take 1) ∧
    eastLink.length = 16 ∧ eastLink.all printable = true ∧ spelling.length = 48 ∧
    ∀ i (h : i < spelling.length), spelling[i].fill = false ∧
      hdrMK spelling[i].header = ((i + 1) % 16 == 0) ∧ some (hdrChar spelling[i].header) = eastLink[(i + 1) % 16]? := by
  refine ⟨by decide +kernel, by decide, by decide, by decide, fun i h => ?_⟩
  have hi : i < 48 := by simpa [spelling] using h
  have all : ∀ j : Fin 48, hdrMK (mkHeader ((j.val + 1) % 16 == 0) false 3 (eastLink.getD ((j.val + 1) % 16) 0)) = ((j.val + 1) % 16 == 0) ∧
      some (hdrChar (mkHeader ((j.val + 1) % 16 == 0) false 3 (eastLink.getD ((j.val + 1) % 16) 0))) = eastLink[(j.val + 1) % 16]? := by
    decide +kernel
  simpa [spelling] using all ⟨i, hi⟩

/-- The check that closes a name's third multiframe changes the accepted name. -/
theorem test_meets_NameNeedsThreeMultiframes_change :
    let m : Monitor :=
      { Monitor.clean 1 with
        framed := true, mfPos := 15, gathered := eastLink, confirming := some eastLink, matchCount := 2 }
    (m.take 32 marked).name ≠ m.name := by decide +kernel

/-! ### Selection -/

def failed : Judgement := ⟨.failed, { noCauses with bus := true }⟩
def good : Judgement := ⟨.good, noCauses⟩

/-- The part's records with the request of one set, and with one selected at once (no hold-off). -/
def asking (r : RecIx) (request : Request) : Supervision := served.sup.modSel r (fun x => { x with request := request })
def eager (r : RecIx) : Supervision := served.sup.modLive r (fun l => { l with fields := { l.fields with holdOff := 0 } })

/-- An evaluation that changes a judgement, one that moves the selection, one that drops a steer, and one that meets a
shortage. -/
theorem test_meets_EvaluationStoresAndPosts :
    (served.sup.live 1 = some ⟨.active, twoSources 1, selOf .live⟩ ∧ (selOf .live).w ≠ some failed ∧
      hasKind (twoSources 1).mask .cond = false) ∧
    (((eager 1).evaluate 1 false failed (some good)).sel 1).map (·.selected) = some .P ∧
    (let u := (eager 1).modSel 1 (fun x => { x with request := .steerW })
     ((u.sel 1).map (·.request) = some .steerW ∧ ((u.evaluate 1 false failed (some good)).sel 1).map (·.selected) = some .P)) ∧
    (crowded.evaluate 25 false failed (some good)).notices = [⟨.record 25, some 1, 0x8C⟩] := by
  decide +kernel

theorem served_sel_1 : served.sup.sel 1 = some (selOf .live) := by decide +kernel
theorem served_sel_6 : served.sup.sel 6 = some { selOf .live with state := .holdW, timer := some 0 } := by decide +kernel
theorem served_sel_7 : served.sup.sel 7 = some { selOf .live with state := .ret, selected := .P, timer := some 1 } := by decide +kernel
theorem served_sel_8 : served.sup.sel 8 = some { selOf .live with state := .holdP, selected := .P, timer := some 2 } := by decide +kernel
theorem served_sel_9 : served.sup.sel 9 = some { selOf .live with state := .onP, selected := .P } := by decide +kernel
theorem crowded_sel_0 : crowded.sel 0 = some { selOf .live with state := .holdW, timer := some 0 } := by decide +kernel
theorem crowded_sel_24 : crowded.sel 24 = some { selOf .live with state := .ret, selected := .P, waiting := true } := by decide +kernel
theorem crowded_sel_25 : crowded.sel 25 = some (selOf .live) := by decide +kernel
theorem crowded_sel_26 : crowded.sel 26 = some { selOf .live with state := .onP, selected := .P } := by decide +kernel

/-- ON_W with a FREE timer and without one, and HOLD_W; merits 0 and 2, or 2 and 2. -/
theorem test_meets_RowsOnWorking :
    (served.sup.sel 1 = some (selOf .live) ∧ requestRow (selOf .live).request .W 0 2 = none ∧ (selOf .live).state = .onW ∧
      (0 : Int) < 2 ∧ ¬ (2 : Int) < 2 ∧ (twoSources 1).holdOff ≠ 0 ∧ served.sup.pool.lowestFree = some 3) ∧
    (crowded.sel 25 = some (selOf .live) ∧ crowded.pool.lowestFree = none) ∧
    (served.sup.sel 6 = some { selOf .live with state := .holdW, timer := some 0 } ∧ PoolLaw served.sup ∧
      selectorRow { selOf .live with state := .holdW, timer := some 0 }) ∧
    (crowded.sel 0 = some { selOf .live with state := .holdW, timer := some 0 } ∧ PoolLaw crowded ∧ crowded.pool.waiters = [24]) :=
  ⟨⟨served_sel_1, rfl, rfl, by decide, by decide, by decide, by decide +kernel⟩, ⟨crowded_sel_25, by decide +kernel⟩,
    ⟨served_sel_6, served_service.pool, selectorRow_of_check rfl⟩, crowded_sel_0, crowded_pool, rfl⟩

/-- HOLD_W left while record 24 waits: it receives the timer; left while nobody waits: the timer stays FREE. -/
theorem test_timer_released :
    (let u := (crowded.settleLive 0 (twoSources 0) { selOf .live with state := .holdW, timer := some 0 } 2 2).1
     pick u.pool.timers 0 = some { owner := 24, purpose := .ret, remaining := 90000, fresh := true } ∧ u.pool.waiters = [] ∧
     (u.sel 24).map (·.timer) = some (some 0)) ∧
    (let u := (served.sup.settleLive 6 (twoSources 6) { selOf .live with state := .holdW, timer := some 0 } 2 2).1
     pick u.pool.timers 0 = none) := by decide +kernel

/-- ON_P with a FREE timer and without one, a return due or not, and HOLD_P. -/
theorem test_meets_RowsOnProtect :
    (served.sup.sel 9 = some { selOf .live with state := .onP, selected := .P } ∧ PoolLaw served.sup ∧
      selectorRow { selOf .live with state := .onP, selected := .P } ∧
      requestRow .none .P 2 0 = none ∧ (0 : Int) < 2 ∧ ¬ (2 : Int) < 2 ∧ served.sup.pool.lowestFree = some 3) ∧
    (({ twoSources 9 with revertive := true } : Fields).revertive = true ∧ (2 : Int) = 2 ∧ Request.none ≠ .steerP) ∧
    (crowded.sel 26 = some { selOf .live with state := .onP, selected := .P } ∧ PoolLaw crowded ∧ crowded.pool.lowestFree = none) ∧
    (served.sup.sel 8 = some { selOf .live with state := .holdP, selected := .P, timer := some 2 } ∧
      selectorRow { selOf .live with state := .holdP, selected := .P, timer := some 2 }) :=
  ⟨⟨served_sel_9, served_service.pool, selectorRow_of_check rfl, rfl, by decide, by decide, by decide +kernel⟩,
    ⟨rfl, rfl, by decide⟩, ⟨crowded_sel_26, crowded_pool, by decide +kernel⟩, served_sel_8, selectorRow_of_check rfl⟩

/-- RETURN with a timer, and waiting. -/
theorem test_meets_RowsInReturn :
    (served.sup.sel 7 = some { selOf .live with state := .ret, selected := .P, timer := some 1 } ∧ PoolLaw served.sup ∧
      requestRow .none .P 2 0 = none ∧ false = (some (1 : TimerIx)).isNone) ∧
    (crowded.sel 24 = some { selOf .live with state := .ret, selected := .P, waiting := true } ∧ PoolLaw crowded ∧
      true = (none : Option TimerIx).isNone) :=
  ⟨⟨served_sel_7, served_service.pool, rfl, rfl⟩, crowded_sel_24, crowded_pool, rfl⟩

theorem test_meets_RequestRowsSettle :
    ((asking 1 .pinP).sel 1 = some { selOf .live with request := .pinP } ∧ PoolLaw (asking 1 .pinP) ∧
      selectorRow { selOf .live with request := .pinP }) ∧
    ((asking 7 .pinW).sel 7 = some { selOf .live with state := .ret, selected := .P, timer := some 1, request := .pinW } ∧
      PoolLaw (asking 7 .pinW)) ∧
    ((asking 9 .steerW).sel 9 = some { selOf .live with state := .onP, selected := .P, request := .steerW } ∧
      PoolLaw (asking 9 .steerW) ∧ ¬ (2 : Int) < 2) ∧
    ((asking 6 .steerP).sel 6 = some { selOf .live with state := .holdW, timer := some 0, request := .steerP } ∧
      PoolLaw (asking 6 .steerP) ∧ selectorRow { selOf .live with state := .holdW, timer := some 0, request := .steerP }) :=
  ⟨⟨by decide +kernel, poolLaw_of_check (by decide +kernel), selectorRow_of_check rfl⟩,
    ⟨by decide +kernel, poolLaw_of_check (by decide +kernel)⟩,
    ⟨by decide +kernel, poolLaw_of_check (by decide +kernel), by decide⟩,
    by decide +kernel, poolLaw_of_check (by decide +kernel), selectorRow_of_check rfl⟩

theorem test_meets_PreviewSettlesAtOnce :
    served.sup.live 0 = some ⟨.staged, twoSources 0, selOf .preview⟩ ∧ (selOf .preview).mode = .preview := by decide +kernel

/-- A record in HOLD_W, and one FROZEN. -/
theorem test_meets_FreezeFixesSelection :
    (served.sup.live 6 = some ⟨.active, twoSources 6, { selOf .live with state := .holdW, timer := some 0 }⟩ ∧
      PoolLaw served.sup ∧ selectorRow { selOf .live with state := .holdW, timer := some 0 }) ∧
    (served.sup.live 3 = some ⟨.retiring, twoSources 3, selOf .frozen⟩ ∧ (selOf .frozen).mode = .frozen) :=
  ⟨⟨by decide +kernel, served_service.pool, selectorRow_of_check rfl⟩, by decide +kernel, rfl⟩

/-- A take that succeeds and one that cannot, a release with nobody waiting and one with record 24 waiting. -/
theorem test_meets_TimersAreLentAndHandedOver :
    (served.sup.sel 1 = some (selOf .live) ∧ (served.sup.takeTimer 1 .ret 90000).isSome = true) ∧
    (crowded.sel 25 = some (selOf .live) ∧ (crowded.takeTimer 25 .ret 90000) = none) ∧
    (served.sup.sel 6 = some { selOf .live with state := .holdW, timer := some 0 } ∧ served.sup.pool.waiters = []) ∧
    (crowded.pool.waiters = [24] ∧
      crowded.live 24 = some ⟨.active, twoSources 24, { selOf .live with state := .ret, selected := .P, waiting := true }⟩ ∧
      (24 : RecIx) ≠ 0) :=
  ⟨⟨served_sel_1, by decide +kernel⟩, ⟨crowded_sel_25, by decide +kernel⟩, ⟨served_sel_6, rfl⟩, rfl, by decide +kernel, by decide⟩

/-- Record 6 alone holds a timer, in a selector part given; bus A is OFF, B6 is GOOD. -/
def failingOver (x : Selector) : State :=
  { served with
    rxB := { Receiver.reset with state := .aligned, enable := true }
    monB := put served.monB 6 { Monitor.clean 1 with framed := true, gathered := [0x41], code := some 1 }
    sup :=
      { (served.sup.modSel 6 fun _ => x) with
        pool := { served.sup.pool with timers := tableOf 24 none [some (.loaded 6 .holdoff 1)] } } }

def holding (state : SelState) (selected : Side) : Selector :=
  { selOf .live with state := state, selected := selected, timer := some 0 }

/-- HOLD_W, HOLD_P and RETURN with the one timer; W is FAILED and P GOOD. -/
theorem test_meets_WaitsRunOut :
    pick (failingOver (holding .holdW .W)).sup.pool.timers 1 = none ∧
    ∀ c ∈ [(SelState.holdW, Side.W), (.holdP, .P), (.ret, .P)],
      let s := failingOver (holding c.1 c.2)
      s.nReset = true ∧ pick s.sup.pool.timers 0 = some (.loaded 6 .holdoff 1) ∧
      (∀ k : TimerIx, k ≠ 0 → pick s.sup.pool.timers k = none) ∧ s.sup.pool.waiters = [] ∧
      s.sup.live 6 = some ⟨.active, twoSources 6, holding c.1 c.2⟩ ∧ rowCheck (holding c.1 c.2) = true ∧
      (s.judge (twoSources 6) ⟨.A, 6⟩).condition = .failed ∧ (s.judge (twoSources 6) ⟨.B, 6⟩).condition = .good := by
  decide +kernel

/-- No timer FREE: record 26 at the end of a hold-off on P with return due, and of a return wait with P below W. -/
theorem test_meets_WaitsRunOut_short :
    let u := fun st : SelState =>
      crowded.modLive 26 (fun l => { l with fields := { l.fields with revertive := true, degradeSwitch := true }, sel := { l.sel with state := st } })
    let degraded : Judgement := ⟨.degraded, noCauses⟩
    (u .holdP).pool.lowestFree = none ∧
    ((u .holdP).sel 26).map (fun x => (x.mode, x.timer, x.waiting, x.selected, x.request)) = some (.live, none, false, .P, .none) ∧
    meritOf true (some good) = 2 ∧ ¬ meritOf true (some good) < meritOf true (some good) ∧
    meritOf true (some degraded) ≠ 2 ∧ meritOf true (some failed) < meritOf true (some degraded) ∧
    ((u .holdP).evaluate 26 true good (some good)).pool.waiters = [24, 26] ∧
    (((u .ret).evaluate 26 true degraded (some failed)).sel 26).map (·.state) = some .onW := by decide +kernel

/-! ### Records -/

/-- Fields at the ends of their ranges: hold-off 250, return time 900, every maskable kind masked, both names. -/
def fullFields : Fields :=
  { egress := 47, working := ⟨.A, 47⟩, protect := some ⟨.B, 47⟩, revertive := true, degradeSwitch := true
    expectedName := some eastLink, expectedCode := some 15, outName := some eastLink, outCode := some 0
    holdOff := 250, returnTime := 900, mask := 0xFC }

/-- The lowest index of `served` that is FREE and not held is 12; and a table whose indexes are all held. -/
theorem test_meets_CreateMakesStagedRecord :
    (served.ready ∧ FieldsLaw fullFields ∧ fullFields.protect ≠ some fullFields.working ∧ served.sup.live 12 = none ∧
      (served.sup.record 12).held = false ∧
      ∀ q : RecIx, q < 12 → (served.sup.live q).isSome = true ∨ (served.sup.record q).held = true) ∧
    (let s : State := { State.reset with
        sup := { Supervision.reset with table := Vector.replicate 64 { generation := 1, held := true, live := none } } }
     s.ready ∧ ∀ q : RecIx, (s.sup.live q).isSome = true ∨ (s.sup.record q).held = true) ∧
    (badCreate 48 0x05 0x85 0 0 0 0 1 0 [] ∧ badCreate 9 0x05 0x85 0x04 0 0 250 900 0 (List.replicate 16 0x7F)) :=
  ⟨⟨served_ready, fieldsLaw_of_check (by decide +kernel), by decide, by decide +kernel, by decide +kernel, by decide +kernel⟩,
    ⟨⟨rfl, rfl⟩, by decide +kernel⟩, by simp [badCreate], by simp [badCreate]⟩

/-- The amendments that the tests use: HOLDOFF to 250, and WORKING to A47. -/
def amendHold : Amendment :=
  { egress := none, working := none, protect := none, revertive := none, degrade := none, expectedName := none
    expectedCode := none, outName := none, outCode := none, holdOff := some 250, ret := none, mask := none }
def amendWorking (src : Source) : Amendment := { amendHold with holdOff := none, working := some src }

theorem amendHold_law : AmendmentLaw amendHold := by constructor <;> simp [amendHold, Amendment.carried, AmendBytes.items]
theorem amendWorking_law (src : Source) : AmendmentLaw (amendWorking src) := by
  constructor <;> simp [amendHold, amendWorking, Amendment.carried, AmendBytes.items]

/-- The AMEND of section 10 layout: items 0x0200 with 250, items 0x0002 with the source byte of A47. -/
theorem test_amendParams :
    amendParams amendHold = [0x02, 0x00, 250] ∧ amendParams (amendWorking ⟨.A, 47⟩) = [0x00, 0x02, 0x2F] := by decide +kernel

/-- Index 64; a generation that is not the record's; a FREE record reached with its generation. -/
theorem test_meets_RefsAreCheckedFirst :
    served.ready ∧ 64 ≤ (0x40 : Byte).toNat ∧ ((1 : RecIx).val = (1 : Byte).toNat ∧ (served.sup.record 1).generation ≠ 2) ∧
    ((5 : RecIx).val = (5 : Byte).toNat ∧ (served.sup.record 5).generation = 7 ∧ served.sup.live 5 = none) ∧
    (Request.steerP.byte).toNat ≤ 4 ∧ AmendmentLaw amendHold :=
  ⟨served_ready, by decide, by decide +kernel, by decide +kernel, by decide, amendHold_law⟩

/-- Record 3 is RETIRING, 1 ACTIVE, 2 ARMED, 5 FREE, 0 STAGED with protect source B0; a kind of 5; an empty item set, a
HOLDOFF of 251 and an item bit 12. -/
theorem test_meets_RefsAreCheckedFirst_states :
    (served.sup.live 3).map (·.state) = some .retiring ∧ (served.sup.live 1).map (·.state) = some .active ∧
    (served.sup.live 2).map (·.state) = some .armed ∧ served.sup.live 5 = none ∧
    ((served.sup.live 0).map (fun l => (l.state, l.fields.protect)) = some (.staged, some ⟨.B, 0⟩)) ∧
    (amendWorking ⟨.B, 0⟩).ofStaged ∧ 4 < (5 : Byte).toNat ∧
    (let v : AmendBytes := { amendHold.carried with holdOff := some 251 }
     v.shaped ∧ ∀ a, AmendmentLaw a → a.carried ≠ v) ∧
    (amendHold.carried.shaped ∧ (0x1000 : BitVec 16) &&& 0x0FFF = 0 ∧ (0x1000 : BitVec 16) ≠ 0) := by
  refine ⟨by decide +kernel, by decide +kernel, by decide +kernel, by decide +kernel, by decide +kernel,
    Or.inr (Or.inl rfl), by decide, ⟨by simp [AmendBytes.shaped, amendHold, Amendment.carried], fun a law h => ?_⟩,
    by simp [AmendBytes.shaped, amendHold, Amendment.carried], by decide, by decide⟩
  have hb : a.holdOff = some 251 := congrArg AmendBytes.holdOff h
  exact absurd (law.holdOff 251 hb) (by decide)

/-- Record 10 names an owned slot, 11 one with a pending update, 0 neither; and 0 while STOPPED. -/
theorem test_meets_ActivateEntersSlot :
    (served.ready ∧ served.sup.live 10 = some ⟨.staged, fieldsOf 1 ⟨.A, 10⟩ none, selOf .preview⟩ ∧ (pick served.owner 1).isSome = true) ∧
    (served.sup.live 11 = some ⟨.staged, fieldsOf 2 ⟨.A, 11⟩ none, selOf .preview⟩ ∧ pick served.owner 2 = none ∧
      ∃ u ∈ served.updates, u.slot = 2) ∧
    (served.sup.live 0 = some ⟨.staged, twoSources 0, selOf .preview⟩ ∧ pick served.owner 0 = none ∧
      (∀ u ∈ served.updates, u.slot ≠ 0) ∧ served.egress.running = true) ∧
    (halted.ready ∧ halted.sup.live 0 = some ⟨.staged, twoSources 0, selOf .preview⟩ ∧ pick halted.owner 0 = none ∧
      (∀ u ∈ halted.updates, u.slot ≠ 0) ∧ halted.egress.running = false) := by
  refine ⟨⟨served_ready, ?_⟩, ?_, ?_, halted_ready, ?_⟩ <;> decide +kernel

/-- Record 1 and record 10 name one slot, record 0 another. -/
theorem test_meets_ReplaceHandsOver :
    (served.ready ∧ served.sup.live 1 = some ⟨.active, twoSources 1, selOf .live⟩ ∧
      served.sup.live 0 = some ⟨.staged, twoSources 0, selOf .preview⟩ ∧ (twoSources 0).egress ≠ (twoSources 1).egress) ∧
    (served.sup.live 10 = some ⟨.staged, fieldsOf 1 ⟨.A, 10⟩ none, selOf .preview⟩ ∧
      (fieldsOf 1 ⟨.A, 10⟩ none).egress = (twoSources 1).egress ∧ (∀ u ∈ served.updates, u.slot ≠ 1) ∧ served.egress.running = true) ∧
    (halted.ready ∧ halted.sup.live 1 = some ⟨.active, twoSources 1, selOf .live⟩ ∧
      halted.sup.live 10 = some ⟨.staged, fieldsOf 1 ⟨.A, 10⟩ none, selOf .preview⟩ ∧ (∀ u ∈ halted.updates, u.slot ≠ 1) ∧
      halted.egress.running = false) := by
  refine ⟨⟨served_ready, ?_⟩, ?_, halted_ready, ?_⟩ <;> decide +kernel

theorem test_meets_RetireActsByState :
    (served.ready ∧ Inv served ∧ served.sup.live 0 = some ⟨.staged, twoSources 0, selOf .preview⟩) ∧
    (served.sup.live 2 = some ⟨.armed, twoSources 2, selOf .preview⟩ ∧ Update.enter 2 2 ∈ served.updates) ∧
    (served.sup.live 4 = some ⟨.armed, fieldsOf 3 ⟨.A, 4⟩ (some ⟨.B, 4⟩), selOf .preview⟩ ∧ Update.handover 3 3 4 ∈ served.updates) ∧
    (served.sup.live 1 = some ⟨.active, twoSources 1, selOf .live⟩ ∧ served.egress.running = true) ∧
    (halted.ready ∧ Inv halted ∧ halted.sup.live 1 = some ⟨.active, twoSources 1, selOf .live⟩ ∧ halted.egress.running = false) :=
  ⟨⟨served_ready, served_inv, by decide +kernel⟩, by decide +kernel, by decide +kernel, by decide +kernel,
    halted_ready, halted_inv, by decide +kernel, rfl⟩

/-- HOLDOFF of record 1, and WORKING of the STAGED record 0. -/
theorem test_meets_AmendWritesItems :
    served.ready ∧ ReferenceLaw served ∧
    (served.sup.live 1 = some ⟨.active, twoSources 1, selOf .live⟩ ∧ LiveState.active ≠ .retiring ∧ AmendmentLaw amendHold ∧
      ¬ amendHold.ofStaged ∧ (twoSources 1).protect ≠ some (twoSources 1).working) ∧
    (served.sup.live 0 = some ⟨.staged, twoSources 0, selOf .preview⟩ ∧ AmendmentLaw (amendWorking ⟨.A, 47⟩) ∧
      (twoSources 0).protect ≠ some ⟨.A, 47⟩) :=
  ⟨served_ready, served_references,
    ⟨by decide +kernel, by decide, amendHold_law, by simp [Amendment.ofStaged, amendHold], by decide⟩,
    by decide +kernel, amendWorking_law _, by decide⟩

/-- Record 10 has no protect source, record 1 has one, ranking equal (both sources FAILED). -/
theorem test_meets_RequestsSettle :
    served.ready ∧ Inv served ∧
    (served.sup.live 10 = some ⟨.staged, fieldsOf 1 ⟨.A, 10⟩ none, selOf .preview⟩ ∧ (fieldsOf 1 ⟨.A, 10⟩ none).protect = none) ∧
    (served.sup.live 1 = some ⟨.active, twoSources 1, selOf .live⟩ ∧ (twoSources 1).protect ≠ none ∧ LiveState.active ≠ .retiring ∧
      meritOf false (some (served.judge (twoSources 1) ⟨.A, 1⟩)) = meritOf false (some (served.judge (twoSources 1) ⟨.B, 1⟩))) := by
  refine ⟨served_ready, served_inv, ?_, ?_⟩ <;> decide +kernel

/-- A record without a timer and one with timer 0; a MAP_READ of the last eight slots, and the list's second update. -/
theorem test_meets_ReadsReport :
    served.ready ∧ served.sup.live 1 = some ⟨.active, twoSources 1, selOf .live⟩ ∧ (selOf .live).timer = none ∧
    (served.sup.live 6 = some ⟨.active, twoSources 6, { selOf .live with state := .holdW, timer := some 0 }⟩ ∧
      pick served.sup.pool.timers 0 = some (timerOf 6 .holdoff)) ∧
    (([40, 41, 42, 43, 44, 45, 46, 47] : List SlotIx).map (·.val) = List.range' (40 : Byte).toNat (8 : Byte).toNat ∧
      1 ≤ (8 : Byte).toNat ∧ (8 : Byte).toNat ≤ 8) ∧
    (served.updates = [.enter 2 2] ++ .handover 3 3 4 :: [] ∧ ∀ x ∈ [Update.enter 2 2], x.slot ≠ 3) ∧
    (48 < (47 : Byte).toNat + (2 : Byte).toNat ∧ 2 < (3 : Byte).toNat ∧ (0x40 : Byte).getLsbD 6 = true ∧
      47 < ((0x30 : Byte).extractLsb' 0 6).toNat) := by
  refine ⟨served_ready, ?_⟩
  decide +kernel

/-! ### Notices, counters, egress side, link -/

theorem test_meets_QueueTakesPostings :
    NoticeLaw served.sup ∧ (someNotices.map (·.subject)).Nodup ∧ (∀ e ∈ someNotices, e.subject ≠ .bus .B) ∧
    ∃ e ∈ someNotices, e.subject = .egress := by
  refine ⟨served_notices, ?_⟩
  decide +kernel

/-- The part with its queue begun at another entry. -/
def noticesFrom (k : Nat) : State := { served with sup := { served.sup with notices := someNotices.drop k } }

theorem test_meets_NoticeFetchTakesHead :
    (State.reset.ready ∧ State.reset.sup.notices = []) ∧
    (served.ready ∧ served.sup.notices = ⟨.record 5, some 7, 0x02⟩ :: someNotices.drop 1 ∧ hasKind 0x02 .retired = true) ∧
    ((noticesFrom 1).sup.notices = ⟨.record 1, some 1, 0x08⟩ :: someNotices.drop 2 ∧ hasKind 0x08 .retired = false ∧
      (noticesFrom 1).sup.live 1 = some ⟨.active, twoSources 1, selOf .live⟩) ∧
    (noticesFrom 2).sup.notices = ⟨.bus .A, none, 0x01⟩ :: someNotices.drop 3 ∧
    ((noticesFrom 3).ready ∧ (noticesFrom 3).sup.notices = [⟨.egress, none, 0x01⟩]) :=
  ⟨⟨reset_ready, rfl⟩, ⟨served_ready, rfl, by decide⟩, ⟨rfl, by decide, by decide +kernel⟩, rfl, ⟨rfl, rfl⟩, rfl⟩

theorem test_meets_AlertSetWritesEnable : served.ready ∧ 1 < (2 : Byte).toNat := ⟨served_ready, by decide⟩

theorem test_meets_CountersClearByGroup : served.ready ∧ 6 < (7 : Byte).toNat := ⟨served_ready, by decide⟩

theorem test_meets_ReferenceSearchStartsEgress :
    (State.reset.nReset = true ∧ State.reset.egress.running = false ∧ State.reset.egress.candidate = none) ∧
    ((egressAt { Egress.reset with candidate := some 1150 }).egress.candidate = some 1150 ∧ 1150 + 1 < 1152) ∧
    (egressAt { Egress.reset with candidate := some 1151 }).egress.candidate = some 1151 ∧
    (true && !(egressAt { Egress.reset with candidate := some 1151 }).egress.erefLevel) = true ∧
    (false && !(egressAt { Egress.reset with candidate := some 1151 }).egress.erefLevel) = false := by decide +kernel

/-- Two updates pending at an expected frame start with one miss, with two misses, and while STOPPED. -/
def frameEnd (misses : Nat) : State := { served with egress := { served.egress with framePos := 1151, misses := misses, headerDue := false } }

/-- An accepted ACTIVATE in execution, a transfer having been refused: at the frame start its response is built. -/
def activating (s : State) : State :=
  { s with
    link :=
      { Link.reset with
        state := .executing, cmd := commandFrame .activate [0, 1], collision := true, result := some ⟨.ok, [0]⟩ } }

theorem test_response_before_frame_start :
    (after (.expectedFrameStart true) (activating (frameEnd 1))).link.resp = [0x80, 0x01, 0x00, crc [0x80, 0x01, 0x00]] ∧
    (after (.expectedFrameStart true) (activating (frameEnd 1))).link.state = .holding ∧
    (after (.egressRunning true) (activating (egressAt { Egress.reset with candidate := some 1151 }))).link.state = .holding ∧
    (activating (frameEnd 1)).link.state = .executing ∧ (activating (frameEnd 1)).link.cmd.getD 0 0 ∈ [0x12#8, 0x13#8, 0x14#8] := by
  decide +kernel

theorem test_meets_EgressFollowsReference :
    (frameEnd 1).nReset = true ∧ ((frameEnd 1).updates.map (·.slot)).Nodup ∧ ownerCheck (frameEnd 1) = true ∧
    (frameEnd 1).egress.running = true ∧
    (frameEnd 1).egress.framePos = 1151 ∧ (frameEnd 1).egress.misses + 1 < 3 ∧
    (true && !(frameEnd 2).egress.erefLevel) = true ∧ (false && !(frameEnd 2).egress.erefLevel) = false ∧
    (frameEnd 2).egress.misses = 2 ∧ (frameEnd 1).egress.headerDue = false ∧ halted.egress.running = false := by decide +kernel

/-- Slot 0 without owner; slot 14 with an owner whose selected source is FAILED, has no store entry, or is forwarded. -/
theorem test_meets_EgressSlotIsBuilt :
    (served.egress.running = true ∧ served.egress.headerDue = true ∧ served.egress.framePos = 24 * (0 : SlotIx).val ∧
      pick served.owner 0 = none) ∧
    (let s := sendingSlot failed 15
     s.egress.framePos = 24 * (14 : SlotIx).val ∧ pick s.owner 14 = some 7 ∧
     (s.sup.live 7).map (fun l => (l.sel.selected, l.fields.working, l.sel.w)) = some (.W, ⟨.A, 3⟩, some failed) ∧
     failed.condition = .failed) ∧
    (let s : State := { sendingSlot good 15 with rxA := Receiver.reset }
     (s.sup.live 7).map (fun l => (l.sel.selected, l.fields.working, l.sel.w)) = some (.W, ⟨.A, 3⟩, some good) ∧
     pick (s.rx .A).store 3 = none) ∧
    (let s := sendingSlot good 15
     (s.sup.live 7).map (fun l => (l.sel.selected, l.fields.working, l.sel.w)) = some (.W, ⟨.A, 3⟩, some good) ∧
     good.condition ≠ .failed ∧
     pick (s.rx .A).store 3 = some ⟨0x8C41, List.replicate 23 0x1111, false, false⟩) := by decide +kernel

/-- The last payload word of slot 0, and the edge before the header word of slot 47. -/
theorem test_meets_EgressEdgesDriveWords :
    (let s := egressAt { Egress.reset with running := true, framePos := 22, sending := some (Egress.reset.assemble .unequipped) }
     s.nReset = true ∧ s.egress.running = true ∧ s.egress.headerDue = false ∧ s.egress.framePos + 1 < 1152 ∧
     (s.egress.framePos + 1) % 24 ≠ 0 ∧ s.egress.sending = some (Egress.reset.assemble .unequipped)) ∧
    (let s := egressAt { Egress.reset with running := true, framePos := 1127 }
     s.egress.framePos + 1 < 1152 ∧ (s.egress.framePos + 1) % 24 = 0) := by decide +kernel

theorem test_meets_ListsAreTakenOneByOne :
    exec (.slotFrameComplete .A [payloadWord]) served = .next (served.takeWord .A payloadWord) ∧
    exec (.frameStartCandidate .A [payloadWord]) served = .next (served.takeWord .A payloadWord) ∧
    exec (.referenceCandidate [true]) served = .next (served.egressEdge true) ∧
    (let s := busA { Receiver.reset with state := .aligned, partialFrame := some (Receiver.reset.openFrame start) }
     (s.rx .A).state = .aligned ∧ (s.rx .A).framePos = 0 ∧ (s.rx .A).partialFrame = some (Receiver.reset.openFrame start) ∧
     (Receiver.reset.openFrame start).frame.payload = [] ∧ (List.replicate 23 payloadWord).length = 23) :=
  ⟨rfl, rfl, rfl, rfl, rfl, rfl, rfl, rfl⟩

/-- Seven bits; frames of 2 and of 65 bytes, of length byte 61, and of a length byte that disagrees; a wrong check byte; an
unknown code. -/
theorem test_meets_FramesAreChecked :
    State.reset.ready ∧ LinkLaw State.reset.link ∧ (List.replicate 7 true).length < 8 ∧
    8 ≤ (bitsOf [0x01, 0x00]).length ∧ (transferBytes (bitsOf [0x01, 0x00])).length < 3 ∧
    64 < (transferBytes (bitsOf (List.replicate 65 0))).length ∧
    60 < ((transferBytes (bitsOf [0x01, 61, 0x00])).getD 1 0).toNat ∧
    (transferBytes (bitsOf [0x01, 0x01, 0x00])).length ≠ 3 + ((transferBytes (bitsOf [0x01, 0x01, 0x00])).getD 1 0).toNat ∧
    (transferBytes (bitsOf [0x01, 0x00, 0x16]) = [0x01, 0x00, 0x16] ∧ (0x16 : Byte) ≠ crc [0x01, 0x00]) ∧
    (transferBytes (bitsOf [0x03, 0x00, 0x3F]) = [0x03, 0x00, crc [0x03, 0x00]] ∧ readCommand 0x03 = none) :=
  ⟨reset_ready, linkLaw_reset, by decide, by decide +kernel, by decide +kernel, by decide +kernel, by decide +kernel,
    by decide +kernel, by decide +kernel, by decide +kernel⟩

theorem test_meets_TransfersOutsideIdle :
    (fetching.nReset = true ∧ fetching.link.state = .executing ∧ fetching.link.result = some ⟨.queueEmpty, []⟩) ∧
    (answered.nReset = true ∧ answered.link.state = .holding) := by decide +kernel

end Sys2Proof.Tests
end

section
/-! SUPPORT. R51: which steps allocate an index, and what every other operation leaves of generations and FREE indexes. -/
namespace Sys2Proof.Machine

/-! ## Operations that allocate nothing -/

/-- Index `r` is not allocated: its generation stays, and if it is FREE it stays FREE (R51). -/
structure Supervision.KeepsIndex (u v : Supervision) (r : RecIx) : Prop where
  generation : (v.record r).generation = (u.record r).generation
  free : u.live r = none → v.live r = none

/-- No index is allocated. -/
def Supervision.AllocatesNone (u v : Supervision) : Prop := ∀ r, u.KeepsIndex v r

/-- The same of two whole states. -/
def State.AllocatesNone (s t : State) : Prop := s.sup.AllocatesNone t.sup

theorem Supervision.AllocatesNone.refl (u : Supervision) : u.AllocatesNone u := fun _ => ⟨rfl, id⟩

theorem Supervision.AllocatesNone.trans {u v w : Supervision} (h : u.AllocatesNone v) (h' : v.AllocatesNone w) :
    u.AllocatesNone w := fun r => ⟨(h' r).generation.trans (h r).generation, (h' r).free ∘ (h r).free⟩

theorem Supervision.sameRecords.allocatesNone {u v : Supervision} (h : u.sameRecords v) : u.AllocatesNone v := fun r =>
  ⟨(h r).1, (Supervision.sameRecords_none h r).2⟩

theorem Supervision.allocatesNone_of_table {u v : Supervision} (h : v.table = u.table) : u.AllocatesNone v :=
  (Supervision.sameRecords_of_table h).allocatesNone

theorem State.allocatesNone_of_sup {s t : State} (h : t.sup = s.sup) : s.AllocatesNone t :=
  Supervision.allocatesNone_of_table (by rw [h])

theorem State.AllocatesNone.refl (s : State) : s.AllocatesNone s := Supervision.AllocatesNone.refl s.sup

theorem State.AllocatesNone.trans {s t v : State} (h : s.AllocatesNone t) (h' : t.AllocatesNone v) : s.AllocatesNone v :=
  Supervision.AllocatesNone.trans h h'

theorem State.withSup_allocatesNone {s : State} {u : Supervision} (h : s.sup.AllocatesNone u) :
    s.AllocatesNone { s with sup := u } := h

theorem State.withEgress_allocatesNone (s : State) (e : Egress) : s.AllocatesNone { s with egress := e } := .refl s

theorem State.Supervises.allocatesNone {s t : State} (h : s.Supervises t) : s.AllocatesNone t := h.records.allocatesNone

theorem State.sameBesideBus.allocatesNone {s t : State} {b : Bus} (h : s.sameBesideBus t b) : s.AllocatesNone t :=
  h.records.allocatesNone

/-- What each event of a list keeps, the whole list keeps. -/
theorem State.foldl_allocatesNone {α : Type} {f : State → α → State}
    (step : ∀ (s : State) x, s.AllocatesNone (f s x)) (s : State) (xs : List α) : s.AllocatesNone (xs.foldl f s) := by
  induction xs generalizing s with
  | nil => exact .refl _
  | cons x xs ih => exact (step s x).trans (ih _)

/-! ## Records -/

/-- A record replaced by one of the same generation that is FREE if the old one was. -/
theorem Supervision.setRecord_allocatesNone (u : Supervision) {r : RecIx} {x : Record}
    (hg : x.generation = (u.record r).generation) (hf : u.live r = none → x.live = none) :
    u.AllocatesNone (u.setRecord r x) := by
  intro q
  by_cases h : r = q
  · subst h
    exact ⟨by rw [Supervision.setRecord_same, hg], fun hr => by rw [Supervision.live, Supervision.setRecord_same, hf hr]⟩
  · have same := u.setRecord_ne x h
    exact ⟨by rw [same], fun hr => by rw [Supervision.live, same]; exact hr⟩

theorem Supervision.modLive_allocatesNone (u : Supervision) (r : RecIx) (f : Live → Live) :
    u.AllocatesNone (u.modLive r f) :=
  u.setRecord_allocatesNone rfl fun h => by rw [h]; rfl

theorem Supervision.modSel_allocatesNone (u : Supervision) (r : RecIx) (f : Selector → Selector) :
    u.AllocatesNone (u.modSel r f) := u.modLive_allocatesNone r _

theorem State.evaluateBy_allocatesNone (s : State) (expiry : Bool) (r : RecIx) : s.AllocatesNone (s.evaluateBy expiry r) :=
  (s.evaluateBy_supervises expiry r).allocatesNone

theorem State.evaluate_allocatesNone (s : State) (r : RecIx) : s.AllocatesNone (s.evaluate r) :=
  s.evaluateBy_allocatesNone false r

/-! ## Ownership: records entering and leaving service -/

/-- A record that becomes FREE keeps the generation of its last allocation (R51, R66). -/
theorem State.freeRecord_allocatesNone (s : State) (r : RecIx) : s.AllocatesNone (s.freeRecord r) := by
  unfold State.freeRecord
  split
  · exact .refl _
  · have freed : s.sup.AllocatesNone (s.sup.setRecord r { s.sup.record r with live := none }) :=
      s.sup.setRecord_allocatesNone rfl fun _ => rfl
    refine freed.trans ?_
    simp only [State.dropRefs_sup]
    exact (Supervision.postRecord_sameRecords _ _ _).allocatesNone.trans
      (Supervision.setRecord_allocatesNone _ rfl fun h => h)

theorem State.goLive_allocatesNone (s : State) (r : RecIx) : s.AllocatesNone (s.goLive r) :=
  (State.withSup_allocatesNone (s.sup.modLive_allocatesNone r _)).trans (State.evaluate_allocatesNone _ r)

theorem State.enterService_allocatesNone (s : State) (r : RecIx) : s.AllocatesNone (s.enterService r) := by
  unfold State.enterService
  split
  · exact .refl _
  · exact (State.withSup_allocatesNone ((s.sup.modLive_allocatesNone r _).trans
      (Supervision.postRecord_sameRecords _ _ _).allocatesNone)).trans (State.goLive_allocatesNone _ r)

theorem State.applyUpdate_allocatesNone (s : State) (u : Update) : s.AllocatesNone (s.applyUpdate u) := by
  cases u with
  | enter n r => exact State.enterService_allocatesNone (s.setOwner n (some r)) r
  | leave n r => exact State.freeRecord_allocatesNone (s.setOwner n none) r
  | handover n o r =>
    exact (State.freeRecord_allocatesNone (s.setOwner n (some r)) o).trans (State.enterService_allocatesNone _ r)

theorem State.applyUpdates_allocatesNone (s : State) : s.AllocatesNone s.applyUpdates :=
  State.foldl_allocatesNone State.applyUpdate_allocatesNone s s.updates

theorem State.queueUpdate_allocatesNone (s : State) (u : Update) : s.AllocatesNone (s.queueUpdate u).1 := by
  unfold State.queueUpdate
  split
  · exact .refl _
  · exact s.applyUpdate_allocatesNone u

theorem State.beginRetiring_allocatesNone (s : State) (r : RecIx) : s.AllocatesNone (s.beginRetiring r) :=
  (s.sup.modLive_allocatesNone r _).trans (Supervision.freeze_sameRecords _ r).allocatesNone

/-! ## Timers -/

theorem State.takeExpiry_allocatesNone (s : State) (t : TimerIx) : s.AllocatesNone (s.takeExpiry t) := by
  unfold State.takeExpiry
  split
  · exact .refl _
  · split
    · exact (State.withSup_allocatesNone (s.sup.freeTimer_selectorsOnly _ t).records.allocatesNone).trans
        (State.evaluateBy_allocatesNone _ true _)
    · exact .refl _

theorem State.takeExpiries_allocatesNone (s : State) : s.AllocatesNone s.takeExpiries := by
  unfold State.takeExpiries
  split
  · exact .refl _
  · exact s.takeExpiry_allocatesNone _
  · exact State.foldl_allocatesNone State.takeExpiry_allocatesNone { s with choices := s.choices + 1 } _

theorem State.tick_allocatesNone (s : State) : s.AllocatesNone s.tick := by
  unfold State.tick
  split
  · exact (State.withSup_allocatesNone (s.sup.withPool_selectorsOnly s.sup.pool.tick).records.allocatesNone).trans
      (State.takeExpiries_allocatesNone _)
  · exact .refl _

theorem State.ticks_allocatesNone (k : Nat) (s : State) : s.AllocatesNone (State.ticks k s) := by
  induction k generalizing s with
  | zero => exact .refl _
  | succ k ih => exact s.tick_allocatesNone.trans (ih _)

/-! ## The egress side -/

theorem State.buildDue_allocatesNone (s : State) : s.AllocatesNone s.buildDue := by
  unfold State.buildDue
  split
  · split
    · exact s.withEgress_allocatesNone _
    · exact .refl s
  · exact .refl s

theorem State.driveNext_allocatesNone (s : State) : s.AllocatesNone s.driveNext := by
  unfold State.driveNext
  dsimp only
  split <;> exact s.withEgress_allocatesNone _

theorem State.postState_allocatesNone (s : State) : s.AllocatesNone s.postState :=
  Supervision.allocatesNone_of_table rfl

theorem State.afterRequest_allocatesNone (s : State) : s.AllocatesNone s.afterRequest :=
  State.allocatesNone_of_sup s.afterRequest_sup

theorem State.stopEgress_allocatesNone (s : State) : s.AllocatesNone s.stopEgress :=
  ((s.afterRequest_allocatesNone.trans (State.withEgress_allocatesNone _ _)).trans
    (State.applyUpdates_allocatesNone _)).trans (State.postState_allocatesNone _)

theorem State.startEgress_allocatesNone (s : State) : s.AllocatesNone s.startEgress :=
  (s.afterRequest_allocatesNone.trans (State.withEgress_allocatesNone _ _)).trans (State.postState_allocatesNone _)

theorem State.frameStart_allocatesNone (s : State) (misses : Nat) : s.AllocatesNone (s.frameStart misses) :=
  (s.afterRequest_allocatesNone.trans (State.withEgress_allocatesNone _ _)).trans (State.applyUpdates_allocatesNone _)

theorem State.expectFrame_allocatesNone (s : State) (pulse : Bool) : s.AllocatesNone (s.expectFrame pulse) := by
  unfold State.expectFrame
  split
  · exact s.frameStart_allocatesNone 0
  · split
    · exact s.stopEgress_allocatesNone
    · exact s.frameStart_allocatesNone _

theorem State.searchReference_allocatesNone (s : State) (pulse : Bool) : s.AllocatesNone (s.searchReference pulse) := by
  unfold State.searchReference
  split
  · split <;> exact .refl _
  · split
    · exact .refl _
    · split
      · exact s.startEgress_allocatesNone
      · exact .refl _

theorem State.egressEdge_allocatesNone (s : State) (eref : Bool) : s.AllocatesNone (s.egressEdge eref) := by
  unfold State.egressEdge
  split
  · have noted := s.buildDue_allocatesNone.trans
      (s.buildDue.withEgress_allocatesNone { s.buildDue.egress with erefLevel := eref })
    dsimp only
    split
    · split
      · exact noted.trans (State.expectFrame_allocatesNone _ _)
      · exact noted.trans (State.driveNext_allocatesNone _)
    · exact noted.trans (State.searchReference_allocatesNone _ _)
  · exact .refl _

theorem State.egressEdges_allocatesNone (s : State) (levels : List Bool) : s.AllocatesNone (s.egressEdges levels) :=
  State.foldl_allocatesNone State.egressEdge_allocatesNone s levels

theorem State.loseEgressClock_allocatesNone (s : State) : s.AllocatesNone s.loseEgressClock := by
  unfold State.loseEgressClock
  split
  · have noted := s.buildDue_allocatesNone.trans
      (s.buildDue.withEgress_allocatesNone { s.buildDue.egress with erefLevel := false, candidate := none })
    dsimp only
    split
    · exact noted.trans (State.stopEgress_allocatesNone _)
    · exact noted
  · exact .refl _

/-! ## Commands other than CREATE -/

/-- SOFT_RESET frees every record and keeps every generation (R79). -/
theorem State.softReset_allocatesNone (s : State) : s.AllocatesNone s.softReset := by
  have record (r : RecIx) : s.softReset.sup.record r = (s.sup.record r).softReset := pick_mapTable _ _ _
  exact fun r => ⟨by rw [record]; rfl, fun _ => by rw [Supervision.live, record]; rfl⟩

theorem State.setBus_allocatesNone (s : State) (b : Bus) (enable : Bool) (sense : Sense) (scope : Scope) (threshold : Byte) :
    s.AllocatesNone (s.setBus b enable sense scope threshold) := by
  unfold State.setBus
  have written := s.setRx_sameBesideBus b { s.rx b with enable, sense, scope, threshold }
  dsimp only
  split
  · exact ((written.trans (State.setRx_sameBesideBus _ b _)).trans (State.postAlign_sameBesideBus _ b b)).allocatesNone
  · exact written.allocatesNone
  · exact written.allocatesNone
  · exact (written.trans (State.disableBus_sameBesideBus _ b)).allocatesNone

theorem State.clearGroup_table {s t : State} {group : Byte} (h : s.clearGroup group = some t) :
    t.sup.table = s.sup.table := by
  unfold State.clearGroup at h
  split_ifs at h <;> cases h <;> simp

theorem State.takeRefs_allocatesNone (s : State) (srcs : List Source) : s.AllocatesNone (s.takeRefs srcs) :=
  State.allocatesNone_of_sup (s.takeRefs_sup srcs)

theorem State.dropRefs_allocatesNone (s : State) (srcs : List Source) : s.AllocatesNone (s.dropRefs srcs) :=
  State.allocatesNone_of_sup (s.dropRefs_sup srcs)

theorem State.amendRecord_allocatesNone (s : State) (r : RecIx) (l : Live) (a : Amendment) :
    s.AllocatesNone (s.amendRecord r l a) := by
  have written := ((State.withSup_allocatesNone (s.sup.modLive_allocatesNone r fun x =>
    { x with fields := a.apply l.fields })).trans (State.takeRefs_allocatesNone _ a.taken)).trans
      (State.dropRefs_allocatesNone _ (a.droppedFrom l.fields))
  have cleared := written.trans (State.withSup_allocatesNone (Supervision.modSel_allocatesNone _ r fun x =>
    { x with request := x.request.withoutProtect }))
  unfold State.amendRecord
  dsimp only
  split <;> split
  · exact cleared.trans (State.evaluate_allocatesNone _ r)
  · exact written.trans (State.evaluate_allocatesNone _ r)
  · exact cleared
  · exact written

theorem State.cancelUpdate_allocatesNone (s : State) (r : RecIx) : s.AllocatesNone (s.cancelUpdate r) := by
  unfold State.cancelUpdate
  split
  · exact s.freeRecord_allocatesNone r
  · exact State.freeRecord_allocatesNone (s.removeUpdate _) r
  · exact State.freeRecord_allocatesNone (s.removeUpdate _) r
  · exact (State.goLive_allocatesNone (s.removeUpdate _) _).trans (State.freeRecord_allocatesNone _ r)

theorem State.retireRecord_allocatesNone (s : State) (r : RecIx) (l : Live) : s.AllocatesNone (s.retireRecord r l).1 := by
  unfold State.retireRecord
  split
  · exact s.freeRecord_allocatesNone r
  · exact s.cancelUpdate_allocatesNone r
  · exact (s.beginRetiring_allocatesNone r).trans (State.queueUpdate_allocatesNone _ _)
  · exact .refl _

theorem Supervision.endHold_allocatesNone (u : Supervision) (e : Entry) : u.AllocatesNone (u.endHold e) := by
  unfold Supervision.endHold
  split
  · split
    · exact u.setRecord_allocatesNone rfl fun h => h
    · exact .refl u
  · exact .refl u
  · exact .refl u

theorem State.requestRecord_allocatesNone (s : State) (r : RecIx) (kind : Request) :
    s.AllocatesNone (s.requestRecord r kind) :=
  (State.withSup_allocatesNone (s.sup.modSel_allocatesNone r _)).trans (State.evaluate_allocatesNone _ r)

theorem performIdent_state (params : List Byte) (s : State) : (performIdent params s).1 = s := by
  unfold performIdent
  split <;> rfl

theorem performBusRead_state (params : List Byte) (s : State) : (performBusRead params s).1 = s := by
  unfold performBusRead
  split
  · rfl
  · split <;> rfl

theorem performRecordRead_state (params : List Byte) (s : State) : (performRecordRead params s).1 = s := by
  unfold performRecordRead
  split
  · rfl
  · split <;> rfl

theorem performMapRead_state (params : List Byte) (s : State) : (performMapRead params s).1 = s := by
  unfold performMapRead
  dsimp only
  split
  · rfl
  · split <;> rfl

theorem performSourceRead_state (params : List Byte) (s : State) : (performSourceRead params s).1 = s := by
  unfold performSourceRead
  split
  · rfl
  · split <;> rfl

theorem performLinkRead_state (params : List Byte) (s : State) : (performLinkRead params s).1 = s := by
  unfold performLinkRead
  split <;> rfl

theorem performAlertSet_sup (params : List Byte) (s : State) : (performAlertSet params s).1.sup = s.sup := by
  unfold performAlertSet
  split
  · rfl
  · split <;> rfl

theorem performSoftReset_allocatesNone (params : List Byte) (s : State) : s.AllocatesNone (performSoftReset params s).1 := by
  unfold performSoftReset
  split
  · exact .refl s
  · exact s.softReset_allocatesNone

theorem performBusSet_allocatesNone (params : List Byte) (s : State) : s.AllocatesNone (performBusSet params s).1 := by
  unfold performBusSet
  split
  · exact .refl s
  · split
    · exact s.withEgress_allocatesNone _
    · split
      · exact .refl s
      · split
        · exact .refl s
        · exact s.setBus_allocatesNone _ _ _ _ _
    · exact .refl s

theorem performAmend_allocatesNone (params : List Byte) (s : State) : s.AllocatesNone (performAmend params s).1 := by
  unfold performAmend
  dsimp only
  split
  · exact .refl s
  · split
    · exact .refl s
    · split
      · exact .refl s
      · split
        · exact .refl s
        · split
          · exact .refl s
          · split
            · exact .refl s
            · exact s.amendRecord_allocatesNone _ _ _

theorem State.arm_allocatesNone (s : State) (r : RecIx) : s.AllocatesNone (s.arm r) :=
  State.withSup_allocatesNone (s.sup.modLive_allocatesNone r _)

theorem performActivate_allocatesNone (params : List Byte) (s : State) : s.AllocatesNone (performActivate params s).1 := by
  unfold performActivate
  split
  · exact .refl s
  · split
    · exact .refl s
    · split
      · exact .refl s
      · split
        · exact .refl s
        · exact (s.arm_allocatesNone _).trans (State.queueUpdate_allocatesNone _ _)

theorem performReplace_allocatesNone (params : List Byte) (s : State) : s.AllocatesNone (performReplace params s).1 := by
  unfold performReplace
  split
  · exact .refl s
  · split
    · exact .refl s
    · split
      · exact .refl s
      · split
        · exact .refl s
        · split
          · exact .refl s
          · split
            · exact .refl s
            · split
              · exact .refl s
              · exact ((s.beginRetiring_allocatesNone _).trans (State.arm_allocatesNone _ _)).trans
                  (State.queueUpdate_allocatesNone _ _)

theorem performRetire_allocatesNone (params : List Byte) (s : State) : s.AllocatesNone (performRetire params s).1 := by
  unfold performRetire
  split
  · exact .refl s
  · split
    · exact .refl s
    · exact s.retireRecord_allocatesNone _ _

theorem performRequest_allocatesNone (params : List Byte) (s : State) : s.AllocatesNone (performRequest params s).1 := by
  unfold performRequest
  split
  · exact .refl s
  · split
    · split
      · exact .refl s
      · split
        · exact .refl s
        · exact s.requestRecord_allocatesNone _ _
    · exact .refl s

/-- The hold that a fetched entry ends is no allocation: the index stays FREE (R67). -/
theorem performNoticeFetch_allocatesNone (params : List Byte) (s : State) :
    s.AllocatesNone (performNoticeFetch params s).1 := by
  unfold performNoticeFetch
  split
  · exact .refl s
  · split
    · exact .refl s
    · rename_i e rest _
      have removed : s.sup.AllocatesNone { s.sup with notices := rest } := Supervision.allocatesNone_of_table rfl
      exact State.withSup_allocatesNone (removed.trans (Supervision.endHold_allocatesNone _ e))

theorem performCountersClear_allocatesNone (params : List Byte) (s : State) :
    s.AllocatesNone (performCountersClear params s).1 := by
  unfold performCountersClear
  split
  · exact .refl s
  · split
    · exact .refl s
    · rename_i t h
      exact Supervision.allocatesNone_of_table (State.clearGroup_table h)

/-- No command but CREATE allocates an index (R51). -/
theorem perform_allocatesNone {c : Command} (hc : c ≠ .create) (params : List Byte) (s : State) :
    s.AllocatesNone (perform c params s).1 := by
  have unchanged {t : State} (h : t = s) : s.AllocatesNone t := h ▸ .refl s
  cases c with
  | ident => exact unchanged (performIdent_state params s)
  | softReset => exact performSoftReset_allocatesNone params s
  | busSet => exact performBusSet_allocatesNone params s
  | busRead => exact unchanged (performBusRead_state params s)
  | create => exact absurd rfl hc
  | amend => exact performAmend_allocatesNone params s
  | activate => exact performActivate_allocatesNone params s
  | replace => exact performReplace_allocatesNone params s
  | retire => exact performRetire_allocatesNone params s
  | request => exact performRequest_allocatesNone params s
  | recordRead => exact unchanged (performRecordRead_state params s)
  | mapRead => exact unchanged (performMapRead_state params s)
  | sourceRead => exact unchanged (performSourceRead_state params s)
  | noticeFetch => exact performNoticeFetch_allocatesNone params s
  | alertSet => exact State.allocatesNone_of_sup (performAlertSet_sup params s)
  | linkRead => exact unchanged (performLinkRead_state params s)
  | countersClear => exact performCountersClear_allocatesNone params s

/-! ## CREATE -/

/-- Index `r`, FREE and not held, is allocated: it takes the next generation, and is STAGED and not held (R51, R56). -/
structure Supervision.Allocates (u v : Supervision) (r : RecIx) : Prop where
  wasFree : u.live r = none
  wasNotHeld : (u.record r).held = false
  generation : (v.record r).generation = (u.record r).generation + 1
  notHeld : (v.record r).held = false
  staged : (v.live r).map (·.state) = some LiveState.staged

theorem Supervision.freeIndex_some {u : Supervision} {q : RecIx} (h : u.freeIndex = some q) :
    u.live q = none ∧ (u.record q).held = false := by
  simpa using List.find?_some h

/-- What changes selector parts alone after an allocation leaves it an allocation. -/
theorem Supervision.Allocates.of_sameRecords {u v w : Supervision} {r : RecIx} (h : u.Allocates v r)
    (h' : v.sameRecords w) : u.Allocates w r := by
  obtain ⟨generation, held, _⟩ := h' r
  obtain ⟨l, hl, hs⟩ := Option.map_eq_some_iff.1 h.staged
  obtain ⟨x, hx⟩ := Supervision.sameRecords_live h' hl
  exact
    { wasFree := h.wasFree
      wasNotHeld := h.wasNotHeld
      generation := generation.trans h.generation
      notHeld := held.trans h.notHeld
      staged := by rw [hx]; exact congrArg some hs }

/-- The record an accepted CREATE writes over `x` (R56). -/
def Record.allocated (x : Record) (f : Fields) : Record where
  generation := x.generation + 1
  held := false
  live := some { state := .staged, fields := f, sel := Selector.initial }

/-- An accepted CREATE leaves that record, its selector part evaluated, and every other record but for selector parts. -/
theorem State.createAt_sameRecords (s : State) (q : RecIx) (f : Fields) :
    (s.sup.setRecord q ((s.sup.record q).allocated f)).sameRecords (s.createAt q f).sup := by
  have evaluated := (State.evaluateBy_supervises
    ({ s with sup := s.sup.setRecord q ((s.sup.record q).allocated f) }.takeRefs f.sources) false q).records
  rwa [State.takeRefs_sup] at evaluated

/-- An accepted CREATE allocates its index and no other (R56). -/
theorem State.createAt_cases {s : State} {q : RecIx} (free : s.sup.live q = none)
    (notHeld : (s.sup.record q).held = false) (f : Fields) (r : RecIx) :
    s.sup.KeepsIndex (s.createAt q f).sup r ∨ s.sup.Allocates (s.createAt q f).sup r := by
  by_cases h : r = q
  · subst h
    refine .inr (Supervision.Allocates.of_sameRecords ?_ (s.createAt_sameRecords r f))
    exact
      { wasFree := free
        wasNotHeld := notHeld
        generation := by rw [Supervision.setRecord_same]; rfl
        notHeld := by rw [Supervision.setRecord_same]; rfl
        staged := by rw [Supervision.live, Supervision.setRecord_same]; rfl }
  · have same := s.sup.setRecord_ne ((s.sup.record q).allocated f) (Ne.symm h)
    obtain ⟨generation, kept⟩ := (s.createAt_sameRecords q f).allocatesNone r
    exact .inl ⟨by rw [generation, same], fun hr => kept (by rw [Supervision.live, same]; exact hr)⟩

/-- A CREATE allocates an index or leaves it as it was; a refused one leaves every index (R54 to R56). -/
theorem performCreate_cases (params : List Byte) (s : State) (r : RecIx) :
    s.sup.KeepsIndex (performCreate params s).1.sup r ∨ s.sup.Allocates (performCreate params s).1.sup r := by
  have refused : s.sup.KeepsIndex s.sup r := State.AllocatesNone.refl s r
  unfold performCreate
  split
  · exact .inl refused
  · split
    · exact .inl refused
    · split
      · exact .inl refused
      · rename_i hq
        obtain ⟨free, notHeld⟩ := Supervision.freeIndex_some hq
        exact State.createAt_cases free notHeld _ r

/-- What performing a command can do to an index (R51). -/
theorem perform_cases (c : Command) (params : List Byte) (s : State) (r : RecIx) :
    s.sup.KeepsIndex (perform c params s).1.sup r ∨ c = .create ∧ s.sup.Allocates (perform c params s).1.sup r := by
  by_cases hc : c = .create
  · subst hc
    exact (performCreate_cases params s r).imp_right fun h => ⟨rfl, h⟩
  · exact .inl (perform_allocatesNone hc params s r)

/-! ## Transfers and rows -/

/-- A transfer begun in IDLE allocates an index only where its bytes are a good CREATE frame. -/
theorem State.commandTransfer_cases (s : State) (bytes : List Byte) (edges : Nat) (early : List (List Bool)) (r : RecIx) :
    s.sup.KeepsIndex (s.commandTransfer bytes edges early).sup r ∨
      (∃ params, checkCommandFrame bytes = .ok (.create, params)) ∧
        s.sup.Allocates (s.commandTransfer bytes edges early).sup r := by
  have unchanged : s.sup.KeepsIndex s.sup r := State.AllocatesNone.refl s r
  unfold State.commandTransfer
  dsimp only
  split
  · exact .inl unchanged
  · split
    · exact .inl unchanged
    · rename_i c params hframe
      have performed := perform_cases c params
        { s with link := Link.refuseMany early (s.link.collect bytes edges).execute } r
      exact performed.imp_right fun ⟨hc, allocated⟩ => ⟨⟨params, hc ▸ hframe⟩, allocated⟩

/-- A transfer allocates an index only in IDLE, out of reset, by a good CREATE frame (R177, R183). -/
theorem State.transfer_cases (s : State) (bytes : List Byte) (edges : Nat) (early : List (List Bool)) (holdRunsOut : Bool)
    (r : RecIx) :
    s.sup.KeepsIndex (s.transfer bytes edges early holdRunsOut).sup r ∨
      s.ready ∧ (∃ params, checkCommandFrame bytes = .ok (.create, params)) ∧
        s.sup.Allocates (s.transfer bytes edges early holdRunsOut).sup r := by
  have unchanged : s.sup.KeepsIndex s.sup r := State.AllocatesNone.refl s r
  unfold State.transfer
  split
  · rename_i hreset
    split
    · rename_i hidle
      exact (s.commandTransfer_cases bytes edges early r).imp_right fun h => ⟨⟨hreset, hidle⟩, h⟩
    · exact .inl unchanged
    · exact .inl unchanged
    · exact .inl unchanged
  · exact .inl unchanged

/-- A row that carries bytes on MDI is one transfer of them. -/
theorem exec_eq_transfer {i : Instr} {bytes : List Byte} (h : transferredBy i = some bytes) (s : State) :
    ∃ edges early holdRunsOut, exec i s = .next (s.transfer bytes edges early holdRunsOut) := by
  cases i <;> cases h <;> exact ⟨_, _, _, rfl⟩

theorem State.expireHold_allocatesNone (s : State) : s.AllocatesNone s.expireHold :=
  State.allocatesNone_of_sup s.expireHold_sup

/-- A row that is no transfer, other than HARD_RESET, allocates no index. -/
theorem exec_allocatesNone {i : Instr} (h : transferredBy i = none) (hi : i ≠ .hardReset) {s t : State}
    (ht : exec i s = .next t) : s.AllocatesNone t := by
  cases i with
  | hardReset => exact absurd rfl hi
  | resetRelease => cases ht; exact .refl s
  | clockLoss b => cases ht; exact (s.loseClock_sameBesideBus b).allocatesNone
  | clockReturn b w => cases ht; exact (s.takeWord_sameBesideBus b w).allocatesNone
  | alignConfirm b w => cases ht; exact (s.takeWord_sameBesideBus b w).allocatesNone
  | slotFrameComplete b ws => cases ht; exact (s.takeWords_sameBesideBus b ws).allocatesNone
  | frameCheck b w => cases ht; exact (s.takeWord_sameBesideBus b w).allocatesNone
  | egressClockLoss => cases ht; exact s.loseEgressClock_allocatesNone
  | egressRunning eref => cases ht; exact s.egressEdge_allocatesNone eref
  | expectedFrameStart eref => cases ht; exact s.egressEdge_allocatesNone eref
  | egressSlotBuild levels =>
    cases ht
    exact (s.egressEdges_allocatesNone levels).trans (State.buildDue_allocatesNone _)
  | timerExpiry k => cases ht; exact State.ticks_allocatesNone _ s
  | holdTimeExpiry => cases ht; exact s.expireHold_allocatesNone
  | frameStartCandidate b ws => cases ht; exact (s.takeWords_sameBesideBus b ws).allocatesNone
  | referenceCandidate levels => cases ht; exact s.egressEdges_allocatesNone levels
  | executionComplete => cases ht; exact .refl s
  | _ => cases h

/-- What a row other than HARD_RESET can do to an index (R51). -/
theorem exec_index_cases {s t : State} {i : Instr} (hi : i ≠ .hardReset) (ht : exec i s = .next t) (r : RecIx) :
    s.sup.KeepsIndex t.sup r ∨
      s.ready ∧ (∃ bytes params, transferredBy i = some bytes ∧ checkCommandFrame bytes = .ok (.create, params)) ∧
        s.sup.Allocates t.sup r := by
  cases hb : transferredBy i with
  | none => exact .inl (exec_allocatesNone hb hi ht r)
  | some bytes =>
    obtain ⟨edges, early, holdRunsOut, hx⟩ := exec_eq_transfer hb s
    cases hx.symm.trans ht
    exact (s.transfer_cases bytes edges early holdRunsOut r).imp_right
      fun ⟨ready, ⟨params, frame⟩, allocated⟩ => ⟨ready, ⟨bytes, params, rfl, frame⟩, allocated⟩

/-- After HARD_RESET every generation is 0 (R51, R77). -/
theorem State.hardReset_generation (s : State) (r : RecIx) : (s.hardReset.sup.record r).generation = 0 := by
  have record : s.hardReset.sup.record r = Record.reset := pick_replicate _ _
  rw [record]
  rfl

/-- Settles O12: a step keeps an index, or is the transfer of a good CREATE frame that allocates it. -/
theorem generationAdvancesOnlyAtAllocation : Obligations.GenerationAdvancesOnlyAtAllocation := by
  refine ⟨fun s => ⟨s.hardReset, rfl, s.hardReset_generation⟩, fun s t i r hi ht => ?_⟩
  rcases exec_index_cases hi ht r with ⟨kept, free⟩ | ⟨ready, frame, allocated⟩
  · have notAllocated : s.sup.live r = none → ¬(t.sup.live r).isSome := fun h => by simp [free h]
    rw [if_neg fun h => notAllocated h.1 h.2]
    exact ⟨kept, fun h hl => absurd hl (notAllocated h)⟩
  · have live : (t.sup.live r).isSome := by simpa using congrArg Option.isSome allocated.staged
    rw [if_pos ⟨allocated.wasFree, live⟩]
    exact ⟨allocated.generation, fun _ _ => ⟨ready, frame, allocated.wasNotHeld, allocated.notHeld, allocated.staged⟩⟩

end Sys2Proof.Machine
end

section
/-! SUPPORT. R100 and R101: when each cause is present, and the condition and merit that follow. -/
namespace Sys2Proof.Machine

/-! ## The causes of a source (R100) -/

theorem deriveCauses_bus_iff (f : Fields) (bus : BusState) (m : Monitor) :
    (deriveCauses f bus m).bus = true ↔ bus ≠ .aligned := bne_iff_ne

theorem deriveCauses_fill_iff (f : Fields) (bus : BusState) (m : Monitor) :
    (deriveCauses f bus m).fill = true ↔ m.filled = true := Iff.rfl

theorem deriveCauses_unframed_iff (f : Fields) (bus : BusState) (m : Monitor) :
    (deriveCauses f bus m).unframed = true ↔ m.framed = false := Iff.of_eq (Bool.not_eq_true' _)

theorem deriveCauses_noCode_iff (f : Fields) (bus : BusState) (m : Monitor) :
    (deriveCauses f bus m).noCode = true ↔ m.code = none := Option.isNone_iff_eq_none

theorem deriveCauses_unequipped_iff (f : Fields) (bus : BusState) (m : Monitor) :
    (deriveCauses f bus m).unequipped = true ↔ m.code = some 0 := beq_iff_eq

/-- CODE needs the check, an accepted code and a difference: without the check or the code it is absent. -/
theorem deriveCauses_code_iff (f : Fields) (bus : BusState) (m : Monitor) :
    (deriveCauses f bus m).code = true ↔
      ∃ want found, f.expectedCode = some want ∧ m.code = some found ∧ found ≠ want := by
  unfold deriveCauses
  cases f.expectedCode with
  | none => simp
  | some want =>
    cases m.code with
    | none => simp
    | some found => simp

/-- NAME needs the check alone: no accepted name differs from every expected one. -/
theorem deriveCauses_name_iff (f : Fields) (bus : BusState) (m : Monitor) :
    (deriveCauses f bus m).name = true ↔ ∃ want, f.expectedName = some want ∧ m.name ≠ some want := by
  unfold deriveCauses
  cases f.expectedName with
  | none => simp
  | some want => simp

/-! ## The condition and the merit that follow (R101) -/

theorem Causes.any_eq_false_iff (c : Causes) :
    c.any = false ↔ c = ⟨false, false, false, false, false, false, false⟩ := by
  obtain ⟨bus, fill, unframed, noCode, unequipped, code, name⟩ := c
  simp [Causes.any, and_assoc]

theorem Causes.any_eq_true_iff (c : Causes) :
    c.any = true ↔ c ≠ ⟨false, false, false, false, false, false, false⟩ := by
  rw [ne_eq, ← c.any_eq_false_iff, Bool.not_eq_false]

/-- The rows of R101, which exclude each other. -/
theorem conditionOf_cases (c : Causes) (degraded : Bool) :
    (c.any = true ∧ conditionOf c degraded = .failed) ∨
      (c.any = false ∧ degraded = true ∧ conditionOf c degraded = .degraded) ∨
      (c.any = false ∧ degraded = false ∧ conditionOf c degraded = .good) := by
  unfold conditionOf
  cases c.any with
  | true => exact .inl ⟨rfl, rfl⟩
  | false =>
    cases degraded with
    | true => exact .inr (.inl ⟨rfl, rfl, rfl⟩)
    | false => exact .inr (.inr ⟨rfl, rfl, rfl⟩)

theorem conditionOf_eq_failed_iff (c : Causes) (degraded : Bool) :
    conditionOf c degraded = .failed ↔ c.any = true := by
  obtain ⟨any, row⟩ | ⟨any, -, row⟩ | ⟨any, -, row⟩ := conditionOf_cases c degraded <;> simp [any, row]

theorem conditionOf_eq_degraded_iff (c : Causes) (degraded : Bool) :
    conditionOf c degraded = .degraded ↔ c.any = false ∧ degraded = true := by
  obtain ⟨any, row⟩ | ⟨any, state, row⟩ | ⟨any, state, row⟩ := conditionOf_cases c degraded <;> rw [row] <;> simp [*]

theorem conditionOf_eq_good_iff (c : Causes) (degraded : Bool) :
    conditionOf c degraded = .good ↔ c.any = false ∧ degraded = false := by
  obtain ⟨any, row⟩ | ⟨any, state, row⟩ | ⟨any, state, row⟩ := conditionOf_cases c degraded <;> rw [row] <;> simp [*]

@[simp] theorem meritOf_none (switch : Bool) : meritOf switch none = -1 := rfl

@[simp] theorem meritOf_failed (switch : Bool) (c : Causes) : meritOf switch (some ⟨.failed, c⟩) = 0 := rfl

@[simp] theorem meritOf_degraded (switch : Bool) (c : Causes) :
    meritOf switch (some ⟨.degraded, c⟩) = if switch then 1 else 2 := rfl

@[simp] theorem meritOf_good (switch : Bool) (c : Causes) : meritOf switch (some ⟨.good, c⟩) = 2 := rfl

/-! ## The judgement of a source -/

/-- The condition follows from the causes judged and the monitor's degrade state (R101). -/
theorem State.judge_condition (s : State) (f : Fields) (src : Source) :
    (s.judge f src).condition = conditionOf (s.judge f src).causes (s.monitor src).degraded := rfl

/-- Settles O31: each cause from its own lemma, the condition from the causes, and the merit from the condition. -/
theorem sourceIsJudged : Obligations.SourceIsJudged := by
  refine ⟨fun s f src => ?_, fun switch c =>
    ⟨meritOf_failed switch c, meritOf_degraded switch c, meritOf_good switch c, meritOf_none switch⟩⟩
  refine ⟨?bus, ?fill, ?unframed, ?noCode, ?unequipped, ?code, ?name, ?failed, ?degraded, ?good⟩
  case bus => exact deriveCauses_bus_iff ..
  case fill => exact deriveCauses_fill_iff ..
  case unframed => exact deriveCauses_unframed_iff ..
  case noCode => exact deriveCauses_noCode_iff ..
  case unequipped => exact deriveCauses_unequipped_iff ..
  case code => exact deriveCauses_code_iff ..
  case name => exact deriveCauses_name_iff ..
  case failed => rw [← Causes.any_eq_true_iff, s.judge_condition, conditionOf_eq_failed_iff]
  case degraded => rw [← Causes.any_eq_false_iff, s.judge_condition, conditionOf_eq_degraded_iff]
  case good => rw [← Causes.any_eq_false_iff, s.judge_condition, conditionOf_eq_good_iff]

end Sys2Proof.Machine
end

section
/-! SUPPORT. R163, R164: what a posting makes of the queue, and how long a queue with one entry a subject can be. -/
namespace Sys2Proof.Machine

/-! ## How many subjects there are (R162) -/

/-- Every subject a notice can have: the 64 indexes, the two ingress buses, the egress side. -/
def everySubject : List Subject := (List.finRange 64).map Subject.record ++ [.bus .A, .bus .B, .egress]

theorem mem_everySubject (x : Subject) : x ∈ everySubject := by
  cases x with
  | record r => exact List.mem_append_left _ (List.mem_map_of_mem (List.mem_finRange r))
  | bus b => exact List.mem_append_right _ (by cases b <;> simp)
  | egress => exact List.mem_append_right _ (by simp)

theorem everySubject_length : everySubject.length = 67 := by simp [everySubject]

/-- A queue with at most one entry a subject is no longer than the list of all subjects (R164). -/
theorem notices_length_le {xs : List Entry} (h : (xs.map (·.subject)).Nodup) : xs.length ≤ 67 := by
  have once : (xs.map (·.subject)).Subperm everySubject := h.subperm fun x _ => mem_everySubject x
  simpa [everySubject_length] using once.length_le

/-! ## A posting for a queued subject (R163) -/

/-- A kind is added to the entries of one subject. -/
def addKind (x : Subject) (k : Kind) (e : Entry) : Entry :=
  if e.subject = x then { e with kinds := e.kinds ||| k.bit } else e

theorem addKind_of_eq {x : Subject} {k : Kind} {e : Entry} (h : e.subject = x) :
    addKind x k e = { e with kinds := e.kinds ||| k.bit } := if_pos h

theorem addKind_of_ne {x : Subject} {k : Kind} {e : Entry} (h : e.subject ≠ x) : addKind x k e = e := if_neg h

theorem map_addKind_of_ne {x : Subject} {k : Kind} {xs : List Entry} (h : ∀ e ∈ xs, e.subject ≠ x) :
    xs.map (addKind x k) = xs :=
  (List.map_congr_left fun e he => addKind_of_ne (h e he)).trans (List.map_id xs)

/-- Where a subject has one entry, a posting for it adds its kind to that entry and moves none. -/
theorem addNotice_queued {x : Subject} {g : Option Byte} {k : Kind} {xs : List Entry}
    (once : (xs.map (·.subject)).Nodup) (queued : ∃ e ∈ xs, e.subject = x) :
    addNotice x g k xs = xs.map (addKind x k) := by
  induction xs with
  | nil => simp at queued
  | cons y ys ih =>
    obtain ⟨alone, once⟩ := List.nodup_cons.1 once
    by_cases hy : y.subject = x
    · have others : ∀ e ∈ ys, e.subject ≠ x := fun e he hx =>
        alone (List.mem_map.2 ⟨e, he, hx.trans hy.symm⟩)
      rw [addNotice, if_pos hy, List.map_cons, addKind_of_eq hy, map_addKind_of_ne others]
    · have later : ∃ e ∈ ys, e.subject = x := by simpa [hy] using queued
      rw [addNotice, if_neg hy, List.map_cons, addKind_of_ne hy, ih once later]

/-- Settles O49: the two forms of a posting, and the bound from one entry a subject. -/
theorem queueTakesPostings : Obligations.QueueTakesPostings := by
  refine ⟨fun u law => notices_length_le law.oneEach, fun xs x g k once => ?_⟩
  have kept : ((addNotice x g k xs).map (·.subject)).Nodup := addNotice_nodup once
  exact ⟨addNotice_new, addNotice_queued once, kept, notices_length_le kept⟩

end Sys2Proof.Machine
end

section
/-! SUPPORT. R167 to R171: what NOTICE_FETCH answers for each kind of entry, and what it leaves. -/
namespace Sys2Proof.Machine

/-! ## The hold on an index (R170) -/

@[simp] theorem Supervision.endHold_bus (u : Supervision) (b : Bus) (g : Option Byte) (kinds : Byte) :
    u.endHold ⟨.bus b, g, kinds⟩ = u := rfl

@[simp] theorem Supervision.endHold_egress (u : Supervision) (g : Option Byte) (kinds : Byte) :
    u.endHold ⟨.egress, g, kinds⟩ = u := rfl

theorem Supervision.endHold_notRetired (u : Supervision) (r : RecIx) (g : Option Byte) {kinds : Byte}
    (h : hasKind kinds .retired = false) : u.endHold ⟨.record r, g, kinds⟩ = u := by
  simp [Supervision.endHold, h]

theorem Supervision.endHold_retired (u : Supervision) (r : RecIx) (g : Option Byte) {kinds : Byte}
    (h : hasKind kinds .retired = true) :
    u.endHold ⟨.record r, g, kinds⟩ = u.setRecord r { u.record r with held := false } := by
  simp [Supervision.endHold, h]

/-! ## Snapshots (R168, R201) -/

@[simp] theorem State.snapshot_bus (s : State) (b : Bus) (g : Option Byte) (kinds : Byte) :
    s.snapshot ⟨.bus b, g, kinds⟩ = [(s.rx b).state.byte] := rfl

@[simp] theorem State.snapshot_egress (s : State) (g : Option Byte) (kinds : Byte) :
    s.snapshot ⟨.egress, g, kinds⟩ = [byteOfBool s.egress.running] := rfl

theorem State.snapshot_live {s : State} {r : RecIx} {l : Live} (g : Option Byte) {kinds : Byte}
    (h : hasKind kinds .retired = false) (hl : s.sup.live r = some l) :
    s.snapshot ⟨.record r, g, kinds⟩ =
      [l.state.byte, l.sel.selected.byte, l.sel.request.byte] ++ judgementBytes l.sel.w ++ judgementBytes l.sel.p := by
  simp [State.snapshot, h, hl]

theorem State.snapshot_retired (s : State) (r : RecIx) (g : Option Byte) {kinds : Byte}
    (h : hasKind kinds .retired = true) : s.snapshot ⟨.record r, g, kinds⟩ = [0] := by
  simp [State.snapshot, h]

/-- The subject byte of a bus is its selector behind 0x40 (R201). -/
theorem Subject.byte_bus (b : Bus) : (Subject.bus b).byte = 0x40 ||| busSelector b := by cases b <;> rfl

/-! ## The command -/

theorem performNoticeFetch_empty {s : State} (h : s.sup.notices = []) :
    performNoticeFetch [] s = (s, ⟨.queueEmpty, []⟩) := by
  simp [performNoticeFetch, h, State.refuseWith]

/-- The results of fetching `e` with `left` entries behind it: subject, generation, kinds, entries left, snapshot. -/
def State.fetched (s : State) (e : Entry) (left : Nat) : List Byte :=
  [e.subject.byte] ++ e.generation.toList ++ [e.kinds, byteOfNat left] ++ s.snapshot e

/-- What fetching the head entry `e` leaves, `rest` having stood behind it. -/
def State.afterFetch (s : State) (e : Entry) (rest : List Entry) : State :=
  { s with sup := { s.sup with notices := rest }.endHold e }

theorem performNoticeFetch_head {s : State} {e : Entry} {rest : List Entry} (h : s.sup.notices = e :: rest) :
    performNoticeFetch [] s = (s.afterFetch e rest, ⟨.ok, s.fetched e rest.length⟩) := by
  simp [performNoticeFetch, h, State.afterFetch, State.fetched]

theorem exec_noticeFetch (params : List Byte) (s : State) :
    exec (.noticeFetch params) s = .next (s.send .noticeFetch params []) := rfl

theorem exec_noticeFetch_empty {s : State} (ready : s.ready) (h : s.sup.notices = []) :
    exec (.noticeFetch []) s = .next (s.answer .noticeFetch [] ⟨.queueEmpty, []⟩) := by
  rw [exec_noticeFetch]
  exact congrArg _ (State.send_answer ready (Nat.zero_le _) (performNoticeFetch_empty h) rfl)

theorem exec_noticeFetch_head {s : State} {e : Entry} {rest : List Entry} (ready : s.ready)
    (h : s.sup.notices = e :: rest) :
    exec (.noticeFetch []) s =
      .next ((s.afterFetch e rest).answer .noticeFetch [] ⟨.ok, s.fetched e rest.length⟩) := by
  rw [exec_noticeFetch]
  exact congrArg _ (State.send_answer ready (Nat.zero_le _) (performNoticeFetch_head h) rfl)

/-- Settles O50: the head entry by its subject, each with its snapshot; only an entry carrying RETIRED ends a hold. -/
theorem noticeFetchTakesHead : Obligations.NoticeFetchTakesHead := by
  refine fun s ready => ⟨exec_noticeFetch_empty ready, ?_⟩
  rintro ⟨subject, generation, kinds⟩ rest queue
  rw [exec_noticeFetch_head ready queue, State.afterFetch, State.fetched]
  refine ⟨?bus, ?egress, ?live, ?retired⟩
  case bus =>
    rintro b rfl rfl
    rw [Supervision.endHold_bus, State.snapshot_bus, Subject.byte_bus]
    rfl
  case egress =>
    rintro rfl rfl
    rw [Supervision.endHold_egress, State.snapshot_egress]
    rfl
  case live =>
    rintro r g l rfl rfl notRetired live
    rw [Supervision.endHold_notRetired _ _ _ notRetired, State.snapshot_live _ notRetired live]
    rfl
  case retired =>
    rintro r g rfl rfl retired
    rw [Supervision.endHold_retired _ _ _ retired, State.snapshot_retired _ _ _ retired]
    exact ⟨_, rfl, rfl, Supervision.setRecord_same _ _ _, fun q hq => Supervision.setRecord_ne _ _ hq.symm, rfl, rfl⟩

end Sys2Proof.Machine
end

section
/-! SUPPORT. R180: the register of the check byte shift by shift, and the frames that end with it. -/
namespace Sys2Proof.Machine

/-! ## The shifts of the register -/

/-- The polynomial step of R180: the bit shifted out decides whether the register is combined with 0x07. -/
theorem crcShift_eq (r : Byte) : crcShift r = (r <<< 1) ^^^ (if r.getLsbD 7 then 0x07 else 0) := by
  have shiftedOut : r.msb = r.getLsbD 7 := BitVec.msb_eq_getLsbD_last r
  rw [crcShift, shiftedOut]
  split
  · rfl
  · exact (BitVec.xor_zero).symm

theorem crcShifts_succ (k : Nat) (r : Byte) : crcShifts (k + 1) r = crcShift (crcShifts k r) := by
  induction k generalizing r with
  | zero => rfl
  | succ k ih => exact ih (crcShift r)

theorem crcShifts_eq_repeat (k : Nat) (r : Byte) : crcShifts k r = Nat.repeat crcShift k r := by
  induction k with
  | zero => rfl
  | succ k ih => rw [crcShifts_succ, ih, Nat.repeat]

theorem crcShifts_zero (k : Nat) : crcShifts k 0 = 0 := by
  induction k with
  | zero => rfl
  | succ k ih =>
    have shiftZero : crcShift 0 = 0 := rfl
    rw [crcShifts_succ, ih, shiftZero]

/-! ## The register of bytes -/

/-- One byte more, with the polynomial step written out. -/
theorem crc_snoc_eq_repeat (bytes : List Byte) (b : Byte) :
    crc (bytes ++ [b]) =
      Nat.repeat (fun r : Byte => (r <<< 1) ^^^ (if r.getLsbD 7 then 0x07 else 0)) 8 (crc bytes ^^^ b) := by
  rw [crc_snoc, crcByte, crcShifts_eq_repeat, funext crcShift_eq]

/-- The residue: the check byte cancels the register, and shifts of 0 stay 0. -/
theorem crc_snoc_crc (bytes : List Byte) : crc (bytes ++ [crc bytes]) = 0 := by
  rw [crc_snoc, crcByte, BitVec.xor_self]
  exact crcShifts_zero 8

/-! ## The frames -/

/-- The register after each byte of the three frames worked through in R180. -/
theorem crc_workedFrames :
    (crc [0x01] = 0x07 ∧ crc [0x01, 0x00] = 0x15) ∧ (crc [0x20] = 0xE0 ∧ crc [0x20, 0x00] = 0xAE) ∧
      crc [0x8B] = 0xB8 ∧ crc [0x8B, 0x00] = 0x21 := by decide

theorem commandFrame_eq (c : Command) (params : List Byte) :
    commandFrame c params =
      [c.code, byteOfNat params.length] ++ params ++ [crc ([c.code, byteOfNat params.length] ++ params)] := rfl

/-- The status byte is the status code with COLLIDED in its top bit (R185). -/
theorem responseFrame_eq (collided : Bool) (reply : Reply) {status : Byte}
    (h : status = reply.status.code ||| (if collided then 0x80 else 0)) :
    responseFrame collided reply =
      [status, byteOfNat reply.results.length] ++ reply.results
        ++ [crc ([status, byteOfNat reply.results.length] ++ reply.results)] := by
  rw [h]
  rfl

/-- Settles O58: the register shift by shift, the frames worked through, the residue, and the two kinds of frame. -/
theorem checkByteIsTheCrc : Obligations.CheckByteIsTheCrc := by
  obtain ⟨⟨ident, identFrame⟩, ⟨fetch, fetchFrame⟩, collided, collidedFrame⟩ := crc_workedFrames
  exact ⟨rfl, crc_snoc_eq_repeat, ident, identFrame, fetch, fetchFrame, collided, collidedFrame, crc_snoc_crc,
    commandFrame_eq, fun collided reply => ⟨_, responseFrame_eq collided reply rfl⟩⟩

end Sys2Proof.Machine
end

section
/-! SUPPORT. R183, R194: a command row is the transfer of its frame, and the link holds the reply its block gives. -/
namespace Sys2Proof.Machine

/-- A command row is the transfer of that command's frame. -/
theorem exec_eq_send {i : Instr} {c : Command} {params : List Byte} {early : List (List Bool)}
    (h : commandOf i = some (c, params, early)) (s : State) : exec i s = .next (s.send c params early) := by
  cases i <;> cases h <;> rfl

/-- The link as it stands when a reply is recorded, with the transfers refused before. -/
theorem Link.performing_refused (l : Link) (c : Command) (params : List Byte) (early : List (List Bool))
    (reply : Reply) :
    { l.performing c params early with result := some reply } =
      (l.taken (commandFrame c params) reply).refused early := by
  simp [Link.performing, Link.taken, Link.refused, commandFrame_length]

section
variable {s t : State} {i : Instr} {c : Command} {params : List Byte} {early : List (List Bool)} {reply : Reply}

/-- What a command row comes to, by what its block makes of the state whose link performs it. -/
theorem exec_performed (ready : s.ready) (row : commandOf i = some (c, params, early)) (fits : params.length ≤ 60)
    (performed : perform c params { s with link := s.link.performing c params early } = (t, reply)) :
    exec i s = .next { t with link := { t.link with result := some reply } } := by
  rw [exec_eq_send row, State.send_ready ready c fits, performed]

/-- A command row whose block leaves the link alone. -/
theorem exec_performed_keepsLink (ready : s.ready) (row : commandOf i = some (c, params, early))
    (fits : params.length ≤ 60)
    (performed : ∀ l, perform c params { s with link := l } = ({ t with link := l }, reply)) :
    exec i s = .next { t with link := (s.link.taken (commandFrame c params) reply).refused early } := by
  rw [exec_performed ready row fits (performed _), ← Link.performing_refused]

/-- A command row with no transfer refused before, whose block leaves the link alone, answers its reply. -/
theorem exec_answer (ready : s.ready) (row : commandOf i = some (c, params, [])) (fits : params.length ≤ 60)
    (performed : ∀ l, perform c params { s with link := l } = ({ t with link := l }, reply)) (link : t.link = s.link) :
    exec i s = .next (t.answer c params reply) := by
  rw [exec_performed_keepsLink ready row fits performed, Link.refused_nil, ← link]
  rfl

/-- A command row refused by its block changes nothing beside the link (R194). -/
theorem exec_answer_refused (ready : s.ready) (row : commandOf i = some (c, params, [])) (fits : params.length ≤ 60)
    {status : Status} (refused : ∀ u : State, perform c params u = u.refuseWith status) :
    exec i s = .next (s.answer c params ⟨status, []⟩) :=
  exec_answer ready row fits (fun _ => refused _) rfl

end

end Sys2Proof.Machine
end

section
/-! SUPPORT. R195, R196: IDENT and SOFT_RESET, what each answers, and what SOFT_RESET clears and keeps. -/
namespace Sys2Proof.Machine

/-! ## IDENT -/

theorem performIdent_nil (s : State) : performIdent [] s = (s, ⟨.ok, [0x48, 0x30, 0x01]⟩) := rfl

theorem performIdent_params {params : List Byte} (h : params ≠ []) (s : State) :
    performIdent params s = s.refuseWith .badLength := if_pos h

/-- Settles O14: without parameters the three bytes, with parameters the refusal. -/
theorem identAnswers : Obligations.IdentAnswers := fun _ ready =>
  ⟨exec_answer ready rfl (Nat.zero_le _) (fun _ => performIdent_nil _) rfl,
    fun _ given fits => exec_answer_refused ready rfl fits (performIdent_params given)⟩

/-! ## SOFT_RESET -/

theorem performSoftReset_nil (s : State) : performSoftReset [] s = (s.softReset, ⟨.ok, []⟩) := rfl

theorem performSoftReset_params {params : List Byte} (h : params ≠ []) (s : State) :
    performSoftReset params s = s.refuseWith .badLength := if_pos h

theorem State.softReset_withLink (s : State) (l : Link) :
    { s with link := l }.softReset = { s.softReset with link := l } := rfl

@[simp] theorem State.softReset_record (s : State) (r : RecIx) :
    s.softReset.sup.record r = (s.sup.record r).softReset := pick_mapTable _ _ _

@[simp] theorem State.softReset_live (s : State) (r : RecIx) : s.softReset.sup.live r = none := by
  rw [Supervision.live, State.softReset_record]
  rfl

@[simp] theorem State.softReset_owner (s : State) (n : SlotIx) : pick s.softReset.owner n = none := pick_replicate _ _

@[simp] theorem State.softReset_timers (s : State) (k : TimerIx) : pick s.softReset.sup.pool.timers k = none :=
  pick_replicate _ _

@[simp] theorem State.softReset_monitor (s : State) (src : Source) : s.softReset.monitor src = Monitor.clean 0 := by
  obtain ⟨b, n⟩ := src
  cases b with
  | A => exact pick_replicate _ _
  | B => exact pick_replicate _ _

@[simp] theorem State.softReset_rx (s : State) (b : Bus) : s.softReset.rx b = s.rx b := by cases b <;> rfl

/-- The queue is empty, so nALERT is high whatever the alert enable is (R173). -/
@[simp] theorem State.softReset_nALERTLow (s : State) : s.softReset.nALERTLow = false := rfl

theorem exec_softReset_nil {s : State} (ready : s.ready) :
    exec (.softReset []) s = .next (s.softReset.answer .softReset [] ⟨.ok, []⟩) := by
  have performed (l : Link) :
      perform .softReset [] { s with link := l } = ({ s.softReset with link := l }, ⟨.ok, []⟩) := by
    rw [← s.softReset_withLink l]
    exact performSoftReset_nil _
  exact exec_answer ready rfl (Nat.zero_le _) performed rfl

/-- Settles O5: the table, map, pool, monitors and queue of the cleared state field by field in that order, the other
blocks as they were, and the refusal with parameters. -/
theorem softResetClears : Obligations.SoftResetClears := by
  refine fun s ready => ⟨⟨s.softReset, exec_softReset_nil ready, ?records,
    s.softReset_owner, rfl,
    s.softReset_timers, rfl, rfl, rfl,
    s.softReset_monitor,
    rfl, s.softReset_nALERTLow, rfl,
    s.softReset_rx, rfl, rfl, rfl, rfl, rfl⟩, ?refused⟩
  case records =>
    intro r
    rw [State.softReset_record]
    exact ⟨s.softReset_live r, rfl, rfl⟩
  case refused => exact fun _ given fits => exec_answer_refused ready rfl fits (performSoftReset_params given)

end Sys2Proof.Machine
end

section
/-! SUPPORT. R199: the groups of COUNTERS_CLEAR one by one. -/
namespace Sys2Proof.Machine

/-! ## The groups -/

theorem State.clearGroup_bus (s : State) (b : Bus) :
    s.clearGroup (busSelector b) = some (s.setRx b (s.rx b).clearCounters) := by cases b <;> rfl

theorem State.clearGroup_monitors (s : State) (b : Bus) :
    s.clearGroup (0x02 + busSelector b) = some (s.setMons b (mapTable Monitor.clearCounters (s.mons b))) := by
  cases b <;> rfl

theorem State.clearGroup_pool (s : State) :
    s.clearGroup 0x04 = some { s with sup := { s.sup with pool := s.sup.pool.clearCounters } } := rfl

theorem State.clearGroup_alarmFill (s : State) :
    s.clearGroup 0x05 = some { s with egress := { s.egress with alarmFill := Vector.replicate 48 0 } } := rfl

theorem State.clearGroup_link (s : State) : s.clearGroup 0x06 = some { s with link := s.link.clearCounters } := rfl

/-- The groups end at 0x06. -/
theorem State.clearGroup_above (s : State) {group : Byte} (h : 6 < group.toNat) : s.clearGroup group = none := by
  have ne (k : Byte) (hk : k.toNat ≤ 6) : group ≠ k := by rintro rfl; omega
  simp [State.clearGroup, ne]

/-! ## The link beside receivers and monitors -/

theorem State.setRx_clearCounters_withLink (s : State) (b : Bus) (l : Link) :
    { s with link := l }.setRx b ({ s with link := l }.rx b).clearCounters =
      { s.setRx b (s.rx b).clearCounters with link := l } := by cases b <;> rfl

theorem State.setMons_clearCounters_withLink (s : State) (b : Bus) (l : Link) :
    { s with link := l }.setMons b (mapTable Monitor.clearCounters ({ s with link := l }.mons b)) =
      { s.setMons b (mapTable Monitor.clearCounters (s.mons b)) with link := l } := by cases b <;> rfl

/-! ## The command -/

theorem performCountersClear_some {s t : State} {group : Byte} (h : s.clearGroup group = some t) :
    performCountersClear [group] s = (t, ⟨.ok, []⟩) := by
  simp [performCountersClear, byteAt, h]

theorem performCountersClear_none {s : State} {group : Byte} (h : s.clearGroup group = none) :
    performCountersClear [group] s = s.refuseWith .badParam := by
  simp [performCountersClear, byteAt, h]

section
variable {s t : State} (ready : s.ready) (early : List (List Bool))
include ready

/-- What is cleared is cleared in the state whose link performs the command, refused transfers counted. -/
theorem exec_countersClear_cleared {group : Byte}
    (cleared : { s with link := s.link.performing .countersClear [group] early }.clearGroup group = some t) :
    exec (.countersClear [group] early) s = .next { t with link := { t.link with result := some ⟨.ok, []⟩ } } :=
  exec_performed ready rfl (by simp) (performCountersClear_some cleared)

/-- A group whose counters are not the link's is cleared whatever the link holds. -/
theorem exec_countersClear_keepsLink {group : Byte}
    (cleared : ∀ l, { s with link := l }.clearGroup group = some { t with link := l }) :
    exec (.countersClear [group] early) s =
      .next { t with link := (s.link.taken (commandFrame .countersClear [group]) ⟨.ok, []⟩).refused early } :=
  exec_performed_keepsLink ready rfl (by simp) fun l => performCountersClear_some (cleared l)

theorem exec_countersClear_bus (b : Bus) :
    exec (.countersClear [busSelector b] early) s =
      .next
        { s.setRx b (s.rx b).clearCounters with
          link := (s.link.taken (commandFrame .countersClear [busSelector b]) ⟨.ok, []⟩).refused early } :=
  exec_countersClear_keepsLink ready early fun l => by
    rw [State.clearGroup_bus, State.setRx_clearCounters_withLink]

theorem exec_countersClear_monitors (b : Bus) :
    exec (.countersClear [0x02 + busSelector b] early) s =
      .next
        { s.setMons b (mapTable Monitor.clearCounters (s.mons b)) with
          link := (s.link.taken (commandFrame .countersClear [0x02 + busSelector b]) ⟨.ok, []⟩).refused early } :=
  exec_countersClear_keepsLink ready early fun l => by
    rw [State.clearGroup_monitors, State.setMons_clearCounters_withLink]

theorem exec_countersClear_pool :
    exec (.countersClear [0x04] early) s =
      .next
        { s with
          sup := { s.sup with pool := s.sup.pool.clearCounters }
          link := (s.link.taken (commandFrame .countersClear [0x04]) ⟨.ok, []⟩).refused early } :=
  exec_countersClear_keepsLink (t := { s with sup := { s.sup with pool := s.sup.pool.clearCounters } }) ready early
    fun _ => State.clearGroup_pool _

theorem exec_countersClear_alarmFill :
    exec (.countersClear [0x05] early) s =
      .next
        { s with
          egress := { s.egress with alarmFill := Vector.replicate 48 0 }
          link := (s.link.taken (commandFrame .countersClear [0x05]) ⟨.ok, []⟩).refused early } :=
  exec_countersClear_keepsLink (t := { s with egress := { s.egress with alarmFill := Vector.replicate 48 0 } }) ready
    early fun _ => State.clearGroup_alarmFill _

/-- The link's own counters are cleared after the transfers refused before were counted; the collision flag stays
(R189). -/
theorem exec_countersClear_link :
    exec (.countersClear [0x06] early) s =
      .next
        { s with
          link := ((s.link.taken (commandFrame .countersClear [0x06]) ⟨.ok, []⟩).refused early).clearCounters } := by
  rw [exec_countersClear_cleared ready early (State.clearGroup_link _), ← Link.performing_refused]
  rfl

theorem exec_countersClear_above {group : Byte} (h : 6 < group.toNat) :
    exec (.countersClear [group] early) s =
      .next { s with link := (s.link.taken (commandFrame .countersClear [group]) ⟨.badParam, []⟩).refused early } :=
  exec_performed_keepsLink ready rfl (by simp) fun _ => performCountersClear_none (State.clearGroup_above _ h)

end

/-- Settles O52: group by group, the link's own group apart from those that leave its counters, and the refusal above
0x06. -/
theorem countersClearByGroup : Obligations.CountersClearByGroup := by
  intro s early ready
  refine ⟨?buses, ?monitors, ?pool, ?alarmFill, ?link, ?above⟩
  case buses => exact exec_countersClear_bus ready early
  case monitors => exact exec_countersClear_monitors ready early
  case pool => exact exec_countersClear_pool ready early
  case alarmFill => exact exec_countersClear_alarmFill ready early
  case link => exact exec_countersClear_link ready early
  case above => exact fun _ h => exec_countersClear_above ready early h

end Sys2Proof.Machine
end

section
/-! SUPPORT. Steps and resets: the front row, nRESET low, the values after a hard reset, and how a law kept by every event
of the part is kept by every step. -/
namespace Sys2Proof.Machine

/-! ## The state nRESET low holds the part in -/

@[simp] theorem State.hardReset_rx (s : State) (b : Bus) : s.hardReset.rx b = Receiver.reset := by cases b <;> rfl

@[simp] theorem State.hardReset_monitor (s : State) (src : Source) : s.hardReset.monitor src = Monitor.clean 0 := by
  obtain ⟨b, n⟩ := src
  cases b with
  | A => exact pick_replicate _ _
  | B => exact pick_replicate _ _

@[simp] theorem State.hardReset_record (s : State) (r : RecIx) : s.hardReset.sup.record r = Record.reset := pick_replicate _ _

@[simp] theorem State.hardReset_live (s : State) (r : RecIx) : s.hardReset.sup.live r = none := by
  rw [Supervision.live, State.hardReset_record]
  rfl

@[simp] theorem State.hardReset_timers (s : State) (k : TimerIx) : pick s.hardReset.sup.pool.timers k = none :=
  pick_replicate _ _

@[simp] theorem State.hardReset_owner (s : State) (n : SlotIx) : pick s.hardReset.owner n = none := pick_replicate _ _

/-- Settles O3: RESET_RELEASE by definition, the values after HARD_RESET block by block. -/
theorem hardResetValues : Obligations.HardResetValues := by
  refine ⟨fun _ => rfl, fun s => ⟨s.hardReset, rfl, rfl, rfl, rfl, ?receivers, s.hardReset_monitor, ?records,
    s.hardReset_timers, rfl, rfl, rfl, s.hardReset_owner, rfl, rfl, rfl, rfl, rfl, rfl, rfl, rfl, rfl, rfl, rfl, rfl,
    fun _ => pick_replicate _ _, rfl, rfl, rfl, rfl, rfl, rfl, rfl, rfl, rfl, rfl, rfl, rfl⟩⟩
  case receivers =>
    intro b
    rw [State.hardReset_rx]
    exact ⟨rfl, rfl, rfl, rfl, rfl, rfl, rfl, rfl, rfl, fun _ => pick_replicate _ _, rfl, rfl, rfl⟩
  case records =>
    intro r
    rw [State.hardReset_record]
    exact ⟨rfl, rfl, s.hardReset_live r⟩

/-- Settles O1: a step on a queue with a front row is that row's meaning, by the definition of a step. -/
theorem stepRunsFrontCommand : Obligations.StepRunsFrontCommand := by
  intro s c rest front
  simp only [step, front]

/-! ## Nothing moves while nRESET is low (R22, R143, R160, R192) -/

theorem State.takeWord_off {s : State} {b : Bus} (h : (s.rx b).state = .off) (w : IngressWord) : s.takeWord b w = s := by
  simp [State.takeWord, h]

theorem State.takeWords_off {s : State} {b : Bus} (h : (s.rx b).state = .off) (ws : List IngressWord) :
    s.takeWords b ws = s := by
  unfold State.takeWords
  induction ws with
  | nil => rfl
  | cons w ws ih => rw [List.foldl_cons, State.takeWord_off h, ih]

theorem State.loseClock_off {s : State} {b : Bus} (h : (s.rx b).state = .off) : s.loseClock b = s := by
  simp [State.loseClock, h]

theorem State.egressEdge_inReset {s : State} (h : s.nReset = false) (eref : Bool) : s.egressEdge eref = s := by
  simp [State.egressEdge, h]

theorem State.egressEdges_inReset {s : State} (h : s.nReset = false) (levels : List Bool) : s.egressEdges levels = s := by
  unfold State.egressEdges
  induction levels with
  | nil => rfl
  | cons x xs ih => rw [List.foldl_cons, State.egressEdge_inReset h, ih]

theorem State.loseEgressClock_inReset {s : State} (h : s.nReset = false) : s.loseEgressClock = s := by
  simp [State.loseEgressClock, h]

theorem State.buildDue_stopped {s : State} (h : s.egress.running = false) : s.buildDue = s := by
  simp [State.buildDue, h]

theorem State.tick_inReset {s : State} (h : s.nReset = false) : s.tick = s := by simp [State.tick, h]

theorem State.ticks_inReset {s : State} (h : s.nReset = false) (k : Nat) : State.ticks k s = s := by
  induction k with
  | zero => rfl
  | succ k ih => rw [State.ticks, State.tick_inReset h, ih]

theorem State.transfer_inReset {s : State} (h : s.nReset = false) (bytes : List Byte) (edges : Nat)
    (early : List (List Bool)) (holdRunsOut : Bool) : s.transfer bytes edges early holdRunsOut = s := by
  simp [State.transfer, h]

theorem State.expireHold_of_ne {s : State} (h : s.link.state ≠ .holding) : s.expireHold = s := by
  simp [State.expireHold, h]

theorem Link.complete_of_ne {l : Link} (h : l.state ≠ .executing) : l.complete = l := by
  unfold Link.complete
  split
  · rename_i executing _
    exact absurd executing h
  · rfl

/-- Settles O4: transfers, edges and ticks find nRESET low, words and clock losses a bus in OFF, the egress side is
STOPPED and the link IDLE. -/
theorem nothingMovesInReset : Obligations.NothingMovesInReset := by
  intro s c low held other
  have off (b : Bus) : (s.rx b).state = .off := by rw [held, State.hardReset_rx]; rfl
  have stopped : s.egress.running = false := by rw [held]; rfl
  have idle : s.link.state = .idle := by rw [held]; rfl
  cases hb : transferredBy c with
  | some bytes =>
    obtain ⟨edges, early, holdRunsOut, transferred⟩ := exec_eq_transfer hb s
    rw [transferred, State.transfer_inReset low]
  | none =>
    cases c with
    | hardReset => exact congrArg _ held.symm
    | resetRelease => exact absurd rfl other
    | clockLoss b => exact congrArg _ (State.loseClock_off (off b))
    | clockReturn b w => exact congrArg _ (State.takeWord_off (off b) w)
    | alignConfirm b w => exact congrArg _ (State.takeWord_off (off b) w)
    | slotFrameComplete b ws => exact congrArg _ (State.takeWords_off (off b) ws)
    | frameCheck b w => exact congrArg _ (State.takeWord_off (off b) w)
    | egressClockLoss => exact congrArg _ (State.loseEgressClock_inReset low)
    | egressRunning eref => exact congrArg _ (State.egressEdge_inReset low eref)
    | expectedFrameStart eref => exact congrArg _ (State.egressEdge_inReset low eref)
    | egressSlotBuild levels =>
      exact congrArg _ ((congrArg State.buildDue (State.egressEdges_inReset low levels)).trans (State.buildDue_stopped stopped))
    | timerExpiry k => exact congrArg _ (State.ticks_inReset low _)
    | holdTimeExpiry => exact congrArg _ (State.expireHold_of_ne (by simp [idle]))
    | frameStartCandidate b ws => exact congrArg _ (State.takeWords_off (off b) ws)
    | referenceCandidate levels => exact congrArg _ (State.egressEdges_inReset low levels)
    | executionComplete =>
      have same : s.link.complete = s.link := Link.complete_of_ne (by simp [idle])
      show Host.Outcome.next { s with link := s.link.complete } = .next s
      rw [same]
    | _ => cases hb

/-! ## Laws kept by every step -/

/-- A property of states that every event of the part keeps. -/
structure State.Kept (P : State → Prop) : Prop where
  pending : ∀ s q, P s → P { s with pending := q }
  hardReset : ∀ s, P s → P s.hardReset
  release : ∀ s, P s → P { s with nReset := true }
  tick : ∀ s, P s → P s.tick
  loseClock : ∀ s b, P s → P (s.loseClock b)
  takeWord : ∀ s b w, P s → P (s.takeWord b w)
  egressEdge : ∀ s eref, P s → P (s.egressEdge eref)
  buildDue : ∀ s, P s → P s.buildDue
  loseEgressClock : ∀ s, P s → P s.loseEgressClock
  transfer : ∀ s bytes edges early holdRunsOut, P s → P (s.transfer bytes edges early holdRunsOut)
  expireHold : ∀ s, P s → P s.expireHold
  complete : ∀ s, P s → P { s with link := s.link.complete }

/-- What each event of a list keeps, the whole list keeps. -/
theorem State.foldl_keep {α : Type} {P : State → Prop} {f : State → α → State} (h : ∀ s x, P s → P (f s x)) (xs : List α)
    {s : State} (hs : P s) : P (xs.foldl f s) := by
  induction xs generalizing s with
  | nil => exact hs
  | cons x xs ih => exact ih (h s x hs)

theorem State.ticks_keep {P : State → Prop} (h : ∀ s, P s → P s.tick) (k : Nat) {s : State} (hs : P s) :
    P (State.ticks k s) := by
  induction k generalizing s with
  | zero => exact hs
  | succ k ih => exact ih (h s hs)

/-- What every event keeps, every row keeps. -/
theorem State.Kept.exec {P : State → Prop} (kept : State.Kept P) {i : Instr} {s t : State} (hs : P s)
    (ht : exec i s = .next t) : P t := by
  cases hb : transferredBy i with
  | some bytes =>
    obtain ⟨edges, early, holdRunsOut, transferred⟩ := exec_eq_transfer hb s
    cases transferred.symm.trans ht
    exact kept.transfer _ _ _ _ _ hs
  | none =>
    have words (b : Bus) (ws : List IngressWord) : P (s.takeWords b ws) :=
      State.foldl_keep (fun s w => kept.takeWord s b w) ws hs
    have edges (levels : List Bool) : P (s.egressEdges levels) := State.foldl_keep kept.egressEdge levels hs
    cases i with
    | hardReset => cases ht; exact kept.hardReset s hs
    | resetRelease => cases ht; exact kept.release s hs
    | clockLoss b => cases ht; exact kept.loseClock s b hs
    | clockReturn b w => cases ht; exact kept.takeWord s b w hs
    | alignConfirm b w => cases ht; exact kept.takeWord s b w hs
    | slotFrameComplete b ws => cases ht; exact words b ws
    | frameCheck b w => cases ht; exact kept.takeWord s b w hs
    | egressClockLoss => cases ht; exact kept.loseEgressClock s hs
    | egressRunning eref => cases ht; exact kept.egressEdge s eref hs
    | expectedFrameStart eref => cases ht; exact kept.egressEdge s eref hs
    | egressSlotBuild levels => cases ht; exact kept.buildDue _ (edges levels)
    | timerExpiry k => cases ht; exact State.ticks_keep kept.tick _ hs
    | holdTimeExpiry => cases ht; exact kept.expireHold s hs
    | frameStartCandidate b ws => cases ht; exact words b ws
    | referenceCandidate levels => cases ht; exact edges levels
    | executionComplete => cases ht; exact kept.complete s hs
    | _ => cases hb

/-- What every event keeps, every step keeps. -/
theorem State.Kept.step {P : State → Prop} (kept : State.Kept P) {s t : State} (hs : P s) (ht : step s = .next t) : P t := by
  unfold Machine.step at ht
  split at ht
  · cases ht
    exact kept.tick s hs
  · exact kept.exec (kept.pending s _ hs) ht

/-- A law that does not look at the link is kept by transfers if every command keeps it. -/
theorem State.transfer_keep {P : State → Prop} (link : ∀ s l, P s → P { s with link := l })
    (performed : ∀ c params s, P s → P (perform c params s).1) {s : State} (bytes : List Byte) (edges : Nat)
    (early : List (List Bool)) (holdRunsOut : Bool) (hs : P s) : P (s.transfer bytes edges early holdRunsOut) := by
  unfold State.transfer
  split
  · split
    · unfold State.commandTransfer
      dsimp only
      split
      · exact link _ _ hs
      · split
        · exact link _ _ hs
        · exact link _ _ (performed _ _ _ (link _ _ hs))
    · exact hs
    · exact link _ _ hs
    · exact link _ _ hs
  · exact hs

end Sys2Proof.Machine
end

section
/-! SUPPORT. Laws of table, queue and monitors: the shared operations such a law must be kept by, and that every event of
the part is then bound to keep it. -/
namespace Sys2Proof.Machine

/-! ## Events of a bus -/

/-- A change of a monitor that keeps its references and its law. -/
def Monitor.Gentle (f : Monitor → Monitor) : Prop := ∀ m, (f m).refs = m.refs ∧ (MonitorLaw m → MonitorLaw (f m))

/-- A property kept by everything the events of a bus are made of. -/
structure State.KeptByBus (P : State → Prop) : Prop where
  setRx : ∀ s b rx, P s → P (s.setRx b rx)
  eachMonitor : ∀ s b f, Monitor.Gentle f → P s → P (s.setMons b (mapTable f (s.mons b)))
  take : ∀ s src threshold frame, P s → P (s.setMonitor src ((s.monitor src).take threshold frame))
  choices : ∀ s n, P s → P { s with choices := n }
  evaluate : ∀ s r, P s → P (s.evaluate r)
  post : ∀ s r k, k.maskable = true → P s → P { s with sup := s.sup.postRecord r k }
  align : ∀ s b, P s → P (s.postAlign b)

/-- The monitor leaving ALIGNED keeps its law: what is kept is an accepted name, the rest is clean. -/
theorem Monitor.alignReset_gentle : Monitor.Gentle Monitor.alignReset := by
  intro m
  unfold Monitor.alignReset
  split
  · exact ⟨rfl, id⟩
  · rename_i referenced
    refine ⟨rfl, fun law => { monitorLaw_clean m.refs with clean := fun h => absurd h referenced, names := ?_ }⟩
    rintro n (h | h)
    · exact law.names n (.inl h)
    · cases h

theorem Monitor.cleaned_gentle : Monitor.Gentle fun m => Monitor.clean m.refs := fun m =>
  ⟨rfl, fun _ => monitorLaw_clean m.refs⟩

theorem Monitor.clearCounters_gentle : Monitor.Gentle Monitor.clearCounters := fun m =>
  ⟨rfl, fun law => { law with clean := fun h => by rw [law.clean h]; rfl }⟩

/-- The tasks the events of a bus cause: evaluations, postings a mask may stop, ALIGN. -/
def Task.ofBus : Task → Prop
  | .evaluate _ => True
  | .post _ k => k.maskable = true
  | .align _ => True

section
variable {P : State → Prop}

theorem State.KeptByBus.runTasks (kept : State.KeptByBus P) {ts : List Task} (ofBus : ∀ t ∈ ts, t.ofBus) {s : State}
    (hs : P s) : P (s.runTasks ts) := by
  refine State.runTasks_keep (fun t ht s hs => ?_) kept.choices hs
  have kind := ofBus t ht
  cases t with
  | evaluate r => exact kept.evaluate s r hs
  | post r k => exact kept.post s r k kind hs
  | align b => exact kept.align s b hs

theorem State.busEvaluations_ofBus (s : State) (b : Bus) : ∀ t ∈ s.busEvaluations b, t.ofBus := by
  intro t ht
  obtain ⟨r, -, rfl⟩ := List.mem_map.1 ht
  trivial

theorem State.KeptByBus.realigned (kept : State.KeptByBus P) {s : State} (b : Bus) (hs : P s) :
    P (s.runTasks (.align b :: s.busEvaluations b)) :=
  kept.runTasks (List.forall_mem_cons.2 ⟨show (Task.align b).ofBus from trivial, s.busEvaluations_ofBus b⟩) hs

theorem State.KeptByBus.loseAlignment (kept : State.KeptByBus P) {s : State} (b : Bus) (st : BusState) (hs : P s) :
    P (s.loseAlignment b st) :=
  kept.realigned b (kept.eachMonitor _ b _ Monitor.alignReset_gentle (kept.setRx s b _ hs))

theorem State.KeptByBus.loseClock (kept : State.KeptByBus P) (s : State) (b : Bus) (hs : P s) : P (s.loseClock b) := by
  unfold State.loseClock
  split
  · exact hs
  · exact hs
  · exact kept.align _ b (kept.setRx s b _ hs)
  · exact kept.loseAlignment b .down hs

/-- The tasks of a slot-frame taken are evaluations and postings of NAME and RFAULT. -/
theorem State.KeptByBus.handFrame (kept : State.KeptByBus P) {s : State} (b : Bus) (n : SlotIx) (frame : SlotFrame)
    (hs : P s) : P (s.handFrame b n frame) := by
  refine kept.runTasks (fun t ht => ?_) (kept.take s ⟨b, n⟩ _ frame hs)
  simp only [List.mem_append] at ht
  rcases ht with (ht | ht) | ht <;> split at ht
  · obtain ⟨r, -, rfl⟩ := List.mem_map.1 ht; rfl
  · cases ht
  · obtain ⟨r, -, rfl⟩ := List.mem_map.1 ht; rfl
  · cases ht
  · obtain ⟨r, -, rfl⟩ := List.mem_map.1 ht; trivial
  · cases ht

theorem State.KeptByBus.completeFrame (kept : State.KeptByBus P) {s : State} (b : Bus) (n : SlotIx) (hs : P s) :
    P (s.completeFrame b n) := by
  unfold State.completeFrame
  split
  · exact hs
  · exact kept.handFrame b n _ (kept.setRx s b _ hs)

theorem State.KeptByBus.searchWord (kept : State.KeptByBus P) {s : State} (b : Bus) (w : IngressWord) (hs : P s) :
    P (s.searchWord b w) := by
  unfold State.searchWord
  dsimp only
  split
  · split
    · exact kept.setRx s b _ hs
    · exact hs
  · split
    · exact kept.setRx s b _ hs
    · split
      · exact kept.realigned b (kept.setRx s b _ hs)
      · exact kept.setRx s b _ hs

theorem State.KeptByBus.checkFrame (kept : State.KeptByBus P) {s : State} (b : Bus) (w : IngressWord) (hs : P s) :
    P (s.checkFrame b w) := by
  unfold State.checkFrame
  dsimp only
  split
  · split
    · exact kept.loseAlignment b .seek (kept.setRx s b _ hs)
    · exact kept.setRx s b _ hs
  · exact kept.setRx s b _ hs

theorem State.KeptByBus.fillFrame (kept : State.KeptByBus P) {s : State} (b : Bus) (w : IngressWord) (hs : P s) :
    P (s.fillFrame b w) := by
  unfold State.fillFrame
  dsimp only
  split
  · split
    · exact kept.completeFrame b _ (kept.setRx s b _ hs)
    · exact kept.setRx s b _ hs
  · exact kept.setRx s b _ hs

theorem State.KeptByBus.takeWord (kept : State.KeptByBus P) (s : State) (b : Bus) (w : IngressWord) (hs : P s) :
    P (s.takeWord b w) := by
  unfold State.takeWord
  split
  · exact hs
  · exact kept.align _ b (kept.setRx s b _ hs)
  · exact kept.searchWord b w hs
  · split
    · exact kept.checkFrame b w hs
    · exact kept.fillFrame b w hs

/-- The tasks of a disable are evaluations and postings of NAME and RFAULT. -/
theorem State.KeptByBus.disableBus (kept : State.KeptByBus P) {s : State} (b : Bus) (hs : P s) : P (s.disableBus b) := by
  have cleared : P ((s.setRx b ((s.rx b).unaligned .off)).setMons b (mapTable (fun m => Monitor.clean m.refs) (s.mons b))) := by
    have := kept.eachMonitor _ b _ Monitor.cleaned_gentle (kept.setRx s b ((s.rx b).unaligned .off) hs)
    rwa [State.setRx_mons] at this
  refine kept.align _ b (kept.runTasks (fun t ht => ?_) cleared)
  rcases List.mem_append.1 ht with ht | ht
  · obtain ⟨n, -, ht⟩ := List.mem_flatMap.1 ht
    simp only [List.mem_append] at ht
    rcases ht with (ht | ht) | ht <;> split at ht
    · obtain ⟨r, -, rfl⟩ := List.mem_map.1 ht; rfl
    · cases ht
    · obtain ⟨r, -, rfl⟩ := List.mem_map.1 ht; rfl
    · cases ht
    · obtain ⟨r, -, rfl⟩ := List.mem_map.1 ht; trivial
    · cases ht
  · split at ht
    · exact State.busEvaluations_ofBus _ b t ht
    · cases ht

theorem State.KeptByBus.setBus (kept : State.KeptByBus P) {s : State} (b : Bus) (enable : Bool) (sense : Sense)
    (scope : Scope) (threshold : Byte) (hs : P s) : P (s.setBus b enable sense scope threshold) := by
  have written := kept.setRx s b { s.rx b with enable, sense, scope, threshold } hs
  unfold State.setBus
  dsimp only
  split
  · exact kept.align _ b (kept.setRx _ b _ written)
  · exact written
  · exact written
  · exact kept.disableBus b written

end

/-! ## What parameters that are read hold (R54, R68) -/

theorem readIf_eq_some {α : Type} {present : Bool} {x : Option α} {y : α} (h : readIf present x = some (some y)) :
    present = true ∧ x = some y := by
  unfold readIf at h
  split at h
  · rename_i hp
    exact ⟨hp, by simpa using h⟩
  · cases h

theorem readName_printable {bytes : List Byte} {n : Name} (h : readName bytes = some n) :
    n.length = bytes.length ∧ n.all printable = true := by
  unfold readName at h
  split at h
  · rename_i inRange
    cases h
    refine ⟨List.length_map _, ?_⟩
    simp only [List.all_map, List.all_eq_true, Function.comp_apply] at inRange ⊢
    intro b hb
    have range := inRange b hb
    have same : (b.setWidth 7).toNat = b.toNat := by
      simp only [Bool.and_eq_true, decide_eq_true_eq] at range
      rw [BitVec.toNat_setWidth]
      omega
    rw [printable, same]
    exact range
  · cases h

theorem readExpectedCode_ne_zero {b : Byte} {c : BitVec 4} (h : readExpectedCode b = some c) : c ≠ 0 := by
  revert b c
  decide

theorem readHoldOff_le {b c : Byte} (h : readHoldOff b = some c) : c.toNat ≤ 250 := by
  unfold readHoldOff at h
  split at h
  · cases h; assumption
  · cases h

theorem readReturn_range {v t : BitVec 16} (h : readReturn v = some t) : 1 ≤ t.toNat ∧ t.toNat ≤ 900 := by
  unfold readReturn at h
  split at h
  · cases h; simp_all
  · cases h

theorem readMask_clear {b m : Byte} (h : readMask b = some m) : m &&& 0x03 = 0 := by
  unfold readMask at h
  split at h
  · cases h; assumption
  · cases h

/-- A CREATE that is read names two slots, and its fields are in their ranges (R54). -/
theorem readCreate_law {params : List Byte} {f : Fields} (fits : params.length = createLength (byteAt params 3))
    (h : readCreate params = some f) : FieldsLaw f ∧ f.protect ≠ some f.working := by
  simp only [readCreate, Option.bind_eq_bind, Option.bind_eq_some_iff] at h
  obtain ⟨egress, -, working, -, protect, -, code, hcode, outCode, -, holdOff, hhold, ret, hret, mask, hmask, name, hname,
    outName, hout, h⟩ := h
  split at h
  · rename_i chosen
    cases h
    refine ⟨⟨readHoldOff_le hhold, readReturn_range hret, readMask_clear hmask, ?code, ?names⟩, chosen.2⟩
    case code =>
      rintro rfl
      exact readExpectedCode_ne_zero (readIf_eq_some hcode).2 rfl
    case names =>
      unfold createLength at fits
      rintro n (rfl | rfl)
      · obtain ⟨present, read⟩ := readIf_eq_some hname
        obtain ⟨length, printed⟩ := readName_printable read
        rw [if_pos present] at fits
        exact ⟨by rw [length, List.length_take, List.length_drop]; omega, printed⟩
      · obtain ⟨present, read⟩ := readIf_eq_some hout
        obtain ⟨length, printed⟩ := readName_printable read
        rw [if_pos present] at fits
        refine ⟨?_, printed⟩
        rw [length, List.length_take, List.length_drop]
        split at fits <;> simp_all
  · cases h

theorem takeNamed_length {chosen : Bool} {bytes rest : List Byte} {value : Option (Byte × List Byte)}
    (h : takeNamed chosen bytes = some (value, rest)) : ∀ b name, value = some (b, name) → b = 1 → name.length = 16 := by
  unfold takeNamed at h
  split at h
  · split at h
    · cases h
    · split at h
      · split at h
        · cases h
          rintro _ _ ⟨⟩ -
          rw [List.length_take]
          omega
        · cases h
      · rename_i other
        cases h
        rintro _ _ ⟨⟩ one
        exact absurd one other
  · cases h
    nofun

/-- The name items of an AMEND that declare a name carry 16 characters. -/
theorem splitAmend_names {items : BitVec 16} {bytes : List Byte} {v : AmendBytes} (h : splitAmend items bytes = some v) :
    (∀ b name, v.nameCheck = some (b, name) → b = 1 → name.length = 16) ∧
      ∀ b name, v.outName = some (b, name) → b = 1 → name.length = 16 := by
  unfold splitAmend at h
  obtain ⟨⟨_, _⟩, -, h⟩ := Option.bind_eq_some_iff.1 h
  obtain ⟨⟨_, _⟩, -, h⟩ := Option.bind_eq_some_iff.1 h
  obtain ⟨⟨_, _⟩, -, h⟩ := Option.bind_eq_some_iff.1 h
  obtain ⟨⟨_, _⟩, -, h⟩ := Option.bind_eq_some_iff.1 h
  obtain ⟨⟨_, _⟩, -, h⟩ := Option.bind_eq_some_iff.1 h
  obtain ⟨⟨nameCheck, _⟩, nameRead, h⟩ := Option.bind_eq_some_iff.1 h
  obtain ⟨⟨_, _⟩, -, h⟩ := Option.bind_eq_some_iff.1 h
  obtain ⟨⟨outName, _⟩, outRead, h⟩ := Option.bind_eq_some_iff.1 h
  obtain ⟨⟨_, _⟩, -, h⟩ := Option.bind_eq_some_iff.1 h
  obtain ⟨⟨_, _⟩, -, h⟩ := Option.bind_eq_some_iff.1 h
  obtain ⟨⟨_, _⟩, -, h⟩ := Option.bind_eq_some_iff.1 h
  obtain ⟨⟨_, rest⟩, -, h⟩ := Option.bind_eq_some_iff.1 h
  cases rest with
  | nil =>
    cases h
    exact ⟨takeNamed_length nameRead, takeNamed_length outRead⟩
  | cons b rest => cases h

/-- The value an item leaves: the one it had, or one that was read. -/
theorem checkItem_getD {α β : Type} {read : α → Option β} {value : Option α} {item : Option β}
    (h : checkItem read value = some item) (old : β) :
    item.getD old = old ∨ ∃ v, value = some v ∧ read v = some (item.getD old) := by
  cases value with
  | none => cases h; exact .inl rfl
  | some v =>
    obtain ⟨x, hx, rfl⟩ := Option.map_eq_some_iff.1 h
    exact .inr ⟨v, rfl, hx⟩

theorem readNamed_printable {v : Byte × List Byte} {n : Name} (h : readNamed v = some (some n)) (length : v.1 = 1 → v.2.length = 16) :
    n.length = 16 ∧ n.all printable = true := by
  unfold readNamed at h
  split at h
  · cases h
  · split at h
    · rename_i one
      obtain ⟨m, read, same⟩ := Option.map_eq_some_iff.1 h
      cases same
      obtain ⟨lengths, printed⟩ := readName_printable read
      exact ⟨lengths.trans (length one), printed⟩
    · cases h

theorem readCodeCheck_ne_zero {b : Byte} {c : BitVec 4} (h : readCodeCheck b = some (some c)) : c ≠ 0 := by
  unfold readCodeCheck at h
  split at h
  · cases h
  · obtain ⟨d, read, same⟩ := Option.map_eq_some_iff.1 h
    cases same
    exact readExpectedCode_ne_zero read

/-- An AMEND that is read keeps fields in their ranges (R68 check 2). -/
theorem readAmend_law {items : BitVec 16} {bytes : List Byte} {v : AmendBytes} {a : Amendment} {f : Fields}
    (values : splitAmend items bytes = some v) (h : readAmend items v = some a) (law : FieldsLaw f) : FieldsLaw (a.apply f) := by
  obtain ⟨nameLength, outLength⟩ := splitAmend_names values
  simp only [readAmend, Option.bind_eq_bind, Option.bind_eq_some_iff] at h
  obtain ⟨egress, -, working, -, protect, -, revertive, -, degrade, -, name, hname, code, hcode, outName, hout, outCode, -,
    holdOff, hhold, ret, hret, mask, hmask, h⟩ := h
  have named {item : Option (Option Name)} {value : Option (Byte × List Byte)} {old : Option Name}
      (read : checkItem readNamed value = some item) (length : ∀ b name, value = some (b, name) → b = 1 → name.length = 16)
      (kept : ∀ n, old = some n → n.length = 16 ∧ n.all printable = true) {n : Name} (hn : item.getD old = some n) :
      n.length = 16 ∧ n.all printable = true := by
    rcases checkItem_getD read old with same | ⟨w, hw, chosen⟩
    · exact kept n (same ▸ hn)
    · exact readNamed_printable (hn ▸ chosen) fun one => length w.1 w.2 hw one
  split at h
  · cases h
    refine ⟨?holdOff, ?returnTime, ?mask, ?code, ?names⟩
    case holdOff =>
      show (holdOff.getD f.holdOff).toNat ≤ 250
      rcases checkItem_getD hhold f.holdOff with same | ⟨w, -, chosen⟩
      · rw [same]
        exact law.holdOff
      · exact readHoldOff_le chosen
    case returnTime =>
      show 1 ≤ (ret.getD f.returnTime).toNat ∧ (ret.getD f.returnTime).toNat ≤ 900
      rcases checkItem_getD hret f.returnTime with same | ⟨w, -, chosen⟩
      · rw [same]
        exact law.returnTime
      · exact readReturn_range chosen
    case mask =>
      show mask.getD f.mask &&& 0x03 = 0
      rcases checkItem_getD hmask f.mask with same | ⟨w, -, chosen⟩
      · rw [same]
        exact law.mask
      · exact readMask_clear chosen
    case code =>
      show code.getD f.expectedCode ≠ some 0
      intro zero
      rcases checkItem_getD hcode f.expectedCode with same | ⟨w, -, chosen⟩
      · exact law.code (same ▸ zero)
      · exact readCodeCheck_ne_zero (zero ▸ chosen) rfl
    case names =>
      rintro n (hn | hn)
      · exact named hname nameLength (fun n h => law.names n (.inl h)) hn
      · exact named hout outLength (fun n h => law.names n (.inr h)) hn
  · cases h

/-! ## Refs that pass their checks (R52, R53) -/

theorem State.checkState_ok {s : State} {r : RecIx} {taken : LiveState → Bool} {l : Live} (h : s.checkState r taken = .ok l) :
    s.sup.live r = some l ∧ taken l.state = true := by
  unfold State.checkState at h
  split at h
  · cases h
  · rename_i k hk
    split at h
    · rename_i accepted
      cases h
      exact ⟨hk, accepted⟩
    · cases h

theorem State.checkRecord_ok {s : State} {index generation : Byte} {taken : LiveState → Bool} {r : RecIx} {l : Live}
    (h : s.checkRecord index generation taken = .ok (r, l)) : s.sup.live r = some l ∧ taken l.state = true := by
  unfold State.checkRecord at h
  split at h
  · cases h
  · split at h
    · cases h
    · rename_i checked
      cases h
      exact State.checkState_ok checked

/-! ## Laws of table, queue and monitors -/

/-- A law of the table, the notice queue and the monitors, kept by each operation that touches these. -/
structure State.Guarded (P : State → Prop) : Prop where
  same : ∀ s t : State, t.monA = s.monA → t.monB = s.monB → t.sup = s.sup → P s → P t
  selectors : ∀ s u, s.sup.sameRecords u → u.notices = s.sup.notices → P s → P { s with sup := u }
  evaluateBy : ∀ s expiry r, P s → P (s.evaluateBy expiry r)
  post : ∀ s x k, (∀ r, x ≠ .record r) → P s → P { s with sup := s.sup.post x k }
  postRecord : ∀ s r k, k ≠ .retired → (k.maskable = true ∨ (s.sup.live r).isSome) → P s →
    P { s with sup := s.sup.postRecord r k }
  modLive : ∀ s r f, (∀ l, (f l).fields = l.fields) → P s → P { s with sup := s.sup.modLive r f }
  freeRecord : ∀ s r, P s → P (s.freeRecord r)
  createAt : ∀ s r f, s.sup.freeIndex = some r → FieldsLaw f → f.protect ≠ some f.working → P s → P (s.createAt r f)
  amendRecord : ∀ s r l a, s.sup.live r = some l → (FieldsLaw l.fields → FieldsLaw (a.apply l.fields)) →
    (a.apply l.fields).protect ≠ some (a.apply l.fields).working → P s → P (s.amendRecord r l a)
  fetched : ∀ s e rest, s.sup.notices = e :: rest → P s → P (s.afterFetch e rest)
  softReset : ∀ s, P s → P s.softReset
  hardReset : ∀ s, P s → P s.hardReset
  eachMonitor : ∀ s b f, Monitor.Gentle f → P s → P (s.setMons b (mapTable f (s.mons b)))
  take : ∀ s src threshold frame, P s → P (s.setMonitor src ((s.monitor src).take threshold frame))

/-- A kind that a mask may stop is not RETIRED (R50). -/
theorem Kind.ne_retired_of_maskable {k : Kind} (h : k.maskable = true) : k ≠ .retired := by
  rintro rfl
  cases h

section
variable {P : State → Prop} (law : State.Guarded P) {s : State}
include law

theorem State.Guarded.keptByBus : State.KeptByBus P where
  setRx s b rx hs := law.same s _ (by simp) (by simp) (by simp) hs
  eachMonitor := law.eachMonitor
  take := law.take
  choices s _ hs := law.same s _ rfl rfl rfl hs
  evaluate s r hs := law.evaluateBy s false r hs
  post s r k hk hs := law.postRecord s r k (Kind.ne_retired_of_maskable hk) (.inl hk) hs
  align s _ hs := law.post s _ _ (by simp) hs

/-! ### Records in service and updates -/

theorem State.Guarded.goLive (r : RecIx) (hs : P s) : P (s.goLive r) :=
  law.evaluateBy _ false r (law.modLive s r _ (fun _ => rfl) hs)

theorem State.Guarded.enterService (r : RecIx) (hs : P s) : P (s.enterService r) := by
  unfold State.enterService
  split
  · exact hs
  · rename_i l hl
    refine law.goLive r (law.postRecord { s with sup := s.sup.modLive r _ } r .activated (by simp) (.inr ?_)
      (law.modLive s r _ (fun _ => rfl) hs))
    simp [hl]

theorem State.Guarded.setOwner (n : SlotIx) (r : Option RecIx) (hs : P s) : P (s.setOwner n r) :=
  law.same s _ rfl rfl rfl hs

theorem State.Guarded.applyUpdate (s : State) (u : Update) (hs : P s) : P (s.applyUpdate u) := by
  cases u with
  | enter n r => exact law.enterService r (law.setOwner n _ hs)
  | leave n r => exact law.freeRecord _ r (law.setOwner n _ hs)
  | handover n o r => exact law.enterService r (law.freeRecord _ o (law.setOwner n _ hs))

theorem State.Guarded.applyUpdates (hs : P s) : P s.applyUpdates :=
  law.same (s.updates.foldl State.applyUpdate s) _ rfl rfl rfl (State.foldl_keep law.applyUpdate s.updates hs)

theorem State.Guarded.queueUpdate (u : Update) (hs : P s) : P (s.queueUpdate u).1 := by
  unfold State.queueUpdate
  split
  · exact law.same s _ rfl rfl rfl hs
  · exact law.applyUpdate s u hs

theorem State.Guarded.arm (r : RecIx) (hs : P s) : P (s.arm r) := law.modLive s r _ (fun _ => rfl) hs

theorem State.Guarded.beginRetiring (r : RecIx) (hs : P s) : P (s.beginRetiring r) :=
  law.selectors { s with sup := s.sup.modLive r (fun l => { l with state := .retiring }) } _
    (Supervision.freeze_sameRecords _ r) (Supervision.freeze_notices _ r) (law.modLive s r _ (fun _ => rfl) hs)

theorem State.Guarded.cancelUpdate (r : RecIx) (hs : P s) : P (s.cancelUpdate r) := by
  have removed (u : Update) : P (s.removeUpdate u) := law.same s _ rfl rfl rfl hs
  unfold State.cancelUpdate
  split
  · exact law.freeRecord s r hs
  · exact law.freeRecord _ r (removed _)
  · exact law.freeRecord _ r (removed _)
  · exact law.freeRecord _ r (law.goLive _ (removed _))

theorem State.Guarded.retireRecord (r : RecIx) (l : Live) (hs : P s) : P (s.retireRecord r l).1 := by
  unfold State.retireRecord
  split
  · exact law.freeRecord s r hs
  · exact law.cancelUpdate r hs
  · exact law.queueUpdate _ (law.beginRetiring r hs)
  · exact hs

/-! ### Ticks -/

theorem State.Guarded.takeExpiry (s : State) (t : TimerIx) (hs : P s) : P (s.takeExpiry t) := by
  unfold State.takeExpiry
  split
  · exact hs
  · split
    · have freed := s.sup.freeTimer_selectorsOnly
      exact law.evaluateBy _ true _ (law.selectors s _ (freed _ t).records (freed _ t).notices hs)
    · exact hs

theorem State.Guarded.tick (hs : P s) : P s.tick := by
  have counted : P { s with sup := { s.sup with pool := s.sup.pool.tick } } :=
    law.selectors s _ (s.sup.withPool_selectorsOnly _).records rfl hs
  unfold State.tick State.takeExpiries
  split
  · split
    · exact counted
    · exact law.takeExpiry _ _ counted
    · exact State.foldl_keep law.takeExpiry _
        (law.same { s with sup := { s.sup with pool := s.sup.pool.tick } } _ rfl rfl rfl counted)
  · exact hs

/-! ### The egress side -/

theorem State.Guarded.withEgress (e : Egress) (hs : P s) : P { s with egress := e } := law.same s _ rfl rfl rfl hs

theorem State.Guarded.afterRequest (hs : P s) : P s.afterRequest := law.same s _ (by simp) (by simp) (by simp) hs

theorem State.Guarded.postState (hs : P s) : P s.postState := law.post s _ _ (by simp) hs

theorem State.Guarded.stopEgress (hs : P s) : P s.stopEgress :=
  law.postState (law.applyUpdates (law.withEgress _ (law.afterRequest hs)))

theorem State.Guarded.startEgress (hs : P s) : P s.startEgress := law.postState (law.withEgress _ (law.afterRequest hs))

theorem State.Guarded.frameStart (misses : Nat) (hs : P s) : P (s.frameStart misses) :=
  law.applyUpdates (law.withEgress _ (law.afterRequest hs))

theorem State.Guarded.buildDue (hs : P s) : P s.buildDue := by
  unfold State.buildDue
  split
  · split
    · exact law.withEgress _ hs
    · exact hs
  · exact hs

theorem State.Guarded.expectFrame (pulse : Bool) (hs : P s) : P (s.expectFrame pulse) := by
  unfold State.expectFrame
  split
  · exact law.frameStart 0 hs
  · split
    · exact law.stopEgress hs
    · exact law.frameStart _ hs

theorem State.Guarded.driveNext (hs : P s) : P s.driveNext := by
  unfold State.driveNext
  dsimp only
  split <;> exact law.withEgress _ hs

theorem State.Guarded.searchReference (pulse : Bool) (hs : P s) : P (s.searchReference pulse) := by
  unfold State.searchReference
  split
  · split
    · exact law.withEgress _ hs
    · exact hs
  · split
    · exact law.withEgress _ hs
    · split
      · exact law.startEgress hs
      · exact law.withEgress _ hs

theorem State.Guarded.egressEdge (eref : Bool) (hs : P s) : P (s.egressEdge eref) := by
  have noted := law.withEgress { s.buildDue.egress with erefLevel := eref } (law.buildDue hs)
  unfold State.egressEdge
  split
  · dsimp only
    split
    · split
      · exact law.expectFrame _ noted
      · exact law.driveNext noted
    · exact law.searchReference _ noted
  · exact hs

theorem State.Guarded.loseEgressClock (hs : P s) : P s.loseEgressClock := by
  unfold State.loseEgressClock
  split
  · have noted : P { s.buildDue with egress := { s.buildDue.egress with erefLevel := false, candidate := none } } :=
      law.withEgress _ (law.buildDue hs)
    dsimp only
    split
    · exact law.stopEgress noted
    · exact noted
  · exact hs

/-! ### Commands -/

theorem State.Guarded.clearGroup {group : Byte} {t : State} (h : s.clearGroup group = some t) (hs : P s) : P t := by
  unfold State.clearGroup at h
  split_ifs at h <;> cases h
  · exact law.keptByBus.setRx _ _ _ hs
  · exact law.keptByBus.setRx _ _ _ hs
  · exact law.eachMonitor _ .A _ Monitor.clearCounters_gentle hs
  · exact law.eachMonitor _ .B _ Monitor.clearCounters_gentle hs
  · exact law.selectors s _ (s.sup.withPool_selectorsOnly _).records rfl hs
  · exact law.withEgress _ hs
  · exact law.same s _ rfl rfl rfl hs

theorem State.Guarded.requestRecord (r : RecIx) (kind : Request) (hs : P s) : P (s.requestRecord r kind) :=
  law.evaluateBy _ false r (law.modLive s r _ (fun _ => rfl) hs)

theorem State.Guarded.performBusSet (params : List Byte) (hs : P s) : P (performBusSet params s).1 := by
  unfold Machine.performBusSet
  split
  · exact hs
  · split
    · exact law.withEgress _ hs
    · split
      · exact hs
      · split
        · exact hs
        · exact law.keptByBus.setBus _ _ _ _ _ hs
    · exact hs

theorem State.Guarded.performCreate (params : List Byte) (hs : P s) : P (performCreate params s).1 := by
  unfold Machine.performCreate
  split
  · exact hs
  · rename_i length
    split
    · exact hs
    · rename_i f read
      split
      · exact hs
      · rename_i r free
        have fits : params.length = createLength (byteAt params 3) := by tauto
        obtain ⟨inRange, distinct⟩ := readCreate_law fits read
        exact law.createAt s r f free inRange distinct hs

theorem State.Guarded.performAmend (params : List Byte) (hs : P s) : P (performAmend params s).1 := by
  unfold Machine.performAmend
  dsimp only
  split
  · exact hs
  · split
    · exact hs
    · rename_i v values
      split
      · exact hs
      · rename_i a read
        split
        · exact hs
        · rename_i r l checked
          split
          · exact hs
          · split
            · exact hs
            · rename_i distinct
              exact law.amendRecord s r l a (State.checkRecord_ok checked).1 (readAmend_law values read) distinct hs

theorem State.Guarded.performActivate (params : List Byte) (hs : P s) : P (performActivate params s).1 := by
  unfold Machine.performActivate
  split
  · exact hs
  · split
    · exact hs
    · split
      · exact hs
      · split
        · exact hs
        · exact law.queueUpdate _ (law.arm _ hs)

theorem State.Guarded.performReplace (params : List Byte) (hs : P s) : P (performReplace params s).1 := by
  unfold Machine.performReplace
  split
  · exact hs
  · split
    · exact hs
    · split
      · exact hs
      · split
        · exact hs
        · split
          · exact hs
          · split
            · exact hs
            · split
              · exact hs
              · exact law.queueUpdate _ (law.arm _ (law.beginRetiring _ hs))

theorem State.Guarded.performRetire (params : List Byte) (hs : P s) : P (performRetire params s).1 := by
  unfold Machine.performRetire
  split
  · exact hs
  · split
    · exact hs
    · exact law.retireRecord _ _ hs

theorem State.Guarded.performRequest (params : List Byte) (hs : P s) : P (performRequest params s).1 := by
  unfold Machine.performRequest
  split
  · exact hs
  · split
    · split
      · exact hs
      · split
        · exact hs
        · exact law.requestRecord _ _ hs
    · exact hs

theorem State.Guarded.performNoticeFetch (params : List Byte) (hs : P s) : P (performNoticeFetch params s).1 := by
  unfold Machine.performNoticeFetch
  split
  · exact hs
  · split
    · exact hs
    · rename_i e rest queue
      exact law.fetched s e rest queue hs

/-- Every command keeps such a law. -/
theorem State.Guarded.perform (c : Command) (params : List Byte) (s : State) (hs : P s) : P (perform c params s).1 := by
  have unchanged {t : State} (h : t = s) : P t := h ▸ hs
  cases c with
  | ident => exact unchanged (performIdent_state params s)
  | softReset =>
    show P (performSoftReset params s).1
    unfold performSoftReset
    split
    · exact hs
    · exact law.softReset s hs
  | busSet => exact law.performBusSet params hs
  | busRead => exact unchanged (performBusRead_state params s)
  | create => exact law.performCreate params hs
  | amend => exact law.performAmend params hs
  | activate => exact law.performActivate params hs
  | replace => exact law.performReplace params hs
  | retire => exact law.performRetire params hs
  | request => exact law.performRequest params hs
  | recordRead => exact unchanged (performRecordRead_state params s)
  | mapRead => exact unchanged (performMapRead_state params s)
  | sourceRead => exact unchanged (performSourceRead_state params s)
  | noticeFetch => exact law.performNoticeFetch params hs
  | alertSet =>
    show P (performAlertSet params s).1
    unfold performAlertSet
    split
    · exact hs
    · split
      · exact hs
      · exact law.same s _ rfl rfl rfl hs
  | linkRead => exact unchanged (performLinkRead_state params s)
  | countersClear =>
    show P (performCountersClear params s).1
    unfold performCountersClear
    split
    · exact hs
    · split
      · exact hs
      · rename_i t cleared
        exact law.clearGroup cleared hs

/-- A law kept by the shared operations is kept by every event of the part. -/
theorem State.Guarded.kept : State.Kept P where
  pending s _ hs := law.same s _ rfl rfl rfl hs
  hardReset := law.hardReset
  release s hs := law.same s _ rfl rfl rfl hs
  tick _ hs := law.tick hs
  loseClock := law.keptByBus.loseClock
  takeWord := law.keptByBus.takeWord
  egressEdge _ eref hs := law.egressEdge eref hs
  buildDue _ hs := law.buildDue hs
  loseEgressClock _ hs := law.loseEgressClock hs
  transfer _ bytes edges early holdRunsOut hs :=
    State.transfer_keep (fun s _ hs => law.same s _ rfl rfl rfl hs) law.perform bytes edges early holdRunsOut hs
  expireHold s hs := law.same s _ (by simp) (by simp) (by simp) hs
  complete s hs := law.same s _ rfl rfl rfl hs

end

end Sys2Proof.Machine
end

section
/-! SUPPORT. R67, R164, R165: the law of the notice queue and the held indexes, kept by every shared operation. -/
namespace Sys2Proof.Machine

/-! ## Entries after a posting -/

/-- Where a queue has one entry a subject, a posting leaves the entries of other subjects, adds its kind to the entry of
its subject, or makes one. -/
theorem mem_addNotice_iff {x : Subject} {g : Option Byte} {k : Kind} {xs : List Entry} {e : Entry}
    (once : (xs.map (·.subject)).Nodup) :
    e ∈ addNotice x g k xs ↔ (e ∈ xs ∧ e.subject ≠ x) ∨
      (∃ e' ∈ xs, e'.subject = x ∧ e = { e' with kinds := e'.kinds ||| k.bit }) ∨
      ((∀ e' ∈ xs, e'.subject ≠ x) ∧ e = ⟨x, g, k.bit⟩) := by
  by_cases queued : ∃ e ∈ xs, e.subject = x
  · rw [addNotice_queued once queued, List.mem_map]
    constructor
    · rintro ⟨e', he', rfl⟩
      by_cases hx : e'.subject = x
      · exact .inr (.inl ⟨e', he', hx, addKind_of_eq hx⟩)
      · rw [addKind_of_ne hx]
        exact .inl ⟨he', hx⟩
    · rintro (⟨he, hx⟩ | ⟨e', he', hx, rfl⟩ | ⟨none, -⟩)
      · exact ⟨e, he, addKind_of_ne hx⟩
      · exact ⟨e', he', addKind_of_eq hx⟩
      · obtain ⟨e', he', hx⟩ := queued
        exact absurd hx (none e' he')
  · have none : ∀ e' ∈ xs, e'.subject ≠ x := fun e' he' hx => queued ⟨e', he', hx⟩
    rw [addNotice_new none, List.mem_append, List.mem_singleton]
    constructor
    · rintro (he | he)
      · exact .inl ⟨he, none e he⟩
      · exact .inr (.inr ⟨none, he⟩)
    · rintro (⟨he, -⟩ | ⟨e', he', hx, -⟩ | ⟨-, he⟩)
      · exact .inl he
      · exact absurd hx (none e' he')
      · exact .inr he

theorem ne_zero_of_hasKind {a : Byte} {k : Kind} (h : hasKind a k = true) : a ≠ 0 := by
  rintro rfl
  simp [hasKind] at h

/-- The bit of another record kind holds no RETIRED. -/
theorem hasKind_bit_retired {k : Kind} (h : k ≠ .retired) : hasKind k.bit .retired = false := by
  have added := hasKind_or_retired (a := 0) h
  rwa [show (0 : Byte) ||| k.bit = k.bit from BitVec.zero_or] at added

/-! ## The law and single operations -/

/-- What the law of the queue sees of a record: generation, hold, and whether it is live. -/
def Supervision.standing (u : Supervision) (r : RecIx) : Byte × Bool × Bool :=
  ((u.record r).generation, (u.record r).held, (u.live r).isNone)

theorem NoticeLaw.of_standing {u v : Supervision} (law : NoticeLaw u) (records : ∀ r, v.standing r = u.standing r)
    (notices : v.notices = u.notices) : NoticeLaw v := by
  have generation (r : RecIx) : (v.record r).generation = (u.record r).generation := congrArg (·.1) (records r)
  have held (r : RecIx) : (v.record r).held = (u.record r).held := congrArg (·.2.1) (records r)
  have free (r : RecIx) : (v.live r).isNone = (u.live r).isNone := congrArg (·.2.2) (records r)
  refine ⟨?_, ?_, ?_, ?_, ?_, ?_⟩
  · rw [notices]; exact law.oneEach
  · rw [notices]; exact law.hasKinds
  · rw [notices]
    intro e he r hr
    rw [generation, free]
    exact law.ofRecord e he r hr
  · rw [notices]; exact law.ofOther
  · intro r
    rw [notices, held]
    exact law.held r
  · intro r hr
    rw [← Option.isNone_iff_eq_none, free, Option.isNone_iff_eq_none]
    exact law.heldFree r (by rw [← held]; exact hr)

theorem Supervision.standing_of_sameRecords {u v : Supervision} (h : u.sameRecords v) (r : RecIx) :
    v.standing r = u.standing r := by
  obtain ⟨generation, held, -⟩ := h r
  have free : (v.live r).isNone = (u.live r).isNone := by
    rw [Bool.eq_iff_iff, Option.isNone_iff_eq_none, Option.isNone_iff_eq_none]
    exact Supervision.sameRecords_none h r
  rw [Supervision.standing, Supervision.standing, generation, held, free]

theorem Supervision.standing_modLive (u : Supervision) (r q : RecIx) (f : Live → Live) :
    (u.modLive r f).standing q = u.standing q := by
  have free : ((u.modLive r f).live q).isNone = (u.live q).isNone := by
    rw [Supervision.modLive_live]
    split
    · rename_i same
      subst same
      exact Option.isNone_map
    · rfl
  rw [Supervision.standing, Supervision.standing, Supervision.modLive_generation, Supervision.modLive_held, free]

/-- A posting for a bus, the egress side or a live record keeps the law. -/
theorem NoticeLaw.addNotice {u : Supervision} (law : NoticeLaw u) {x : Subject} {g : Option Byte} {k : Kind}
    (ofRecord : ∀ r, x = .record r → g = some (u.record r).generation ∧ k ≠ .retired ∧ u.live r ≠ none)
    (ofOther : (∀ r, x ≠ .record r) → g = none) : NoticeLaw { u with notices := addNotice x g k u.notices } := by
  have tells (r : RecIx) : (∃ e ∈ Machine.addNotice x g k u.notices, e.subject = .record r ∧ hasKind e.kinds .retired = true) ↔
      ∃ e ∈ u.notices, e.subject = .record r ∧ hasKind e.kinds .retired = true := by
    refine ⟨?_, addNotice_keeps⟩
    rintro ⟨e, he, hr, hk⟩
    rcases (mem_addNotice_iff law.oneEach).1 he with ⟨he, -⟩ | ⟨e', he', hx, rfl⟩ | ⟨-, rfl⟩
    · exact ⟨e, he, hr, hk⟩
    · obtain ⟨-, other, -⟩ := ofRecord r (hx.symm.trans hr)
      exact ⟨e', he', hr, by rwa [hasKind_or_retired other] at hk⟩
    · obtain ⟨-, other, -⟩ := ofRecord r hr
      rw [hasKind_bit_retired other] at hk
      cases hk
  refine ⟨addNotice_nodup law.oneEach, ?_, ?_, ?_, fun r => (law.held r).trans (tells r).symm, law.heldFree⟩
  · intro e he
    rcases (mem_addNotice_iff law.oneEach).1 he with ⟨he, -⟩ | ⟨e', -, -, rfl⟩ | ⟨-, rfl⟩
    · exact law.hasKinds e he
    · exact ne_zero_of_hasKind (hasKind_or_self _ k)
    · cases k <;> simp [Kind.bit]
  · intro e he r hr
    rcases (mem_addNotice_iff law.oneEach).1 he with ⟨he, -⟩ | ⟨e', he', hx, rfl⟩ | ⟨-, rfl⟩
    · exact law.ofRecord e he r hr
    · obtain ⟨-, other, -⟩ := ofRecord r (hx.symm.trans hr)
      rw [hasKind_or_retired other]
      exact law.ofRecord e' he' r hr
    · obtain ⟨generation, other, live⟩ := ofRecord r hr
      refine ⟨generation, ?_⟩
      rw [hasKind_bit_retired other, Option.isNone_iff_eq_none]
      exact iff_of_false (by simp) live
  · intro e he hr
    rcases (mem_addNotice_iff law.oneEach).1 he with ⟨he, -⟩ | ⟨e', he', -, rfl⟩ | ⟨-, rfl⟩
    · exact law.ofOther e he hr
    · exact law.ofOther e' he' hr
    · exact ofOther hr

/-- A posting for a record, a masked one and one for a FREE record stopped, keeps the law. -/
theorem NoticeLaw.postRecord {u : Supervision} (law : NoticeLaw u) {r : RecIx} {k : Kind} (other : k ≠ .retired)
    (live : k.maskable = true ∨ (u.live r).isSome) : NoticeLaw (u.postRecord r k) := by
  unfold Supervision.postRecord
  split
  · exact law
  · rename_i taken
    refine law.addNotice (fun q hq => ?_) (fun h => absurd rfl (h r))
    cases hq
    refine ⟨rfl, other, fun free => ?_⟩
    rcases live with maskable | live
    · simp [Supervision.masks, maskable, free] at taken
    · simp [free] at live

theorem NoticeLaw.postIf {u : Supervision} (law : NoticeLaw u) (arose : Bool) {r : RecIx} {k : Kind}
    (maskable : k.maskable = true) : NoticeLaw (u.postIf arose r k) := by
  unfold Supervision.postIf
  split
  · exact law.postRecord (Kind.ne_retired_of_maskable maskable) (.inl maskable)
  · exact law

theorem NoticeLaw.evaluate {u : Supervision} (law : NoticeLaw u) (r : RecIx) (expiry : Bool) (w : Judgement)
    (p : Option Judgement) : NoticeLaw (u.evaluate r expiry w p) := by
  unfold Supervision.evaluate
  split
  · exact law
  · rename_i l hl
    dsimp only
    refine ((((?_ : NoticeLaw _).postIf _ rfl).postIf _ rfl).postIf _ rfl).postIf _ rfl
    have stored := law.of_standing (fun q => u.standing_modLive r q fun l => { l with sel := { l.sel with w := some w, p := p } }) rfl
    have settling := Supervision.settle_selectorsOnly (u.modSel r (fun x => { x with w := some w, p := p })) r expiry
      l.fields { l.sel with w := some w, p := p } (meritOf l.fields.degradeSwitch (some w)) (meritOf l.fields.degradeSwitch p)
    have settled := stored.of_standing (Supervision.standing_of_sameRecords settling.records) settling.notices
    split
    · exact settled.of_standing (fun q => Supervision.standing_modLive _ r q _) rfl
    · exact settled

theorem NoticeLaw.evaluateBy {s : State} (law : NoticeLaw s.sup) (expiry : Bool) (r : RecIx) :
    NoticeLaw (s.evaluateBy expiry r).sup := by
  unfold State.evaluateBy
  split
  · exact law
  · exact law.evaluate r expiry _ _

/-! ## Records becoming FREE and live -/

section
variable {u v : Supervision} {r : RecIx}

theorem Supervision.live_of_record {q : RecIx} (h : v.record q = u.record q) : v.live q = u.live q := congrArg Record.live h

/-- A record that becomes FREE is told RETIRED and held (R66, R67). -/
theorem NoticeLaw.freed (law : NoticeLaw u)
    (notices : v.notices = Machine.addNotice (.record r) (some (u.record r).generation) .retired u.notices)
    (self : v.record r = { u.record r with held := true, live := none }) (same : ∀ q, r ≠ q → v.record q = u.record q) :
    NoticeLaw v := by
  have free : v.live r = none := congrArg Record.live self
  refine ⟨by rw [notices]; exact addNotice_nodup law.oneEach, ?_, ?_, ?_, ?_, ?_⟩
  · rw [notices]
    intro e he
    rcases (mem_addNotice_iff law.oneEach).1 he with ⟨he, -⟩ | ⟨e', -, -, rfl⟩ | ⟨-, rfl⟩
    · exact law.hasKinds e he
    · exact ne_zero_of_hasKind (hasKind_or_self _ _)
    · simp [Kind.bit]
  · rw [notices]
    intro e he q hq
    by_cases hrq : r = q
    · subst hrq
      rw [free, self]
      rcases (mem_addNotice_iff law.oneEach).1 he with ⟨-, hx⟩ | ⟨e', he', hx, rfl⟩ | ⟨-, rfl⟩
      · exact absurd hq hx
      · exact ⟨(law.ofRecord e' he' r hx).1, iff_of_true (hasKind_or_self _ _) rfl⟩
      · exact ⟨rfl, iff_of_true (show hasKind Kind.retired.bit .retired = true by decide) rfl⟩
    · rw [Supervision.live_of_record (same q hrq), same q hrq]
      rcases (mem_addNotice_iff law.oneEach).1 he with ⟨he, -⟩ | ⟨e', -, hx, rfl⟩ | ⟨-, rfl⟩
      · exact law.ofRecord e he q hq
      · exact absurd (Subject.record.inj (hx.symm.trans hq)) hrq
      · exact absurd (Subject.record.inj hq) hrq
  · rw [notices]
    intro e he hr
    rcases (mem_addNotice_iff law.oneEach).1 he with ⟨he, -⟩ | ⟨e', he', -, rfl⟩ | ⟨-, rfl⟩
    · exact law.ofOther e he hr
    · exact law.ofOther e' he' hr
    · exact absurd rfl (hr r)
  · rw [notices]
    intro q
    by_cases hrq : r = q
    · subst hrq
      rw [self]
      exact iff_of_true rfl (addNotice_tells _ _ _ _)
    · rw [same q hrq, law.held q]
      refine ⟨addNotice_keeps, ?_⟩
      rintro ⟨e, he, hq, hk⟩
      rcases (mem_addNotice_iff law.oneEach).1 he with ⟨he, -⟩ | ⟨e', -, hx, rfl⟩ | ⟨-, rfl⟩
      · exact ⟨e, he, hq, hk⟩
      · exact absurd (Subject.record.inj (hx.symm.trans hq)) hrq
      · exact absurd (Subject.record.inj hq) hrq
  · intro q hq
    by_cases hrq : r = q
    · exact hrq ▸ free
    · rw [Supervision.live_of_record (same q hrq)]
      exact law.heldFree q (by rwa [same q hrq] at hq)

/-- A FREE index that is not held has no entry in the queue. -/
theorem NoticeLaw.no_entry (law : NoticeLaw u) (free : u.live r = none) (notHeld : (u.record r).held = false) :
    ∀ e ∈ u.notices, e.subject ≠ .record r := by
  intro e he hr
  have retired : hasKind e.kinds .retired = true := (law.ofRecord e he r hr).2.2 (by simp [free])
  have held := (law.held r).2 ⟨e, he, hr, retired⟩
  rw [notHeld] at held
  cases held

/-- An allocation of a FREE index that is not held keeps the law. -/
theorem NoticeLaw.allocated (law : NoticeLaw u) (free : u.live r = none) (notHeld : (u.record r).held = false)
    (notices : v.notices = u.notices) (self : (v.record r).held = false) (same : ∀ q, r ≠ q → v.record q = u.record q) :
    NoticeLaw v := by
  have alone := law.no_entry free notHeld
  refine ⟨by rw [notices]; exact law.oneEach, by rw [notices]; exact law.hasKinds, ?_, by rw [notices]; exact law.ofOther, ?_, ?_⟩
  · rw [notices]
    intro e he q hq
    have hrq : r ≠ q := by rintro rfl; exact alone e he hq
    rw [Supervision.live_of_record (same q hrq), same q hrq]
    exact law.ofRecord e he q hq
  · rw [notices]
    intro q
    by_cases hrq : r = q
    · subst hrq
      rw [self]
      exact iff_of_false (by simp) fun ⟨e, he, hr, _⟩ => alone e he hr
    · rw [same q hrq]
      exact law.held q
  · intro q hq
    by_cases hrq : r = q
    · subst hrq
      rw [self] at hq
      cases hq
    · rw [Supervision.live_of_record (same q hrq)]
      exact law.heldFree q (by rwa [same q hrq] at hq)

/-- The head entry of a live record, of a bus or of the egress side is removed. -/
theorem NoticeLaw.removed (law : NoticeLaw u) {e : Entry} {rest : List Entry} (queue : u.notices = e :: rest)
    (notRetired : ∀ r, e.subject = .record r → hasKind e.kinds .retired = false) :
    NoticeLaw { u with notices := rest } := by
  have once := law.oneEach
  rw [queue] at once
  have later (e' : Entry) (he' : e' ∈ rest) : e' ∈ u.notices := by rw [queue]; exact List.mem_cons_of_mem _ he'
  refine ⟨(List.nodup_cons.1 once).2, fun e' he' => law.hasKinds e' (later e' he'),
    fun e' he' => law.ofRecord e' (later e' he'), fun e' he' => law.ofOther e' (later e' he'), fun r => ?_, law.heldFree⟩
  refine (law.held r).trans ?_
  rw [queue]
  simp only [List.mem_cons, exists_eq_or_imp, or_iff_right_iff_imp]
  rintro ⟨hr, hk⟩
  rw [notRetired r hr] at hk
  cases hk

/-- The head entry carrying RETIRED is removed, and the hold of its index ends (R67, R170). -/
theorem NoticeLaw.holdEnded (law : NoticeLaw u) {e : Entry} {rest : List Entry} (queue : u.notices = e :: rest)
    (head : e.subject = .record r) (notices : v.notices = rest) (self : v.record r = { u.record r with held := false })
    (same : ∀ q, r ≠ q → v.record q = u.record q) : NoticeLaw v := by
  have once := law.oneEach
  rw [queue] at once
  obtain ⟨alone, once⟩ := List.nodup_cons.1 once
  have later (e' : Entry) (he' : e' ∈ rest) : e' ∈ u.notices := by rw [queue]; exact List.mem_cons_of_mem _ he'
  have other (e' : Entry) (he' : e' ∈ rest) : e'.subject ≠ .record r := fun h => alone (by
    have := List.mem_map_of_mem (f := (·.subject)) he'
    rwa [h, ← head] at this)
  refine ⟨by rw [notices]; exact once, by rw [notices]; exact fun e' he' => law.hasKinds e' (later e' he'), ?_,
    by rw [notices]; exact fun e' he' => law.ofOther e' (later e' he'), ?_, ?_⟩
  · rw [notices]
    intro e' he' q hq
    have hrq : r ≠ q := by rintro rfl; exact other e' he' hq
    rw [Supervision.live_of_record (same q hrq), same q hrq]
    exact law.ofRecord e' (later e' he') q hq
  · rw [notices]
    intro q
    by_cases hrq : r = q
    · subst hrq
      rw [self]
      exact iff_of_false (by simp) fun ⟨e', he', hr, _⟩ => other e' he' hr
    · rw [same q hrq, law.held q, queue]
      simp only [List.mem_cons, exists_eq_or_imp, or_iff_right_iff_imp]
      rintro ⟨hq, -⟩
      exact absurd (Subject.record.inj (head.symm.trans hq)) hrq
  · intro q hq
    by_cases hrq : r = q
    · subst hrq
      rw [self] at hq
      cases hq
    · rw [Supervision.live_of_record (same q hrq)]
      exact law.heldFree q (by rwa [same q hrq] at hq)

/-- A queue that is empty, with no index held. -/
theorem NoticeLaw.of_empty (empty : u.notices = []) (notHeld : ∀ r, (u.record r).held = false) : NoticeLaw u := by
  constructor <;> simp [empty, notHeld]

end

/-! ## The table and the queue after a record became FREE -/

theorem put_put {α : Type} {n : Nat} (v : Vector α n) (i : Fin n) (x y : α) : put (put v i x) i y = put v i y := by
  simp [put]

theorem Supervision.setRecord_setRecord (u : Supervision) (r : RecIx) (x y : Record) :
    (u.setRecord r x).setRecord r y = u.setRecord r y := by
  rw [Supervision.setRecord, Supervision.setRecord, put_put]
  rfl

/-- A record that becomes FREE leaves its generation, a hold and RETIRED queued (R66). -/
theorem State.freeRecord_sup {s : State} {r : RecIx} {l : Live} (hl : s.sup.live r = some l) :
    (s.freeRecord r).sup =
      { s.sup with notices := addNotice (.record r) (some (s.sup.record r).generation) .retired s.sup.notices }.setRecord r
        { s.sup.record r with held := true, live := none } := by
  have told (u : Supervision) (g : Byte) (hg : (u.record r).generation = g) :
      u.postRecord r .retired = { u with notices := addNotice (.record r) (some g) .retired u.notices } := by
    rw [← hg]
    rfl
  unfold State.freeRecord
  rw [hl]
  simp only [State.dropRefs_sup]
  rw [told _ (s.sup.record r).generation (by rw [Supervision.setRecord_same])]
  rw [Supervision.setRecord_notices]
  generalize addNotice (.record r) (some (s.sup.record r).generation) .retired s.sup.notices = queue
  have first : ({ s.sup.setRecord r { s.sup.record r with live := none } with notices := queue } : Supervision) =
      { s.sup with notices := queue }.setRecord r { s.sup.record r with live := none } := rfl
  rw [first, Supervision.setRecord_same, Supervision.setRecord_setRecord]

theorem State.freeRecord_of_free {s : State} {r : RecIx} (free : s.sup.live r = none) : s.freeRecord r = s := by
  simp [State.freeRecord, free]

/-! ## Every operation -/

theorem noticeLaw_guarded : State.Guarded fun s => NoticeLaw s.sup where
  same s t _ _ h law := by rw [h]; exact law
  selectors s u h h' law := law.of_standing (Supervision.standing_of_sameRecords h) h'
  evaluateBy s expiry r law := law.evaluateBy expiry r
  post s x k other law := law.addNotice (fun r hr => absurd hr (other r)) fun _ => rfl
  postRecord s r k other live law := law.postRecord other live
  modLive s r f _ law := law.of_standing (fun q => s.sup.standing_modLive r q f) rfl
  freeRecord s r law := by
    cases hl : s.sup.live r with
    | none => rwa [State.freeRecord_of_free hl]
    | some l =>
      rw [State.freeRecord_sup hl]
      exact law.freed rfl (Supervision.setRecord_same _ _ _) fun q hq => Supervision.setRecord_ne _ _ hq
  createAt s r f free _ _ law := by
    obtain ⟨free, notHeld⟩ := Supervision.freeIndex_some free
    refine NoticeLaw.evaluateBy (s := State.takeRefs _ f.sources) ?_ false r
    rw [State.takeRefs_sup]
    exact law.allocated free notHeld rfl (by rw [Supervision.setRecord_same]) fun q hq => Supervision.setRecord_ne _ _ hq
  amendRecord s r l a _ _ _ law := by
    have written : NoticeLaw (State.dropRefs (State.takeRefs { s with sup := s.sup.modLive r fun k =>
        { k with fields := a.apply l.fields } } a.taken) (a.droppedFrom l.fields)).sup := by
      rw [State.dropRefs_sup, State.takeRefs_sup]
      exact law.of_standing (fun q => s.sup.standing_modLive r q _) rfl
    have cleared := written.of_standing (fun q => Supervision.standing_modLive _ r q fun k =>
      { k with sel := { k.sel with request := k.sel.request.withoutProtect } }) rfl
    unfold State.amendRecord
    dsimp only
    split <;> split
    · exact NoticeLaw.evaluateBy cleared false r
    · exact NoticeLaw.evaluateBy written false r
    · exact cleared
    · exact written
  fetched s e rest queue law := by
    show NoticeLaw ({ s.sup with notices := rest }.endHold e)
    unfold Supervision.endHold
    cases hs : e.subject with
    | bus b => exact law.removed queue (by simp [hs])
    | egress => exact law.removed queue (by simp [hs])
    | record r =>
      dsimp only
      split
      · exact law.holdEnded queue hs rfl (Supervision.setRecord_same _ _ _) fun q hq => Supervision.setRecord_ne _ _ hq
      · rename_i notRetired
        exact law.removed queue fun _ _ => by simpa using notRetired
  softReset s _ := .of_empty rfl fun r => by rw [State.softReset_record]; rfl
  hardReset s _ := .of_empty rfl fun r => by rw [State.hardReset_record]; rfl
  eachMonitor s b f _ law := by simpa using law
  take s src threshold frame law := by simpa using law

/-- Settles O7: every shared operation keeps the law, so every step does. -/
theorem noticeLawKept : Obligations.NoticeLawKept := fun _ _ law next => noticeLaw_guarded.kept.step law next

end Sys2Proof.Machine
end

section
/-! SUPPORT. R36, R39: every reference count is the number of live records naming the slot, kept by every shared
operation. -/
namespace Sys2Proof.Machine

/-! ## Reference counts -/

theorem Monitor.takeRef_refs (m : Monitor) : m.takeRef.refs = m.refs + 1 := by
  unfold Monitor.takeRef
  split
  · rename_i h
    rw [h]
    rfl
  · rfl

theorem Monitor.dropRef_refs (m : Monitor) : m.dropRef.refs = m.refs - 1 := by
  unfold Monitor.dropRef
  split
  · rename_i h
    show 0 = m.refs - 1
    omega
  · rfl

theorem State.setMonitor_monitor (s : State) (src x : Source) (m : Monitor) :
    (s.setMonitor x m).monitor src = if x = src then m else s.monitor src := by
  split
  · rename_i h
    subst h
    exact s.setMonitor_same x m
  · rename_i h
    exact s.setMonitor_ne m h

theorem State.monitor_congr {s t : State} (hA : t.monA = s.monA) (hB : t.monB = s.monB) (src : Source) :
    t.monitor src = s.monitor src := by
  obtain ⟨b, n⟩ := src
  cases b with
  | A => exact congrArg (pick · n) hA
  | B => exact congrArg (pick · n) hB

theorem State.withSup_monitor (s : State) (u : Supervision) (src : Source) : State.monitor { s with sup := u } src = s.monitor src :=
  State.monitor_congr rfl rfl src

theorem State.takeRefs_refs (s : State) (srcs : List Source) (src : Source) :
    ((s.takeRefs srcs).monitor src).refs = (s.monitor src).refs + srcs.count src := by
  unfold State.takeRefs
  induction srcs generalizing s with
  | nil => rfl
  | cons x xs ih =>
    rw [List.foldl_cons, ih, State.setMonitor_monitor, List.count_cons]
    split
    · rename_i h
      subst h
      rw [Monitor.takeRef_refs, beq_self_eq_true, if_pos rfl]
      omega
    · rename_i h
      rw [beq_false_of_ne h, if_neg (by simp)]
      omega

theorem State.dropRefs_refs (s : State) (srcs : List Source) (src : Source) :
    ((s.dropRefs srcs).monitor src).refs = (s.monitor src).refs - srcs.count src := by
  unfold State.dropRefs
  induction srcs generalizing s with
  | nil => rfl
  | cons x xs ih =>
    rw [List.foldl_cons, ih, State.setMonitor_monitor, List.count_cons]
    split
    · rename_i h
      subst h
      rw [Monitor.dropRef_refs, beq_self_eq_true, if_pos rfl]
      omega
    · rename_i h
      rw [beq_false_of_ne h, if_neg (by simp)]
      omega

/-! ## How many live records name a slot -/

/-- The number of sources of live records that are the slot. -/
def Supervision.named (u : Supervision) (src : Source) : Nat := ((List.finRange 64).map (u.naming src)).sum

theorem Supervision.naming_live {u : Supervision} {r : RecIx} {l : Live} (h : u.live r = some l) (src : Source) :
    u.naming src r = l.fields.sources.count src := by
  rw [Supervision.naming, h]

theorem Supervision.naming_free {u : Supervision} {r : RecIx} (h : u.live r = none) (src : Source) : u.naming src r = 0 := by
  rw [Supervision.naming, h]

theorem Supervision.naming_congr {u v : Supervision} {r : RecIx}
    (h : (v.live r).map (·.fields) = (u.live r).map (·.fields)) (src : Source) : v.naming src r = u.naming src r := by
  have byFields (w : Supervision) : w.naming src r = (((w.live r).map (·.fields)).map (·.sources.count src)).getD 0 := by
    unfold Supervision.naming
    cases w.live r <;> rfl
  rw [byFields, byFields, h]

/-- Where one record alone differs, the number differs by what that record names. -/
theorem Supervision.named_change {u v : Supervision} {r : RecIx} (same : ∀ q, r ≠ q → v.record q = u.record q) (src : Source) :
    v.named src + u.naming src r = u.named src + v.naming src r := by
  have split (w : Supervision) : w.named src = w.naming src r + ∑ q ∈ Finset.univ.erase r, w.naming src q := by
    rw [Supervision.named, ← Fin.sum_univ_def, Finset.add_sum_erase _ _ (Finset.mem_univ r)]
  have others : ∑ q ∈ Finset.univ.erase r, v.naming src q = ∑ q ∈ Finset.univ.erase r, u.naming src q :=
    Finset.sum_congr rfl fun q hq =>
      Supervision.naming_congr (by rw [Supervision.live_of_record (same q (Finset.ne_of_mem_erase hq).symm)]) src
  rw [split v, split u, others]
  omega

/-! ## The law -/

/-- Where no reference count and no record's fields change, the law stays. -/
theorem ReferenceLaw.of_same {s t : State} (law : ReferenceLaw s) (refs : ∀ src, (t.monitor src).refs = (s.monitor src).refs)
    (fields : ∀ r, (t.sup.live r).map (·.fields) = (s.sup.live r).map (·.fields)) : ReferenceLaw t where
  counted src := by
    rw [refs, law.counted]
    exact congrArg List.sum (List.map_congr_left fun r _ => (Supervision.naming_congr (fields r) src).symm)
  once r l hl := by
    have same := fields r
    rw [hl] at same
    obtain ⟨k, hk, hf⟩ := Option.map_eq_some_iff.1 same.symm
    have hf : k.fields = l.fields := hf
    rw [← hf]
    exact law.once r k hk

/-- Where one record changes, it names two slots if live, and each count follows what it names, the law stays. -/
theorem ReferenceLaw.of_change {s t : State} (law : ReferenceLaw s) {r : RecIx}
    (same : ∀ q, r ≠ q → t.sup.record q = s.sup.record q)
    (refs : ∀ src, s.sup.naming src r ≤ (s.monitor src).refs →
      (t.monitor src).refs + s.sup.naming src r = (s.monitor src).refs + t.sup.naming src r)
    (distinct : ∀ l, t.sup.live r = some l → l.fields.protect ≠ some l.fields.working) : ReferenceLaw t where
  counted src := by
    have change := Supervision.named_change same src
    have counted : (s.monitor src).refs = s.sup.named src := law.counted src
    have part : s.sup.naming src r ≤ s.sup.named src := List.le_sum_of_mem (List.mem_map_of_mem (List.mem_finRange r))
    have := refs src (by omega)
    show (t.monitor src).refs = t.sup.named src
    omega
  once q l hl := by
    by_cases hrq : r = q
    · exact distinct l (hrq ▸ hl)
    · exact law.once q l (by rwa [Supervision.live_of_record (same q hrq)] at hl)

theorem Supervision.fields_of_sameRecords {u v : Supervision} (h : u.sameRecords v) (r : RecIx) :
    (v.live r).map (·.fields) = (u.live r).map (·.fields) := by
  have := congrArg (Option.map Prod.snd) (h r).2.2
  simpa [Option.map_map, Function.comp_def] using this

theorem Supervision.fields_modLive (u : Supervision) (r q : RecIx) {f : Live → Live} (h : ∀ l, (f l).fields = l.fields) :
    ((u.modLive r f).live q).map (·.fields) = (u.live q).map (·.fields) := by
  rw [Supervision.modLive_live]
  split
  · rename_i same
    subst same
    simp [Option.map_map, Function.comp_def, h]
  · rfl

theorem ReferenceLaw.of_supervises {s t : State} (law : ReferenceLaw s) (h : s.Supervises t) : ReferenceLaw t :=
  law.of_same (fun src => by rw [h.monitor]) (Supervision.fields_of_sameRecords h.records)

/-- A reference is dropped for each source of a record that becomes FREE (R66). -/
theorem State.freeRecord_monitor {s : State} {r : RecIx} {l : Live} (hl : s.sup.live r = some l) (src : Source) :
    (s.freeRecord r).monitor src = (s.dropRefs l.fields.sources).monitor src := by
  have apart (u : Supervision) (srcs : List Source) (t : State) :
      (State.dropRefs { t with sup := u } srcs).monitor src = (t.dropRefs srcs).monitor src := by
    unfold State.dropRefs
    induction srcs generalizing t with
    | nil => obtain ⟨b, n⟩ := src; cases b <;> rfl
    | cons x xs ih =>
      have step : State.setMonitor { t with sup := u } x (State.monitor { t with sup := u } x).dropRef =
          { t.setMonitor x (t.monitor x).dropRef with sup := u } := by
        obtain ⟨b, n⟩ := x
        cases b <;> rfl
      rw [List.foldl_cons, List.foldl_cons, step, ih]
  unfold State.freeRecord
  rw [hl]
  exact (State.withSup_monitor _ _ src).trans (apart _ _ s)

theorem ReferenceLaw.freeRecord {s : State} (law : ReferenceLaw s) (r : RecIx) : ReferenceLaw (s.freeRecord r) := by
  cases hl : s.sup.live r with
  | none => rwa [State.freeRecord_of_free hl]
  | some l =>
    have freed : (s.freeRecord r).sup.live r = none := by
      rw [State.freeRecord_sup hl, Supervision.live, Supervision.setRecord_same]
    refine law.of_change (r := r) (fun q hq => ?_) (fun src part => ?_) fun k hk => ?_
    · rw [State.freeRecord_sup hl]
      exact Supervision.setRecord_ne _ _ hq
    · rw [Supervision.naming_live hl] at part ⊢
      rw [Supervision.naming_free freed, State.freeRecord_monitor hl, State.dropRefs_refs]
      omega
    · rw [freed] at hk
      cases hk

/-- An amendment drops and takes a reference for each source it replaces and names (R70). -/
theorem Amendment.sources_count (a : Amendment) (f : Fields) (src : Source) :
    (a.apply f).sources.count src + (a.droppedFrom f).count src = f.sources.count src + a.taken.count src := by
  unfold Amendment.droppedFrom Amendment.taken Amendment.apply Fields.sources
  have joined (x : Source) (p : Option Source) : (x :: p.toList).count src = [x].count src + p.toList.count src := by
    rw [← List.count_append]
    rfl
  cases a.working <;> cases a.protect <;>
    simp only [Option.getD_none, Option.getD_some, Option.isSome_none, Option.isSome_some, if_true, Bool.false_eq_true, if_false,
      Option.toList_none, Option.toList_some, List.nil_append, List.append_nil, List.count_nil, List.count_append, joined,
      Option.bind_none, Option.bind_some, id] <;> omega

theorem ReferenceLaw.amendRecord {s : State} (law : ReferenceLaw s) {r : RecIx} {l : Live} (hl : s.sup.live r = some l)
    {a : Amendment} (distinct : (a.apply l.fields).protect ≠ some (a.apply l.fields).working) :
    ReferenceLaw (s.amendRecord r l a) := by
  have written : ReferenceLaw (State.dropRefs (State.takeRefs { s with sup := s.sup.modLive r fun k =>
      { k with fields := a.apply l.fields } } a.taken) (a.droppedFrom l.fields)) := by
    have live : (s.sup.modLive r fun k => { k with fields := a.apply l.fields }).live r =
        some { l with fields := a.apply l.fields } := by rw [Supervision.modLive_same, hl]; rfl
    refine law.of_change (r := r) (fun q hq => ?_) (fun src part => ?_) fun k hk => ?_
    · rw [State.dropRefs_sup, State.takeRefs_sup]
      exact Supervision.modLive_record_ne _ _ hq
    · have outside := s.withSup_monitor (s.sup.modLive r fun k => { k with fields := a.apply l.fields }) src
      rw [Supervision.naming_live hl] at part ⊢
      rw [State.dropRefs_refs, State.takeRefs_refs, State.dropRefs_sup, State.takeRefs_sup, Supervision.naming_live live, outside]
      have := a.sources_count l.fields src
      dsimp only
      omega
    · rw [State.dropRefs_sup, State.takeRefs_sup, live] at hk
      cases hk
      exact distinct
  have cleared (t : State) (h : ReferenceLaw t) : ReferenceLaw { t with sup := t.sup.modSel r fun x =>
      { x with request := x.request.withoutProtect } } :=
    h.of_same (fun src => congrArg Monitor.refs (t.withSup_monitor _ src)) (fun q => Supervision.fields_modLive _ r q fun _ => rfl)
  unfold State.amendRecord
  dsimp only
  split <;> split
  · exact (cleared _ written).of_supervises (State.evaluateBy_supervises _ false r)
  · exact written.of_supervises (State.evaluateBy_supervises _ false r)
  · exact cleared _ written
  · exact written

theorem ReferenceLaw.createAt {s : State} (law : ReferenceLaw s) {r : RecIx} (free : s.sup.live r = none) {f : Fields}
    (distinct : f.protect ≠ some f.working) : ReferenceLaw (s.createAt r f) := by
  refine ReferenceLaw.of_supervises ?_ (State.evaluateBy_supervises _ false r)
  have live : (s.sup.setRecord r ((s.sup.record r).allocated f)).live r =
      some { state := .staged, fields := f, sel := Selector.initial } := by
    rw [Supervision.live, Supervision.setRecord_same]
    rfl
  refine law.of_change (r := r) (fun q hq => ?_) (fun src _ => ?_) fun k hk => ?_
  · rw [State.takeRefs_sup]
    exact Supervision.setRecord_ne _ _ hq
  · rw [Supervision.naming_free free, State.takeRefs_sup, State.takeRefs_refs, Nat.add_zero]
    exact congrArg₂ (· + ·) (congrArg Monitor.refs (State.withSup_monitor s _ src)) (Supervision.naming_live live src).symm
  · rw [State.takeRefs_sup] at hk
    cases live.symm.trans hk
    exact distinct

/-- No live record and no reference. -/
theorem ReferenceLaw.of_vacant {s : State} (free : ∀ r, s.sup.live r = none) (clean : ∀ src, s.monitor src = Monitor.clean 0) :
    ReferenceLaw s where
  counted src := by
    rw [clean, List.map_congr_left fun r _ => Supervision.naming_free (free r) src]
    simp [Monitor.clean]
  once r l hl := by
    rw [free r] at hl
    cases hl

/-- What a change of every monitor of one bus leaves. -/
theorem State.setMons_mapTable_monitor (s : State) (b : Bus) (f : Monitor → Monitor) (src : Source) :
    (s.setMons b (mapTable f (s.mons b))).monitor src = if src.bus = b then f (s.monitor src) else s.monitor src := by
  obtain ⟨c, n⟩ := src
  unfold State.monitor
  split
  · rename_i h
    have h : c = b := h
    subst h
    simp
  · rename_i h
    rw [State.setMons_mons_ne _ _ (Ne.symm h)]

theorem referenceLaw_guarded : State.Guarded ReferenceLaw where
  same s t hA hB h law := law.of_same (fun src => by rw [State.monitor_congr hA hB]) fun r => by rw [h]
  selectors s u h _ law := law.of_same (fun src => congrArg Monitor.refs (s.withSup_monitor _ src)) (Supervision.fields_of_sameRecords h)
  evaluateBy s expiry r law := law.of_supervises (s.evaluateBy_supervises expiry r)
  post s x k _ law := law.of_same (fun src => congrArg Monitor.refs (s.withSup_monitor _ src)) fun r => rfl
  postRecord s r k _ _ law :=
    law.of_same (fun src => congrArg Monitor.refs (s.withSup_monitor _ src)) fun q => by rw [Supervision.postRecord_live]
  modLive s r f h law :=
    law.of_same (fun src => congrArg Monitor.refs (s.withSup_monitor _ src)) fun q => Supervision.fields_modLive _ r q h
  freeRecord s r law := law.freeRecord r
  createAt s r f free _ distinct law := law.createAt (Supervision.freeIndex_some free).1 distinct
  amendRecord s r l a hl _ distinct law := law.amendRecord hl distinct
  fetched s e rest _ law := by
    refine law.of_same (fun src => congrArg Monitor.refs (s.withSup_monitor _ src)) fun q => congrArg (Option.map fun l : Live => l.fields) ?_
    show (Supervision.endHold _ e).live q = s.sup.live q
    unfold Supervision.endHold
    split
    · split
      · rename_i r _ _
        by_cases hq : r = q
        · subst hq
          rw [Supervision.live, Supervision.setRecord_same]
          rfl
        · exact congrArg Record.live (Supervision.setRecord_ne _ _ hq)
      · rfl
    · rfl
    · rfl
  softReset s _ := .of_vacant s.softReset_live s.softReset_monitor
  hardReset s _ := .of_vacant s.hardReset_live s.hardReset_monitor
  eachMonitor s b f gentle law := by
    refine law.of_same (fun src => ?_) fun r => by rw [State.setMons_sup]
    rw [State.setMons_mapTable_monitor]
    split
    · exact (gentle _).1
    · rfl
  take s src threshold frame law := by
    refine law.of_same (fun x => ?_) fun r => by rw [State.setMonitor_sup]
    rw [State.setMonitor_monitor]
    split
    · rename_i h
      subst h
      exact Monitor.take_refs _ _ _
    · rfl

/-- Settles O8: every shared operation keeps the counts and the sources apart, so every step does. -/
theorem referenceLawKept : Obligations.ReferenceLawKept := fun _ _ law next => referenceLaw_guarded.kept.step law next

end Sys2Proof.Machine
end

section
/-! SUPPORT. R23 to R38: a monitor taking a slot-frame, a reference taken and one dropped keep the law of a monitor. -/
namespace Sys2Proof.Machine

/-! ## The parts of a slot-frame -/

theorem MonitorLaw.takeFill {m : Monitor} (law : MonitorLaw m) (referenced : m.refs ≠ 0) (fill : Bool) :
    MonitorLaw (m.takeFill fill) := by
  have := law.fillRun
  unfold Monitor.takeFill
  split
  · exact { law with clean := fun h => absurd h referenced, fillRun := Nat.zero_le 2 }
  · split
    · exact { law with clean := fun h => absurd h referenced, fillRun := Nat.zero_le 2 }
    · exact { law with clean := fun h => absurd h referenced, fillRun := by dsimp only; omega }

theorem MonitorLaw.takeBlock {m : Monitor} (law : MonitorLaw m) (referenced : m.refs ≠ 0) (threshold : Byte) (errored : Bool) :
    MonitorLaw (m.takeBlock threshold errored) := by
  have inBlock := law.block.2
  unfold Monitor.takeBlock
  dsimp only
  split
  · refine { law with clean := fun h => absurd h referenced, block := ⟨?_, ?_⟩ }
    · show m.blockPos + 1 ≤ 255
      omega
    · show (if errored then m.blockErrored + 1 else m.blockErrored) ≤ m.blockPos + 1
      split <;> omega
  · exact { law with clean := fun h => absurd h referenced, block := ⟨Nat.zero_le 255, Nat.le_refl 0⟩ }

theorem MonitorLaw.takeCode {m : Monitor} (law : MonitorLaw m) (referenced : m.refs ≠ 0) (code : BitVec 4) :
    MonitorLaw (m.takeCode code) := by
  refine { law with clean := fun h => absurd h referenced, codeRun := ?_ }
  show (if m.codeCandidate = some code then min (m.codeRun + 1) 5 else 1) ≤ 5
  split <;> omega

theorem MonitorLaw.takeRf {m : Monitor} (law : MonitorLaw m) (referenced : m.refs ≠ 0) (rf : Bool) : MonitorLaw (m.takeRf rf) := by
  have := law.rfRun
  unfold Monitor.takeRf
  split
  · exact { law with clean := fun h => absurd h referenced, rfRun := Nat.zero_le 4 }
  · split
    · exact { law with clean := fun h => absurd h referenced, rfRun := Nat.zero_le 4 }
    · exact { law with clean := fun h => absurd h referenced, rfRun := by dsimp only; omega }

theorem MonitorLaw.searchFrame {m : Monitor} (law : MonitorLaw m) (referenced : m.refs ≠ 0) (searching : m.framed = false)
    (mk : Bool) (char : PathChar) : MonitorLaw (m.searchFrame mk char) := by
  have unframed := law.unframed searching
  have notFramed {x : Nat} : m.framed = true → m.gathered.length = x ∧ False := fun h => by rw [searching] at h; cases h
  have candidateAt {c : Option Nat} (h : ∀ k, c = some k → k ≤ 15) : MonitorLaw { m with mkCandidate := c } :=
    { law with
      clean := fun h => absurd h referenced
      candidate := h
      unframed := fun _ => unframed
      following := fun h => (notFramed (x := 0) h).2.elim }
  unfold Monitor.searchFrame
  split
  · split
    · exact candidateAt fun k hk => by cases hk; omega
    · exact law
  · split
    · refine candidateAt fun k hk => ?_
      cases hk
      split <;> omega
    · split
      · exact
          { law with
            clean := fun h => absurd h referenced
            candidate := nofun
            position := Nat.zero_le 15
            unframed := nofun
            following := fun _ => ⟨rfl, rfl⟩
            fails := Nat.zero_le 1 }
      · exact candidateAt nofun

/-! ## The multiframe check -/

/-- What the judgement of a full multiframe leaves: the gathered characters dropped, and a name to confirm that is one. -/
structure Monitor.Judged (m m' : Monitor) : Prop where
  matchCount : m'.matchCount ≤ 3
  names : ∀ n : Name, m'.name = some n ∨ m'.confirming = some n → n.length = 16 ∧ n.all printable = true
  kept : m' = { m with confirming := m'.confirming, matchCount := m'.matchCount, name := m'.name, gathered := [] }

theorem MonitorLaw.judgeName {m : Monitor} (law : MonitorLaw m) (full : m.gathered.length = 16) (pass : Bool) :
    m.Judged (m.judgeName pass) := by
  unfold Monitor.judgeName
  split
  · rename_i h
    have name : m.gathered.length = 16 ∧ m.gathered.all printable = true := ⟨full, (Bool.and_eq_true_iff.1 h).2⟩
    refine ⟨?_, fun n hn => ?_, rfl⟩
    · dsimp only
      split <;> omega
    · rcases hn with hn | hn
      · rcases ite_eq_or_eq ((if m.confirming = some m.gathered then min (m.matchCount + 1) 3 else 1) = 3)
          (some m.gathered) m.name with h | h
        · exact Option.some.inj (h.symm.trans hn) ▸ name
        · exact law.names n (.inl (h.symm.trans hn))
      · exact Option.some.inj hn ▸ name
  · refine ⟨Nat.zero_le 3, fun n hn => ?_, rfl⟩
    rcases hn with hn | hn
    · exact law.names n (.inl hn)
    · cases hn

/-- A check passed, or the first one failed: the next multiframe begins with the character. -/
theorem MonitorLaw.nextMultiframe {m m' : Monitor} (law : MonitorLaw m) (referenced : m.refs ≠ 0) (following : m.framed = true)
    (judged : m.Judged m') {fails : Nat} (few : fails ≤ 1) (char : PathChar) :
    MonitorLaw { m' with mfPos := 0, stray := false, fails := fails, gathered := [char] } := by
  rw [judged.kept]
  exact
    { law with
      clean := fun h => absurd h referenced
      position := Nat.zero_le 15
      unframed := fun h => by cases following.symm.trans h
      following := fun _ => ⟨rfl, (law.following following).2⟩
      fails := few
      matchCount := judged.matchCount
      names := judged.names }

theorem MonitorLaw.loseFraming {m m' : Monitor} (law : MonitorLaw m) (referenced : m.refs ≠ 0) (judged : m.Judged m') :
    MonitorLaw (Monitor.loseFraming { m' with mfPos := 0, stray := false }) := by
  have names := judged.names
  rw [judged.kept]
  refine
    { law with
      clean := fun h => absurd h referenced
      candidate := nofun
      position := Nat.zero_le 15
      unframed := fun _ => ⟨rfl, rfl, rfl, rfl, rfl, rfl⟩
      following := nofun
      fails := Nat.zero_le 1
      matchCount := Nat.zero_le 3
      names := fun n hn => ?_ }
  rcases hn with hn | hn
  · exact names n (.inl hn)
  · cases hn

theorem MonitorLaw.checkMultiframe {m : Monitor} (law : MonitorLaw m) (referenced : m.refs ≠ 0) (following : m.framed = true)
    (last : m.mfPos = 15) (mk : Bool) (char : PathChar) : MonitorLaw (m.checkMultiframe mk char) := by
  have full : m.gathered.length = 16 := by rw [(law.following following).1, last]
  have judged := law.judgeName full (mk && !m.stray)
  unfold Monitor.checkMultiframe
  dsimp only
  split
  · exact law.nextMultiframe referenced following judged (Nat.zero_le 1) char
  · split
    · exact law.loseFraming referenced judged
    · have := law.fails
      have sameFails : (m.judgeName (mk && !m.stray)).fails = m.fails := by rw [judged.kept]
      exact law.nextMultiframe referenced following judged (by omega) char

theorem MonitorLaw.followFrame {m : Monitor} (law : MonitorLaw m) (referenced : m.refs ≠ 0) (following : m.framed = true)
    (mk : Bool) (char : PathChar) : MonitorLaw (m.followFrame mk char) := by
  unfold Monitor.followFrame
  split
  · rename_i last
    exact law.checkMultiframe referenced following last mk char
  · have := law.position
    obtain ⟨gathered, noCandidate⟩ := law.following following
    exact
      { law with
        clean := fun h => absurd h referenced
        position := by dsimp only; omega
        unframed := fun h => by cases following.symm.trans h
        following := fun _ => ⟨by simp [gathered], noCandidate⟩ }

/-! ## A slot-frame, and the references -/

theorem MonitorLaw.takeHeader {m : Monitor} (law : MonitorLaw m) (referenced : m.refs ≠ 0) (header : Word) :
    MonitorLaw (m.takeHeader header) := by
  have finish {x : Monitor} (h : m.SameOutside x) (hx : MonitorLaw x) :
      MonitorLaw ((x.takeCode (hdrCode header)).takeRf (hdrRF header)) := by
    have hr : x.refs ≠ 0 := h.refs ▸ referenced
    exact (hx.takeCode hr _).takeRf hr _
  unfold Monitor.takeHeader
  dsimp only
  split
  · rename_i following
    exact finish (m.followFrame_sameOutside _ _) (law.followFrame referenced following _ _)
  · rename_i searching
    exact finish (m.searchFrame_sameOutside _ _) (law.searchFrame referenced (Bool.not_eq_true _ ▸ searching) _ _)

/-- Whatever slot-frame a monitor takes, it stays in its ranges (R23 to R35). -/
theorem MonitorLaw.take {m : Monitor} (law : MonitorLaw m) (threshold : Byte) (frame : SlotFrame) :
    MonitorLaw (m.take threshold frame) := by
  by_cases referenced : m.refs = 0
  · rwa [Monitor.take_unreferenced referenced]
  · have hf : (m.takeFill frame.fill).refs ≠ 0 := by rwa [Monitor.takeFill_refs]
    have hb : ((m.takeFill frame.fill).takeBlock threshold frame.errored).refs ≠ 0 := by rwa [Monitor.takeBlock_refs]
    have parts := (law.takeFill referenced frame.fill).takeBlock hf threshold frame.errored
    cases filled : (m.takeFill frame.fill).filled with
    | true => rwa [Monitor.take_filled referenced filled]
    | false =>
      rw [Monitor.take_clear referenced filled]
      exact parts.takeHeader hb _

theorem MonitorLaw.withRefs {m : Monitor} (law : MonitorLaw m) {refs : Nat} (referenced : refs ≠ 0) :
    MonitorLaw { m with refs := refs } := { law with clean := fun h => absurd h referenced }

theorem MonitorLaw.takeRef {m : Monitor} (law : MonitorLaw m) : MonitorLaw m.takeRef := by
  unfold Monitor.takeRef
  split
  · exact monitorLaw_clean 1
  · exact law.withRefs (Nat.succ_ne_zero _)

theorem MonitorLaw.dropRef {m : Monitor} (law : MonitorLaw m) : MonitorLaw m.dropRef := by
  unfold Monitor.dropRef
  split
  · exact monitorLaw_clean 0
  · exact law.withRefs (by omega)

/-! ## Every monitor -/

/-- Every monitor of both buses keeps its law. -/
def MonitorsLaw (s : State) : Prop := ∀ src, MonitorLaw (s.monitor src)

theorem MonitorsLaw.congr {s t : State} (law : MonitorsLaw s) (h : ∀ src, t.monitor src = s.monitor src) : MonitorsLaw t :=
  fun src => h src ▸ law src

theorem MonitorsLaw.withSup {s : State} (law : MonitorsLaw s) (u : Supervision) : MonitorsLaw { s with sup := u } :=
  law.congr (s.withSup_monitor u)

theorem MonitorsLaw.of_supervises {s t : State} (law : MonitorsLaw s) (h : s.Supervises t) : MonitorsLaw t := law.congr h.monitor

theorem MonitorsLaw.setMonitor {s : State} (law : MonitorsLaw s) {src : Source} {m : Monitor} (h : MonitorLaw m) :
    MonitorsLaw (s.setMonitor src m) := fun x => by
  rw [State.setMonitor_monitor]
  split
  · exact h
  · exact law x

theorem MonitorsLaw.takeRefs {s : State} (law : MonitorsLaw s) (srcs : List Source) : MonitorsLaw (s.takeRefs srcs) :=
  State.foldl_keep (fun _ _ h => h.setMonitor (h _).takeRef) srcs law

theorem MonitorsLaw.dropRefs {s : State} (law : MonitorsLaw s) (srcs : List Source) : MonitorsLaw (s.dropRefs srcs) :=
  State.foldl_keep (fun _ _ h => h.setMonitor (h _).dropRef) srcs law

theorem monitorsLaw_guarded : State.Guarded MonitorsLaw where
  same s t hA hB _ law := law.congr (State.monitor_congr hA hB)
  selectors s u _ _ law := law.withSup u
  evaluateBy s expiry r law := law.of_supervises (s.evaluateBy_supervises expiry r)
  post s x k _ law := law.withSup _
  postRecord s r k _ _ law := law.withSup _
  modLive s r f _ law := law.withSup _
  freeRecord s r law := by
    cases hl : s.sup.live r with
    | none => rwa [State.freeRecord_of_free hl]
    | some l => exact (law.dropRefs l.fields.sources).congr (State.freeRecord_monitor hl)
  createAt s r f _ _ _ law :=
    ((law.withSup (s.sup.setRecord r ((s.sup.record r).allocated f))).takeRefs f.sources).of_supervises
      (State.evaluateBy_supervises _ false r)
  amendRecord s r l a _ _ _ law := by
    have written := ((law.withSup (s.sup.modLive r fun k => { k with fields := a.apply l.fields })).takeRefs a.taken).dropRefs
      (a.droppedFrom l.fields)
    unfold State.amendRecord
    dsimp only
    split <;> split
    · exact (written.withSup _).of_supervises (State.evaluateBy_supervises _ false r)
    · exact written.of_supervises (State.evaluateBy_supervises _ false r)
    · exact written.withSup _
    · exact written
  fetched s e rest _ law := law.withSup _
  softReset s _ := fun src => by rw [s.softReset_monitor]; exact monitorLaw_clean 0
  hardReset s _ := fun src => by rw [s.hardReset_monitor]; exact monitorLaw_clean 0
  eachMonitor s b f gentle law := fun src => by
    rw [State.setMons_mapTable_monitor]
    split
    · exact (gentle _).2 (law src)
    · exact law src
  take s src threshold frame law := law.setMonitor ((law src).take threshold frame)

/-- Settles O9: every shared operation keeps the law of each monitor, so every step does. -/
theorem monitorLawKept : Obligations.MonitorLawKept := fun _ _ law next => monitorsLaw_guarded.kept.step law next

end Sys2Proof.Machine
end

section
/-! SUPPORT. What supervision, ticks and the egress side leave of the ports: receivers, egress side and link. -/
namespace Sys2Proof.Machine

/-- nRESET, the waiting commands, the receivers, the egress side and the link are as they were. -/
structure State.QuietPorts (s t : State) : Prop where
  nReset : t.nReset = s.nReset
  pending : t.pending = s.pending
  rxA : t.rxA = s.rxA
  rxB : t.rxB = s.rxB
  egress : t.egress = s.egress
  link : t.link = s.link

theorem State.QuietPorts.refl (s : State) : s.QuietPorts s := ⟨rfl, rfl, rfl, rfl, rfl, rfl⟩

theorem State.QuietPorts.trans {s t v : State} (h : s.QuietPorts t) (h' : t.QuietPorts v) : s.QuietPorts v :=
  ⟨h'.nReset.trans h.nReset, h'.pending.trans h.pending, h'.rxA.trans h.rxA, h'.rxB.trans h.rxB, h'.egress.trans h.egress,
    h'.link.trans h.link⟩

theorem State.QuietPorts.of_eq {s t : State} (h : t = s) : s.QuietPorts t := h ▸ .refl s

theorem State.SamePorts.quiet {s t : State} (h : s.SamePorts t) : s.QuietPorts t := 
  ⟨h.nReset, h.pending, h.rxA, h.rxB, h.egress, h.link⟩

theorem State.QuietPorts.rx {s t : State} (h : s.QuietPorts t) (b : Bus) : t.rx b = s.rx b := by
  cases b with
  | A => exact h.rxA
  | B => exact h.rxB

theorem State.withSup_quiet (s : State) (u : Supervision) : s.QuietPorts { s with sup := u } := ⟨rfl, rfl, rfl, rfl, rfl, rfl⟩

theorem State.evaluateBy_quiet (s : State) (expiry : Bool) (r : RecIx) : s.QuietPorts (s.evaluateBy expiry r) :=
  (s.evaluateBy_samePorts expiry r).quiet

theorem State.foldl_quiet {α : Type} {f : State → α → State} (h : ∀ (s : State) x, s.QuietPorts (f s x)) (xs : List α) (s : State) :
    s.QuietPorts (xs.foldl f s) :=
  State.foldl_keep (P := fun t => s.QuietPorts t) (fun t x ht => ht.trans (h t x)) xs (.refl s)

/-! ## Updates -/

theorem State.applyUpdates_quiet (s : State) : s.QuietPorts s.applyUpdates :=
  (State.foldl_quiet (fun s u => (s.applyUpdate_leaves u).1.quiet) s.updates s).trans ⟨rfl, rfl, rfl, rfl, rfl, rfl⟩

theorem State.queueUpdate_quiet (s : State) (u : Update) : s.QuietPorts (s.queueUpdate u).1 := by
  unfold State.queueUpdate
  split
  · exact ⟨rfl, rfl, rfl, rfl, rfl, rfl⟩
  · exact (s.applyUpdate_leaves u).1.quiet

theorem State.goLive_quiet (s : State) (r : RecIx) : s.QuietPorts (s.goLive r) :=
  (s.withSup_quiet _).trans (State.evaluateBy_quiet _ false r)

theorem State.freeRecord_quiet (s : State) (r : RecIx) : s.QuietPorts (s.freeRecord r) := (s.freeRecord_samePorts r).quiet

theorem State.removeUpdate_quiet (s : State) (u : Update) : s.QuietPorts (s.removeUpdate u) := ⟨rfl, rfl, rfl, rfl, rfl, rfl⟩

theorem State.cancelUpdate_quiet (s : State) (r : RecIx) : s.QuietPorts (s.cancelUpdate r) := by
  unfold State.cancelUpdate
  split
  · exact s.freeRecord_quiet r
  · exact (s.removeUpdate_quiet _).trans (State.freeRecord_quiet _ r)
  · exact (s.removeUpdate_quiet _).trans (State.freeRecord_quiet _ r)
  · exact ((s.removeUpdate_quiet _).trans (State.goLive_quiet _ _)).trans (State.freeRecord_quiet _ r)

theorem State.retireRecord_quiet (s : State) (r : RecIx) (l : Live) : s.QuietPorts (s.retireRecord r l).1 := by
  unfold State.retireRecord
  split
  · exact s.freeRecord_quiet r
  · exact s.cancelUpdate_quiet r
  · exact (s.withSup_quiet _).trans (State.queueUpdate_quiet _ _)
  · exact .refl s

/-! ## Ticks -/

theorem State.takeExpiry_quiet (s : State) (t : TimerIx) : s.QuietPorts (s.takeExpiry t) := by
  unfold State.takeExpiry
  split
  · exact .refl s
  · split
    · exact (s.withSup_quiet _).trans (State.evaluateBy_quiet _ true _)
    · exact .refl s

theorem State.tick_quiet (s : State) : s.QuietPorts s.tick := by
  unfold State.tick State.takeExpiries
  split
  · split
    · exact s.withSup_quiet _
    · exact (s.withSup_quiet _).trans (State.takeExpiry_quiet _ _)
    · refine State.QuietPorts.trans ?_ (State.foldl_quiet State.takeExpiry_quiet _ _)
      exact ⟨rfl, rfl, rfl, rfl, rfl, rfl⟩
  · exact .refl s

/-! ## Commands -/

theorem State.createAt_quiet (s : State) (r : RecIx) (f : Fields) : s.QuietPorts (s.createAt r f) :=
  ((s.withSup_quiet _).trans (State.takeRefs_samePorts _ _).quiet).trans (State.evaluateBy_quiet _ false r)

theorem State.amendRecord_quiet (s : State) (r : RecIx) (l : Live) (a : Amendment) : s.QuietPorts (s.amendRecord r l a) := by
  have written := ((s.withSup_quiet (s.sup.modLive r fun k => { k with fields := a.apply l.fields })).trans
    (State.takeRefs_samePorts _ a.taken).quiet).trans (State.dropRefs_samePorts _ (a.droppedFrom l.fields)).quiet
  unfold State.amendRecord
  dsimp only
  split <;> split
  · exact (written.trans (State.withSup_quiet _ _)).trans (State.evaluateBy_quiet _ false r)
  · exact written.trans (State.evaluateBy_quiet _ false r)
  · exact written.trans (State.withSup_quiet _ _)
  · exact written

theorem performCreate_quiet (params : List Byte) (s : State) : s.QuietPorts (performCreate params s).1 := by
  unfold performCreate
  split
  · exact .refl s
  · split
    · exact .refl s
    · split
      · exact .refl s
      · exact s.createAt_quiet _ _

theorem performAmend_quiet (params : List Byte) (s : State) : s.QuietPorts (performAmend params s).1 := by
  unfold performAmend
  dsimp only
  split
  · exact .refl s
  · split
    · exact .refl s
    · split
      · exact .refl s
      · split
        · exact .refl s
        · split
          · exact .refl s
          · split
            · exact .refl s
            · exact s.amendRecord_quiet _ _ _

theorem performActivate_quiet (params : List Byte) (s : State) : s.QuietPorts (performActivate params s).1 := by
  unfold performActivate
  split
  · exact .refl s
  · split
    · exact .refl s
    · split
      · exact .refl s
      · split
        · exact .refl s
        · exact (s.withSup_quiet _).trans (State.queueUpdate_quiet _ _)

theorem performReplace_quiet (params : List Byte) (s : State) : s.QuietPorts (performReplace params s).1 := by
  unfold performReplace
  split
  · exact .refl s
  · split
    · exact .refl s
    · split
      · exact .refl s
      · split
        · exact .refl s
        · split
          · exact .refl s
          · split
            · exact .refl s
            · split
              · exact .refl s
              · exact ((s.withSup_quiet _).trans (State.withSup_quiet _ _)).trans (State.queueUpdate_quiet _ _)

theorem performRetire_quiet (params : List Byte) (s : State) : s.QuietPorts (performRetire params s).1 := by
  unfold performRetire
  split
  · exact .refl s
  · split
    · exact .refl s
    · exact s.retireRecord_quiet _ _

theorem performRequest_quiet (params : List Byte) (s : State) : s.QuietPorts (performRequest params s).1 := by
  unfold performRequest
  split
  · exact .refl s
  · split
    · split
      · exact .refl s
      · split
        · exact .refl s
        · exact (s.withSup_quiet _).trans (State.evaluateBy_quiet _ false _)
    · exact .refl s

/-- Commands but BUS_SET and COUNTERS_CLEAR leave receivers, egress side and link alone. -/
theorem perform_quiet {c : Command} (notBusSet : c ≠ .busSet) (notClear : c ≠ .countersClear) (params : List Byte) (s : State) :
    s.QuietPorts (perform c params s).1 := by
  cases c with
  | ident => exact .of_eq (performIdent_state params s)
  | softReset =>
    show s.QuietPorts (performSoftReset params s).1
    unfold performSoftReset
    split
    · exact .refl s
    · exact ⟨rfl, rfl, rfl, rfl, rfl, rfl⟩
  | busSet => exact absurd rfl notBusSet
  | busRead => exact .of_eq (performBusRead_state params s)
  | create => exact performCreate_quiet params s
  | amend => exact performAmend_quiet params s
  | activate => exact performActivate_quiet params s
  | replace => exact performReplace_quiet params s
  | retire => exact performRetire_quiet params s
  | request => exact performRequest_quiet params s
  | recordRead => exact .of_eq (performRecordRead_state params s)
  | mapRead => exact .of_eq (performMapRead_state params s)
  | sourceRead => exact .of_eq (performSourceRead_state params s)
  | noticeFetch =>
    show s.QuietPorts (performNoticeFetch params s).1
    unfold performNoticeFetch
    split
    · exact .refl s
    · split
      · exact .refl s
      · exact s.withSup_quiet _
  | alertSet =>
    show s.QuietPorts (performAlertSet params s).1
    unfold performAlertSet
    split
    · exact .refl s
    · split
      · exact .refl s
      · exact ⟨rfl, rfl, rfl, rfl, rfl, rfl⟩
  | linkRead => exact .of_eq (performLinkRead_state params s)
  | countersClear => exact absurd rfl notClear

/-! ## BUS_SET and COUNTERS_CLEAR -/

theorem State.setBus_sameBesideBus (s : State) (b : Bus) (enable : Bool) (sense : Sense) (scope : Scope) (threshold : Byte) :
    s.sameBesideBus (s.setBus b enable sense scope threshold) b := by
  have written := s.setRx_sameBesideBus b { s.rx b with enable, sense, scope, threshold }
  unfold State.setBus
  dsimp only
  split
  · exact (written.trans (State.setRx_sameBesideBus _ b _)).trans (State.postAlign_sameBesideBus _ b b)
  · exact written
  · exact written
  · exact written.trans (State.disableBus_sameBesideBus _ b)

/-- What an accepted or refused BUS_SET comes to. -/
theorem performBusSet_cases (params : List Byte) (s : State) :
    (∃ status, performBusSet params s = (s, ⟨status, []⟩)) ∨
      (∃ sense scope, performBusSet params s = (s.setEgressParity sense scope, ⟨.ok, []⟩)) ∨
      ∃ b enable sense scope threshold, performBusSet params s = (s.setBus b enable sense scope threshold, ⟨.ok, []⟩) := by
  unfold performBusSet
  split
  · exact .inl ⟨_, rfl⟩
  · split
    · exact .inr (.inl ⟨_, _, rfl⟩)
    · split
      · exact .inl ⟨_, rfl⟩
      · split
        · exact .inl ⟨_, rfl⟩
        · exact .inr (.inr ⟨_, _, _, _, _, rfl⟩)
    · exact .inl ⟨_, rfl⟩

/-- What an accepted or refused COUNTERS_CLEAR comes to. -/
theorem performCountersClear_cases (params : List Byte) (s : State) :
    (∃ status, performCountersClear params s = (s, ⟨status, []⟩)) ∨
      ∃ t, s.clearGroup (byteAt params 0) = some t ∧ performCountersClear params s = (t, ⟨.ok, []⟩) := by
  unfold performCountersClear
  split
  · exact .inl ⟨_, rfl⟩
  · split
    · exact .inl ⟨_, rfl⟩
    · rename_i t h
      exact .inr ⟨t, h, rfl⟩

/-- The groups of COUNTERS_CLEAR, one by one. -/
theorem State.clearGroup_cases {s t : State} {group : Byte} (h : s.clearGroup group = some t) :
    (∃ b, t = s.setRx b (s.rx b).clearCounters) ∨ (∃ b, t = s.setMons b (mapTable Monitor.clearCounters (s.mons b))) ∨
      t = { s with sup := { s.sup with pool := s.sup.pool.clearCounters } } ∨
      t = { s with egress := { s.egress with alarmFill := Vector.replicate 48 0 } } ∨ t = { s with link := s.link.clearCounters } := by
  unfold State.clearGroup at h
  split_ifs at h <;> cases h
  · exact .inl ⟨.A, rfl⟩
  · exact .inl ⟨.B, rfl⟩
  · exact .inr (.inl ⟨.A, rfl⟩)
  · exact .inr (.inl ⟨.B, rfl⟩)
  · exact .inr (.inr (.inl rfl))
  · exact .inr (.inr (.inr (.inl rfl)))
  · exact .inr (.inr (.inr (.inr rfl)))

/-! ## What the egress side leaves alone -/

theorem State.sameBesideEgress.refl (s : State) : s.sameBesideEgress s := ⟨rfl, fun _ => rfl, rfl, rfl⟩

theorem State.sameBesideEgress.trans {s t v : State} (h : s.sameBesideEgress t) (h' : t.sameBesideEgress v) : s.sameBesideEgress v :=
  ⟨h'.nReset.trans h.nReset, fun b => (h'.receiver b).trans (h.receiver b), h'.alertOn.trans h.alertOn, h'.pending.trans h.pending⟩

theorem State.withEgress_beside (s : State) (e : Egress) : s.sameBesideEgress { s with egress := e } :=
  ⟨rfl, fun b => by cases b <;> rfl, rfl, rfl⟩

theorem State.withSup_beside (s : State) (u : Supervision) : s.sameBesideEgress { s with sup := u } :=
  ⟨rfl, fun b => by cases b <;> rfl, rfl, rfl⟩

theorem State.SamePorts.beside {s t : State} (h : s.SamePorts t) : s.sameBesideEgress t := ⟨h.nReset, h.quiet.rx, h.alertOn, h.pending⟩

theorem State.applyUpdates_beside (s : State) : s.sameBesideEgress s.applyUpdates := by
  have each := State.foldl_keep (P := fun t => s.sameBesideEgress t) (fun t u h => h.trans (t.applyUpdate_leaves u).1.beside) s.updates
    (.refl s)
  exact each.trans ⟨rfl, fun b => by cases b <;> rfl, rfl, rfl⟩

theorem State.afterRequest_beside (s : State) : s.sameBesideEgress s.afterRequest := by
  refine ⟨s.afterRequest_nReset, fun b => ?_, s.afterRequest_alertOn, s.afterRequest_pending⟩
  cases b with
  | A => exact s.afterRequest_rxA
  | B => exact s.afterRequest_rxB

theorem State.stopEgress_beside (s : State) : s.sameBesideEgress s.stopEgress :=
  ((s.afterRequest_beside.trans (State.withEgress_beside _ _)).trans (State.applyUpdates_beside _)).trans (State.withSup_beside _ _)

theorem State.startEgress_beside (s : State) : s.sameBesideEgress s.startEgress :=
  (s.afterRequest_beside.trans (State.withEgress_beside _ _)).trans (State.withSup_beside _ _)

theorem State.frameStart_beside (s : State) (misses : Nat) : s.sameBesideEgress (s.frameStart misses) :=
  (s.afterRequest_beside.trans (State.withEgress_beside _ _)).trans (State.applyUpdates_beside _)

theorem State.buildDue_beside (s : State) : s.sameBesideEgress s.buildDue := by
  unfold State.buildDue
  split
  · split
    · exact s.withEgress_beside _
    · exact .refl s
  · exact .refl s

theorem State.expectFrame_beside (s : State) (pulse : Bool) : s.sameBesideEgress (s.expectFrame pulse) := by
  unfold State.expectFrame
  split
  · exact s.frameStart_beside 0
  · split
    · exact s.stopEgress_beside
    · exact s.frameStart_beside _

theorem State.driveNext_beside (s : State) : s.sameBesideEgress s.driveNext := by
  unfold State.driveNext
  dsimp only
  split <;> exact s.withEgress_beside _

theorem State.searchReference_beside (s : State) (pulse : Bool) : s.sameBesideEgress (s.searchReference pulse) := by
  unfold State.searchReference
  split
  · split
    · exact s.withEgress_beside _
    · exact .refl s
  · split
    · exact s.withEgress_beside _
    · split
      · exact s.startEgress_beside
      · exact s.withEgress_beside _

theorem State.egressEdge_beside (s : State) (eref : Bool) : s.sameBesideEgress (s.egressEdge eref) := by
  have noted := s.buildDue_beside.trans (s.buildDue.withEgress_beside { s.buildDue.egress with erefLevel := eref })
  unfold State.egressEdge
  split
  · dsimp only
    split
    · split
      · exact noted.trans (State.expectFrame_beside _ _)
      · exact noted.trans (State.driveNext_beside _)
    · exact noted.trans (State.searchReference_beside _ _)
  · exact .refl s

theorem State.loseEgressClock_beside (s : State) : s.sameBesideEgress s.loseEgressClock := by
  have noted := s.buildDue_beside.trans
    (s.buildDue.withEgress_beside { s.buildDue.egress with erefLevel := false, candidate := none })
  unfold State.loseEgressClock
  split
  · dsimp only
    split
    · exact noted.trans (State.stopEgress_beside _)
    · exact noted
  · exact .refl s

/-! ## What the link leaves alone -/

theorem State.withLink_rx (s : State) (l : Link) (b : Bus) : State.rx { s with link := l } b = s.rx b := by
  cases b <;> rfl

theorem State.expireHold_rx (s : State) (b : Bus) : s.expireHold.rx b = s.rx b := by
  cases b with
  | A => exact s.expireHold_rxA
  | B => exact s.expireHold_rxB

end Sys2Proof.Machine
end

section
/-! SUPPORT. R6 to R19: whatever happens to a bus, its receiver keeps its law. -/
namespace Sys2Proof.Machine

/-! ## One receiver -/

/-- Outside ALIGNED a receiver holds nothing of a frame (R10, R16). -/
theorem Receiver.unaligned_law {rx : Receiver} {st : BusState} (notAligned : st ≠ .aligned) (enabled : st = .off ↔ rx.enable = false) :
    ReceiverLaw (rx.unaligned st) where
  unaligned _ := ⟨rfl, rfl, rfl, rfl, rfl⟩
  searching := nofun
  candidate := nofun
  position := Nat.zero_lt_succ _
  badChecks := Nat.zero_le 2
  enabled := enabled
  inProgress h := absurd h notAligned
  stored n frame h := by
    have empty := (pick_replicate none n).symm.trans h
    cases empty

theorem ReceiverLaw.withLosses {rx : Receiver} (law : ReceiverLaw rx) (n : BitVec 32) : ReceiverLaw { rx with alignLosses := n } :=
  { law with }

theorem ReceiverLaw.clearCounters {rx : Receiver} (law : ReceiverLaw rx) : ReceiverLaw rx.clearCounters := { law with }

/-- The search holds a candidate, or none (R6). -/
theorem ReceiverLaw.withCandidate {rx : Receiver} (law : ReceiverLaw rx) (seeking : rx.state = .seek) {c : Option Nat}
    (h : ∀ k, c = some k → k < 1152) : ReceiverLaw { rx with candidate := c } :=
  { law with searching := fun _ => seeking, candidate := h }

/-- Settings written with the enable bit as it was in effect. -/
theorem ReceiverLaw.withSettings {rx : Receiver} (law : ReceiverLaw rx) {enable : Bool} (enabled : rx.state = .off ↔ enable = false)
    (sense : Sense) (scope : Scope) (threshold : Byte) :
    ReceiverLaw { rx with enable := enable, sense := sense, scope := scope, threshold := threshold } :=
  { law with enabled := enabled }

/-- The header word at an expected frame start opens slot 0 (R8, R14). -/
theorem ReceiverLaw.start {rx : Receiver} (aligned : rx.state = .aligned) (noCandidate : rx.candidate = none)
    (on : rx.enable ≠ false) (stored : ∀ n frame, pick rx.store n = some frame → frame.payload.length = 23)
    (w : IngressWord) {checks : Nat} (few : checks ≤ 2) (count : BitVec 32) (fault : Bool) :
    ReceiverLaw { rx.place 0 w with badFrameChecks := count, frameFault := fault, badChecks := checks } where
  unaligned h := absurd aligned h
  searching h := by rw [show (rx.place 0 w).candidate = none from noCandidate] at h; cases h
  candidate c h := by cases noCandidate.symm.trans h
  position := Nat.zero_lt_succ _
  badChecks := few
  enabled := ⟨fun h => absurd (aligned.symm.trans h) (by decide), fun h => absurd h on⟩
  inProgress _ := ⟨rfl, show 0 % 24 ≠ 23 by decide⟩
  stored := stored

/-- A word at another position short of a slot's last one (R14). -/
theorem ReceiverLaw.extend {rx : Receiver} (law : ReceiverLaw rx) (aligned : rx.state = .aligned) (inside : rx.framePos + 1 < 1152)
    (notLast : (rx.framePos + 1) % 24 ≠ 23) (w : IngressWord) (fault : Bool) :
    ReceiverLaw { rx.place (rx.framePos + 1) w with frameFault := fault } :=
  { law with
    unaligned := fun h => absurd aligned h
    position := inside
    inProgress := fun _ => by
      have progress := law.inProgress aligned
      show match rx.extendFrame (rx.framePos + 1) w with
        | some pf => pf.frame.payload.length = (rx.framePos + 1) % 24 ∧ (rx.framePos + 1) % 24 ≠ 23
        | none => (rx.framePos + 1) % 24 = 23
      by_cases header : (rx.framePos + 1) % 24 = 0
      · rw [Receiver.extendFrame, if_pos header]
        exact ⟨header.symm, notLast⟩
      · rw [Receiver.extendFrame, if_neg header]
        revert progress
        cases rx.partialFrame with
        | none => intro progress; dsimp only at progress; omega
        | some pf =>
          rintro ⟨length, -⟩
          refine ⟨?_, notLast⟩
          show (pf.frame.payload ++ [w.data]).length = _
          rw [List.length_append, length, List.length_singleton]
          omega }

/-- The last word of a slot: the slot-frame is stored whole (R14, R15). -/
theorem ReceiverLaw.finish {rx : Receiver} (law : ReceiverLaw rx) (aligned : rx.state = .aligned) (inside : rx.framePos + 1 < 1152)
    (last : (rx.framePos + 1) % 24 = 23) (w : IngressWord) (fault : Bool) (n : SlotIx) {pf : PartialFrame}
    (held : rx.partialFrame = some pf) :
    ReceiverLaw
      { rx.place (rx.framePos + 1) w with
        frameFault := fault
        partialFrame := none
        store := put rx.store n (some (pf.add w).frame) } :=
  { law with
    unaligned := fun h => absurd aligned h
    position := inside
    inProgress := fun _ => last
    stored := fun m frame h => by
      dsimp only at h
      rw [pick_put] at h
      split at h
      · cases h
        have progress := law.inProgress aligned
        rw [held] at progress
        obtain ⟨length, -⟩ := progress
        show (pf.frame.payload ++ [w.data]).length = 23
        rw [List.length_append, length, List.length_singleton]
        omega
      · exact law.stored m frame h }

/-! ## Both receivers -/

/-- Both receivers keep their law. -/
def ReceiversLaw (s : State) : Prop := ∀ b, ReceiverLaw (s.rx b)

theorem ReceiversLaw.congr {s t : State} (law : ReceiversLaw s) (h : ∀ b, t.rx b = s.rx b) : ReceiversLaw t := fun b => h b ▸ law b

theorem ReceiversLaw.setRx {s : State} (law : ReceiversLaw s) {b : Bus} {rx : Receiver} (h : ReceiverLaw rx) :
    ReceiversLaw (s.setRx b rx) := fun c => by
  by_cases same : b = c
  · subst same
    rwa [State.setRx_rx]
  · rw [State.setRx_rx_ne _ _ same]
    exact law c

/-- An event of one bus leaves its receiver as stated, and the other. -/
theorem ReceiversLaw.of_sameBesideBus {s t : State} {b : Bus} (law : ReceiversLaw s) (beside : s.sameBesideBus t b)
    (h : ReceiverLaw (t.rx b)) : ReceiversLaw t := fun c => by
  by_cases same : c = b
  · exact same ▸ h
  · rw [beside.receiver c same]
    exact law c

theorem ReceiverLaw.enabled_of_ne {rx : Receiver} (law : ReceiverLaw rx) (notOff : rx.state ≠ .off) : rx.enable ≠ false :=
  fun off => notOff (law.enabled.2 off)

theorem ReceiverLaw.leave {rx : Receiver} (law : ReceiverLaw rx) (notOff : rx.state ≠ .off) {st : BusState} (notAligned : st ≠ .aligned)
    (on : st ≠ .off) : ReceiverLaw (rx.unaligned st) :=
  Receiver.unaligned_law notAligned ⟨fun h => absurd h on, fun h => absurd h (law.enabled_of_ne notOff)⟩

theorem ReceiverLaw.noCandidate {rx : Receiver} (law : ReceiverLaw rx) (notSeek : rx.state ≠ .seek) : rx.candidate = none := by
  cases h : rx.candidate with
  | none => rfl
  | some c => exact absurd (law.searching (by rw [h]; rfl)) notSeek

theorem State.loseAlignment_receiverLaw {s : State} {b : Bus} {st : BusState} (h : ReceiverLaw ((s.rx b).unaligned st)) :
    ReceiverLaw ((s.loseAlignment b st).rx b) := by
  rw [(s.loseAlignment_leaves b st).1]
  exact h.withLosses _

theorem ReceiversLaw.loseClock {s : State} (law : ReceiversLaw s) (b : Bus) : ReceiversLaw (s.loseClock b) := by
  unfold State.loseClock
  split
  · exact law
  · exact law
  · rename_i seek
    refine (law.setRx (b := b) ((law b).leave (by simp [seek]) (st := .down) nofun nofun)).congr fun c => ?_
    exact State.postAlign_rx _ b c
  · rename_i aligned
    exact law.of_sameBesideBus (s.loseAlignment_sameBesideBus b _)
      (State.loseAlignment_receiverLaw ((law b).leave (by simp [aligned]) nofun nofun))

theorem State.handFrame_rx (s : State) (b c : Bus) (n : SlotIx) (frame : SlotFrame) : (s.handFrame b n frame).rx c = s.rx c := by
  unfold State.handFrame
  exact ((State.runTasks_supervises _ _).rx c).trans (State.setMonitor_rx _ _ _ c)

theorem ReceiversLaw.enterAligned {s : State} (law : ReceiversLaw s) {b : Bus} (seek : (s.rx b).state = .seek) (w : IngressWord) :
    ReceiversLaw (s.enterAligned b w) := by
  have placed : ReceiverLaw (((s.rx b).unaligned .aligned).place 0 w) :=
    ReceiverLaw.start (rx := (s.rx b).unaligned .aligned) rfl rfl ((law b).enabled_of_ne (by simp [seek]))
      (fun n frame h => by cases (pick_replicate none n).symm.trans h) w (Nat.zero_le 2) _ _
  exact (law.setRx placed).congr (State.runTasks_supervises _ _).rx

theorem ReceiversLaw.searchWord {s : State} (law : ReceiversLaw s) {b : Bus} (seek : (s.rx b).state = .seek) (w : IngressWord) :
    ReceiversLaw (s.searchWord b w) := by
  have holds {c : Option Nat} (h : ∀ k, c = some k → k < 1152) : ReceiversLaw (s.setRx b { s.rx b with candidate := c }) :=
    law.setRx ((law b).withCandidate seek h)
  unfold State.searchWord
  dsimp only
  split
  · split
    · exact holds fun k h => by cases h; omega
    · exact law
  · split
    · rename_i within
      have within : _ + 1 < 1152 := within
      refine holds fun k h => ?_
      cases h
      split <;> omega
    · split
      · exact law.enterAligned seek w
      · exact holds nofun

theorem ReceiversLaw.checkFrame {s : State} (law : ReceiversLaw s) {b : Bus} (aligned : (s.rx b).state = .aligned) (w : IngressWord) :
    ReceiversLaw (s.checkFrame b w) := by
  have noCandidate := (law b).noCandidate (by simp [aligned])
  have on := (law b).enabled_of_ne (by simp [aligned])
  have started {checks : Nat} (few : checks ≤ 2) (count : BitVec 32) (fault : Bool) :=
    ReceiverLaw.start aligned noCandidate on (law b).stored w few count fault
  unfold State.checkFrame
  dsimp only
  split
  · split
    · refine law.of_sameBesideBus ((s.setRx_sameBesideBus b _).trans (State.loseAlignment_sameBesideBus _ b _))
        (State.loseAlignment_receiverLaw ?_)
      rw [State.setRx_rx]
      exact Receiver.unaligned_law nofun ⟨nofun, fun off => absurd off on⟩
    · rename_i notThird
      have := (law b).badChecks
      exact law.setRx (started (by omega) _ _)
  · exact law.setRx (started (Nat.zero_le 2) _ _)

theorem ReceiversLaw.fillFrame {s : State} (law : ReceiversLaw s) {b : Bus} (aligned : (s.rx b).state = .aligned)
    (notLast : (s.rx b).framePos + 1 ≠ 1152) (w : IngressWord) : ReceiversLaw (s.fillFrame b w) := by
  have inside : (s.rx b).framePos + 1 < 1152 := by have := (law b).position; omega
  unfold State.fillFrame
  dsimp only
  split
  · rename_i last
    split
    · rename_i n _
      unfold State.completeFrame
      have progress := (law b).inProgress aligned
      revert progress
      cases held : (s.rx b).partialFrame with
      | none => intro progress; dsimp only at progress; omega
      | some pf =>
        intro _
        have extended : (s.rx b).extendFrame ((s.rx b).framePos + 1) w = some (pf.add w) := by
          rw [Receiver.extendFrame, if_neg (by omega), held]
          rfl
        rw [State.setRx_rx]
        dsimp only [Receiver.place]
        rw [extended]
        dsimp only
        rw [State.setRx_setRx]
        refine (law.setRx ?_).congr fun c => State.handFrame_rx _ b c n _
        exact (law b).finish aligned inside last w _ n held
    · rename_i none
      unfold readSlot at none
      rw [dif_pos (by omega)] at none
      cases none
  · rename_i notEnd
    exact law.setRx ((law b).extend aligned inside notEnd w _)

theorem ReceiversLaw.takeWord {s : State} (law : ReceiversLaw s) (b : Bus) (w : IngressWord) : ReceiversLaw (s.takeWord b w) := by
  unfold State.takeWord
  split
  · exact law
  · rename_i down
    refine (law.setRx (b := b) ((law b).leave (by simp [down]) (st := .seek) nofun nofun)).congr fun c => ?_
    exact State.postAlign_rx _ b c
  · rename_i seek
    exact law.searchWord seek w
  · rename_i aligned
    split
    · exact law.checkFrame aligned w
    · rename_i notLast
      exact law.fillFrame aligned notLast w

theorem State.disableBus_rx (s : State) (b : Bus) : (s.disableBus b).rx b = (s.rx b).unaligned .off := by
  unfold State.disableBus
  rw [State.postAlign_rx, (State.runTasks_supervises _ _).rx, State.setMons_rx, State.setRx_rx]

theorem ReceiversLaw.setBus {s : State} (law : ReceiversLaw s) (b : Bus) (enable : Bool) (sense : Sense) (scope : Scope)
    (threshold : Byte) : ReceiversLaw (s.setBus b enable sense scope threshold) := by
  refine law.of_sameBesideBus (s.setBus_sameBesideBus b enable sense scope threshold) ?_
  unfold State.setBus
  dsimp only
  split
  · rw [State.enableBus, State.postAlign_rx, State.setRx_rx, State.setRx_rx]
    exact Receiver.unaligned_law nofun ⟨nofun, nofun⟩
  · rename_i off
    rw [State.setRx_rx]
    exact (law b).withSettings ⟨fun _ => rfl, fun _ => by simpa using off⟩ sense scope threshold
  · rename_i on
    rw [State.setRx_rx]
    exact (law b).withSettings (enable := true) ⟨fun h => by simp [h] at on, nofun⟩ sense scope threshold
  · rw [State.disableBus_rx, State.setRx_rx]
    exact Receiver.unaligned_law nofun ⟨fun _ => rfl, fun _ => rfl⟩

theorem ReceiversLaw.perform {s : State} (law : ReceiversLaw s) (c : Command) (params : List Byte) :
    ReceiversLaw (perform c params s).1 := by
  by_cases busSet : c = .busSet
  · subst busSet
    show ReceiversLaw (performBusSet params s).1
    rcases performBusSet_cases params s with ⟨_, h⟩ | ⟨_, _, h⟩ | ⟨b, _, _, _, _, h⟩ <;> rw [h]
    · exact law
    · exact law.congr (s.withEgress_beside _).receiver
    · exact law.setBus b _ _ _ _
  · by_cases clear : c = .countersClear
    · subst clear
      show ReceiversLaw (performCountersClear params s).1
      rcases performCountersClear_cases params s with ⟨_, h⟩ | ⟨t, cleared, h⟩ <;> rw [h]
      · exact law
      · rcases State.clearGroup_cases cleared with ⟨b, rfl⟩ | ⟨b, rfl⟩ | rfl | rfl | rfl
        · exact law.setRx (law b).clearCounters
        · exact law.congr fun c => State.setMons_rx _ b c _
        · exact law.congr (s.withSup_quiet _).rx
        · exact law.congr (s.withEgress_beside _).receiver
        · exact law.congr (s.withLink_rx _)
    · exact law.congr (perform_quiet busSet clear params s).rx

theorem receiverLaw_reset : ReceiverLaw Receiver.reset :=
  Receiver.unaligned_law (rx := Receiver.reset) (st := .off) nofun ⟨fun _ => rfl, fun _ => rfl⟩

theorem receiversLaw_kept : State.Kept ReceiversLaw where
  pending _ _ law := law.congr fun b => by cases b <;> rfl
  hardReset s _ b := by rw [s.hardReset_rx]; exact receiverLaw_reset
  release _ law := law.congr fun b => by cases b <;> rfl
  tick s law := law.congr s.tick_quiet.rx
  loseClock _ b law := law.loseClock b
  takeWord _ b w law := law.takeWord b w
  egressEdge s eref law := law.congr (s.egressEdge_beside eref).receiver
  buildDue s law := law.congr s.buildDue_beside.receiver
  loseEgressClock s law := law.congr s.loseEgressClock_beside.receiver
  transfer _ bytes edges early holdRunsOut law :=
    State.transfer_keep (fun s l law => law.congr (s.withLink_rx l)) (fun c params _ law => law.perform c params) bytes edges early
      holdRunsOut law
  expireHold s law := law.congr s.expireHold_rx
  complete s law := law.congr (s.withLink_rx _)

end Sys2Proof.Machine
end

section
/-! SUPPORT. R145 to R150: the egress side keeps its law. Section 9.2, R185: so does the link, whose responses fit. -/
namespace Sys2Proof.Machine

/-! ## The egress side -/

theorem Egress.countAlarm_cases (e : Egress) (n : SlotIx) (c : Content) : ∃ v, e.countAlarm n c = { e with alarmFill := v } := by
  cases c with
  | unequipped => exact ⟨_, rfl⟩
  | alarm _ => exact ⟨_, rfl⟩
  | forwarded _ _ _ => exact ⟨_, rfl⟩

theorem EgressLaw.withAlarmFill {e : Egress} (law : EgressLaw e) (v : Vector (BitVec 16) 48) : EgressLaw { e with alarmFill := v } :=
  { law with }

theorem EgressLaw.withLevel {e : Egress} (law : EgressLaw e) (level : Bool) : EgressLaw { e with erefLevel := level } :=
  { law with }

theorem EgressLaw.withParity {e : Egress} (law : EgressLaw e) (sense : Sense) (scope : Scope) :
    EgressLaw { e with sense := sense, scope := scope } := { law with }

/-- In RUNNING an edge moves the position, and words are built and driven (R149, R153). -/
theorem EgressLaw.inRunning {e : Egress} (law : EgressLaw e) (running : e.running = true) {pos misses : Nat} (inFrame : pos < 1152)
    (few : misses ≤ 2) (count : BitVec 4) (sending : Option Sending) (due : Bool) (out : EgressWord) :
    EgressLaw
      { e with
        framePos := pos, misses := misses, mfCount := count, sending := sending, headerDue := due, out := out } :=
  { law with
    stopped := fun h => by cases running.symm.trans h
    position := inFrame
    misses := few }

theorem EgressLaw.buildDue {s : State} (law : EgressLaw s.egress) : EgressLaw s.buildDue.egress := by
  unfold State.buildDue
  split
  · rename_i due
    have running := (Bool.and_eq_true_iff.1 due).1
    split
    · rename_i n _
      unfold State.buildSlot
      dsimp only
      obtain ⟨v, counted⟩ := s.egress.countAlarm_cases n (s.slotContent n)
      rw [counted]
      exact (law.withAlarmFill v).inRunning running law.position law.misses _ _ _ _
    · exact law
  · exact law

/-- STOPPED with outputs low (R150). -/
theorem EgressLaw.stop (e : Egress) :
    EgressLaw
      { e with
        running := false, framePos := 0, misses := 0, candidate := none, sending := none, headerDue := false
        out := EgressWord.low } where
  stopped _ := ⟨rfl, rfl, rfl, rfl, rfl⟩
  running := nofun
  candidate := nofun
  position := Nat.zero_lt_succ _
  misses := Nat.zero_le 2

/-- What an egress stop makes of the egress side (R150). -/
theorem State.stopEgress_egress (s : State) :
    s.stopEgress.egress =
      { s.egress with
        running := false, framePos := 0, misses := 0, candidate := none, sending := none, headerDue := false
        out := EgressWord.low } := by
  unfold State.stopEgress
  rw [State.postState_egress, (State.applyUpdates_quiet _).egress]
  dsimp only
  rw [State.afterRequest_egress]

theorem State.startEgress_egress (s : State) :
    s.startEgress.egress =
      { s.egress with running := true, framePos := 0, misses := 0, candidate := none, mfCount := 0, headerDue := true } := by
  unfold State.startEgress
  rw [State.postState_egress]
  dsimp only
  rw [State.afterRequest_egress]

theorem State.frameStart_egress (s : State) (misses : Nat) :
    (s.frameStart misses).egress =
      { s.egress with framePos := 0, misses := misses, mfCount := s.egress.mfCount + 1, headerDue := true } := by
  unfold State.frameStart
  rw [(State.applyUpdates_quiet _).egress]
  dsimp only
  rw [State.afterRequest_egress]

theorem EgressLaw.expectFrame {s : State} (law : EgressLaw s.egress) (running : s.egress.running = true) (pulse : Bool) :
    EgressLaw (s.expectFrame pulse).egress := by
  have := law.misses
  unfold State.expectFrame
  split
  · rw [State.frameStart_egress]
    exact law.inRunning running (by omega) (Nat.zero_le 2) _ _ _ _
  · split
    · rw [State.stopEgress_egress]
      exact .stop _
    · rw [State.frameStart_egress]
      exact law.inRunning running (by omega) (by omega) _ _ _ _

theorem EgressLaw.driveNext {s : State} (law : EgressLaw s.egress) (running : s.egress.running = true)
    (notLast : s.egress.framePos + 1 ≠ 1152) : EgressLaw s.driveNext.egress := by
  have := law.position
  unfold State.driveNext
  dsimp only
  split <;> exact law.inRunning running (by omega) law.misses _ _ _ _

theorem EgressLaw.searchReference {s : State} (law : EgressLaw s.egress) (notRunning : s.egress.running = false) (pulse : Bool) :
    EgressLaw (s.searchReference pulse).egress := by
  have holds {c : Option Nat} (h : ∀ k, c = some k → k < 1152) : EgressLaw { s.egress with candidate := c } :=
    { law with running := fun h => absurd (notRunning.symm.trans h) (by decide), candidate := h }
  unfold State.searchReference
  split
  · split
    · exact holds fun k h => by cases h; omega
    · exact law
  · split
    · refine holds fun k h => ?_
      cases h
      split <;> omega
    · split
      · rw [State.startEgress_egress]
        exact
          { stopped := nofun
            running := fun _ => rfl
            candidate := nofun
            position := Nat.zero_lt_succ _
            misses := Nat.zero_le 2 }
      · exact holds nofun

theorem EgressLaw.egressEdge {s : State} (law : EgressLaw s.egress) (eref : Bool) : EgressLaw (s.egressEdge eref).egress := by
  have noted := law.buildDue.withLevel eref
  unfold State.egressEdge
  split
  · dsimp only
    split
    · rename_i running
      split
      · exact EgressLaw.expectFrame (s := { s.buildDue with egress := _ }) noted running _
      · rename_i notLast
        exact EgressLaw.driveNext (s := { s.buildDue with egress := _ }) noted running notLast
    · rename_i stopped
      exact EgressLaw.searchReference (s := { s.buildDue with egress := _ }) noted (Bool.not_eq_true _ ▸ stopped) _
  · exact law

theorem EgressLaw.loseEgressClock {s : State} (law : EgressLaw s.egress) : EgressLaw s.loseEgressClock.egress := by
  unfold State.loseEgressClock
  split
  · dsimp only
    split
    · rw [State.stopEgress_egress]
      exact .stop _
    · exact { law.buildDue.withLevel false with running := fun _ => rfl, candidate := nofun }
  · exact law

theorem EgressLaw.perform {s : State} (law : EgressLaw s.egress) (c : Command) (params : List Byte) :
    EgressLaw (perform c params s).1.egress := by
  by_cases busSet : c = .busSet
  · subst busSet
    show EgressLaw (performBusSet params s).1.egress
    rcases performBusSet_cases params s with ⟨_, h⟩ | ⟨_, _, h⟩ | ⟨b, _, _, _, _, h⟩ <;> rw [h]
    · exact law
    · exact law.withParity _ _
    · rw [(s.setBus_sameBesideBus b _ _ _ _).egress]
      exact law
  · by_cases clear : c = .countersClear
    · subst clear
      show EgressLaw (performCountersClear params s).1.egress
      rcases performCountersClear_cases params s with ⟨_, h⟩ | ⟨t, cleared, h⟩ <;> rw [h]
      · exact law
      · rcases State.clearGroup_cases cleared with ⟨b, rfl⟩ | ⟨b, rfl⟩ | rfl | rfl | rfl
        · rwa [State.setRx_egress]
        · rwa [State.setMons_egress]
        · exact law
        · exact law.withAlarmFill _
        · exact law
    · rw [(perform_quiet busSet clear params s).egress]
      exact law

theorem egressLaw_kept : State.Kept fun s => EgressLaw s.egress where
  pending _ _ law := law
  hardReset _ _ := .stop Egress.reset
  release _ law := law
  tick s law := by rwa [s.tick_quiet.egress]
  loseClock s b law := by rwa [(s.loseClock_sameBesideBus b).egress]
  takeWord s b w law := by rwa [(s.takeWord_sameBesideBus b w).egress]
  egressEdge _ eref law := law.egressEdge eref
  buildDue _ law := law.buildDue
  loseEgressClock _ law := law.loseEgressClock
  transfer _ bytes edges early holdRunsOut law :=
    State.transfer_keep (P := fun s => EgressLaw s.egress) (fun _ _ law => law) (fun c params _ law => law.perform c params) bytes
      edges early holdRunsOut law
  expireHold _ law := by rwa [State.expireHold_egress]
  complete _ law := law

end Sys2Proof.Machine
end

section
/-! SUPPORT. Section 3.1: fields of live records stay in their ranges. Section 9.2, R185: the link keeps its law, and every
response fits. -/
namespace Sys2Proof.Machine

/-! ## Fields of live records -/

/-- The fields of every live record are in their ranges. -/
def FieldsInRange (s : State) : Prop := ∀ r l, s.sup.live r = some l → FieldsLaw l.fields

/-- Each record's fields are those it had, or in their ranges. -/
theorem FieldsInRange.of_fields {s t : State} (law : FieldsInRange s)
    (h : ∀ r l, t.sup.live r = some l → FieldsLaw l.fields ∨ (t.sup.live r).map (·.fields) = (s.sup.live r).map (·.fields)) :
    FieldsInRange t := fun r l hl => by
  rcases h r l hl with inRange | same
  · exact inRange
  · rw [hl] at same
    obtain ⟨k, hk, fields⟩ := Option.map_eq_some_iff.1 same.symm
    have fields : k.fields = l.fields := fields
    exact fields ▸ law r k hk

theorem FieldsInRange.of_same {s t : State} (law : FieldsInRange s)
    (h : ∀ r, (t.sup.live r).map (·.fields) = (s.sup.live r).map (·.fields)) : FieldsInRange t :=
  law.of_fields fun r _ _ => .inr (h r)

theorem FieldsInRange.of_supervises {s t : State} (law : FieldsInRange s) (h : s.Supervises t) : FieldsInRange t :=
  law.of_same (Supervision.fields_of_sameRecords h.records)

theorem FieldsInRange.of_vacant {s : State} (free : ∀ r, s.sup.live r = none) : FieldsInRange s := fun r l hl => by
  cases (free r).symm.trans hl

/-- Where one record alone is written, its fields decide. -/
theorem FieldsInRange.of_record {s t : State} (law : FieldsInRange s) {r : RecIx} (same : ∀ q, r ≠ q → t.sup.record q = s.sup.record q)
    (written : ∀ l, t.sup.live r = some l → FieldsLaw l.fields) : FieldsInRange t := fun q l hl => by
  by_cases hq : r = q
  · exact written l (hq ▸ hl)
  · exact law q l (by rwa [Supervision.live_of_record (same q hq)] at hl)

theorem FieldsInRange.freeRecord {s : State} (law : FieldsInRange s) (r : RecIx) : FieldsInRange (s.freeRecord r) := by
  cases hl : s.sup.live r with
  | none => rwa [State.freeRecord_of_free hl]
  | some l =>
    refine law.of_record (r := r) (fun q hq => ?_) fun k hk => ?_
    · rw [State.freeRecord_sup hl]
      exact Supervision.setRecord_ne _ _ hq
    · rw [State.freeRecord_sup hl, Supervision.live, Supervision.setRecord_same] at hk
      cases hk

theorem FieldsInRange.createAt {s : State} (law : FieldsInRange s) (r : RecIx) {f : Fields} (inRange : FieldsLaw f) :
    FieldsInRange (s.createAt r f) := by
  refine FieldsInRange.of_supervises ?_ (State.evaluateBy_supervises _ false r)
  refine law.of_record (r := r) (fun q hq => ?_) fun k hk => ?_
  · rw [State.takeRefs_sup]
    exact Supervision.setRecord_ne _ _ hq
  · rw [State.takeRefs_sup, Supervision.live, Supervision.setRecord_same] at hk
    cases hk
    exact inRange

theorem FieldsInRange.amendRecord {s : State} (law : FieldsInRange s) {r : RecIx} {l : Live} (a : Amendment)
    (inRange : FieldsLaw (a.apply l.fields)) : FieldsInRange (s.amendRecord r l a) := by
  have written : FieldsInRange (State.dropRefs (State.takeRefs { s with sup := s.sup.modLive r fun k =>
      { k with fields := a.apply l.fields } } a.taken) (a.droppedFrom l.fields)) := by
    refine law.of_record (r := r) (fun q hq => ?_) fun k hk => ?_
    · rw [State.dropRefs_sup, State.takeRefs_sup]
      exact Supervision.modLive_record_ne _ _ hq
    · rw [State.dropRefs_sup, State.takeRefs_sup, Supervision.modLive_same] at hk
      obtain ⟨_, _, rfl⟩ := Option.map_eq_some_iff.1 hk
      exact inRange
  have cleared (t : State) (h : FieldsInRange t) : FieldsInRange { t with sup := t.sup.modSel r fun x =>
      { x with request := x.request.withoutProtect } } := h.of_same fun q => Supervision.fields_modLive _ r q fun _ => rfl
  unfold State.amendRecord
  dsimp only
  split <;> split
  · exact (cleared _ written).of_supervises (State.evaluateBy_supervises _ false r)
  · exact written.of_supervises (State.evaluateBy_supervises _ false r)
  · exact cleared _ written
  · exact written

theorem Supervision.endHold_live (u : Supervision) (e : Entry) (q : RecIx) : (u.endHold e).live q = u.live q := by
  unfold Supervision.endHold
  split
  · split
    · rename_i r _ _
      by_cases hq : r = q
      · subst hq
        rw [Supervision.live, Supervision.setRecord_same]
        rfl
      · exact congrArg Record.live (Supervision.setRecord_ne _ _ hq)
    · rfl
  · rfl
  · rfl

theorem fieldsInRange_guarded : State.Guarded FieldsInRange where
  same s t _ _ h law := law.of_same fun r => by rw [h]
  selectors s u h _ law := law.of_same (Supervision.fields_of_sameRecords h)
  evaluateBy s expiry r law := law.of_supervises (s.evaluateBy_supervises expiry r)
  post s x k _ law := law.of_same fun r => rfl
  postRecord s r k _ _ law := law.of_same fun q => by rw [Supervision.postRecord_live]
  modLive s r f h law := law.of_same fun q => Supervision.fields_modLive _ r q h
  freeRecord s r law := law.freeRecord r
  createAt s r f _ inRange _ law := law.createAt r inRange
  amendRecord s r l a hl inRange _ law := law.amendRecord a (inRange (law r l hl))
  fetched s e rest _ law := law.of_same fun q =>
    congrArg (Option.map fun l : Live => l.fields) (Supervision.endHold_live _ e q)
  softReset s _ := .of_vacant s.softReset_live
  hardReset s _ := .of_vacant s.hardReset_live
  eachMonitor s b f _ law := law.of_same fun r => by rw [State.setMons_sup]
  take s src threshold frame law := law.of_same fun r => by rw [State.setMonitor_sup]

/-! ## Responses fit -/

theorem name_length_le {o : Option Name} (h : ∀ n, o = some n → n.length = 16) : (nameBytes (o.getD [])).length ≤ 16 := by
  rw [nameBytes_length]
  cases o with
  | none => exact Nat.zero_le 16
  | some n => exact (h n rfl).le

theorem judgementBytes_length (j : Option Judgement) : (judgementBytes j).length = 2 := by cases j <;> rfl

theorem Supervision.timerBytes_length (u : Supervision) (x : Selector) : (u.timerBytes x).length = 5 := by
  unfold Supervision.timerBytes
  split
  · rfl
  · split <;> rfl

theorem Supervision.recordBytes_length {u : Supervision} {r : RecIx} {l : Live} (law : FieldsLaw l.fields) :
    (u.recordBytes r l).length ≤ 59 := by
  have expected := name_length_le (o := l.fields.expectedName) fun n h => (law.names n (.inl h)).1
  have out := name_length_le (o := l.fields.outName) fun n h => (law.names n (.inr h)).1
  simp only [Supervision.recordBytes, List.length_append, List.length_cons, List.length_nil, judgementBytes_length,
    Supervision.timerBytes_length, bytes16]
  omega

theorem Monitor.bytes_length {m : Monitor} (law : MonitorLaw m) : m.bytes.length ≤ 37 := by
  have name := name_length_le (o := m.name) fun n h => (law.names n (.inl h)).1
  simp only [Monitor.bytes, List.length_append, List.length_cons, List.length_nil, bytes32, bytes16]
  omega

theorem State.mapBytes_length (s : State) (n : SlotIx) : (s.mapBytes n).length = 7 := by
  have owner : (s.ownerBytes n).length = 2 := by unfold State.ownerBytes; split <;> rfl
  have pending : (s.pendingBytes n).length = 3 := by
    unfold State.pendingBytes
    split
    · rfl
    · dsimp only
      split <;> rfl
  simp only [State.mapBytes, List.length_append, owner, pending, bytes16, List.length_cons, List.length_nil]

theorem slotRange_length (first count : Nat) : (slotRange first count).length ≤ count := by
  have distinct : (slotRange first count).Nodup := (List.nodup_finRange 48).filter _
  have inside : ((slotRange first count).map Fin.val).toFinset ⊆ Finset.Ico first (first + count) := fun k hk => by
    obtain ⟨n, hn, rfl⟩ := List.mem_map.1 (List.mem_toFinset.1 hk)
    simpa [slotRange] using hn
  have sized := Finset.card_le_card inside
  rwa [List.toFinset_card_of_nodup (distinct.map Fin.val_injective), List.length_map, Nat.card_Ico, Nat.add_sub_cancel_left] at sized

theorem State.snapshot_length (s : State) (e : Entry) : (s.snapshot e).length ≤ 7 := by
  unfold State.snapshot
  split
  · simp
  · simp
  · split
    · simp
    · split
      · simp [judgementBytes_length]
      · simp

/-- No result is longer than a response holds (R185). -/
theorem perform_results_length {s : State} (monitors : MonitorsLaw s) (fields : FieldsInRange s) (c : Command) (params : List Byte) :
    (perform c params s).2.results.length ≤ 60 := by
  have none : ([] : List Byte).length ≤ 60 := Nat.zero_le 60
  have disposed (x : State × Bool) : (disposition x).2.results.length ≤ 60 := by simp [disposition]
  cases c with
  | ident =>
    show (performIdent params s).2.results.length ≤ 60
    unfold performIdent
    split
    · exact none
    · simp
  | softReset =>
    show (performSoftReset params s).2.results.length ≤ 60
    unfold performSoftReset
    split <;> exact none
  | busSet =>
    show (performBusSet params s).2.results.length ≤ 60
    rcases performBusSet_cases params s with ⟨_, h⟩ | ⟨_, _, h⟩ | ⟨b, _, _, _, _, h⟩ <;> rw [h] <;> exact none
  | busRead =>
    show (performBusRead params s).2.results.length ≤ 60
    unfold performBusRead
    split
    · exact none
    · split
      · exact none
      · simp [Receiver.bytes, bytes32, bytes16]
      · simp
  | create =>
    show (performCreate params s).2.results.length ≤ 60
    unfold performCreate
    split
    · exact none
    · split
      · exact none
      · split
        · simp
        · simp
  | amend =>
    show (performAmend params s).2.results.length ≤ 60
    unfold performAmend
    dsimp only
    split
    · exact none
    · split
      · exact none
      · split
        · exact none
        · split
          · exact none
          · split
            · exact none
            · split
              · exact none
              · simp
  | activate =>
    show (performActivate params s).2.results.length ≤ 60
    unfold performActivate
    split
    · exact none
    · split
      · exact none
      · split
        · exact none
        · split
          · exact none
          · exact disposed _
  | replace =>
    show (performReplace params s).2.results.length ≤ 60
    unfold performReplace
    split
    · exact none
    · split
      · exact none
      · split
        · exact none
        · split
          · exact none
          · split
            · exact none
            · split
              · exact none
              · split
                · exact none
                · exact disposed _
  | retire =>
    show (performRetire params s).2.results.length ≤ 60
    unfold performRetire
    split
    · exact none
    · split
      · exact none
      · exact disposed _
  | request =>
    show (performRequest params s).2.results.length ≤ 60
    unfold performRequest
    split
    · exact none
    · split
      · split
        · exact none
        · split
          · exact none
          · show (Supervision.requestResult _ _).length ≤ 60
            unfold Supervision.requestResult
            split
            · simp
            · exact none
      · exact none
  | recordRead =>
    show (performRecordRead params s).2.results.length ≤ 60
    unfold performRecordRead
    split
    · exact none
    · split
      · exact none
      · rename_i r l checked
        exact (Supervision.recordBytes_length (fields r l (State.checkRecord_ok checked).1)).trans (by decide)
  | mapRead =>
    show (performMapRead params s).2.results.length ≤ 60
    unfold performMapRead
    split
    · exact none
    · dsimp only
      split
      · exact none
      · rename_i inRange
        have slots := slotRange_length (byteAt params 0).toNat (byteAt params 1).toNat
        simp only [List.length_append, List.length_flatMap, State.mapBytes_length, List.map_const', List.sum_replicate,
          List.length_cons, List.length_nil, smul_eq_mul]
        omega
  | sourceRead =>
    show (performSourceRead params s).2.results.length ≤ 60
    unfold performSourceRead
    split
    · exact none
    · split
      · exact none
      · rename_i src _
        have := Monitor.bytes_length (monitors src)
        rw [List.length_cons]
        omega
  | noticeFetch =>
    show (performNoticeFetch params s).2.results.length ≤ 60
    unfold performNoticeFetch
    split
    · exact none
    · split
      · exact none
      · rename_i e rest _
        have snapshot := s.snapshot_length e
        have generation : e.generation.toList.length ≤ 1 := by cases e.generation <;> simp
        simp only [List.length_append, List.length_cons, List.length_nil]
        omega
  | alertSet =>
    show (performAlertSet params s).2.results.length ≤ 60
    unfold performAlertSet
    split
    · exact none
    · split
      · exact none
      · simp
  | linkRead =>
    show (performLinkRead params s).2.results.length ≤ 60
    unfold performLinkRead
    split
    · exact none
    · simp [bytes16, Pool.bytes]
  | countersClear =>
    show (performCountersClear params s).2.results.length ≤ 60
    rcases performCountersClear_cases params s with ⟨_, h⟩ | ⟨t, _, h⟩ <;> rw [h] <;> exact none

end Sys2Proof.Machine
end

section
/-! SUPPORT. Section 9.2: the link keeps its law in every transfer. O10 from the laws of receivers, egress side and link. -/
namespace Sys2Proof.Machine

/-! ## The link -/

theorem LinkLaw.clearCounters {l : Link} (law : LinkLaw l) : LinkLaw l.clearCounters :=
  ⟨law.idle, law.executing, law.holding, law.taking, law.results⟩

theorem LinkLaw.of_idle {l : Link} (state : l.state = .idle) (cmd : l.cmd = []) (resp : l.resp = []) (result : l.result = none)
    (collision : l.collision = false) : LinkLaw l where
  idle _ := ⟨cmd, resp, result, collision⟩
  executing h := by cases state.symm.trans h
  holding h := by cases state.symm.trans h
  taking h := by cases state.symm.trans h
  results reply h := by cases result.symm.trans h

theorem LinkLaw.of_holding {l : Link} (state : l.state = .holding) (cmd : l.cmd = []) (result : l.result = none)
    (collision : l.collision = false) {collided : Bool} {reply : Reply} (resp : l.resp = responseFrame collided reply)
    (fits : reply.results.length ≤ 60) : LinkLaw l where
  idle h := by cases state.symm.trans h
  executing h := by cases state.symm.trans h
  holding _ := ⟨cmd, result, collision, collided, reply, resp, fits⟩
  taking h := by cases state.symm.trans h
  results reply h := by cases result.symm.trans h

theorem LinkLaw.complete {l : Link} (law : LinkLaw l) : LinkLaw l.complete := by
  unfold Link.complete
  split
  · rename_i reply _ result
    exact .of_holding rfl rfl rfl rfl rfl (law.results reply result)
  · exact law

theorem LinkLaw.refuse {l : Link} (law : LinkLaw l) (executing : l.state = .executing) (edges : Nat) : LinkLaw (l.refuse edges) where
  idle h := by cases executing.symm.trans h
  executing := law.executing
  holding h := by cases executing.symm.trans h
  taking := law.taking
  results := law.results

theorem LinkLaw.discard {l : Link} (law : LinkLaw l) (holding : l.state = .holding) : LinkLaw l.discard := by
  obtain ⟨cmd, result, collision, -⟩ := law.holding holding
  exact .of_idle rfl cmd rfl result collision

theorem LinkLaw.withMdo {l : Link} (law : LinkLaw l) (bits : List Bool) : LinkLaw { l with mdo := bits } :=
  ⟨law.idle, law.executing, law.holding, law.taking, law.results⟩

theorem LinkLaw.withDropped {l : Link} (law : LinkLaw l) (n : BitVec 16) : LinkLaw { l with dropped := n } :=
  ⟨law.idle, law.executing, law.holding, law.taking, law.results⟩

theorem LinkLaw.read {l : Link} (law : LinkLaw l) (holding : l.state = .holding) (len edges : Nat) (holdRunsOut : Bool) :
    LinkLaw (l.read len edges holdRunsOut) := by
  have shifted := law.withMdo ((bitsOfBytes l.resp).take (mdoLength edges) ++
    List.replicate (mdoLength edges - (bitsOfBytes l.resp).length) false)
  have discarded := shifted.discard holding
  unfold Link.read
  dsimp only
  split
  · exact discarded
  · split
    · exact discarded.withDropped _
    · exact shifted

theorem Link.countRejected_cases (l : Link) (status : Status) :
    ∃ a b c, l.countRejected status = { l with badLength := a, badCheck := b, badCode := c } := by
  unfold Link.countRejected
  split <;> exact ⟨_, _, _, rfl⟩

theorem LinkLaw.reject {l : Link} (result : l.result = none) (status : Status) : LinkLaw (l.reject status) := by
  obtain ⟨a, b, c, counted⟩ := l.countRejected_cases status
  unfold Link.reject
  rw [counted]
  exact .of_holding rfl rfl result rfl rfl (Nat.zero_le 60)

/-! ## Transfers -/

/-- A good frame is of a length the check takes (R179). -/
theorem checkCommandFrame_length {bytes : List Byte} {x : Command × List Byte} (h : checkCommandFrame bytes = .ok x) :
    3 ≤ bytes.length ∧ bytes.length ≤ 63 := by
  unfold checkCommandFrame at h
  split at h
  · cases h
  · omega

theorem perform_link (c : Command) (params : List Byte) (s : State) :
    (perform c params s).1.link = s.link ∨ (perform c params s).1.link = s.link.clearCounters := by
  by_cases busSet : c = .busSet
  · subst busSet
    refine .inl ?_
    show (performBusSet params s).1.link = s.link
    rcases performBusSet_cases params s with ⟨_, h⟩ | ⟨_, _, h⟩ | ⟨b, _, _, _, _, h⟩ <;> rw [h]
    · rfl
    · exact (s.setBus_sameBesideBus b _ _ _ _).link
  · by_cases clear : c = .countersClear
    · subst clear
      show (performCountersClear params s).1.link = s.link ∨ (performCountersClear params s).1.link = s.link.clearCounters
      rcases performCountersClear_cases params s with ⟨_, h⟩ | ⟨t, cleared, h⟩ <;> rw [h]
      · exact .inl rfl
      · rcases State.clearGroup_cases cleared with ⟨b, rfl⟩ | ⟨b, rfl⟩ | rfl | rfl | rfl
        · exact .inl (State.setRx_link s b _)
        · exact .inl (State.setMons_link s b _)
        · exact .inl rfl
        · exact .inl rfl
        · exact .inr rfl
    · exact .inl (perform_quiet busSet clear params s).link

theorem Link.refuseMany_execute (early : List (List Bool)) (l : Link) :
    ∃ hits collision mdo, Link.refuseMany early l = { l with busyHits := hits, collision := collision, mdo := mdo } := by
  rw [Link.refuseMany_eq]
  exact ⟨_, _, _, rfl⟩

/-- A command taken in IDLE leaves the link with its frame and the block's result. -/
theorem LinkLaw.executed {l : Link} (law : LinkLaw l) (idle : l.state = .idle) {bytes : List Byte} {edges : Nat}
    {x : Command × List Byte} (good : checkCommandFrame bytes = .ok x) (early : List (List Bool)) {performed : Link}
    (same : performed = Link.refuseMany early (l.collect bytes edges).execute ∨
      performed = (Link.refuseMany early (l.collect bytes edges).execute).clearCounters)
    {reply : Reply} (fits : reply.results.length ≤ 60) : LinkLaw { performed with result := some reply } := by
  obtain ⟨-, resp, -, -⟩ := law.idle idle
  obtain ⟨atLeast, atMost⟩ := checkCommandFrame_length good
  obtain ⟨hits, collision, mdo, refused⟩ := Link.refuseMany_execute early (l.collect bytes edges).execute
  have executing {q : Link} (state : q.state = .executing) (resp : q.resp = []) (cmd : q.cmd = bytes.take 64) :
      LinkLaw { q with result := some reply } :=
    { idle := fun h => by cases state.symm.trans h
      executing := fun _ => ⟨resp, rfl, by rw [cmd, List.length_take]; omega, by rw [cmd, List.length_take]; omega⟩
      holding := fun h => by cases state.symm.trans h
      taking := fun h => by cases state.symm.trans h
      results := fun _ h => by cases h; exact fits }
  rw [refused] at same
  rcases same with rfl | rfl
  · exact executing rfl resp rfl
  · exact executing rfl resp rfl

theorem LinkLaw.commandTransfer {s : State} (law : LinkLaw s.link) (idle : s.link.state = .idle) (monitors : MonitorsLaw s)
    (fields : FieldsInRange s) (bytes : List Byte) (edges : Nat) (early : List (List Bool)) :
    LinkLaw (s.commandTransfer bytes edges early).link := by
  obtain ⟨cmd, resp, result, collision⟩ := law.idle idle
  unfold State.commandTransfer
  dsimp only
  split
  · rename_i empty
    exact .of_idle rfl (by rw [empty]; rfl) resp result collision
  · split
    · exact LinkLaw.reject (l := s.link.collect bytes edges) result _
    · rename_i c params good
      refine law.executed idle good early (perform_link c params _) (perform_results_length ?_ ?_ c params)
      · exact monitors.congr fun src => State.monitor_congr rfl rfl src
      · exact fields

theorem LinkLaw.transfer {s : State} (law : LinkLaw s.link) (monitors : MonitorsLaw s) (fields : FieldsInRange s)
    (bytes : List Byte) (edges : Nat) (early : List (List Bool)) (holdRunsOut : Bool) :
    LinkLaw (s.transfer bytes edges early holdRunsOut).link := by
  unfold State.transfer
  split
  · split
    · rename_i idle
      exact law.commandTransfer idle monitors fields bytes edges early
    · exact law
    · rename_i executing
      exact law.refuse executing edges
    · rename_i holding
      exact law.read holding _ _ _
  · exact law

theorem LinkLaw.expireHold {s : State} (law : LinkLaw s.link) : LinkLaw s.expireHold.link := by
  unfold State.expireHold
  split
  · rename_i holding
    exact (law.discard holding).withDropped _
  · exact law

/-! ## Map events -/

theorem LinkLaw.afterRequest {s : State} (law : LinkLaw s.link) : LinkLaw s.afterRequest.link := by
  unfold State.afterRequest
  split
  · exact law.complete
  · exact law

theorem LinkLaw.stopEgress {s : State} (law : LinkLaw s.link) : LinkLaw s.stopEgress.link := by
  unfold State.stopEgress
  rw [State.postState_link, (State.applyUpdates_quiet _).link]
  exact law.afterRequest

theorem LinkLaw.startEgress {s : State} (law : LinkLaw s.link) : LinkLaw s.startEgress.link := law.afterRequest

theorem LinkLaw.frameStart {s : State} (law : LinkLaw s.link) (misses : Nat) : LinkLaw (s.frameStart misses).link := by
  unfold State.frameStart
  rw [(State.applyUpdates_quiet _).link]
  exact law.afterRequest

theorem State.buildDue_link (s : State) : s.buildDue.link = s.link := by
  unfold State.buildDue
  split
  · split <;> rfl
  · rfl

theorem State.driveNext_link (s : State) : s.driveNext.link = s.link := by
  unfold State.driveNext
  dsimp only
  split <;> rfl

theorem LinkLaw.expectFrame {s : State} (law : LinkLaw s.link) (pulse : Bool) : LinkLaw (s.expectFrame pulse).link := by
  unfold State.expectFrame
  split
  · exact law.frameStart 0
  · split
    · exact law.stopEgress
    · exact law.frameStart _

theorem LinkLaw.searchReference {s : State} (law : LinkLaw s.link) (pulse : Bool) : LinkLaw (s.searchReference pulse).link := by
  unfold State.searchReference
  split
  · split
    · exact law
    · exact law
  · split
    · exact law
    · split
      · exact law.startEgress
      · exact law

theorem LinkLaw.egressEdge {s : State} (law : LinkLaw s.link) (eref : Bool) : LinkLaw (s.egressEdge eref).link := by
  have noted : LinkLaw (State.link { s.buildDue with egress := { s.buildDue.egress with erefLevel := eref } }) :=
    s.buildDue_link.symm ▸ law
  unfold State.egressEdge
  split
  · dsimp only
    split
    · split
      · exact noted.expectFrame _
      · rw [State.driveNext_link]
        exact noted
    · exact noted.searchReference _
  · exact law

theorem LinkLaw.loseEgressClock {s : State} (law : LinkLaw s.link) : LinkLaw s.loseEgressClock.link := by
  have built : LinkLaw s.buildDue.link := s.buildDue_link.symm ▸ law
  unfold State.loseEgressClock
  split
  · dsimp only
    split
    · exact LinkLaw.stopEgress (s := { s.buildDue with egress := _ }) built
    · exact built
  · exact law

/-! ## Every step -/

/-- The laws a response needs: those of the link, the monitors and the fields it reports. -/
def ResponseLaw (s : State) : Prop := LinkLaw s.link ∧ MonitorsLaw s ∧ FieldsInRange s

theorem responseLaw_kept : State.Kept ResponseLaw := by
  have monitors := monitorsLaw_guarded.kept
  have fields := fieldsInRange_guarded.kept
  exact
    { pending := fun s q ⟨l, m, f⟩ => ⟨l, monitors.pending s q m, fields.pending s q f⟩
      hardReset := fun s ⟨_, m, f⟩ => ⟨.of_idle rfl rfl rfl rfl rfl, monitors.hardReset s m, fields.hardReset s f⟩
      release := fun s ⟨l, m, f⟩ => ⟨l, monitors.release s m, fields.release s f⟩
      tick := fun s ⟨l, m, f⟩ => ⟨by rwa [s.tick_quiet.link], monitors.tick s m, fields.tick s f⟩
      loseClock := fun s b ⟨l, m, f⟩ =>
        ⟨by rwa [(s.loseClock_sameBesideBus b).link], monitors.loseClock s b m, fields.loseClock s b f⟩
      takeWord := fun s b w ⟨l, m, f⟩ =>
        ⟨by rwa [(s.takeWord_sameBesideBus b w).link], monitors.takeWord s b w m, fields.takeWord s b w f⟩
      egressEdge := fun s eref ⟨l, m, f⟩ => ⟨l.egressEdge eref, monitors.egressEdge s eref m, fields.egressEdge s eref f⟩
      buildDue := fun s ⟨l, m, f⟩ => ⟨by rwa [s.buildDue_link], monitors.buildDue s m, fields.buildDue s f⟩
      loseEgressClock := fun s ⟨l, m, f⟩ => ⟨l.loseEgressClock, monitors.loseEgressClock s m, fields.loseEgressClock s f⟩
      transfer := fun s bytes edges early holdRunsOut ⟨l, m, f⟩ =>
        ⟨l.transfer m f bytes edges early holdRunsOut, monitors.transfer s bytes edges early holdRunsOut m,
          fields.transfer s bytes edges early holdRunsOut f⟩
      expireHold := fun s ⟨l, m, f⟩ => ⟨l.expireHold, monitors.expireHold s m, fields.expireHold s f⟩
      complete := fun s ⟨l, m, f⟩ => ⟨l.complete, monitors.complete s m, fields.complete s f⟩ }

/-- Settles O10: each of the three laws is kept by every event, the link's with the laws of what responses report. -/
theorem portLawsKept : Obligations.PortLawsKept := fun _ _ next =>
  ⟨fun law => receiversLaw_kept.step law next, fun law => egressLaw_kept.step law next,
    fun link monitors fields => (responseLaw_kept.step (P := ResponseLaw) ⟨link, monitors, fields⟩ next).1⟩

end Sys2Proof.Machine
end

section
/-! SUPPORT. Chapter 6: timers, waiters and the records that claim them, under each operation of the pool. -/
namespace Sys2Proof.Machine

/-! ## Timers RUNNING -/

theorem Pool.running_eq (p : Pool) : p.running = (List.finRange 24).countP fun t => (pick p.timers t).isSome := by
  have listed : p.timers.toList = (List.finRange 24).map (pick p.timers) := List.ext_getElem (by simp) fun i _ _ => by simp [pick]
  rw [Pool.running, listed, List.countP_map]
  rfl

theorem Pool.running_le_of {p q : Pool} (h : ∀ t, (pick q.timers t).isSome → (pick p.timers t).isSome) : q.running ≤ p.running := by
  rw [Pool.running_eq, Pool.running_eq]
  exact List.countP_mono_left fun t _ => h t

theorem Pool.running_le (p : Pool) : p.running ≤ 24 := by
  rw [Pool.running_eq]
  exact List.countP_le_length.trans (List.length_finRange).le

/-- A high-water mark in its range (R141). -/
def Pool.Marked (p : Pool) : Prop := p.running ≤ p.highWater ∧ p.highWater ≤ 24

theorem Pool.Marked.of_le {p q : Pool} (h : p.Marked) (running : ∀ t, (pick q.timers t).isSome → (pick p.timers t).isSome)
    (mark : q.highWater = p.highWater) : q.Marked :=
  ⟨mark ▸ (Pool.running_le_of running).trans h.1, mark ▸ h.2⟩

theorem Pool.Marked.lend {p : Pool} (h : p.highWater ≤ 24) (t : TimerIx) (timer : Timer) : (p.lend t timer).Marked :=
  ⟨le_max_right _ _, max_le h (Pool.running_le _)⟩

/-! ## Claims -/

/-- The timer a record's selector part names. -/
def Supervision.claimed (u : Supervision) (r : RecIx) : Option TimerIx := (u.live r).bind (·.sel.timer)

/-- The record's selector part says that it waits. -/
def Supervision.awaits (u : Supervision) (r : RecIx) : Bool := (u.live r).any (·.sel.waiting)

/-- The record a timer is lent to. -/
def Pool.lentTo (p : Pool) (t : TimerIx) : Option RecIx := (pick p.timers t).map (·.owner)

/-- R131, R136: a timer is lent to the record that claims it, and the queue holds the records that wait, once each. -/
structure ClaimLaw (u : Supervision) : Prop where
  claims : ∀ t r, u.pool.lentTo t = some r ↔ u.claimed r = some t
  waiters : ∀ r, r ∈ u.pool.waiters ↔ u.awaits r = true
  apart : ∀ r, u.awaits r = true → u.claimed r = none
  oneEach : u.pool.waiters.Nodup
  marked : u.pool.Marked

theorem ClaimLaw.congr {u v : Supervision} (law : ClaimLaw u) (claimed : ∀ r, v.claimed r = u.claimed r)
    (awaits : ∀ r, v.awaits r = u.awaits r) (lent : ∀ t, v.pool.lentTo t = u.pool.lentTo t)
    (waiters : v.pool.waiters = u.pool.waiters) (marked : v.pool.Marked) : ClaimLaw v where
  claims t r := by rw [lent, claimed]; exact law.claims t r
  waiters r := by rw [waiters, awaits]; exact law.waiters r
  apart r := by rw [awaits, claimed]; exact law.apart r
  oneEach := waiters ▸ law.oneEach
  marked := marked

/-- A FREE timer is lent to a record without one, which waits no more (R130, R139). -/
theorem ClaimLaw.lend {u v : Supervision} (law : ClaimLaw u) {t : TimerIx} {r : RecIx} {timer : Timer} {queue : List RecIx}
    (free : u.pool.lentTo t = none) (owner : timer.owner = r) (unclaimed : u.claimed r = none)
    (claimed : ∀ q, v.claimed q = if r = q then some t else u.claimed q)
    (awaits : ∀ q, v.awaits q = if r = q then false else u.awaits q) (pool : v.pool = { u.pool with waiters := queue }.lend t timer)
    (left : ∀ q, q ∈ queue ↔ q ∈ u.pool.waiters ∧ r ≠ q) (oneEach : queue.Nodup) : ClaimLaw v where
  claims k q := by
    have lent : v.pool.lentTo k = if t = k then some r else u.pool.lentTo k := by
      rw [pool, Pool.lentTo]
      show (pick (put u.pool.timers t (some timer)) k).map (·.owner) = _
      rw [pick_put]
      split
      · exact congrArg some owner
      · rfl
    rw [lent, claimed]
    by_cases same : t = k
    · subst same
      rw [if_pos rfl]
      by_cases other : r = q
      · simp [other]
      · rw [if_neg other, ← law.claims, free]
        simp [other]
    · rw [if_neg same, law.claims]
      by_cases other : r = q
      · subst other
        rw [if_pos rfl, unclaimed]
        simp [same]
      · rw [if_neg other]
  waiters q := by
    rw [awaits, show v.pool.waiters = queue from pool ▸ rfl, left, law.waiters]
    by_cases other : r = q <;> simp [other]
  apart q := by
    rw [awaits, claimed]
    by_cases other : r = q
    · simp [other]
    · rw [if_neg other, if_neg other]
      exact law.apart q
  oneEach := by rw [show v.pool.waiters = queue from pool ▸ rfl]; exact oneEach
  marked := pool ▸ Pool.Marked.lend law.marked.2 t timer

/-- A record gives its timer back (R135). -/
theorem ClaimLaw.yield {u v : Supervision} (law : ClaimLaw u) {t : TimerIx} {r : RecIx} (holds : u.claimed r = some t)
    (claimed : ∀ q, v.claimed q = if r = q then none else u.claimed q) (awaits : ∀ q, v.awaits q = u.awaits q)
    (pool : v.pool = { u.pool with timers := put u.pool.timers t none }) : ClaimLaw v where
  claims k q := by
    have lent : v.pool.lentTo k = if t = k then none else u.pool.lentTo k := by
      rw [pool, Pool.lentTo]
      show (pick (put u.pool.timers t none) k).map (·.owner) = _
      rw [pick_put]
      split <;> rfl
    rw [lent, claimed]
    by_cases same : t = k
    · subst same
      rw [if_pos rfl]
      by_cases other : r = q
      · simp [other]
      · rw [if_neg other, ← law.claims, (law.claims t r).2 holds]
        simp [other]
    · rw [if_neg same, law.claims]
      by_cases other : r = q
      · subst other
        rw [if_pos rfl, holds]
        simp [same]
      · rw [if_neg other]
  waiters q := by rw [awaits, pool]; exact law.waiters q
  apart q := by
    rw [awaits, claimed]
    intro waits
    split
    · rfl
    · exact law.apart q waits
  oneEach := by rw [pool]; exact law.oneEach
  marked := by
    rw [pool]
    refine law.marked.of_le (fun k h => ?_) rfl
    rw [show pick (put u.pool.timers t none) k = if t = k then none else pick u.pool.timers k from pick_put _ _ _ _] at h
    split at h
    · cases h
    · exact h

/-- The queue of waiters changes with what one record says (R137, R138). -/
theorem ClaimLaw.queue {u v : Supervision} (law : ClaimLaw u) {r : RecIx} {waits : Bool} {queue : List RecIx}
    (claimed : ∀ q, v.claimed q = u.claimed q) (awaits : ∀ q, v.awaits q = if r = q then waits else u.awaits q)
    (pool : v.pool = { u.pool with waiters := queue })
    (members : ∀ q, q ∈ queue ↔ if r = q then waits = true else q ∈ u.pool.waiters) (oneEach : queue.Nodup)
    (unclaimed : waits = true → u.claimed r = none) : ClaimLaw v where
  claims k q := by rw [claimed, pool]; exact law.claims k q
  waiters q := by
    rw [awaits, show v.pool.waiters = queue from pool ▸ rfl, members]
    split
    · rfl
    · exact law.waiters q
  apart q := by
    rw [awaits, claimed]
    split
    · rename_i same
      exact same ▸ unclaimed
    · exact law.apart q
  oneEach := by rw [show v.pool.waiters = queue from pool ▸ rfl]; exact oneEach
  marked := pool ▸ law.marked

theorem Supervision.takeTimer_short {u : Supervision} {r : RecIx} {purpose : Purpose} {ticks : Nat} (short : u.takeTimer r purpose ticks = none) :
    u.pool.lowestFree = none := by
  unfold Supervision.takeTimer at short
  split at short
  · assumption
  · cases short

/-! ## Rows -/

/-- R103, R104, R71, R116, R129: the row of one live record, and what it claims. Timers that are due have reached 0. -/
structure RowLaw (due : TimerIx → Prop) (p : Pool) (l : Live) : Prop where
  mode : l.sel.mode = l.state.mode
  row : selectorRow l.sel
  protect : l.sel.selected = .P → l.fields.protect.isSome
  request : l.sel.request = .pinP ∨ l.sel.request = .steerP → l.fields.protect.isSome
  purpose : ∀ t timer, l.sel.timer = some t → pick p.timers t = some timer → l.sel.state.purpose = some timer.purpose
  remaining : ∀ t timer, l.sel.timer = some t → pick p.timers t = some timer →
    timer.remaining ≤ 90000 ∧ (¬ due t → 1 ≤ timer.remaining)

/-- A record that is not LIVE holds no timer and does not wait (R104). -/
theorem selectorRow_idle {x : Selector} (row : selectorRow x) (notLive : x.mode ≠ .live) : x.timer = none ∧ x.waiting = false := by
  unfold selectorRow at row
  split at row
  · exact row.2
  · exact row.2
  · exact absurd row.2.2.2 notLive
  · exact absurd row.2.2.2 notLive
  · exact absurd row.2.2 notLive

theorem RowLaw.of_pool {due : TimerIx → Prop} {p q : Pool} {l : Live} (law : RowLaw due p l)
    (same : ∀ t, l.sel.timer = some t → pick q.timers t = pick p.timers t) : RowLaw due q l where
  mode := law.mode
  row := law.row
  protect := law.protect
  request := law.request
  purpose t timer ht h := law.purpose t timer ht (same t ht ▸ h)
  remaining t timer ht h := law.remaining t timer ht (same t ht ▸ h)

/-- A row without a timer asks nothing of the pool. -/
theorem RowLaw.of_idle {due : TimerIx → Prop} {p : Pool} {l : Live} (mode : l.sel.mode = l.state.mode) (row : selectorRow l.sel)
    (protect : l.sel.selected = .P → l.fields.protect.isSome)
    (request : l.sel.request = .pinP ∨ l.sel.request = .steerP → l.fields.protect.isSome) (idle : l.sel.timer = none) :
    RowLaw due p l where
  mode := mode
  row := row
  protect := protect
  request := request
  purpose t timer ht := by cases idle.symm.trans ht
  remaining t timer ht := by cases idle.symm.trans ht

/-! ## A supervision sound but for one record's row -/

/-- Timers, waiters, fields, and the rows of all records but one: that one's live part is `l`. -/
structure Supervision.Stands (due : TimerIx → Prop) (u : Supervision) (r : RecIx) (l : Live) : Prop where
  claims : ClaimLaw u
  noneFree : u.pool.waiters ≠ [] → u.pool.lowestFree = none
  rows : ∀ q k, q ≠ r → u.live q = some k → RowLaw due u.pool k
  fields : ∀ q k, q ≠ r → u.live q = some k → FieldsLaw k.fields
  live : u.live r = some l

section
variable {due : TimerIx → Prop} {u : Supervision} {r : RecIx} {l : Live} (stands : u.Stands due r l)
include stands

theorem Supervision.Stands.claimed : u.claimed r = l.sel.timer := by rw [Supervision.claimed, stands.live]; rfl

theorem Supervision.Stands.awaits : u.awaits r = l.sel.waiting := by rw [Supervision.awaits, stands.live]; rfl

theorem Supervision.Stands.sel : u.sel r = some l.sel := Supervision.sel_of_live stands.live

theorem Supervision.Stands.heldTimer : u.heldTimer r = l.sel.timer := by
  unfold Supervision.heldTimer
  rw [stands.sel]
  cases held : l.sel.timer with
  | none => simp [held]
  | some t =>
    have lent := (stands.claims.claims t r).2 (stands.claimed.trans held)
    obtain ⟨timer, running, owner⟩ := Option.map_eq_some_iff.1 lent
    simp [held, running, owner]

/-- No other record claims the record's timer. -/
theorem Supervision.Stands.others_ne {t : TimerIx} (lent : u.pool.lentTo t = some r ∨ u.pool.lentTo t = none) {q : RecIx}
    (other : q ≠ r) {k : Live} (hk : u.live q = some k) : k.sel.timer ≠ some t := by
  intro held
  have claimed : u.claimed q = some t := by rw [Supervision.claimed, hk]; exact held
  have := (stands.claims.claims t q).2 claimed
  rcases lent with h | h <;> rw [this] at h <;> simp_all

/-- The record's own row, held beside the others, is all that is missing. -/
theorem Supervision.Stands.all_rows (row : RowLaw due u.pool l) : ∀ q k, u.live q = some k → RowLaw due u.pool k := fun q k hk => by
  by_cases same : q = r
  · subst same
    cases stands.live.symm.trans hk
    exact row
  · exact stands.rows q k same hk

/-- What changes neither other records nor timers, and of the record neither timer nor wait. -/
theorem Supervision.Stands.of_self {v : Supervision} {k : Live} (live : v.live r = some k) (timer : k.sel.timer = l.sel.timer)
    (waiting : k.sel.waiting = l.sel.waiting) (others : ∀ q, q ≠ r → v.live q = u.live q) (timers : v.pool.timers = u.pool.timers)
    (waiters : v.pool.waiters = u.pool.waiters) (mark : v.pool.highWater = u.pool.highWater) : v.Stands due r k where
  claims := by
    refine stands.claims.congr (fun q => ?_) (fun q => ?_) (fun t => by rw [Pool.lentTo, Pool.lentTo, timers]) waiters
      (stands.claims.marked.of_le (fun t h => timers ▸ h) mark)
    · by_cases same : q = r
      · subst same
        rw [stands.claimed, Supervision.claimed, live]
        exact timer
      · rw [Supervision.claimed, Supervision.claimed, others q same]
    · by_cases same : q = r
      · subst same
        rw [stands.awaits, Supervision.awaits, live]
        exact waiting
      · rw [Supervision.awaits, Supervision.awaits, others q same]
  noneFree h := by
    rw [Pool.lowestFree, timers]
    exact stands.noneFree (waiters ▸ h)
  rows q k other hk := (stands.rows q k other (others q other ▸ hk)).of_pool fun t _ => by rw [timers]
  fields q k other hk := stands.fields q k other (others q other ▸ hk)
  live := live

theorem Supervision.Stands.modLive (f : Live → Live) (timer : (f l).sel.timer = l.sel.timer)
    (waiting : (f l).sel.waiting = l.sel.waiting) : (u.modLive r f).Stands due r (f l) :=
  stands.of_self (by rw [Supervision.modLive_same, stands.live]; rfl) timer waiting
    (fun q other => Supervision.modLive_ne _ _ other.symm) rfl rfl rfl

theorem Supervision.Stands.modSel (f : Selector → Selector) (timer : (f l.sel).timer = l.sel.timer)
    (waiting : (f l.sel).waiting = l.sel.waiting) : (u.modSel r f).Stands due r { l with sel := f l.sel } :=
  stands.modLive (fun k => { k with sel := f k.sel }) timer waiting

theorem Supervision.Stands.countShort : u.countShort.Stands due r l :=
  stands.of_self stands.live rfl rfl (fun _ _ => rfl) rfl rfl rfl

theorem Supervision.Stands.of_tables {v : Supervision} (table : v.table = u.table) (pool : v.pool = u.pool) : v.Stands due r l :=
  stands.of_self ((Supervision.live_of_table table r).trans stands.live) rfl rfl (fun q _ => Supervision.live_of_table table q)
    (by rw [pool]) (by rw [pool]) (by rw [pool])

/-! ### Takes and reloads -/

/-- What a record claims after its selector part has changed. -/
theorem Supervision.Stands.modSel_claimed (p : Pool) (f : Selector → Selector) (q : RecIx) :
    (Supervision.modSel { u with pool := p } r f).claimed q = if r = q then (f l.sel).timer else u.claimed q := by
  split
  · rename_i same
    subst same
    rw [Supervision.claimed, Supervision.modSel_live]
    show (Option.map _ (u.live r)).bind _ = _
    rw [stands.live]
    rfl
  · rename_i other
    rw [Supervision.claimed, Supervision.modSel_live_ne _ _ other]
    rfl

theorem Supervision.Stands.modSel_awaits (p : Pool) (f : Selector → Selector) (q : RecIx) :
    (Supervision.modSel { u with pool := p } r f).awaits q = if r = q then (f l.sel).waiting else u.awaits q := by
  split
  · rename_i same
    subst same
    rw [Supervision.awaits, Supervision.modSel_live]
    show (Option.map _ (u.live r)).any _ = _
    rw [stands.live]
    rfl
  · rename_i other
    rw [Supervision.awaits, Supervision.modSel_live_ne _ _ other]
    rfl

theorem Supervision.Stands.modSel_self (p : Pool) (f : Selector → Selector) :
    (Supervision.modSel { u with pool := p } r f).live r = some { l with sel := f l.sel } := by
  rw [Supervision.modSel_live]
  show Option.map _ (u.live r) = _
  rw [stands.live]
  rfl

/-- A take (R130): the timer lent is loaded for the record. -/
theorem Supervision.Stands.takeTimer {v : Supervision} {purpose : Purpose} {ticks : Nat} (taken : u.takeTimer r purpose ticks = some v)
    (idle : l.sel.timer = none) (waits : l.sel.waiting = false) :
    ∃ t, v.Stands due r { l with sel := { l.sel with timer := some t } } ∧
      pick v.pool.timers t = some (.loaded r purpose ticks) := by
  unfold Supervision.takeTimer at taken
  split at taken
  · cases taken
  · rename_i t lowest
    cases taken
    have free : pick u.pool.timers t = none := (Pool.lowestFree_eq_some.1 lowest).1
    have lent : u.pool.lentTo t = none := by rw [Pool.lentTo, free]; rfl
    have noWaiters : u.pool.waiters = [] := by
      by_contra some
      rw [stands.noneFree some] at lowest
      cases lowest
    have timers : (u.pool.lend t (.loaded r purpose ticks)).timers = put u.pool.timers t (some (.loaded r purpose ticks)) := rfl
    refine ⟨t, ⟨?claims, fun h => absurd noWaiters h, ?rows, ?fields, stands.modSel_self _ _⟩, ?loaded⟩
    case claims =>
      refine stands.claims.lend (t := t) (timer := .loaded r purpose ticks) (queue := u.pool.waiters) lent rfl
        (stands.claimed.trans idle) (stands.modSel_claimed _ _) (fun q => ?_) rfl ?_ stands.claims.oneEach
      · rw [stands.modSel_awaits]
        show (if r = q then l.sel.waiting else u.awaits q) = if r = q then false else u.awaits q
        rw [waits]
      · simp [noWaiters]
    case rows =>
      intro q k other hk
      rw [Supervision.modSel_live_ne _ _ other.symm] at hk
      refine (stands.rows q k other hk).of_pool fun s hs => ?_
      refine pick_put_ne _ _ ?_
      rintro rfl
      exact stands.others_ne (.inr lent) other hk hs
    case fields =>
      intro q k other hk
      rw [Supervision.modSel_live_ne _ _ other.symm] at hk
      exact stands.fields q k other hk
    case loaded => exact pick_put_same _ _ _

/-- A reload (R134). -/
theorem Supervision.Stands.reloadTimer {t : TimerIx} (held : l.sel.timer = some t) (purpose : Purpose) (ticks : Nat) :
    (u.reloadTimer r purpose ticks).Stands due r l ∧
      pick (u.reloadTimer r purpose ticks).pool.timers t = some (.loaded r purpose ticks) := by
  have lent := (stands.claims.claims t r).2 (stands.claimed.trans held)
  have same (k : TimerIx) : (pick (put u.pool.timers t (some (.loaded r purpose ticks))) k).isSome = (pick u.pool.timers k).isSome := by
    rw [pick_put]
    split
    · rename_i h
      subst h
      obtain ⟨timer, running, -⟩ := Option.map_eq_some_iff.1 lent
      rw [running]
      rfl
    · rfl
  unfold Supervision.reloadTimer
  rw [stands.heldTimer, held]
  refine ⟨⟨?claims, fun waiters => ?noneFree, ?rows, stands.fields, stands.live⟩, pick_put_same _ _ _⟩
  case claims =>
    refine stands.claims.congr (fun _ => rfl) (fun _ => rfl) (fun k => ?_) rfl
      (stands.claims.marked.of_le (fun k h => by rwa [← same k]) rfl)
    show (pick (put u.pool.timers t (some (.loaded r purpose ticks))) k).map (·.owner) = u.pool.lentTo k
    rw [pick_put]
    split
    · rename_i h
      subst h
      exact lent.symm
    · rfl
  case noneFree =>
    rw [Pool.lowestFree_eq_none]
    intro k
    show (pick (put u.pool.timers t (some (.loaded r purpose ticks))) k).isSome = true
    rw [same]
    exact Pool.lowestFree_eq_none.1 (stands.noneFree waiters) k
  case rows =>
    intro q k other hk
    refine (stands.rows q k other hk).of_pool fun s hs => ?_
    refine pick_put_ne _ _ ?_
    rintro rfl
    exact stands.others_ne (.inl lent) other hk hs

/-! ### Waits -/

/-- A join (R137) of a record without a timer, met with a shortage. -/
theorem Supervision.Stands.join (short : u.pool.lowestFree = none) (idle : l.sel.timer = none) (waits : l.sel.waiting = false) :
    (u.join r).Stands due r { l with sel := { l.sel with waiting := true } } where
  claims := by
    have absent : r ∉ u.pool.waiters := by rw [stands.claims.waiters, stands.awaits, waits]; simp
    refine stands.claims.queue (queue := u.pool.waiters ++ [r]) (waits := true) (fun q => ?_) (stands.modSel_awaits _ _) rfl
      (fun q => ?_) ?_ fun _ => stands.claimed.trans idle
    · rw [Supervision.join, stands.modSel_claimed]
      split
      · rename_i same
        rw [← same, stands.claimed]
      · rfl
    · rw [List.mem_append, List.mem_singleton]
      split
      · rename_i same
        simp [same]
      · rename_i other
        simp [Ne.symm other]
    · exact List.nodup_append.2 ⟨stands.claims.oneEach, List.nodup_singleton r, by
        rintro a ha b hb rfl
        exact absent (List.mem_singleton.1 hb ▸ ha)⟩
  noneFree _ := short
  rows q k other hk := by
    rw [Supervision.join, Supervision.modSel_live_ne _ _ other.symm] at hk
    exact (stands.rows q k other hk).of_pool fun _ _ => rfl
  fields q k other hk := by
    rw [Supervision.join, Supervision.modSel_live_ne _ _ other.symm] at hk
    exact stands.fields q k other hk
  live := stands.modSel_self _ _

/-- A leave (R138). -/
theorem Supervision.Stands.leave : (u.leave r).Stands due r { l with sel := { l.sel with waiting := false } } where
  claims := by
    refine stands.claims.queue (queue := u.pool.waiters.filter (· ≠ r)) (waits := false) (fun q => ?_) (stands.modSel_awaits _ _) rfl
      (fun q => ?_) (stands.claims.oneEach.filter _) nofun
    · rw [Supervision.leave, stands.modSel_claimed]
      split
      · rename_i same
        rw [← same, stands.claimed]
      · rfl
    · rw [List.mem_filter]
      split
      · rename_i same
        simp [same]
      · rename_i other
        simp [Ne.symm other]
  noneFree h := by
    refine stands.noneFree fun empty => h ?_
    show u.pool.waiters.filter _ = []
    rw [empty]
    rfl
  rows q k other hk := by
    rw [Supervision.leave, Supervision.modSel_live_ne _ _ other.symm] at hk
    exact (stands.rows q k other hk).of_pool fun _ _ => rfl
  fields q k other hk := by
    rw [Supervision.leave, Supervision.modSel_live_ne _ _ other.symm] at hk
    exact stands.fields q k other hk
  live := stands.modSel_self _ _

end

end Sys2Proof.Machine
end

section
/-! SUPPORT. R135, R139: a timer freed and handed over leaves the pool and the other records sound. -/
namespace Sys2Proof.Machine

/-- The row of a record whose timer may have been the due one. -/
theorem RowLaw.of_due {due due' : TimerIx → Prop} {p : Pool} {l : Live} (law : RowLaw due p l)
    (h : ∀ t, l.sel.timer = some t → due t → due' t) : RowLaw due' p l where
  mode := law.mode
  row := law.row
  protect := law.protect
  request := law.request
  purpose := law.purpose
  remaining t timer ht running :=
    ⟨(law.remaining t timer ht running).1, fun notDue => (law.remaining t timer ht running).2 fun d => notDue (h t ht d)⟩

/-- A record that waits stands in RETURN without a timer (R104). -/
theorem selectorRow_waiting {x : Selector} (row : selectorRow x) (waits : x.waiting = true) :
    x.state = .ret ∧ x.selected = .P ∧ x.mode = .live := by
  unfold selectorRow at row
  split at row
  · cases waits.symm.trans row.2.2
  · cases waits.symm.trans row.2.2
  · cases waits.symm.trans row.2.2.1
  · cases waits.symm.trans row.2.2.1
  · rename_i ret
    exact ⟨ret, row.1, row.2.2⟩

/-- The head waiter's row once it has been handed a timer (R115, R139). -/
theorem RowLaw.served {due : TimerIx → Prop} {p q : Pool} {l : Live} (law : RowLaw due p l) (waits : l.sel.waiting = true)
    (inRange : FieldsLaw l.fields) {t : TimerIx} {h : RecIx} (loaded : pick q.timers t = some (.loaded h .ret l.fields.returnTicks))
    (due' : TimerIx → Prop) : RowLaw due' q { l with sel := { l.sel with timer := some t, waiting := false } } := by
  obtain ⟨ret, selected, live⟩ := selectorRow_waiting law.row waits
  have ticks := inRange.returnTime
  exact
    { mode := law.mode
      row := by
        simp only [selectorRow, ret]
        exact ⟨selected, rfl, live⟩
      protect := law.protect
      request := law.request
      purpose := fun k timer hk running => by
        cases hk
        cases loaded.symm.trans running
        show l.sel.state.purpose = some .ret
        rw [ret]
        rfl
      remaining := fun k timer hk running => by
        cases hk
        cases loaded.symm.trans running
        show 100 * l.fields.returnTime.toNat ≤ 90000 ∧ (_ → 1 ≤ 100 * l.fields.returnTime.toNat)
        exact ⟨by omega, fun _ => by omega⟩ }

section
variable {due : TimerIx → Prop} {u : Supervision} {r : RecIx} {l : Live} (stands : u.Stands due r l)
include stands

/-- Fewer timers are due where another record's could not be the one left out. -/
theorem Supervision.Stands.of_due {due' : TimerIx → Prop} {t : TimerIx} (lent : u.pool.lentTo t = some r ∨ u.pool.lentTo t = none)
    (h : ∀ k, k ≠ t → due k → due' k) : u.Stands due' r l :=
  { stands with
    rows := fun q k other hk => (stands.rows q k other hk).of_due fun s hs => h s fun same =>
      stands.others_ne lent other hk (same ▸ hs) }

/-- A timer given back: FREE, and the only one if records wait. -/
structure Supervision.Freed (due : TimerIx → Prop) (u : Supervision) (r : RecIx) (l : Live) (t : TimerIx) : Prop where
  claims : ClaimLaw u
  free : pick u.pool.timers t = none
  full : u.pool.waiters ≠ [] → ∀ s, t ≠ s → (pick u.pool.timers s).isSome = true
  notWaiting : r ∉ u.pool.waiters
  rows : ∀ q k, q ≠ r → u.live q = some k → RowLaw due u.pool k
  fields : ∀ q k, q ≠ r → u.live q = some k → FieldsLaw k.fields
  live : u.live r = some l

theorem Supervision.Stands.giveBack {t : TimerIx} (held : l.sel.timer = some t) {due' : TimerIx → Prop}
    (h : ∀ k, k ≠ t → due k → due' k) :
    (Supervision.modSel { u with pool := { u.pool with timers := put u.pool.timers t none } } r
      fun x => { x with timer := none }).Freed due' r { l with sel := { l.sel with timer := none } } t := by
  have lent := (stands.claims.claims t r).2 (stands.claimed.trans held)
  have kept (q : RecIx) (other : q ≠ r) := Supervision.modSel_live_ne
    { u with pool := { u.pool with timers := put u.pool.timers t none } } (fun x => { x with timer := none }) other.symm
  refine ⟨?claims, pick_put_same _ _ _, fun some s other => ?full, fun waits => ?notWaiting, fun q k other hk => ?rows,
    fun q k other hk => ?fields, stands.modSel_self _ _⟩
  case claims =>
    refine stands.claims.yield (t := t) (r := r) (stands.claimed.trans held) (stands.modSel_claimed _ _) (fun q => ?_) rfl
    rw [stands.modSel_awaits]
    split
    · rename_i same
      rw [← same, stands.awaits]
    · rfl
  case full =>
    rw [show pick (Supervision.pool _).timers s = pick u.pool.timers s from pick_put_ne _ _ other]
    exact Pool.lowestFree_eq_none.1 (stands.noneFree some) s
  case notWaiting => cases (stands.claimed.trans held).symm.trans (stands.claims.apart r ((stands.claims.waiters r).1 waits))
  case rows =>
    rw [kept q other] at hk
    refine ((stands.of_due (.inl lent) h).rows q k other hk).of_pool fun s hs => pick_put_ne _ _ ?_
    rintro rfl
    exact stands.others_ne (.inl lent) other hk hs
  case fields =>
    rw [kept q other] at hk
    exact stands.fields q k other hk

end

/-- What a hand-over to the head waiter writes (R139, R115). -/
theorem Supervision.handOver_head {u : Supervision} {t : TimerIx} {w : RecIx} {rest : List RecIx} {k : Live}
    (queue : u.pool.waiters = w :: rest) (hk : u.live w = some k) :
    (u.handOver t).pool = { u.pool with waiters := rest }.lend t (.loaded w .ret k.fields.returnTicks) ∧
      (u.handOver t).live w = some { k with sel := { k.sel with timer := some t, waiting := false } } ∧
      ∀ q, q ≠ w → (u.handOver t).live q = u.live q := by
  unfold Supervision.handOver
  rw [queue]
  dsimp only
  rw [Supervision.returnTicks, hk]
  refine ⟨rfl, ?_, fun q other => ?_⟩
  · rw [Supervision.modSel_live]
    show Option.map _ (u.live w) = _
    rw [hk]
    rfl
  · rw [Supervision.modSel_live_ne _ _ other.symm]
    rfl

theorem Supervision.awaits_live {u : Supervision} {r : RecIx} (h : u.awaits r = true) :
    ∃ k, u.live r = some k ∧ k.sel.waiting = true := by
  unfold Supervision.awaits at h
  cases hk : u.live r with
  | none => rw [hk] at h; cases h
  | some k => rw [hk] at h; exact ⟨k, rfl, h⟩

/-- The timer goes to the head waiter, or stays FREE (R139). -/
theorem Supervision.Freed.handOver {due : TimerIx → Prop} {u : Supervision} {r : RecIx} {l : Live} {t : TimerIx}
    (freed : u.Freed due r l t) : (u.handOver t).Stands due r l := by
  cases queue : u.pool.waiters with
  | nil =>
    rw [Supervision.handOver_empty t queue]
    exact ⟨freed.claims, fun some => absurd queue some, freed.rows, freed.fields, freed.live⟩
  | cons w rest =>
    have member : w ∈ u.pool.waiters := by rw [queue]; exact List.mem_cons_self ..
    have other : r ≠ w := fun same => freed.notWaiting (same ▸ member)
    have waits := (freed.claims.waiters w).1 member
    obtain ⟨k, hk, saysSo⟩ := Supervision.awaits_live waits
    obtain ⟨pool, served, kept⟩ := Supervision.handOver_head (t := t) queue hk
    have once := freed.claims.oneEach
    rw [queue, List.nodup_cons] at once
    have loaded : pick (u.handOver t).pool.timers t = some (.loaded w .ret k.fields.returnTicks) := by
      rw [pool]
      exact pick_put_same _ _ _
    have untouched (s : TimerIx) (hs : t ≠ s) : pick (u.handOver t).pool.timers s = pick u.pool.timers s := by
      rw [pool]
      exact pick_put_ne _ _ hs
    have unlent : u.pool.lentTo t = none := by rw [Pool.lentTo, freed.free]; rfl
    refine ⟨?claims, fun _ => ?noneFree, fun q j hq hj => ?rows, fun q j hq hj => ?fields, (kept r other).trans freed.live⟩
    case claims =>
      refine freed.claims.lend (r := w) (queue := rest) unlent rfl (freed.claims.apart w waits) (fun q => ?_) (fun q => ?_) pool
        (fun q => ?_) once.2
      · split
        · rename_i same
          rw [← same, Supervision.claimed, served]
          rfl
        · rename_i ne
          rw [Supervision.claimed, kept q (Ne.symm ne)]
          rfl
      · split
        · rename_i same
          rw [← same, Supervision.awaits, served]
          rfl
        · rename_i ne
          rw [Supervision.awaits, kept q (Ne.symm ne)]
          rfl
      · rw [queue, List.mem_cons]
        constructor
        · exact fun inRest => ⟨.inr inRest, fun same => once.1 (same ▸ inRest)⟩
        · rintro ⟨rfl | inRest, ne⟩
          · exact absurd rfl ne
          · exact inRest
    case noneFree =>
      rw [Pool.lowestFree_eq_none]
      intro s
      by_cases hs : t = s
      · rw [← hs, loaded]
        rfl
      · rw [untouched s hs]
        exact freed.full (by rw [queue]; exact List.cons_ne_nil _ _) s hs
    case rows =>
      by_cases same : q = w
      · subst same
        cases served.symm.trans hj
        exact (freed.rows q k hq hk).served saysSo (freed.fields q k hq hk) loaded due
      · rw [kept q same] at hj
        refine (freed.rows q j hq hj).of_pool fun s hs => untouched s ?_
        rintro rfl
        have claimed : u.claimed q = some t := by rw [Supervision.claimed, hj]; exact hs
        cases unlent.symm.trans ((freed.claims.claims t q).2 claimed)
    case fields =>
      by_cases same : q = w
      · subst same
        cases served.symm.trans hj
        exact freed.fields q k hq hk
      · rw [kept q same] at hj
        exact freed.fields q j hq hj

section
variable {due : TimerIx → Prop} {u : Supervision} {r : RecIx} {l : Live} (stands : u.Stands due r l)
include stands

/-- A free (R132, R135): the record holds its timer no more, the head waiter receives it. -/
theorem Supervision.Stands.freeTimer {t : TimerIx} (held : l.sel.timer = some t) {due' : TimerIx → Prop}
    (h : ∀ k, k ≠ t → due k → due' k) : (u.freeTimer r t).Stands due' r { l with sel := { l.sel with timer := none } } :=
  (stands.giveBack held h).handOver

/-- A release (R135) leaves the record without a timer. -/
theorem Supervision.Stands.releaseTimer : (u.releaseTimer r).Stands due r { l with sel := { l.sel with timer := none } } := by
  unfold Supervision.releaseTimer
  rw [stands.heldTimer]
  split
  · rename_i idle
    rwa [← idle]
  · rename_i t held
    exact stands.freeTimer held fun _ _ d => d

/-- The record's waits end (R110, R123). -/
theorem Supervision.Stands.endWaits : (u.endWaits r).Stands due r { l with sel := { l.sel with timer := none, waiting := false } } :=
  stands.releaseTimer.leave

end

end Sys2Proof.Machine
end

section
/-! SUPPORT. R103 to R124: an evaluation and a freeze leave the pool and every record's row sound. -/
namespace Sys2Proof.Machine

/-! ## Rows reached -/

theorem selectorRow_rest {y : Selector} {side : Side} (state : y.state = side.rest) (selected : y.selected = side)
    (idle : y.timer = none) (waits : y.waiting = false) : selectorRow y := by
  cases side <;> simp only [selectorRow, state, Side.rest] <;> exact ⟨selected, idle, waits⟩

theorem RowLaw.rest {due : TimerIx → Prop} {p q : Pool} {l : Live} (row : RowLaw due p l) {y : Selector} {side : Side}
    (mode : y.mode = l.sel.mode) (request : y.request = l.sel.request) (idle : y.timer = none) (waits : y.waiting = false)
    (state : y.state = side.rest) (selected : y.selected = side) (present : side = .P → l.fields.protect.isSome) :
    RowLaw due q { l with sel := y } :=
  .of_idle (mode.trans row.mode)
    (selectorRow_rest state selected idle waits)
    (fun h => present (selected.symm.trans h)) (fun h => row.request (by rwa [← request])) idle

theorem RowLaw.timed {due : TimerIx → Prop} {p q : Pool} {l : Live} (row : RowLaw due p l) {y : Selector} {t : TimerIx}
    {r : RecIx} {purpose : Purpose} {ticks : Nat} (mode : y.mode = l.sel.mode) (request : y.request = l.sel.request)
    (held : y.timer = some t) (loaded : pick q.timers t = some (.loaded r purpose ticks)) (standing : selectorRow y)
    (purposes : y.state.purpose = some purpose) (inRange : 1 ≤ ticks ∧ ticks ≤ 90000)
    (present : y.selected = .P → l.fields.protect.isSome) : RowLaw due q { l with sel := y } where
  mode := mode.trans row.mode
  row := standing
  protect := present
  request h := row.request (by rwa [← request])
  purpose k timer hk running := by
    cases held.symm.trans hk
    cases loaded.symm.trans running
    exact purposes
  remaining k timer hk running := by
    cases held.symm.trans hk
    cases loaded.symm.trans running
    exact ⟨inRange.2, fun _ => inRange.1⟩

/-- Everything sound (R103, R104, R131, R136, section 3.1). -/
structure Supervision.Sound (due : TimerIx → Prop) (u : Supervision) : Prop where
  claims : ClaimLaw u
  noneFree : u.pool.waiters ≠ [] → u.pool.lowestFree = none
  rows : ∀ q k, u.live q = some k → RowLaw due u.pool k
  fields : ∀ q k, u.live q = some k → FieldsLaw k.fields

theorem Supervision.Sound.stands {due : TimerIx → Prop} {u : Supervision} (sound : u.Sound due) {r : RecIx} {l : Live}
    (hl : u.live r = some l) : u.Stands due r l :=
  ⟨sound.claims, sound.noneFree, fun q k _ => sound.rows q k, fun q k _ => sound.fields q k, hl⟩

theorem Supervision.Stands.sound {due : TimerIx → Prop} {u : Supervision} {r : RecIx} {l : Live} (stands : u.Stands due r l)
    (row : RowLaw due u.pool l) (inRange : FieldsLaw l.fields) : u.Sound due where
  claims := stands.claims
  noneFree := stands.noneFree
  rows := stands.all_rows row
  fields q k hk := by
    by_cases same : q = r
    · subst same
      cases stands.live.symm.trans hk
      exact inRange
    · exact stands.fields q k same hk

/-- The record stands in a row, whatever its selector part has become. -/
def Supervision.Settled (due : TimerIx → Prop) (u : Supervision) (r : RecIx) (l : Live) : Prop :=
  ∃ y, u.Stands due r { l with sel := y } ∧ RowLaw due u.pool { l with sel := y }

/-- A hold or a return wait ends with the record at rest where it is selected (R111 to R113). -/
theorem Supervision.comeToRest {due : TimerIx → Prop} {v : Supervision} {r : RecIx} {l : Live} {p : Pool} (row : RowLaw due p l)
    (ended : v.Stands due r { l with sel := { l.sel with timer := none, waiting := false } }) (side : Side)
    (selected : l.sel.selected = side) : (v.setSelState r side.rest).Settled due r l :=
  ⟨_, ended.modSel (fun x => { x with state := side.rest }) rfl rfl,
    row.rest rfl rfl rfl rfl rfl selected fun h => row.protect (selected.trans h)⟩

/-- The preview rule settles on a source that is there (R121). -/
theorem previewSide_present {f : Fields} {x : Selector} {mw mp : Int} (present : mw ≤ mp → f.protect.isSome)
    (request : x.request = .pinP ∨ x.request = .steerP → f.protect.isSome) (h : previewSide f x mw mp = .P) : f.protect.isSome := by
  unfold previewSide at h
  split at h
  · cases h
  · rename_i pinned; exact request (.inl pinned)
  · split_ifs at h with steerW steerP below above
    · exact request (.inr steerP.1)
    · exact present below.le
    · exact present (not_lt.1 above)

section
variable {due : TimerIx → Prop} {u : Supervision} {r : RecIx} {l : Live} (stands : u.Stands due r l)
include stands

theorem Supervision.Stands.settled (row : RowLaw due u.pool l) : u.Settled due r l := ⟨l.sel, stands, row⟩

/-- The selection rests on a source, no timer being held (R110, R121). -/
theorem Supervision.Stands.selectAt {p : Pool} (row : RowLaw due p l) (idle : l.sel.timer = none) (waits : l.sel.waiting = false)
    (side : Side) (present : side = .P → l.fields.protect.isSome) : (u.selectAt r side).Settled due r l :=
  ⟨_, stands.modSel (fun x => { x with selected := side, state := side.rest }) rfl rfl,
    row.rest rfl rfl idle waits rfl rfl present⟩

/-- The waits end, and the selection rests on a source. -/
theorem Supervision.Stands.endWaits_selectAt {p : Pool} (row : RowLaw due p l) (side : Side)
    (present : side = .P → l.fields.protect.isSome) : ((u.endWaits r).selectAt r side).Settled due r l :=
  ⟨_, stands.endWaits.modSel (fun x => { x with selected := side, state := side.rest }) rfl rfl,
    row.rest rfl rfl rfl rfl rfl rfl present⟩

/-- The selected source ranks below the other (R111, R112). -/
theorem Supervision.Stands.leaveSource (row : RowLaw due u.pool l) (inRange : FieldsLaw l.fields) (side : Side)
    (selected : l.sel.selected = side) (idle : l.sel.timer = none) (waits : l.sel.waiting = false) (live : l.sel.mode = .live)
    (present : side.other = .P → l.fields.protect.isSome) : (u.leaveSource r l.fields side).1.Settled due r l := by
  unfold Supervision.leaveSource
  split
  · exact stands.selectAt row idle waits _ present
  · rename_i holdOff
    have ticks : 1 ≤ l.fields.holdTicks ∧ l.fields.holdTicks ≤ 90000 := by
      have := inRange.holdOff
      have positive : l.fields.holdOff.toNat ≠ 0 := fun zero => holdOff (BitVec.eq_of_toNat_eq zero)
      exact ⟨Nat.one_le_iff_ne_zero.2 positive, by show l.fields.holdOff.toNat ≤ 90000; omega⟩
    split
    · rename_i v taken
      obtain ⟨t, lent, loaded⟩ := stands.takeTimer taken idle waits
      refine ⟨_, lent.modSel (fun x => { x with state := side.hold }) rfl rfl,
        row.timed (t := t) rfl rfl rfl loaded ?_ ?_ ticks fun h => row.protect h⟩
      · cases side <;> simp only [selectorRow, Side.hold] <;> exact ⟨selected, rfl, waits, live⟩
      · cases side <;> rfl
    · exact stands.countShort.selectAt row idle waits _ present

/-- A return is due (R112, R137). -/
theorem Supervision.Stands.beginReturn (row : RowLaw due u.pool l) (inRange : FieldsLaw l.fields)
    (selected : l.sel.selected = .P) (idle : l.sel.timer = none) (waits : l.sel.waiting = false) (live : l.sel.mode = .live) :
    (u.beginReturn r l.fields).1.Settled due r l := by
  unfold Supervision.beginReturn
  have range := inRange.returnTime
  split
  · rename_i v taken
    obtain ⟨t, lent, loaded⟩ := stands.takeTimer taken idle waits
    refine ⟨_, lent.modSel (fun x => { x with state := .ret }) rfl rfl,
      row.timed (t := t) rfl rfl rfl loaded ?_ rfl ?_ fun h => row.protect h⟩
    · exact ⟨selected, waits, live⟩
    · show 1 ≤ 100 * l.fields.returnTime.toNat ∧ 100 * l.fields.returnTime.toNat ≤ 90000
      omega
  · rename_i short
    have short := Supervision.takeTimer_short short
    refine ⟨_, ((stands.countShort.join short idle waits).modSel (fun x => { x with state := .ret }) rfl rfl),
      RowLaw.of_idle row.mode ?_ (fun h => row.protect h) (fun h => row.request h) idle⟩
    exact ⟨selected, by simp [idle], live⟩

/-- The state rows of R111 to R113. -/
theorem Supervision.Stands.stateRow (row : RowLaw due u.pool l) (live : l.sel.mode = .live) (inRange : FieldsLaw l.fields)
    {mw mp : Int} (present : mw ≤ mp → l.fields.protect.isSome) : (u.stateRow r l.fields l.sel mw mp).1.Settled due r l := by
  have standing := row.row
  have range := inRange.returnTime
  unfold Supervision.stateRow
  unfold selectorRow at standing
  split <;> rename_i state <;> rw [state] at standing <;> dsimp only at standing
  · obtain ⟨selected, idle, waits⟩ := standing
    split
    · rename_i below
      exact stands.leaveSource row inRange .W selected idle waits live fun _ => present below.le
    · exact stands.settled row
  · obtain ⟨selected, -, waits, -⟩ := standing
    split
    · exact stands.settled row
    · have ended := stands.releaseTimer
      exact Supervision.comeToRest row (by rwa [← waits]) .W selected
  · obtain ⟨selected, idle, waits⟩ := standing
    split
    · exact stands.leaveSource row inRange .P selected idle waits live nofun
    · split
      · exact stands.beginReturn row inRange selected idle waits live
      · exact stands.settled row
  · obtain ⟨selected, holds, waits, -⟩ := standing
    obtain ⟨t, held⟩ := Option.isSome_iff_exists.1 holds
    split
    · exact stands.settled row
    · split
      · obtain ⟨reloaded, loaded⟩ := stands.reloadTimer held .ret l.fields.returnTicks
        refine ⟨_, reloaded.modSel (fun x => { x with state := .ret }) rfl rfl,
          row.timed (t := t) rfl rfl held loaded ?_ rfl ?_ fun h => row.protect h⟩
        · exact ⟨selected, by simp [waits, held], live⟩
        · show 1 ≤ 100 * l.fields.returnTime.toNat ∧ 100 * l.fields.returnTime.toNat ≤ 90000
          omega
      · have ended := stands.releaseTimer
        exact Supervision.comeToRest row (by rwa [← waits]) .P selected
  · obtain ⟨selected, waitsIff, -⟩ := standing
    split
    · split
      · exact stands.endWaits_selectAt row .W nofun
      · rename_i holdOff
        split
        · rename_i waits
          have idle : l.sel.timer = none := by simpa [waits] using waitsIff
          refine ⟨_, (stands.leave.countShort.modSel (fun x => { x with selected := .W, state := .onW }) rfl rfl),
            row.rest (side := .W) rfl rfl idle rfl rfl rfl nofun⟩
        · rename_i notWaiting
          have waits : l.sel.waiting = false := by simpa using notWaiting
          obtain ⟨t, held⟩ : ∃ t, l.sel.timer = some t := by
            rw [waits] at waitsIff
            cases held : l.sel.timer with
            | none => rw [held] at waitsIff; cases waitsIff
            | some t => exact ⟨t, rfl⟩
          obtain ⟨reloaded, loaded⟩ := stands.reloadTimer held .holdoff l.fields.holdTicks
          refine ⟨_, reloaded.modSel (fun x => { x with state := .holdP }) rfl rfl,
            row.timed (t := t) rfl rfl held loaded ?_ rfl ?_ fun h => row.protect h⟩
          · exact ⟨selected, by rw [held]; rfl, waits, live⟩
          · have := inRange.holdOff
            have positive : l.fields.holdOff.toNat ≠ 0 := fun zero => holdOff (BitVec.eq_of_toNat_eq zero)
            show 1 ≤ l.fields.holdOff.toNat ∧ l.fields.holdOff.toNat ≤ 90000
            omega
    · split
      · exact stands.settled row
      · exact Supervision.comeToRest row stands.endWaits .P selected

/-- The LIVE rules (R110). -/
theorem Supervision.Stands.settleLive (row : RowLaw due u.pool l) (live : l.sel.mode = .live) (inRange : FieldsLaw l.fields)
    {mw mp : Int} (present : mw ≤ mp → l.fields.protect.isSome) : (u.settleLive r l.fields l.sel mw mp).1.Settled due r l := by
  unfold Supervision.settleLive
  split
  · rename_i side requested
    refine stands.endWaits_selectAt row side fun isP => ?_
    subst isP
    unfold requestRow at requested
    split at requested
    · cases requested
    · cases requested
    · rename_i pinned; exact row.request (.inl pinned)
    · split at requested <;> cases requested
    · rename_i steered; exact row.request (.inr steered)
  · exact stands.stateRow row live inRange present

end

/-! ## Expiries -/

/-- The source a selector state belongs to (R104). -/
def SelState.side : SelState → Side
  | .onW => .W
  | .holdW => .W
  | .onP => .P
  | .holdP => .P
  | .ret => .P

theorem selectorRow_selected {x : Selector} (row : selectorRow x) : x.selected = x.state.side := by
  unfold selectorRow at row
  split at row <;> rename_i state <;> rw [state] <;> exact row.1

/-- A LIVE record whose timer has just been taken away at 0 (R132). -/
structure Live.Expired (l : Live) : Prop where
  mode : l.sel.mode = l.state.mode
  live : l.sel.mode = .live
  idle : l.sel.timer = none
  waits : l.sel.waiting = false
  selected : l.sel.selected = l.sel.state.side
  protect : l.sel.selected = .P → l.fields.protect.isSome
  request : l.sel.request = .pinP ∨ l.sel.request = .steerP → l.fields.protect.isSome

/-- The record whose timer expires held it in a row of LIVE. -/
theorem RowLaw.expired {due : TimerIx → Prop} {p : Pool} {l : Live} (row : RowLaw due p l) {t : TimerIx} (held : l.sel.timer = some t) :
    Live.Expired { l with sel := { l.sel with timer := none } } := by
  have live : l.sel.mode = .live := by
    by_contra notLive
    cases held.symm.trans (selectorRow_idle row.row notLive).1
  have waits : l.sel.waiting = false := by
    have standing := row.row
    unfold selectorRow at standing
    split at standing
    · exact standing.2.2
    · exact standing.2.2
    · exact standing.2.2.1
    · exact standing.2.2.1
    · rw [standing.2.1, held]; rfl
  exact ⟨row.mode, live, rfl, waits, (selectorRow_selected row.row : l.sel.selected = l.sel.state.side), row.protect, row.request⟩

/-- The expiry row changes state and selected source alone. -/
theorem expiryRow_eq (x : Selector) (mw mp : Int) :
    { x with selected := (expiryRow x mw mp).selected, state := (expiryRow x mw mp).state } = expiryRow x mw mp := by
  unfold expiryRow
  split <;> (try split) <;> rfl

/-- The expiry row comes to rest on a source that is there (R114). -/
theorem expiryRow_rest {f : Fields} {x : Selector} {mw mp : Int} (selected : x.selected = x.state.side)
    (protect : x.selected = .P → f.protect.isSome) (present : mw ≤ mp → f.protect.isSome) :
    ∃ side : Side, (expiryRow x mw mp).state = side.rest ∧ (expiryRow x mw mp).selected = side ∧ (side = .P → f.protect.isSome) := by
  unfold expiryRow
  split <;> rename_i state <;> rw [state] at selected
  · exact ⟨.W, state, selected, nofun⟩
  · exact ⟨.P, state, selected, fun _ => protect selected⟩
  · split
    · rename_i below; exact ⟨.P, rfl, rfl, fun _ => present below.le⟩
    · exact ⟨.W, rfl, selected, nofun⟩
  · split
    · exact ⟨.W, rfl, rfl, nofun⟩
    · exact ⟨.P, rfl, selected, fun _ => protect selected⟩
  · split
    · exact ⟨.W, rfl, rfl, nofun⟩
    · exact ⟨.P, rfl, selected, fun _ => protect selected⟩

section
variable {due : TimerIx → Prop} {u : Supervision} {r : RecIx} {l : Live} (stands : u.Stands due r l)
include stands

/-- The selection step of an expiry (R114). -/
theorem Supervision.Stands.settleExpiry (expired : l.Expired) (inRange : FieldsLaw l.fields) {mw mp : Int}
    (present : mw ≤ mp → l.fields.protect.isSome) : (u.settleExpiry r l.fields l.sel mw mp).1.Settled due r l := by
  obtain ⟨side, state, selected, there⟩ := expiryRow_rest expired.selected expired.protect present
  have reached := stands.modSel (fun z => { z with selected := (expiryRow l.sel mw mp).selected, state := (expiryRow l.sel mw mp).state })
    rfl rfl
  have same := expiryRow_eq l.sel mw mp
  rw [same] at reached
  have live : (expiryRow l.sel mw mp).mode = .live := by rw [← same]; exact expired.live
  have idle : (expiryRow l.sel mw mp).timer = none := by rw [← same]; exact expired.idle
  have waits : (expiryRow l.sel mw mp).waiting = false := by rw [← same]; exact expired.waits
  have mode : (expiryRow l.sel mw mp).mode = l.state.mode := by rw [← same]; exact expired.mode
  have request : (expiryRow l.sel mw mp).request = l.sel.request := by rw [← same]
  have row (q : Pool) : RowLaw due q { l with sel := expiryRow l.sel mw mp } :=
    .of_idle mode (selectorRow_rest state selected idle waits)
      (fun h => there (selected.symm.trans h)) (fun h => expired.request (by rwa [← request])) idle
  exact reached.stateRow (row _) live inRange present

/-- The selection step of an evaluation, whatever the mode (R106). -/
theorem Supervision.Stands.settle {expiry : Bool} (row : expiry = false → RowLaw due u.pool l) (expired : expiry = true → l.Expired)
    (inRange : FieldsLaw l.fields) {mw mp : Int} (present : mw ≤ mp → l.fields.protect.isSome) :
    (u.settle r expiry l.fields l.sel mw mp).1.Settled due r l := by
  unfold Supervision.settle
  cases expiry with
  | true =>
    have expired := expired rfl
    rw [expired.live]
    exact stands.settleExpiry expired inRange present
  | false =>
    have row := row rfl
    split
    · rename_i preview
      obtain ⟨idle, waits⟩ := selectorRow_idle row.row (by simp [preview])
      exact stands.selectAt row idle waits _ (previewSide_present present row.request)
    · rename_i live
      exact stands.settleLive row live inRange present
    · exact stands.settled row

end

/-! ## Evaluations -/

theorem Condition.merit_nonneg (d : Bool) (c : Condition) : 0 ≤ c.merit d := by cases c <;> cases d <;> decide

/-- A protect source that is not there ranks below every working source (R101). -/
theorem merit_present {d : Bool} {w : Judgement} {p : Option Judgement} (h : meritOf d (some w) ≤ meritOf d p) : p.isSome := by
  cases p with
  | none =>
    have := w.condition.merit_nonneg d
    have below : w.condition.merit d ≤ -1 := h
    omega
  | some _ => rfl

theorem RowLaw.judged {due : TimerIx → Prop} {p : Pool} {l : Live} (row : RowLaw due p l) (w q : Option Judgement) :
    RowLaw due p { l with sel := { l.sel with w := w, p := q } } :=
  ⟨row.mode, row.row, row.protect, row.request, row.purpose, row.remaining⟩

theorem Live.Expired.judged {l : Live} (h : l.Expired) (w q : Option Judgement) :
    Live.Expired { l with sel := { l.sel with w := w, p := q } } :=
  ⟨h.mode, h.live, h.idle, h.waits, h.selected, h.protect, h.request⟩

theorem RowLaw.requested {due : TimerIx → Prop} {p : Pool} {l : Live} (row : RowLaw due p l) {kind : Request}
    (present : kind = .pinP ∨ kind = .steerP → l.fields.protect.isSome) :
    RowLaw due p { l with sel := { l.sel with request := kind } } :=
  ⟨row.mode, row.row, row.protect, present, row.purpose, row.remaining⟩

theorem Supervision.Sound.of_lives {due : TimerIx → Prop} {u v : Supervision} (sound : u.Sound due) (live : ∀ r, v.live r = u.live r)
    (pool : v.pool = u.pool) : v.Sound due where
  claims := sound.claims.congr (fun r => by rw [Supervision.claimed, live]; rfl) (fun r => by rw [Supervision.awaits, live]; rfl)
    (fun t => by rw [pool]) (by rw [pool]) (pool ▸ sound.claims.marked)
  noneFree := pool ▸ sound.noneFree
  rows q k hk := pool ▸ sound.rows q k (live q ▸ hk)
  fields q k hk := sound.fields q k (live q ▸ hk)

theorem Supervision.Sound.of_tables {due : TimerIx → Prop} {u v : Supervision} (sound : u.Sound due) (table : v.table = u.table)
    (pool : v.pool = u.pool) : v.Sound due := sound.of_lives (Supervision.live_of_table table) pool

theorem Supervision.Sound.postIf {due : TimerIx → Prop} {u : Supervision} (sound : u.Sound due) {arose : Bool} {r : RecIx} {k : Kind} :
    (u.postIf arose r k).Sound due := sound.of_tables (u.postIf_table arose r k) (u.postIf_pool arose r k)

/-- One evaluation leaves all sound if its selection step does (R106). -/
theorem Supervision.Stands.evaluate_of_settled {due : TimerIx → Prop} {u : Supervision} {r : RecIx} {l : Live}
    (stands : u.Stands due r l) {expiry : Bool} (inRange : FieldsLaw l.fields) {w : Judgement} {p : Option Judgement}
    (settled : ∀ v : Supervision, v.pool = u.pool → v.Stands due r { l with sel := { l.sel with w := some w, p := p } } →
      (v.settle r expiry l.fields { l.sel with w := some w, p := p } (meritOf l.fields.degradeSwitch (some w))
        (meritOf l.fields.degradeSwitch p)).1.Settled due r { l with sel := { l.sel with w := some w, p := p } }) :
    (u.evaluate r expiry w p).Sound due := by
  unfold Supervision.evaluate
  rw [stands.live]
  dsimp only
  have stored := stands.modSel (fun x => { x with w := some w, p := p }) rfl rfl
  obtain ⟨y, reached, standing⟩ := settled _ (Supervision.modSel_pool u r _) stored
  refine Supervision.Sound.postIf (Supervision.Sound.postIf (Supervision.Sound.postIf (Supervision.Sound.postIf ?_)))
  split
  · exact (reached.modSel (fun x => { x with request := .none }) rfl rfl).sound (standing.requested (kind := .none) (by simp)) inRange
  · exact reached.sound standing inRange

theorem Supervision.Stands.evaluate {due : TimerIx → Prop} {u : Supervision} {r : RecIx} {l : Live} (stands : u.Stands due r l)
    {expiry : Bool} (row : expiry = false → RowLaw due u.pool l) (expired : expiry = true → l.Expired) (inRange : FieldsLaw l.fields)
    (w : Judgement) {p : Option Judgement} (derived : p.isSome = l.fields.protect.isSome) : (u.evaluate r expiry w p).Sound due :=
  stands.evaluate_of_settled inRange fun _ pool stored =>
    stored.settle (fun h => pool ▸ (row h).judged _ _) (fun h => (expired h).judged _ _) inRange fun h => derived ▸ merit_present h

/-- The row of a record in PREVIEW but for its selected source, which an amendment may have left without a protect source. -/
structure Live.Previewing (l : Live) : Prop where
  mode : l.sel.mode = l.state.mode
  preview : l.sel.mode = .preview
  idle : l.sel.timer = none
  waits : l.sel.waiting = false
  request : l.sel.request = .pinP ∨ l.sel.request = .steerP → l.fields.protect.isSome

/-- In PREVIEW an evaluation settles on a source that is there, wherever the selection stood (R121). -/
theorem Supervision.Stands.evaluate_preview {s : State} {due : TimerIx → Prop} {r : RecIx} {l : Live} (stands : s.sup.Stands due r l)
    (previewing : l.Previewing) (inRange : FieldsLaw l.fields) : (s.evaluate r).sup.Sound due := by
  unfold State.evaluate State.evaluateBy
  rw [stands.live]
  refine stands.evaluate_of_settled inRange fun v _ stored => ?_
  have present {w : Judgement} (h : meritOf l.fields.degradeSwitch (some w) ≤
      meritOf l.fields.degradeSwitch (l.fields.protect.map (s.judge l.fields))) : l.fields.protect.isSome := by
    simpa using merit_present h
  unfold Supervision.settle
  rw [previewing.preview]
  exact ⟨_, stored.modSel (fun x => { x with selected := previewSide l.fields _ _ _, state := (previewSide l.fields _ _ _).rest }) rfl rfl,
    .of_idle previewing.mode
      (selectorRow_rest rfl rfl previewing.idle previewing.waits)
      (fun h => previewSide_present present previewing.request h) previewing.request previewing.idle⟩

theorem Supervision.Stands.evaluateBy {s : State} {due : TimerIx → Prop} {r : RecIx} {l : Live} (stands : s.sup.Stands due r l)
    {expiry : Bool} (row : expiry = false → RowLaw due s.sup.pool l) (expired : expiry = true → l.Expired)
    (inRange : FieldsLaw l.fields) : (s.evaluateBy expiry r).sup.Sound due := by
  unfold State.evaluateBy
  rw [stands.live]
  exact stands.evaluate row expired inRange _ (by simp)

theorem Supervision.Sound.evaluate {s : State} {due : TimerIx → Prop} (sound : s.sup.Sound due) (r : RecIx) :
    (s.evaluate r).sup.Sound due := by
  cases hl : s.sup.live r with
  | none =>
    unfold State.evaluate State.evaluateBy
    rw [hl]
    exact sound
  | some l => exact (sound.stands hl).evaluateBy (expiry := false) (fun _ => sound.rows r l hl) (fun h => by cases h) (sound.fields r l hl)

/-! ## Ticks -/

/-- The expiry of a timer that has reached 0, or of one lent anew since (R132). -/
theorem Supervision.Sound.takeExpiry {s : State} {due : TimerIx → Prop} (sound : s.sup.Sound due) (t : TimerIx) :
    (s.takeExpiry t).sup.Sound fun k => due k ∧ k ≠ t := by
  have fewer (h : ∀ timer, pick s.sup.pool.timers t = some timer → timer.remaining ≠ 0) : s.sup.Sound fun k => due k ∧ k ≠ t :=
    { sound with
      rows := fun q k hk =>
        { sound.rows q k hk with
          remaining := fun x timer hx running => by
            obtain ⟨atMost, atLeast⟩ := (sound.rows q k hk).remaining x timer hx running
            refine ⟨atMost, fun notDue => ?_⟩
            by_cases same : x = t
            · subst same
              exact Nat.one_le_iff_ne_zero.2 (h timer running)
            · exact atLeast fun d => notDue ⟨d, same⟩ } }
  unfold State.takeExpiry
  split
  · rename_i free
    exact fewer fun timer running => by cases free.symm.trans running
  · rename_i timer running
    split
    · have lent : s.sup.pool.lentTo t = some timer.owner := by rw [Pool.lentTo, running]; rfl
      have claimed := (sound.claims.claims t timer.owner).1 lent
      obtain ⟨l, hl, held⟩ : ∃ l, s.sup.live timer.owner = some l ∧ l.sel.timer = some t := Option.bind_eq_some_iff.1 claimed
      have freed := (sound.stands hl).freeTimer held (due' := fun k => due k ∧ k ≠ t) fun k other d => ⟨d, other⟩
      exact Supervision.Stands.evaluateBy (s := { s with sup := s.sup.freeTimer timer.owner t }) (expiry := true) freed nofun
        (fun _ => (sound.rows _ l hl).expired held) (sound.fields _ l hl)
    · rename_i notReached
      refine fewer fun other h => ?_
      cases running.symm.trans h
      exact notReached

theorem Supervision.Sound.takeEach (ts : List TimerIx) {s : State} (sound : s.sup.Sound (· ∈ ts)) :
    (ts.foldl State.takeExpiry s).sup.Sound fun _ => False := by
  have weaken {u : Supervision} {due due' : TimerIx → Prop} (h : ∀ k, due k → due' k) (sound : u.Sound due) : u.Sound due' :=
    { sound with rows := fun q k hk => (sound.rows q k hk).of_due fun t _ => h t }
  induction ts generalizing s with
  | nil => exact weaken (fun k => nofun) sound
  | cons t ts ih =>
    refine ih (weaken (fun k => ?_) (sound.takeExpiry t))
    rintro ⟨member, other⟩
    exact (List.mem_cons.1 member).resolve_left other

/-- A tick counts each timer down to 0 at most (R129). -/
theorem Supervision.Sound.count {u : Supervision} (sound : u.Sound fun _ => False) :
    Supervision.Sound (· ∈ u.pool.tick.expiring) { u with pool := u.pool.tick } where
  claims := sound.claims.congr (fun _ => rfl) (fun _ => rfl)
    (fun t => by
      show (pick u.pool.tick.timers t).map _ = (pick u.pool.timers t).map _
      rw [Pool.pick_tick, Option.map_map]
      refine congrArg (Option.map · _) (funext fun timer => ?_)
      show timer.tick.owner = timer.owner
      unfold Timer.tick
      split <;> rfl) rfl
    (sound.claims.marked.of_le (fun t h => by simpa using h) rfl)
  noneFree waiters := by
    rw [Pool.lowestFree_eq_none]
    intro t
    have := Pool.lowestFree_eq_none.1 (sound.noneFree waiters) t
    show (pick u.pool.tick.timers t).isSome = true
    simpa using this
  rows q k hk :=
    { sound.rows q k hk with
      purpose := fun t timer ht running => by
        obtain ⟨old, before, rfl⟩ := Option.map_eq_some_iff.1 ((Pool.pick_tick _ t).symm.trans running)
        rw [(sound.rows q k hk).purpose t old ht before]
        unfold Timer.tick
        split <;> rfl
      remaining := fun t timer ht running => by
        obtain ⟨old, before, rfl⟩ := Option.map_eq_some_iff.1 ((Pool.pick_tick _ t).symm.trans running)
        obtain ⟨atMost, atLeast⟩ := (sound.rows q k hk).remaining t old ht before
        constructor
        · unfold Timer.tick
          split
          · exact atMost
          · show old.remaining - 1 ≤ 90000
            omega
        · intro notDue
          by_contra zero
          exact notDue (Pool.mem_expiring.2 ⟨_, running, by omega⟩) }
  fields := sound.fields

theorem Supervision.Sound.takeExpiries {s : State} (sound : s.sup.Sound (· ∈ s.sup.pool.expiring)) :
    s.takeExpiries.sup.Sound fun _ => False := by
  unfold State.takeExpiries
  split
  · rename_i none
    exact Supervision.Sound.takeEach [] (none ▸ sound)
  · rename_i t one
    exact Supervision.Sound.takeEach [t] (one ▸ sound)
  · refine Supervision.Sound.takeEach (s := { s with choices := s.choices + 1 }) _ ?_
    have same : (fun k => k ∈ s.sup.pool.expiring) = fun k => k ∈ orderBy (fun t => Config.taskRank s.choices t.val) s.sup.pool.expiring :=
      funext fun k => propext mem_orderBy.symm
    exact same ▸ sound

theorem Supervision.Sound.tick {s : State} (sound : s.sup.Sound fun _ => False) : s.tick.sup.Sound fun _ => False := by
  unfold State.tick
  split
  · exact Supervision.Sound.takeExpiries (s := { s with sup := { s.sup with pool := s.sup.pool.tick } }) sound.count
  · exact sound

end Sys2Proof.Machine
end

section
/-! SUPPORT. R80 to R97: owners, pending updates and the places of records, as updates are queued, cancelled and applied. -/
namespace Sys2Proof.Machine

/-- A live record's state and its egress slot. -/
abbrev Place := LiveState × SlotIx

/-- Where a record stands; `none` when it is FREE. -/
def Supervision.place (u : Supervision) (r : RecIx) : Option Place := (u.live r).map fun l => (l.state, l.fields.egress)

theorem Supervision.place_of_live {u : Supervision} {r : RecIx} {l : Live} (h : u.live r = some l) :
    u.place r = some (l.state, l.fields.egress) := by rw [Supervision.place, h]; rfl

theorem Supervision.place_of_free {u : Supervision} {r : RecIx} (h : u.live r = none) : u.place r = none := by
  rw [Supervision.place, h]; rfl

theorem Supervision.live_of_place {u : Supervision} {r : RecIx} {st : LiveState} {n : SlotIx} (h : u.place r = some (st, n)) :
    ∃ l, u.live r = some l ∧ l.state = st ∧ l.fields.egress = n := by
  obtain ⟨l, hl, same⟩ := Option.map_eq_some_iff.1 h
  cases same
  exact ⟨l, hl, rfl, rfl⟩

/-- R80, R82: owners, a pending list and the places of records agree. -/
structure OwnerCore (place : RecIx → Option Place) (owner : SlotIx → Option RecIx) (us : List Update) : Prop where
  serving : ∀ n r, owner n = some r → place r = some (.active, n) ∨ place r = some (.retiring, n)
  owned : ∀ n r, place r = some (.active, n) ∨ place r = some (.retiring, n) → owner n = some r
  oneEach : (us.map (·.slot)).Nodup
  incoming : ∀ u ∈ us, ∀ r, u.incoming = some r → place r = some (.armed, u.slot)
  outgoing : ∀ u ∈ us, ∀ r, u.outgoing = some r → place r = some (.retiring, u.slot)
  armed : ∀ r n, place r = some (.armed, n) → ∃ u ∈ us, u.incoming = some r
  retiring : ∀ r n, place r = some (.retiring, n) → ∃ u ∈ us, u.outgoing = some r
  entering : ∀ u ∈ us, u.outgoing = none → owner u.slot = none

theorem Update.enter_of_outgoing {u : Update} (h : u.outgoing = none) : ∃ n r, u = .enter n r := by
  cases u with
  | enter n r => exact ⟨n, r, rfl⟩
  | leave n o => cases h
  | handover n o r => cases h

/-- The law of owners, and the law of the pending list while STOPPED (R95). -/
theorem ownerLaw_iff (s : State) :
    OwnerLaw s ↔ OwnerCore s.sup.place (pick s.owner) s.updates ∧ (s.egress.running = false → s.updates = []) := by
  constructor
  · intro law
    refine ⟨⟨fun n r h => ?_, fun n r h => ?_, law.oneEach, fun u hu r hr => ?_, fun u hu r hr => ?_, fun r n h => ?_, fun r n h => ?_,
      fun u hu h => ?_⟩, law.stopped⟩
    · obtain ⟨l, hl, rfl, st | st⟩ := law.owner n r h
      · exact .inl (st ▸ Supervision.place_of_live hl)
      · exact .inr (st ▸ Supervision.place_of_live hl)
    · rcases h with h | h <;> obtain ⟨l, hl, st, rfl⟩ := Supervision.live_of_place h
      · exact law.owned r l hl (.inl st)
      · exact law.owned r l hl (.inr st)
    · obtain ⟨l, hl, st, slot⟩ := law.incoming u hu r hr
      exact slot ▸ st ▸ Supervision.place_of_live hl
    · obtain ⟨l, hl, st, slot⟩ := law.outgoing u hu r hr
      exact slot ▸ st ▸ Supervision.place_of_live hl
    · obtain ⟨l, hl, st, -⟩ := Supervision.live_of_place h
      exact law.armed r l hl st
    · obtain ⟨l, hl, st, -⟩ := Supervision.live_of_place h
      exact law.retiring r l hl st
    · obtain ⟨n, r, rfl⟩ := Update.enter_of_outgoing h
      exact law.entering n r hu
  · rintro ⟨core, stopped⟩
    refine ⟨fun n r h => ?_, fun r l hl st => ?_, core.oneEach, stopped, fun u hu r hr => ?_, fun u hu r hr => ?_, fun r l hl st => ?_,
      fun r l hl st => ?_, fun n r hu => core.entering _ hu rfl⟩
    · rcases core.serving n r h with h | h <;> obtain ⟨l, hl, st, slot⟩ := Supervision.live_of_place h
      · exact ⟨l, hl, slot, .inl st⟩
      · exact ⟨l, hl, slot, .inr st⟩
    · refine core.owned _ r (st.imp (fun st => ?_) fun st => ?_) <;> rw [Supervision.place_of_live hl, st]
    · exact Supervision.live_of_place (core.incoming u hu r hr)
    · exact Supervision.live_of_place (core.outgoing u hu r hr)
    · exact core.armed r l.fields.egress (st ▸ Supervision.place_of_live hl)
    · exact core.retiring r l.fields.egress (st ▸ Supervision.place_of_live hl)

section
variable {place place' : RecIx → Option Place} {owner owner' : SlotIx → Option RecIx} {us : List Update}

theorem OwnerCore.congr (core : OwnerCore place owner us) (places : ∀ r, place' r = place r) (owners : ∀ n, owner' n = owner n) :
    OwnerCore place' owner' us := by
  cases (funext places : place' = place)
  cases (funext owners : owner' = owner)
  exact core

/-- A record that is neither ARMED nor in service, before nor after, is of no concern to the map. -/
theorem OwnerCore.outside (core : OwnerCore place owner us) {r : RecIx} (others : ∀ q, q ≠ r → place' q = place q)
    (before : ∀ st n, place r = some (st, n) → st = .staged) (after : ∀ st n, place' r = some (st, n) → st = .staged) :
    OwnerCore place' owner us := by
  have away {q : RecIx} {st : LiveState} {n : SlotIx} (h : place q = some (st, n)) (inMap : st ≠ .staged) : place' q = some (st, n) := by
    rw [others q fun same => inMap (before st n (same ▸ h)), h]
  have back {q : RecIx} {st : LiveState} {n : SlotIx} (h : place' q = some (st, n)) (inMap : st ≠ .staged) : place q = some (st, n) := by
    rw [← others q fun same => inMap (after st n (same ▸ h)), h]
  exact
    { serving := fun n q h => (core.serving n q h).imp (away · nofun) (away · nofun)
      owned := fun n q h => core.owned n q (h.imp (back · nofun) (back · nofun))
      oneEach := core.oneEach
      incoming := fun u hu q h => away (core.incoming u hu q h) nofun
      outgoing := fun u hu q h => away (core.outgoing u hu q h) nofun
      armed := fun q n h => core.armed q n (back h nofun)
      retiring := fun q n h => core.retiring q n (back h nofun)
      entering := core.entering }

/-! ## Updates -/

/-- Where an update's records stand once it is queued (R57, R59, R61). -/
def Update.queuedPlace (u : Update) (place : RecIx → Option Place) (q : RecIx) : Option Place :=
  if u.incoming = some q then some (.armed, u.slot) else if u.outgoing = some q then some (.retiring, u.slot) else place q

/-- Where they stand once it is applied (R58, R60, R66). -/
def Update.appliedPlace (u : Update) (place : RecIx → Option Place) (q : RecIx) : Option Place :=
  if u.incoming = some q then some (.active, u.slot) else if u.outgoing = some q then none else place q

/-- Where they stand once it is cancelled by a RETIRE of its incoming record (R63, R64). -/
def Update.cancelledPlace (u : Update) (place : RecIx → Option Place) (q : RecIx) : Option Place :=
  if u.incoming = some q then none else if u.outgoing = some q then some (.active, u.slot) else place q

/-- The owners once an update is applied (R88 to R91). -/
def Update.appliedOwner (u : Update) (owner : SlotIx → Option RecIx) (n : SlotIx) : Option RecIx :=
  if u.slot = n then u.incoming else owner n

/-- The update at the head is applied (R88). -/
theorem OwnerCore.apply {u : Update} (core : OwnerCore place owner (u :: us)) :
    OwnerCore (u.appliedPlace place) (u.appliedOwner owner) us := by
  have here : u ∈ u :: us := List.mem_cons_self ..
  have once := core.oneEach
  rw [List.map_cons, List.nodup_cons] at once
  have elsewhere {v : Update} (hv : v ∈ us) : u.slot ≠ v.slot := fun same => once.1 (same ▸ List.mem_map_of_mem hv)
  have away {q : RecIx} {st : LiveState} {n : SlotIx} (h : place q = some (st, n)) (ne : u.slot ≠ n) :
      u.appliedPlace place q = some (st, n) := by
    rw [Update.appliedPlace, if_neg, if_neg, h]
    · intro out
      cases h.symm.trans (core.outgoing u here q out)
      exact ne rfl
    · intro inc
      cases h.symm.trans (core.incoming u here q inc)
      exact ne rfl
  have applied {q : RecIx} {st : LiveState} {n : SlotIx} (h : u.appliedPlace place q = some (st, n)) :
      (u.incoming = some q ∧ st = .active ∧ u.slot = n) ∨ (u.incoming ≠ some q ∧ u.outgoing ≠ some q ∧ place q = some (st, n)) := by
    unfold Update.appliedPlace at h
    split at h
    · rename_i inc
      cases h
      exact .inl ⟨inc, rfl, rfl⟩
    · split at h
      · cases h
      · exact .inr ⟨by assumption, by assumption, h⟩
  have owns {q : RecIx} {n : SlotIx} (h : place q = some (.active, n) ∨ place q = some (.retiring, n)) (notOut : u.outgoing ≠ some q) :
      u.slot ≠ n := by
    rintro rfl
    cases out : u.outgoing with
    | none => cases (core.owned _ q h).symm.trans (core.entering u here out)
    | some o =>
      have := core.owned _ o (.inr (core.outgoing u here o out))
      cases (core.owned _ q h).symm.trans this
      exact notOut out
  exact
    { serving := fun n r h => by
        unfold Update.appliedOwner at h
        split at h
        · rename_i slot
          exact .inl (by rw [Update.appliedPlace, if_pos h, slot])
        · rename_i ne
          exact (core.serving n r h).imp (away · ne) (away · ne)
      owned := fun n r h => by
        unfold Update.appliedOwner
        rcases h with h | h
        · rcases applied h with ⟨inc, -, slot⟩ | ⟨-, notOut, h⟩
          · rw [if_pos slot, inc]
          · rw [if_neg (owns (.inl h) notOut), core.owned n r (.inl h)]
        · rcases applied h with ⟨-, st, -⟩ | ⟨-, notOut, h⟩
          · cases st
          · rw [if_neg (owns (.inr h) notOut), core.owned n r (.inr h)]
      oneEach := once.2
      incoming := fun v hv r h => away (core.incoming v (List.mem_cons_of_mem u hv) r h) (elsewhere hv)
      outgoing := fun v hv r h => away (core.outgoing v (List.mem_cons_of_mem u hv) r h) (elsewhere hv)
      armed := fun r n h => by
        rcases applied h with ⟨-, st, -⟩ | ⟨notIn, -, h⟩
        · cases st
        · obtain ⟨v, hv, inc⟩ := core.armed r n h
          rcases List.mem_cons.1 hv with rfl | hv
          · exact absurd inc notIn
          · exact ⟨v, hv, inc⟩
      retiring := fun r n h => by
        rcases applied h with ⟨-, st, -⟩ | ⟨-, notOut, h⟩
        · cases st
        · obtain ⟨v, hv, out⟩ := core.retiring r n h
          rcases List.mem_cons.1 hv with rfl | hv
          · exact absurd out notOut
          · exact ⟨v, hv, out⟩
      entering := fun v hv out => by
        rw [Update.appliedOwner, if_neg (elsewhere hv)]
        exact core.entering v (List.mem_cons_of_mem u hv) out }

/-- An update joins the tail, its incoming record STAGED and its outgoing one ACTIVE before (R81, R84 to R87). -/
theorem OwnerCore.queue (core : OwnerCore place owner us) {u : Update} (fresh : ∀ v ∈ us, v.slot ≠ u.slot)
    (incoming : ∀ r, u.incoming = some r → ∃ n, place r = some (.staged, n)) (outgoing : ∀ r, u.outgoing = some r → place r = some (.active, u.slot))
    (entering : u.outgoing = none → owner u.slot = none) : OwnerCore (u.queuedPlace place) owner (us ++ [u]) := by
  have notStaged {q : RecIx} {st : LiveState} {n : SlotIx} (h : place q = some (st, n)) (ne : st ≠ .staged) : u.incoming ≠ some q := by
    intro inc
    obtain ⟨m, staged⟩ := incoming q inc
    cases h.symm.trans staged
    exact ne rfl
  have stays {q : RecIx} {st : LiveState} {n : SlotIx} (h : place q = some (st, n)) (ne : st ≠ .staged) (ne' : st ≠ .active) :
      u.queuedPlace place q = some (st, n) := by
    rw [Update.queuedPlace, if_neg (notStaged h ne), if_neg, h]
    intro out
    cases h.symm.trans (outgoing q out)
    exact ne' rfl
  have queued {q : RecIx} {st : LiveState} {n : SlotIx} (h : u.queuedPlace place q = some (st, n)) :
      (u.incoming = some q ∧ st = .armed ∧ u.slot = n) ∨ (u.outgoing = some q ∧ st = .retiring ∧ u.slot = n) ∨ place q = some (st, n) := by
    unfold Update.queuedPlace at h
    split at h
    · rename_i inc
      cases h
      exact .inl ⟨inc, rfl, rfl⟩
    · split at h
      · rename_i out
        cases h
        exact .inr (.inl ⟨out, rfl, rfl⟩)
      · exact .inr (.inr h)
  exact
    { serving := fun n r h => by
        rcases core.serving n r h with active | retiring
        · by_cases out : u.outgoing = some r
          · cases active.symm.trans (outgoing r out)
            exact .inr (by rw [Update.queuedPlace, if_neg (notStaged active nofun), if_pos out])
          · exact .inl (by rw [Update.queuedPlace, if_neg (notStaged active nofun), if_neg out, active])
        · exact .inr (stays retiring nofun nofun)
      owned := fun n r h => by
        rcases h with h | h
        · rcases queued h with ⟨-, st, -⟩ | ⟨-, st, -⟩ | h
          · cases st
          · cases st
          · exact core.owned n r (.inl h)
        · rcases queued h with ⟨-, st, -⟩ | ⟨out, -, rfl⟩ | h
          · cases st
          · exact core.owned _ r (.inl (outgoing r out))
          · exact core.owned n r (.inr h)
      oneEach := by
        rw [List.map_append, List.map_singleton]
        refine List.nodup_append.2 ⟨core.oneEach, List.nodup_singleton _, ?_⟩
        rintro a ha b hb rfl
        obtain ⟨v, hv, rfl⟩ := List.mem_map.1 ha
        exact fresh v hv (List.mem_singleton.1 hb)
      incoming := fun v hv r h => by
        rcases List.mem_append.1 hv with hv | hv
        · exact stays (core.incoming v hv r h) nofun nofun
        · cases List.mem_singleton.1 hv
          rw [Update.queuedPlace, if_pos h]
      outgoing := fun v hv r h => by
        rcases List.mem_append.1 hv with hv | hv
        · exact stays (core.outgoing v hv r h) nofun nofun
        · cases List.mem_singleton.1 hv
          rw [Update.queuedPlace, if_neg (notStaged (outgoing r h) nofun), if_pos h]
      armed := fun r n h => by
        rcases queued h with ⟨inc, -⟩ | ⟨-, st, -⟩ | h
        · exact ⟨u, List.mem_append_right us (List.mem_singleton_self u), inc⟩
        · cases st
        · obtain ⟨v, hv, inc⟩ := core.armed r n h
          exact ⟨v, List.mem_append_left _ hv, inc⟩
      retiring := fun r n h => by
        rcases queued h with ⟨-, st, -⟩ | ⟨out, -⟩ | h
        · cases st
        · exact ⟨u, List.mem_append_right us (List.mem_singleton_self u), out⟩
        · obtain ⟨v, hv, out⟩ := core.retiring r n h
          exact ⟨v, List.mem_append_left _ hv, out⟩
      entering := fun v hv out => by
        rcases List.mem_append.1 hv with hv | hv
        · exact core.entering v hv out
        · cases List.mem_singleton.1 hv
          exact entering out }

/-- An update is taken out, its incoming record FREE and its outgoing one back in service (R63, R64). -/
theorem OwnerCore.cancel (core : OwnerCore place owner us) {u : Update} (hu : u ∈ us) :
    OwnerCore (u.cancelledPlace place) owner (us.filter (· ≠ u)) := by
  have elsewhere {v : Update} (hv : v ∈ us.filter (· ≠ u)) : v ∈ us ∧ v.slot ≠ u.slot := by
    obtain ⟨hv, ne⟩ := List.mem_filter.1 hv
    exact ⟨hv, fun same => (by simpa using ne : v ≠ u) (List.inj_on_of_nodup_map core.oneEach hv hu same)⟩
  have away {q : RecIx} {st : LiveState} {n : SlotIx} (h : place q = some (st, n)) (ne : n ≠ u.slot) :
      u.cancelledPlace place q = some (st, n) := by
    rw [Update.cancelledPlace, if_neg, if_neg, h]
    · intro out
      cases h.symm.trans (core.outgoing u hu q out)
      exact ne rfl
    · intro inc
      cases h.symm.trans (core.incoming u hu q inc)
      exact ne rfl
  have cancelled {q : RecIx} {st : LiveState} {n : SlotIx} (h : u.cancelledPlace place q = some (st, n)) :
      (u.outgoing = some q ∧ st = .active ∧ u.slot = n) ∨ (u.incoming ≠ some q ∧ u.outgoing ≠ some q ∧ place q = some (st, n)) := by
    unfold Update.cancelledPlace at h
    split at h
    · cases h
    · split at h
      · rename_i out
        cases h
        exact .inl ⟨out, rfl, rfl⟩
      · exact .inr ⟨by assumption, by assumption, h⟩
  have remains {v : Update} (hv : v ∈ us) (ne : v ≠ u) : v ∈ us.filter (· ≠ u) := List.mem_filter.2 ⟨hv, by simpa using ne⟩
  exact
    { serving := fun n r h => by
        have inService := core.serving n r h
        have notIn : u.incoming ≠ some r := fun inc => by
          have armed := core.incoming u hu r inc
          rcases inService with s | s <;> cases s.symm.trans armed
        by_cases out : u.outgoing = some r
        · have retiring := core.outgoing u hu r out
          have slot : n = u.slot := by
            rcases inService with s | s <;> cases s.symm.trans retiring
            rfl
          exact .inl (by rw [Update.cancelledPlace, if_neg notIn, if_pos out, slot])
        · unfold Update.cancelledPlace
          rw [if_neg notIn, if_neg out]
          exact inService
      owned := fun n r h => by
        rcases h with h | h
        · rcases cancelled h with ⟨out, -, rfl⟩ | ⟨-, -, h⟩
          · exact core.owned _ r (.inr (core.outgoing u hu r out))
          · exact core.owned n r (.inl h)
        · rcases cancelled h with ⟨-, st, -⟩ | ⟨-, -, h⟩
          · cases st
          · exact core.owned n r (.inr h)
      oneEach := core.oneEach.sublist (List.filter_sublist.map _)
      incoming := fun v hv r h => away (core.incoming v (elsewhere hv).1 r h) (elsewhere hv).2
      outgoing := fun v hv r h => away (core.outgoing v (elsewhere hv).1 r h) (elsewhere hv).2
      armed := fun r n h => by
        rcases cancelled h with ⟨-, st, -⟩ | ⟨notIn, -, h⟩
        · cases st
        · obtain ⟨v, hv, inc⟩ := core.armed r n h
          exact ⟨v, remains hv fun same => notIn (same ▸ inc), inc⟩
      retiring := fun r n h => by
        rcases cancelled h with ⟨-, st, -⟩ | ⟨-, notOut, h⟩
        · cases st
        · obtain ⟨v, hv, out⟩ := core.retiring r n h
          exact ⟨v, remains hv fun same => notOut (same ▸ out), out⟩
      entering := fun v hv out => core.entering v (elsewhere hv).1 out }

/-- An ACTIVE record's slot has no pending update (R82). -/
theorem OwnerCore.noUpdate_of_active (core : OwnerCore place owner us) {r : RecIx} {n : SlotIx} (active : place r = some (.active, n)) :
    ∀ u ∈ us, u.slot ≠ n := by
  rintro u hu rfl
  have owned := core.owned _ r (.inl active)
  cases out : u.outgoing with
  | none => cases owned.symm.trans (core.entering u hu out)
  | some o =>
    have retiring := core.outgoing u hu o out
    cases owned.symm.trans (core.owned _ o (.inr retiring))
    cases active.symm.trans retiring

end

end Sys2Proof.Machine
end

section
/-! SUPPORT. Chapters 3 and 4: records entering, serving and leaving, with pool, rows, owners and updates. -/
namespace Sys2Proof.Machine

/-- No timer is due between steps. -/
abbrev noneDue : TimerIx → Prop := fun _ => False

/-! ## Operations on one record -/

theorem Supervision.place_of_sameRecords {u v : Supervision} (h : u.sameRecords v) (r : RecIx) : v.place r = u.place r := by
  have := congrArg (Option.map fun x : LiveState × Fields => (x.1, x.2.egress)) (h r).2.2
  simpa [Supervision.place, Option.map_map, Function.comp_def] using this

theorem State.evaluate_place (s : State) (r q : RecIx) : (s.evaluate r).sup.place q = s.sup.place q :=
  Supervision.place_of_sameRecords (s.evaluateBy_supervises false r).records q

theorem Supervision.modLive_place {u : Supervision} {r : RecIx} {l : Live} (hl : u.live r = some l) (f : Live → Live) (q : RecIx) :
    (u.modLive r f).place q = if r = q then some ((f l).state, (f l).fields.egress) else u.place q := by
  rw [Supervision.place, Supervision.modLive_live]
  split
  · rw [hl]
    rfl
  · rfl

theorem Supervision.place_of_live_eq {u v : Supervision} {r : RecIx} (h : v.live r = u.live r) : v.place r = u.place r := by
  rw [Supervision.place, Supervision.place, h]

/-- A record without timer and wait that goes LIVE (R122). -/
theorem RowLaw.enter {due : TimerIx → Prop} {p q : Pool} {l : Live} (row : RowLaw due p l) (notLive : l.sel.mode ≠ .live) :
    RowLaw due q { l with state := .active, sel := { l.sel with mode := .live } } := by
  obtain ⟨idle, waits⟩ := selectorRow_idle row.row notLive
  have standing := row.row
  refine .of_idle rfl ?_ row.protect row.request idle
  unfold selectorRow at standing ⊢
  dsimp only
  split <;> rename_i state <;> rw [state] at standing
  · exact standing
  · exact standing
  · exact absurd standing.2.2.2 notLive
  · exact absurd standing.2.2.2 notLive
  · exact absurd standing.2.2 notLive

theorem Supervision.Stands.goLive {s : State} {r : RecIx} {l : Live} (stands : s.sup.Stands noneDue r l)
    (row : ∀ p, RowLaw noneDue p { l with state := .active, sel := { l.sel with mode := .live } }) (inRange : FieldsLaw l.fields) :
    (s.goLive r).sup.Sound noneDue :=
  (stands.modLive (fun l => { l with state := .active, sel := { l.sel with mode := .live } }) rfl rfl).evaluateBy (s := { s with sup := _ })
    (expiry := false) (fun _ => row _) (fun h => by cases h) inRange

theorem Supervision.Sound.goLive {s : State} (sound : s.sup.Sound noneDue) {r : RecIx} {l : Live} (hl : s.sup.live r = some l)
    (notLive : l.sel.mode ≠ .live) : (s.goLive r).sup.Sound noneDue :=
  (sound.stands hl).goLive (fun _ => (sound.rows r l hl).enter notLive) (sound.fields r l hl)

theorem State.goLive_place {s : State} {r : RecIx} {l : Live} (hl : s.sup.live r = some l) (q : RecIx) :
    (s.goLive r).sup.place q = if r = q then some (.active, l.fields.egress) else s.sup.place q :=
  (State.evaluate_place _ r q).trans (Supervision.modLive_place hl _ q)

theorem Supervision.Sound.enterService {s : State} (sound : s.sup.Sound noneDue) {r : RecIx} {l : Live} (hl : s.sup.live r = some l)
    (notLive : l.sel.mode ≠ .live) : (s.enterService r).sup.Sound noneDue := by
  unfold State.enterService
  rw [hl]
  have active := (sound.stands hl).modLive (fun l => { l with state := .active }) rfl rfl
  exact (active.of_tables (Supervision.postRecord_table _ r .activated) (Supervision.postRecord_pool _ r .activated)).goLive
    (s := { s with sup := _ }) (fun _ => (sound.rows r l hl).enter notLive) (sound.fields r l hl)

theorem State.enterService_place {s : State} {r : RecIx} {l : Live} (hl : s.sup.live r = some l) (q : RecIx) :
    (s.enterService r).sup.place q = if r = q then some (.active, l.fields.egress) else s.sup.place q := by
  unfold State.enterService
  rw [hl]
  dsimp only
  have posted (x : RecIx) : ((s.sup.modLive r fun l => { l with state := .active }).postRecord r .activated).live x =
      (s.sup.modLive r fun l => { l with state := .active }).live x := Supervision.postRecord_live _ _ _ _
  have active : ((s.sup.modLive r fun l => { l with state := .active }).postRecord r .activated).live r =
      some { l with state := .active } := by rw [posted, Supervision.modLive_same, hl]; rfl
  refine (State.goLive_place (s := { s with sup := _ }) active q).trans ?_
  split
  · rfl
  · rename_i other
    exact Supervision.place_of_live_eq ((posted q).trans (Supervision.modLive_ne _ _ other))

theorem State.freeRecord_live {s : State} {r : RecIx} {l : Live} (hl : s.sup.live r = some l) (q : RecIx) :
    (s.freeRecord r).sup.live q = if r = q then none else s.sup.live q := by
  rw [State.freeRecord_sup hl, Supervision.live]
  split
  · rename_i same
    rw [← same, Supervision.setRecord_same]
  · rename_i other
    rw [Supervision.setRecord_ne _ _ other]
    rfl

theorem State.freeRecord_place {s : State} {r : RecIx} {l : Live} (hl : s.sup.live r = some l) (q : RecIx) :
    (s.freeRecord r).sup.place q = if r = q then none else s.sup.place q := by
  rw [Supervision.place, State.freeRecord_live hl]
  split <;> rfl

/-- A record without timer and wait becomes FREE (R66). -/
theorem Supervision.Sound.freeRecord {s : State} (sound : s.sup.Sound noneDue) {r : RecIx} {l : Live} (hl : s.sup.live r = some l)
    (notLive : l.sel.mode ≠ .live) : (s.freeRecord r).sup.Sound noneDue := by
  obtain ⟨idle, waits⟩ := selectorRow_idle (sound.rows r l hl).row notLive
  have pool : (s.freeRecord r).sup.pool = s.sup.pool := by rw [State.freeRecord_sup hl]; rfl
  have kept {q : RecIx} {k : Live} (hk : (s.freeRecord r).sup.live q = some k) : s.sup.live q = some k := by
    rw [State.freeRecord_live hl] at hk
    split at hk
    · cases hk
    · exact hk
  refine ⟨sound.claims.congr (fun q => ?_) (fun q => ?_) (fun t => by rw [pool]) (by rw [pool]) (pool ▸ sound.claims.marked),
    pool ▸ sound.noneFree, fun q k hk => pool ▸ sound.rows q k (kept hk), fun q k hk => sound.fields q k (kept hk)⟩
  · rw [Supervision.claimed, State.freeRecord_live hl]
    split
    · rename_i same
      rw [← same, Supervision.claimed, hl]
      exact idle.symm
    · rfl
  · rw [Supervision.awaits, State.freeRecord_live hl]
    split
    · rename_i same
      rw [← same, Supervision.awaits, hl]
      exact waits.symm
    · rfl

/-! ## Updates applied -/

/-- Pool, rows and owners agree, with a pending list. -/
structure State.Serves (s : State) (us : List Update) : Prop where
  sound : s.sup.Sound noneDue
  core : OwnerCore s.sup.place (pick s.owner) us

/-- An ARMED or RETIRING record is not LIVE (R103). -/
theorem State.Serves.notLive {s : State} {us : List Update} (serves : s.Serves us) {r : RecIx} {st : LiveState} {n : SlotIx}
    (h : s.sup.place r = some (st, n)) (notActive : st ≠ .active) :
    ∃ l, s.sup.live r = some l ∧ l.sel.mode ≠ .live ∧ l.state = st ∧ l.fields.egress = n := by
  obtain ⟨l, hl, rfl, slot⟩ := Supervision.live_of_place h
  refine ⟨l, hl, ?_, rfl, slot⟩
  rw [(serves.sound.rows r l hl).mode]
  cases state : l.state with
  | active => exact absurd state notActive
  | _ => exact nofun

theorem State.Serves.applyUpdate {s : State} {u : Update} {us : List Update} (serves : s.Serves (u :: us)) :
    (s.applyUpdate u).Serves us := by
  have here : u ∈ u :: us := List.mem_cons_self ..
  have owned : pick (s.applyUpdate u).owner = u.appliedOwner (pick s.owner) := funext fun n => by
    rw [(s.applyUpdate_leaves u).2, pick_put]
    rfl
  suffices placed : (s.applyUpdate u).sup.Sound noneDue ∧ ∀ q, (s.applyUpdate u).sup.place q = u.appliedPlace s.sup.place q from
    ⟨placed.1, owned ▸ serves.core.apply.congr placed.2 fun _ => rfl⟩
  cases u with
  | enter n r =>
    obtain ⟨l, hl, notLive, -, slot⟩ := serves.notLive (serves.core.incoming _ here r rfl) nofun
    refine ⟨Supervision.Sound.enterService (s := s.setOwner n (some r)) serves.sound hl notLive, fun q => ?_⟩
    rw [State.applyUpdate, State.enterService_place (s := s.setOwner n (some r)) hl, slot]
    simp [Update.appliedPlace, Update.incoming, Update.outgoing, Update.slot]
  | leave n o =>
    obtain ⟨l, hl, notLive, -, slot⟩ := serves.notLive (serves.core.outgoing _ here o rfl) nofun
    refine ⟨Supervision.Sound.freeRecord (s := s.setOwner n none) serves.sound hl notLive, fun q => ?_⟩
    rw [State.applyUpdate, State.freeRecord_place (s := s.setOwner n none) hl]
    simp [Update.appliedPlace, Update.incoming, Update.outgoing]
  | handover n o r =>
    obtain ⟨k, hk, leaving, -, -⟩ := serves.notLive (serves.core.outgoing _ here o rfl) nofun
    obtain ⟨l, hl, notLive, -, slot⟩ := serves.notLive (serves.core.incoming _ here r rfl) nofun
    have apart : o ≠ r := by
      rintro rfl
      cases (serves.core.outgoing _ here o rfl).symm.trans (serves.core.incoming _ here o rfl)
    have freed : ((s.setOwner n (some r)).freeRecord o).sup.live r = some l := by
      rw [State.freeRecord_live (s := s.setOwner n (some r)) hk, if_neg apart]
      exact hl
    refine ⟨(Supervision.Sound.freeRecord (s := s.setOwner n (some r)) serves.sound hk leaving).enterService freed notLive, fun q => ?_⟩
    rw [State.applyUpdate, State.enterService_place freed, slot, State.freeRecord_place (s := s.setOwner n (some r)) hk]
    simp [Update.appliedPlace, Update.incoming, Update.outgoing, Update.slot]

theorem State.Serves.applyEach {us : List Update} {s : State} (serves : s.Serves us) : (us.foldl State.applyUpdate s).Serves [] := by
  induction us generalizing s with
  | nil => exact serves
  | cons u us ih => exact ih serves.applyUpdate

/-- The laws of records in service but for the fields that the law of references tells apart. -/
structure State.InService (s : State) : Prop where
  serves : s.Serves s.updates
  stopped : s.egress.running = false → s.updates = []

theorem State.InService.of_same {s t : State} (law : s.InService) (sup : t.sup = s.sup) (owner : t.owner = s.owner)
    (updates : t.updates = s.updates) (running : t.egress.running = s.egress.running) : t.InService := by
  refine ⟨⟨sup ▸ law.serves.sound, ?_⟩, fun h => updates.trans (law.stopped (running ▸ h))⟩
  rw [sup, owner, updates]
  exact law.serves.core

/-- What leaves map and places alone needs only to leave pool and rows sound. -/
theorem State.InService.of_sound {s t : State} (law : s.InService) (sound : t.sup.Sound noneDue) (places : ∀ r, t.sup.place r = s.sup.place r)
    (owner : t.owner = s.owner) (updates : t.updates = s.updates) (running : t.egress.running = s.egress.running) : t.InService := by
  refine ⟨⟨sound, ?_⟩, fun h => updates.trans (law.stopped (running ▸ h))⟩
  rw [owner, updates]
  exact law.serves.core.congr places fun _ => rfl

theorem State.Serves.applyUpdates {s : State} (serves : s.Serves s.updates) : s.applyUpdates.InService :=
  ⟨⟨serves.applyEach.sound, serves.applyEach.core⟩, fun _ => rfl⟩

/-- An update queued at RUNNING, or applied at once (R81, R95). -/
theorem State.queueUpdate_inService {s : State} {u : Update} (serves : s.Serves (s.updates ++ [u]))
    (stopped : s.egress.running = false → s.updates = []) : (s.queueUpdate u).1.InService := by
  unfold State.queueUpdate
  split
  · rename_i running
    exact ⟨⟨serves.sound, serves.core⟩, fun h => by cases running.symm.trans h⟩
  · rename_i notRunning
    have empty := stopped (Bool.not_eq_true _ ▸ notRunning)
    rw [empty] at serves
    have applied := State.Serves.applyUpdate (us := []) serves
    have updates : (s.applyUpdate u).updates = [] := (s.applyUpdate_leaves u).1.updates.trans empty
    exact ⟨updates.symm ▸ applied, fun _ => updates⟩

end Sys2Proof.Machine
end

section
/-! SUPPORT. The laws of records in service under every event of the part. -/
namespace Sys2Proof.Machine

/-! ## Events of buses and ticks -/

theorem State.InService.of_supervises {s t : State} (law : s.InService) (h : s.Supervises t) (sound : t.sup.Sound noneDue) : t.InService :=
  law.of_sound sound (Supervision.place_of_sameRecords h.records) h.owner h.updates (by rw [h.egress])

theorem State.InService.evaluate {s : State} (law : s.InService) (r : RecIx) : (s.evaluate r).InService :=
  law.of_supervises (s.evaluateBy_supervises false r) (law.serves.sound.evaluate r)

theorem State.InService.of_tables {s : State} (law : s.InService) {u : Supervision} (table : u.table = s.sup.table)
    (pool : u.pool = s.sup.pool) : State.InService { s with sup := u } :=
  law.of_sound (law.serves.sound.of_tables table pool) (fun r => Supervision.place_of_live_eq (Supervision.live_of_table table r)) rfl
    rfl rfl

theorem inService_keptByBus : State.KeptByBus State.InService where
  setRx s b rx law := law.of_same (by simp) (by simp) (by simp) (by simp)
  eachMonitor s b f _ law := law.of_same (by simp) (by simp) (by simp) (by simp)
  take s src threshold frame law := law.of_same (by simp) (by simp) (by simp) (by simp)
  choices s n law := law.of_same rfl rfl rfl rfl
  evaluate s r law := law.evaluate r
  post s r k _ law := law.of_tables (Supervision.postRecord_table _ r k) (Supervision.postRecord_pool _ r k)
  align s b law := law.of_tables (Supervision.post_table _ _ _) (Supervision.post_pool _ _ _)

theorem State.takeExpiry_supervises (s : State) (t : TimerIx) : s.Supervises (s.takeExpiry t) := by
  unfold State.takeExpiry
  split
  · exact .refl s
  · split
    · rename_i timer _ _
      have freed := s.sup.freeTimer_selectorsOnly timer.owner t
      refine (State.supervises_of_sup freed.records fun x k h => ?_).trans (State.evaluateBy_supervises _ true _)
      exact (congrArg (fun q : List Entry => ∃ e ∈ q, e.subject = x ∧ hasKind e.kinds k = true) freed.notices).mpr h
    · exact .refl s

theorem State.takeExpiries_supervises (s : State) : s.Supervises s.takeExpiries := by
  unfold State.takeExpiries
  split
  · exact .refl s
  · exact s.takeExpiry_supervises _
  · exact State.foldl_keep (P := fun t => s.Supervises t) (fun t x h => h.trans (t.takeExpiry_supervises x)) _ (s.supervises_choices _)

theorem State.tick_supervises (s : State) : s.Supervises s.tick := by
  unfold State.tick
  split
  · exact (State.supervises_of_sup (u := { s.sup with pool := s.sup.pool.tick }) (Supervision.sameRecords_of_table rfl)
      fun _ _ h => h).trans (State.takeExpiries_supervises _)
  · exact .refl s

theorem State.InService.tick {s : State} (law : s.InService) : s.tick.InService :=
  law.of_supervises s.tick_supervises law.serves.sound.tick

/-! ## The egress side -/

theorem State.InService.afterRequest {s : State} (law : s.InService) : s.afterRequest.InService :=
  law.of_same (by simp) (by simp) (by simp) (by simp)

theorem State.InService.postState {s : State} (law : s.InService) : s.postState.InService :=
  law.of_tables (Supervision.post_table _ _ _) (Supervision.post_pool _ _ _)

theorem State.Serves.withEgress {s : State} {us : List Update} (serves : s.Serves us) (e : Egress) :
    State.Serves { s with egress := e } us := ⟨serves.sound, serves.core⟩

theorem State.InService.stopEgress {s : State} (law : s.InService) : s.stopEgress.InService := by
  refine State.InService.postState (State.Serves.applyUpdates ?_)
  exact law.afterRequest.serves.withEgress _

theorem State.InService.frameStart {s : State} (law : s.InService) (misses : Nat) : (s.frameStart misses).InService := by
  refine State.Serves.applyUpdates ?_
  exact law.afterRequest.serves.withEgress _

theorem State.InService.startEgress {s : State} (law : s.InService) : s.startEgress.InService :=
  State.InService.postState (s := { s.afterRequest with egress := _ }) ⟨law.afterRequest.serves.withEgress _, fun h => by cases h⟩

theorem State.InService.withEgress {s : State} (law : s.InService) {e : Egress} (running : e.running = s.egress.running) :
    State.InService { s with egress := e } := law.of_same rfl rfl rfl running

theorem State.InService.buildDue {s : State} (law : s.InService) : s.buildDue.InService := by
  unfold State.buildDue
  split
  · split
    · rename_i n _
      obtain ⟨v, counted⟩ := s.egress.countAlarm_cases n (s.slotContent n)
      exact law.withEgress (by rw [counted])
    · exact law
  · exact law

theorem State.InService.expectFrame {s : State} (law : s.InService) (pulse : Bool) : (s.expectFrame pulse).InService := by
  unfold State.expectFrame
  split
  · exact law.frameStart 0
  · split
    · exact law.stopEgress
    · exact law.frameStart _

theorem State.InService.driveNext {s : State} (law : s.InService) : s.driveNext.InService := by
  unfold State.driveNext
  dsimp only
  split <;> exact law.withEgress rfl

theorem State.InService.searchReference {s : State} (law : s.InService) (pulse : Bool) : (s.searchReference pulse).InService := by
  unfold State.searchReference
  split
  · split
    · exact law.withEgress rfl
    · exact law
  · split
    · exact law.withEgress rfl
    · split
      · exact law.startEgress
      · exact law.withEgress rfl

theorem State.InService.egressEdge {s : State} (law : s.InService) (eref : Bool) : (s.egressEdge eref).InService := by
  have noted := law.buildDue.withEgress (e := { s.buildDue.egress with erefLevel := eref }) rfl
  unfold State.egressEdge
  split
  · dsimp only
    split
    · split
      · exact noted.expectFrame _
      · exact noted.driveNext
    · exact noted.searchReference _
  · exact law

theorem State.InService.loseEgressClock {s : State} (law : s.InService) : s.loseEgressClock.InService := by
  have noted := law.buildDue.withEgress (e := { s.buildDue.egress with erefLevel := false, candidate := none }) rfl
  unfold State.loseEgressClock
  split
  · dsimp only
    split
    · exact noted.stopEgress
    · exact noted
  · exact law

/-! ## Vacant tables -/

/-- No live record, no timer RUNNING, no waiter, no owner and no update: nothing to agree. -/
theorem State.InService.of_vacant {s : State} (free : ∀ r, s.sup.live r = none) (timers : ∀ t, pick s.sup.pool.timers t = none)
    (waiters : s.sup.pool.waiters = []) (mark : s.sup.pool.highWater ≤ 24) (owner : ∀ n, pick s.owner n = none)
    (updates : s.updates = []) : s.InService := by
  have nothing (r : RecIx) : s.sup.place r = none := Supervision.place_of_free (free r)
  have running : s.sup.pool.running = 0 := by
    rw [Pool.running_eq, List.countP_eq_zero]
    intro t _
    simp [timers t]
  refine ⟨⟨⟨⟨fun t r => ?_, fun r => ?_, fun r h => ?_, waiters ▸ List.nodup_nil, running ▸ Nat.zero_le _, mark⟩, fun h => absurd waiters h,
    fun q k hk => ?_, fun q k hk => ?_⟩, ⟨fun n r h => ?_, fun n r h => ?_, updates ▸ List.nodup_nil, fun u hu => ?_, fun u hu => ?_,
    fun r n h => ?_, fun r n h => ?_, fun u hu => ?_⟩⟩, fun _ => updates⟩
  · rw [Pool.lentTo, timers, Supervision.claimed, free]
    simp
  · rw [waiters, Supervision.awaits, free]
    simp
  · rw [Supervision.claimed, free]
    rfl
  · cases (free q).symm.trans hk
  · cases (free q).symm.trans hk
  · cases (owner n).symm.trans h
  · rcases h with h | h <;> cases (nothing r).symm.trans h
  · rw [updates] at hu; cases hu
  · rw [updates] at hu; cases hu
  · cases (nothing r).symm.trans h
  · cases (nothing r).symm.trans h
  · rw [updates] at hu; cases hu

theorem State.softReset_inService {s : State} (law : s.InService) : s.softReset.InService :=
  .of_vacant s.softReset_live s.softReset_timers rfl law.serves.sound.claims.marked.2 s.softReset_owner rfl

theorem State.hardReset_inService (s : State) : s.hardReset.InService :=
  .of_vacant s.hardReset_live s.hardReset_timers rfl (Nat.zero_le 24) s.hardReset_owner rfl

end Sys2Proof.Machine
end

section
/-! SUPPORT. The laws of records in service under every command, and with them every law of the part. -/
namespace Sys2Proof.Machine

/-! ## CREATE and AMEND -/

/-- A CREATE writes a record in PREVIEW without timer and wait over a FREE one (R56). -/
theorem Supervision.Sound.allocate {u : Supervision} (sound : u.Sound noneDue) {r : RecIx} (free : u.live r = none) {f : Fields}
    (inRange : FieldsLaw f) : (u.setRecord r ((u.record r).allocated f)).Sound noneDue := by
  have live (q : RecIx) : (u.setRecord r ((u.record r).allocated f)).live q =
      if r = q then some { state := .staged, fields := f, sel := Selector.initial } else u.live q := by
    rw [Supervision.live]
    split
    · rename_i same
      rw [← same, Supervision.setRecord_same]
      rfl
    · rename_i other
      rw [Supervision.setRecord_ne _ _ other]
      rfl
  refine ⟨sound.claims.congr (fun q => ?_) (fun q => ?_) (fun _ => rfl) rfl sound.claims.marked, sound.noneFree, fun q k hk => ?_,
    fun q k hk => ?_⟩
  · rw [Supervision.claimed, live]
    split
    · rename_i same
      rw [← same, Supervision.claimed, free]
      rfl
    · rfl
  · rw [Supervision.awaits, live]
    split
    · rename_i same
      rw [← same, Supervision.awaits, free]
      rfl
    · rfl
  · rw [live] at hk
    split at hk
    · cases hk
      exact .of_idle rfl ⟨rfl, rfl, rfl⟩ nofun (by rintro (h | h) <;> cases h) rfl
    · exact sound.rows q k hk
  · rw [live] at hk
    split at hk
    · cases hk
      exact inRange
    · exact sound.fields q k hk

theorem State.InService.createAt {s : State} (law : s.InService) {r : RecIx} (free : s.sup.live r = none) {f : Fields}
    (inRange : FieldsLaw f) : (s.createAt r f).InService := by
  have ports := State.takeRefs_samePorts { s with sup := s.sup.setRecord r ((s.sup.record r).allocated f) } f.sources
  refine State.InService.evaluate (s := State.takeRefs { s with sup := s.sup.setRecord r ((s.sup.record r).allocated f) } f.sources) ?_ r
  refine ⟨⟨?_, ?_⟩, fun h => ports.updates.trans (law.stopped (ports.egress ▸ h))⟩
  · rw [State.takeRefs_sup]
    exact law.serves.sound.allocate free inRange
  · rw [State.takeRefs_sup, State.takeRefs_owner, ports.updates]
    refine law.serves.core.outside (r := r) (fun q other => ?_) (fun st n h => ?_) fun st n h => ?_
    · exact Supervision.place_of_live_eq (congrArg Record.live (Supervision.setRecord_ne _ _ other.symm))
    · cases (Supervision.place_of_free free).symm.trans h
    · obtain ⟨l, hl, rfl, -⟩ := Supervision.live_of_place h
      rw [Supervision.live, Supervision.setRecord_same] at hl
      cases hl
      rfl

theorem Request.withoutProtect_present {q : Request} : ¬ (q.withoutProtect = .pinP ∨ q.withoutProtect = .steerP) := by
  cases q <;> simp [Request.withoutProtect]

theorem RowLaw.withFields {due : TimerIx → Prop} {p : Pool} {l : Live} (row : RowLaw due p l) {f : Fields}
    (protect : f.protect = l.fields.protect) : RowLaw due p { l with fields := f } where
  mode := row.mode
  row := row.row
  protect h := by show f.protect.isSome = true; rw [protect]; exact row.protect h
  request h := by show f.protect.isSome = true; rw [protect]; exact row.request h
  purpose := row.purpose
  remaining := row.remaining

/-- Fields amended, and the request with them, in a state that is sound but for that record's row (R69, R71). -/
theorem State.InService.of_fields {s t : State} (law : s.InService) {r : RecIx} {l k : Live} (hl : s.sup.live r = some l)
    (hk : t.sup.live r = some k) (sound : t.sup.Sound noneDue) (others : ∀ q, q ≠ r → t.sup.place q = s.sup.place q)
    (state : k.state = l.state) (slot : l.state = .staged ∨ k.fields.egress = l.fields.egress) (owner : t.owner = s.owner)
    (updates : t.updates = s.updates) (running : t.egress.running = s.egress.running) : t.InService := by
  refine ⟨⟨sound, ?_⟩, fun h => updates.trans (law.stopped (running ▸ h))⟩
  rw [owner, updates]
  have before := Supervision.place_of_live hl
  have after := Supervision.place_of_live hk
  rcases slot with staged | same
  · refine law.serves.core.outside (r := r) others (fun st n h => ?_) fun st n h => ?_
    · cases before.symm.trans h
      exact staged
    · cases after.symm.trans h
      exact state.trans staged
  · refine law.serves.core.congr (fun q => ?_) fun _ => rfl
    by_cases other : q = r
    · rw [other, before, after, state, same]
    · exact others q other

/-- What an AMEND writes before it evaluates: the fields, and the request cleared where there is no protect source. -/
def Live.amended (l : Live) (a : Amendment) : Live :=
  { l with
    fields := a.apply l.fields
    sel := { l.sel with request := if (a.apply l.fields).protect.isNone then l.sel.request.withoutProtect else l.sel.request } }

theorem Live.amended_request {l : Live} {a : Amendment} (h : (l.amended a).sel.request = .pinP ∨ (l.amended a).sel.request = .steerP) :
    (l.amended a).fields.protect.isSome := by
  unfold Live.amended at h ⊢
  dsimp only at h ⊢
  split at h
  · exact absurd h Request.withoutProtect_present
  · rename_i present
    cases protect : (a.apply l.fields).protect with
    | none => rw [protect] at present; exact absurd rfl present
    | some _ => rfl

/-- The state an AMEND evaluates in. -/
theorem State.amendRecord_eq {s : State} {r : RecIx} {l : Live} (hl : s.sup.live r = some l) (a : Amendment) :
    ∃ t : State, s.amendRecord r l a = (if a.selecting then t.evaluate r else t) ∧ s.SamePorts t ∧ t.owner = s.owner ∧
      t.sup.pool = s.sup.pool ∧ t.sup.live r = some (l.amended a) ∧ ∀ q, q ≠ r → t.sup.live q = s.sup.live q := by
  have ports := ((s.withSup_samePorts (s.sup.modLive r fun k => { k with fields := a.apply l.fields })).trans
    (State.takeRefs_samePorts _ a.taken)).trans (State.dropRefs_samePorts _ (a.droppedFrom l.fields))
  have written : (s.sup.modLive r fun k => { k with fields := a.apply l.fields }).live r = some { l with fields := a.apply l.fields } := by
    rw [Supervision.modLive_same, hl]; rfl
  unfold State.amendRecord Live.amended
  dsimp only
  generalize hw : State.dropRefs _ _ = w at ports
  have sup : w.sup = s.sup.modLive r fun k => { k with fields := a.apply l.fields } := by
    rw [← hw, State.dropRefs_sup, State.takeRefs_sup]
  have owner : w.owner = s.owner := by rw [← hw, State.dropRefs_owner, State.takeRefs_owner]
  by_cases absent : (a.apply l.fields).protect.isNone = true
  · simp only [absent, if_true]
    refine ⟨_, rfl, ports.trans (State.withSup_samePorts _ _), owner, ?_, ?_, fun q other => ?_⟩
    · rw [Supervision.modSel_pool, sup, Supervision.modLive_pool]
    · rw [Supervision.modSel_live, sup, written]
      rfl
    · rw [Supervision.modSel_live_ne _ _ other.symm, sup, Supervision.modLive_ne _ _ other.symm]
  · simp only [absent, if_false, Bool.false_eq_true]
    refine ⟨_, rfl, ports, owner, ?_, ?_, fun q other => ?_⟩
    · rw [sup, Supervision.modLive_pool]
    · rw [sup, written]
    · rw [sup, Supervision.modLive_ne _ _ other.symm]

theorem State.InService.amendRecord {s : State} (law : s.InService) {r : RecIx} {l : Live} (hl : s.sup.live r = some l) {a : Amendment}
    (stagedOnly : a.stagedOnly = true → l.state = .staged) (inRange : FieldsLaw l.fields → FieldsLaw (a.apply l.fields)) :
    (s.amendRecord r l a).InService := by
  obtain ⟨t, amended, ports, owner, pool, live, others⟩ := State.amendRecord_eq hl a
  have range : FieldsLaw (l.amended a).fields := inRange (law.serves.sound.fields r l hl)
  have row := law.serves.sound.rows r l hl
  have stands : t.sup.Stands noneDue r (l.amended a) :=
    (law.serves.sound.stands hl).of_self live rfl rfl others (by rw [pool]) (by rw [pool]) (by rw [pool])
  have slot : l.state = .staged ∨ (l.amended a).fields.egress = l.fields.egress := by
    by_cases chosen : a.stagedOnly = true
    · exact .inl (stagedOnly chosen)
    · right
      simp only [Amendment.stagedOnly, Bool.or_eq_true, not_or, Option.not_isSome_iff_eq_none] at chosen
      show a.egress.getD l.fields.egress = l.fields.egress
      rw [chosen.1.1]
      rfl
  have written (sound : t.sup.Sound noneDue) : t.InService :=
    law.of_fields hl live sound (fun q other => Supervision.place_of_live_eq (others q other)) rfl slot owner ports.updates
      (by rw [ports.egress])
  rw [amended]
  cases protect : a.protect with
  | none =>
    have same : (a.apply l.fields).protect = l.fields.protect := by
      show a.protect.getD l.fields.protect = l.fields.protect
      rw [protect]
      rfl
    have kept := written (stands.sound (by rw [pool]; exact (row.withFields same).requested fun h => Live.amended_request h) range)
    split
    · exact kept.evaluate r
    · exact kept
  | some p =>
    have staged : l.state = .staged := stagedOnly (by simp [Amendment.stagedOnly, protect])
    have preview : l.sel.mode = .preview := by rw [row.mode, staged]; rfl
    obtain ⟨idle, waits⟩ := selectorRow_idle row.row (by simp [preview])
    have evaluated : (t.evaluate r).sup.Sound noneDue :=
      stands.evaluate_preview ⟨row.mode, preview, idle, waits, fun h => Live.amended_request h⟩ range
    have supervises := t.evaluateBy_supervises false r
    obtain ⟨x, hx⟩ := Supervision.sameRecords_live supervises.records live
    rw [if_pos (by simp [Amendment.selecting, protect])]
    refine law.of_fields hl hx evaluated (fun q other => ?_) rfl slot (supervises.owner.trans owner)
      (supervises.updates.trans ports.updates) ?_
    · exact (t.evaluate_place r q).trans (Supervision.place_of_live_eq (others q other))
    · show (t.evaluateBy false r).egress.running = _
      rw [supervises.egress, ports.egress]

/-! ## ACTIVATE, REPLACE, RETIRE -/

theorem Supervision.Sound.arm {s : State} (sound : s.sup.Sound noneDue) {r : RecIx} {l : Live} (hl : s.sup.live r = some l)
    (staged : l.state = .staged) : (s.arm r).sup.Sound noneDue := by
  have row := sound.rows r l hl
  refine ((sound.stands hl).modLive (fun l => { l with state := .armed }) rfl rfl).sound ?_ (sound.fields r l hl)
  exact ⟨row.mode.trans (by rw [staged]; rfl), row.row, row.protect, row.request, row.purpose, row.remaining⟩

theorem State.arm_place {s : State} {r : RecIx} {l : Live} (hl : s.sup.live r = some l) (q : RecIx) :
    (s.arm r).sup.place q = if r = q then some (.armed, l.fields.egress) else s.sup.place q := Supervision.modLive_place hl _ q

/-- A selection frozen (R123). -/
theorem Supervision.Sound.beginRetiring {s : State} (sound : s.sup.Sound noneDue) {r : RecIx} {l : Live}
    (hl : s.sup.live r = some l) : (s.beginRetiring r).sup.Sound noneDue := by
  have row := sound.rows r l hl
  have retiring := (sound.stands hl).modLive (fun l => { l with state := .retiring }) rfl rfl
  refine (retiring.endWaits.modSel (fun x => { x with mode := .frozen, state := x.selected.rest }) rfl rfl).sound ?_ (sound.fields r l hl)
  exact .of_idle rfl (selectorRow_rest rfl rfl rfl rfl) row.protect row.request rfl

theorem State.beginRetiring_place {s : State} {r : RecIx} {l : Live} (hl : s.sup.live r = some l) (q : RecIx) :
    (s.beginRetiring r).sup.place q = if r = q then some (.retiring, l.fields.egress) else s.sup.place q :=
  (Supervision.place_of_sameRecords (Supervision.freeze_sameRecords _ r) q).trans (Supervision.modLive_place hl _ q)

theorem State.notPending {s : State} {n : SlotIx} (h : ¬ s.hasUpdate n = true) : ∀ v ∈ s.updates, v.slot ≠ n := fun v hv same =>
  h (List.any_eq_true.2 ⟨v, hv, by simpa using same⟩)

theorem LiveState.isStaged_iff {st : LiveState} : st.isStaged = true ↔ st = .staged := by cases st <;> simp [LiveState.isStaged]

theorem State.InService.performActivate {s : State} (law : s.InService) (params : List Byte) : (performActivate params s).1.InService := by
  unfold Machine.performActivate
  split
  · exact law
  · split
    · exact law
    · rename_i r l checked
      obtain ⟨hl, staged⟩ := State.checkRecord_ok checked
      have staged := LiveState.isStaged_iff.1 staged
      split
      · exact law
      · rename_i unowned
        split
        · exact law
        · rename_i notPending
          refine State.queueUpdate_inService ⟨law.serves.sound.arm hl staged, ?_⟩ law.stopped
          refine (law.serves.core.queue (u := .enter l.fields.egress r) (State.notPending notPending) (fun q inc => ?_) nofun
            fun _ => by simpa [Update.slot] using unowned).congr (fun q => ?_) fun _ => rfl
          · cases inc
            exact ⟨_, staged ▸ Supervision.place_of_live hl⟩
          · rw [State.arm_place hl]
            simp [Update.queuedPlace, Update.incoming, Update.outgoing, Update.slot]

theorem State.InService.performReplace {s : State} (law : s.InService) (params : List Byte) : (performReplace params s).1.InService := by
  unfold Machine.performReplace
  split
  · exact law
  · split
    · exact law
    · rename_i o _
      split
      · exact law
      · rename_i n _
        split
        · exact law
        · rename_i lo checkedOut
          split
          · exact law
          · rename_i ln checkedIn
            obtain ⟨ho, active⟩ := State.checkState_ok checkedOut
            obtain ⟨hn, staged⟩ := State.checkState_ok checkedIn
            have active : lo.state = .active := by simpa using active
            have staged := LiveState.isStaged_iff.1 staged
            split
            · exact law
            · rename_i sameSlot
              split
              · exact law
              · rename_i notPending
                have apart : o ≠ n := by
                  rintro rfl
                  cases ho.symm.trans hn
                  cases active.symm.trans staged
                have freed := s.sup.modLive_ne (fun l => { l with state := .retiring }) apart
                obtain ⟨x, hx⟩ := Supervision.sameRecords_live (Supervision.freeze_sameRecords _ o) (freed.trans hn)
                refine State.queueUpdate_inService ⟨(law.serves.sound.beginRetiring ho).arm (s := s.beginRetiring o) hx staged, ?_⟩ law.stopped
                refine (law.serves.core.queue (u := .handover lo.fields.egress o n) (State.notPending notPending) (fun q inc => ?_)
                  (fun q out => ?_) nofun).congr (fun q => ?_) fun _ => rfl
                · cases inc
                  exact ⟨_, staged ▸ Supervision.place_of_live hn⟩
                · cases out
                  exact active ▸ Supervision.place_of_live ho
                · have slots : lo.fields.egress = ln.fields.egress := not_not.1 sameSlot
                  rw [State.arm_place (s := s.beginRetiring o) hx, State.beginRetiring_place ho]
                  simp [Update.queuedPlace, Update.incoming, Update.outgoing, Update.slot, slots]

/-- RETIRE of an ARMED record (R63, R64). -/
theorem State.InService.cancelUpdate {s : State} (law : s.InService) {r : RecIx} {l : Live} (hl : s.sup.live r = some l)
    (armed : l.state = .armed) : (s.cancelUpdate r).InService := by
  have place : s.sup.place r = some (.armed, l.fields.egress) := armed ▸ Supervision.place_of_live hl
  obtain ⟨k, hk, notLive, -, -⟩ := law.serves.notLive place nofun
  cases hl.symm.trans hk
  obtain ⟨v, hv, inc⟩ := law.serves.core.armed r _ place
  unfold State.cancelUpdate
  cases found : s.incomingUpdate r with
  | none => exact absurd inc (by simpa using List.find?_eq_none.1 found v hv)
  | some u =>
    have hu : u ∈ s.updates := List.mem_of_find?_eq_some found
    have named : u.incoming = some r := by simpa using List.find?_some found
    have core := law.serves.core.cancel hu
    have stopped (h : s.egress.running = false) : s.updates.filter (· ≠ u) = [] := by rw [law.stopped h]; rfl
    cases u with
    | leave n o => cases named
    | enter n i =>
      cases named
      refine ⟨⟨Supervision.Sound.freeRecord (s := s.removeUpdate _) law.serves.sound hl notLive, ?_⟩, fun h => ?_⟩
      · rw [(State.freeRecord_samePorts _ r).updates, State.freeRecord_owner]
        refine core.congr (fun q => ?_) fun _ => rfl
        rw [State.freeRecord_place (s := s.removeUpdate _) hl]
        simp [Update.cancelledPlace, Update.incoming, Update.outgoing]
      · rw [(State.freeRecord_samePorts _ r).egress] at h
        rw [(State.freeRecord_samePorts _ r).updates]
        exact stopped h
    | handover n o i =>
      cases named
      obtain ⟨lo, ho, leaving, -, slot⟩ := law.serves.notLive (law.serves.core.outgoing _ hu o rfl) nofun
      have apart : o ≠ r := by
        rintro rfl
        cases (law.serves.core.outgoing _ hu o rfl).symm.trans place
      have returned := Supervision.Sound.goLive (s := s.removeUpdate (.handover n o r)) law.serves.sound ho leaving
      have supervises := State.evaluateBy_supervises { s.removeUpdate (.handover n o r) with
        sup := s.sup.modLive o fun l => { l with state := .active, sel := { l.sel with mode := .live } } } false o
      have before := s.sup.modLive_ne (fun l => { l with state := .active, sel := { l.sel with mode := .live } }) apart
      obtain ⟨x, hx⟩ := Supervision.sameRecords_live supervises.records (before.trans hl)
      have hx : ((s.removeUpdate (.handover n o r)).goLive o).sup.live r = some { l with sel := x } := hx
      have quiet : x.mode ≠ .live := by
        have mode := (returned.rows r _ hx).mode
        dsimp only at mode
        rw [mode, armed]
        nofun
      refine ⟨⟨returned.freeRecord hx quiet, ?_⟩, fun h => ?_⟩
      · rw [(State.freeRecord_samePorts _ r).updates, State.freeRecord_owner]
        refine (core.congr (fun q => ?_) fun _ => congrFun (congrArg pick supervises.owner) _) |> fun c =>
          supervises.updates.symm ▸ c
        rw [State.freeRecord_place hx, State.goLive_place (s := s.removeUpdate (.handover n o r)) ho, slot]
        simp [Update.cancelledPlace, Update.incoming, Update.outgoing, Update.slot]
      · rw [(State.freeRecord_samePorts _ r).egress] at h
        rw [(State.freeRecord_samePorts _ r).updates]
        exact supervises.updates.trans (stopped (by rw [← h]; exact congrArg Egress.running supervises.egress.symm))

theorem State.InService.retireRecord {s : State} (law : s.InService) {r : RecIx} {l : Live} (hl : s.sup.live r = some l) :
    (s.retireRecord r l).1.InService := by
  have place := Supervision.place_of_live hl
  unfold State.retireRecord
  split
  · rename_i staged
    have notLive : l.sel.mode ≠ .live := by
      rw [(law.serves.sound.rows r l hl).mode, staged]
      nofun
    have ports := s.freeRecord_samePorts r
    refine ⟨⟨law.serves.sound.freeRecord hl notLive, ?_⟩, fun h => ports.updates.trans (law.stopped (ports.egress ▸ h))⟩
    rw [ports.updates, State.freeRecord_owner]
    refine law.serves.core.outside (r := r) (fun q other => ?_) (fun st n h => ?_) fun st n h => ?_
    · rw [State.freeRecord_place hl, if_neg other.symm]
    · cases place.symm.trans h
      exact staged
    · rw [State.freeRecord_place hl, if_pos rfl] at h
      cases h
  · rename_i armed
    exact law.cancelUpdate hl armed
  · rename_i active
    rw [active] at place
    refine State.queueUpdate_inService ⟨law.serves.sound.beginRetiring hl, ?_⟩ law.stopped
    refine (law.serves.core.queue (u := .leave l.fields.egress r) (law.serves.core.noUpdate_of_active place) nofun (fun q out => ?_)
      nofun).congr (fun q => ?_) fun _ => rfl
    · cases out
      exact place
    · rw [State.beginRetiring_place hl]
      simp [Update.queuedPlace, Update.incoming, Update.outgoing, Update.slot]
  · exact law

end Sys2Proof.Machine
end

section
/-! SUPPORT. Every law of the part under every event, and in the state after reset. -/
namespace Sys2Proof.Machine

/-! ## Every command -/

theorem State.InService.performAmend {s : State} (law : s.InService) (params : List Byte) : (performAmend params s).1.InService := by
  unfold Machine.performAmend
  dsimp only
  split
  · exact law
  · split
    · exact law
    · rename_i v values
      split
      · exact law
      · rename_i a read
        split
        · exact law
        · rename_i r l checked
          split
          · exact law
          · rename_i allowed
            split
            · exact law
            · refine law.amendRecord (State.checkRecord_ok checked).1 (fun chosen => ?_) (readAmend_law values read)
              exact not_not.1 fun other => allowed ⟨chosen, other⟩

theorem State.InService.performRequest {s : State} (law : s.InService) (params : List Byte) : (performRequest params s).1.InService := by
  unfold Machine.performRequest
  split
  · exact law
  · split
    · rename_i kind _ _
      split
      · exact law
      · rename_i r l checked
        have hl := (State.checkRecord_ok checked).1
        split
        · exact law
        · rename_i allowed
          have present : kind = .pinP ∨ kind = .steerP → l.fields.protect.isSome := fun needs => by
            by_contra absent
            refine allowed ⟨by rcases needs with rfl | rfl <;> rfl, ?_⟩
            simpa using absent
          refine State.InService.evaluate (s := { s with sup := s.sup.modSel r fun x => { x with request := kind } }) ?_ r
          refine law.of_sound ?_ (Supervision.place_of_sameRecords (s.sup.modSel_sameRecords r _)) rfl rfl rfl
          exact ((law.serves.sound.stands hl).modSel (fun x => { x with request := kind }) rfl rfl).sound
            ((law.serves.sound.rows r l hl).requested present) (law.serves.sound.fields r l hl)
    · exact law

theorem State.InService.clearGroup {s t : State} (law : s.InService) {group : Byte} (h : s.clearGroup group = some t) : t.InService := by
  rcases State.clearGroup_cases h with ⟨b, rfl⟩ | ⟨b, rfl⟩ | rfl | rfl | rfl
  · exact law.of_same (by simp) (by simp) (by simp) (by simp)
  · exact law.of_same (by simp) (by simp) (by simp) (by simp)
  · have sound := law.serves.sound
    refine law.of_sound ⟨sound.claims.congr (fun _ => rfl) (fun _ => rfl) (fun _ => rfl) rfl ⟨le_rfl, Pool.running_le _⟩, sound.noneFree,
      fun q k hk => (sound.rows q k hk).of_pool fun _ _ => rfl, sound.fields⟩ (fun _ => rfl) rfl rfl rfl
  · exact law.of_same rfl rfl rfl rfl
  · exact law.of_same rfl rfl rfl rfl

theorem State.InService.perform {s : State} (law : s.InService) (c : Command) (params : List Byte) : (perform c params s).1.InService := by
  have unchanged {t : State} (h : t = s) : t.InService := h ▸ law
  cases c with
  | ident => exact unchanged (performIdent_state params s)
  | softReset =>
    show (performSoftReset params s).1.InService
    unfold performSoftReset
    split
    · exact law
    · exact State.softReset_inService law
  | busSet =>
    show (performBusSet params s).1.InService
    rcases performBusSet_cases params s with ⟨_, h⟩ | ⟨_, _, h⟩ | ⟨b, _, _, _, _, h⟩ <;> rw [h]
    · exact law
    · exact law.of_same rfl rfl rfl rfl
    · exact inService_keptByBus.setBus _ _ _ _ _ law
  | busRead => exact unchanged (performBusRead_state params s)
  | create =>
    show (performCreate params s).1.InService
    unfold performCreate
    split
    · exact law
    · rename_i length
      split
      · exact law
      · rename_i f read
        split
        · exact law
        · rename_i r free
          have fits : params.length = createLength (byteAt params 3) := by tauto
          exact law.createAt (Supervision.freeIndex_some free).1 (readCreate_law fits read).1
  | amend => exact law.performAmend params
  | activate => exact law.performActivate params
  | replace => exact law.performReplace params
  | retire =>
    show (performRetire params s).1.InService
    unfold performRetire
    split
    · exact law
    · split
      · exact law
      · rename_i r l checked
        exact law.retireRecord (State.checkRecord_ok checked).1
  | request => exact law.performRequest params
  | recordRead => exact unchanged (performRecordRead_state params s)
  | mapRead => exact unchanged (performMapRead_state params s)
  | sourceRead => exact unchanged (performSourceRead_state params s)
  | noticeFetch =>
    show (performNoticeFetch params s).1.InService
    unfold performNoticeFetch
    split
    · exact law
    · split
      · exact law
      · rename_i e rest _
        have live (q : RecIx) := Supervision.endHold_live { s.sup with notices := rest } e q
        have pool : (Supervision.endHold { s.sup with notices := rest } e).pool = s.sup.pool := by
          unfold Supervision.endHold
          split
          · split <;> rfl
          · rfl
          · rfl
        exact law.of_sound (law.serves.sound.of_lives live pool) (fun q => Supervision.place_of_live_eq (live q)) rfl rfl rfl
  | alertSet =>
    show (performAlertSet params s).1.InService
    unfold performAlertSet
    split
    · exact law
    · split
      · exact law
      · exact law.of_same rfl rfl rfl rfl
  | linkRead => exact unchanged (performLinkRead_state params s)
  | countersClear =>
    show (performCountersClear params s).1.InService
    rcases performCountersClear_cases params s with ⟨_, h⟩ | ⟨t, cleared, h⟩ <;> rw [h]
    · exact law
    · exact law.clearGroup cleared

theorem inService_kept : State.Kept State.InService where
  pending _ _ law := law.of_same rfl rfl rfl rfl
  hardReset s _ := s.hardReset_inService
  release _ law := law.of_same rfl rfl rfl rfl
  tick _ law := law.tick
  loseClock := inService_keptByBus.loseClock
  takeWord := inService_keptByBus.takeWord
  egressEdge _ eref law := law.egressEdge eref
  buildDue _ law := law.buildDue
  loseEgressClock _ law := law.loseEgressClock
  transfer _ bytes edges early holdRunsOut law :=
    State.transfer_keep (fun _ _ law => law.of_same rfl rfl rfl rfl) (fun c params _ law => law.perform c params) bytes edges early
      holdRunsOut law
  expireHold s law := law.of_same (by simp) (by simp) (by simp) (by simp)
  complete _ law := law.of_same rfl rfl rfl rfl

/-! ## The laws as they are stated -/

theorem Supervision.Sound.of_laws {u : Supervision} (selectors : SelectorLaw u) (pool : PoolLaw u)
    (fields : ∀ r l, u.live r = some l → FieldsLaw l.fields) : u.Sound noneDue where
  claims :=
    { claims := fun t r => by
        constructor
        · intro lent
          obtain ⟨timer, running, owner⟩ := Option.map_eq_some_iff.1 lent
          obtain ⟨x, hx, held, -⟩ := pool.owned t timer running
          obtain ⟨l, hl, rfl⟩ := Option.map_eq_some_iff.1 hx
          rw [← (owner : timer.owner = r), Supervision.claimed, hl]
          exact held
        · intro claimed
          obtain ⟨l, hl, held⟩ := Option.bind_eq_some_iff.1 claimed
          obtain ⟨timer, running, owner⟩ := pool.holds r l.sel t (Supervision.sel_of_live hl) held
          rw [Pool.lentTo, running, ← owner]
          rfl
      waiters := fun r => by
        rw [pool.waiters r, Supervision.awaits, Supervision.sel]
        cases u.live r <;> simp
      apart := fun r waits => by
        obtain ⟨l, hl, saysSo⟩ := Supervision.awaits_live waits
        obtain ⟨ret, -, -⟩ := selectorRow_waiting (selectors.row r l hl) saysSo
        have row := selectors.row r l hl
        unfold selectorRow at row
        rw [ret] at row
        rw [Supervision.claimed, hl]
        exact Option.isNone_iff_eq_none.1 (row.2.1.symm.trans saysSo)
      oneEach := pool.oneEach
      marked := pool.highWater }
  noneFree := pool.noneFree
  rows q l hl :=
    { mode := selectors.mode q l hl
      row := selectors.row q l hl
      protect := selectors.protect q l hl
      request := selectors.request q l hl
      purpose := fun t timer held running => by
        obtain ⟨x, hx, held', purpose, -⟩ := pool.owned t timer running
        obtain ⟨timer', running', owner⟩ := pool.holds q l.sel t (Supervision.sel_of_live hl) held
        cases running.symm.trans running'
        rw [owner, Supervision.sel_of_live hl] at hx
        cases hx
        exact purpose
      remaining := fun t timer _ running => ⟨(pool.remaining t timer running).2, fun _ => (pool.remaining t timer running).1⟩ }
  fields := fields

theorem Supervision.Sound.selectors {u : Supervision} (sound : u.Sound noneDue) : SelectorLaw u where
  mode r l hl := (sound.rows r l hl).mode
  row r l hl := (sound.rows r l hl).row
  protect r l hl := (sound.rows r l hl).protect
  request r l hl := (sound.rows r l hl).request

theorem Supervision.Sound.pool {u : Supervision} (sound : u.Sound noneDue) : PoolLaw u where
  owned t timer running := by
    have lent : u.pool.lentTo t = some timer.owner := by rw [Pool.lentTo, running]; rfl
    obtain ⟨l, hl, held⟩ := Option.bind_eq_some_iff.1 ((sound.claims.claims t timer.owner).1 lent)
    have row := sound.rows _ l hl
    refine ⟨l.sel, Supervision.sel_of_live hl, held, row.purpose t timer held running, ?_⟩
    by_contra notLive
    cases (held : l.sel.timer = some t).symm.trans (selectorRow_idle row.row notLive).1
  holds r x t hx held := by
    obtain ⟨l, hl, rfl⟩ := Option.map_eq_some_iff.1 hx
    have claimed : u.claimed r = some t := by rw [Supervision.claimed, hl]; exact held
    obtain ⟨timer, running, owner⟩ := Option.map_eq_some_iff.1 ((sound.claims.claims t r).2 claimed)
    exact ⟨timer, running, owner⟩
  waiters r := by
    rw [sound.claims.waiters r, Supervision.awaits, Supervision.sel]
    cases u.live r <;> simp
  oneEach := sound.claims.oneEach
  noneFree := sound.noneFree
  remaining t timer running := by
    have lent : u.pool.lentTo t = some timer.owner := by rw [Pool.lentTo, running]; rfl
    obtain ⟨l, hl, held⟩ := Option.bind_eq_some_iff.1 ((sound.claims.claims t timer.owner).1 lent)
    obtain ⟨atMost, atLeast⟩ := (sound.rows _ l hl).remaining t timer held running
    exact ⟨atLeast id, atMost⟩
  highWater := sound.claims.marked

theorem serviceLaw_iff (s : State) :
    ServiceLaw s ↔ s.InService ∧ ∀ r l, s.sup.live r = some l → l.fields.protect ≠ some l.fields.working := by
  constructor
  · intro law
    obtain ⟨core, stopped⟩ := (ownerLaw_iff s).1 law.owners
    exact ⟨⟨⟨.of_laws law.selectors law.pool law.fields, core⟩, stopped⟩, law.distinct⟩
  · rintro ⟨law, distinct⟩
    exact ⟨law.serves.sound.selectors, law.serves.sound.pool, (ownerLaw_iff s).2 ⟨law.serves.core, law.stopped⟩,
      law.serves.sound.fields, distinct⟩

/-! ## nRESET low -/

/-- While nRESET is low everything stands at its reset value. -/
def State.HeldInReset (s : State) : Prop := s.nReset = false → s = s.hardReset

theorem State.HeldInReset.of_nReset {s t : State} (law : s.HeldInReset) (same : t.nReset = s.nReset)
    (still : s.nReset = false → s = s.hardReset → t = s) : t.HeldInReset := fun low => by
  have low := same.symm.trans low
  have held := law low
  rwa [still low held]

theorem State.tick_nReset (s : State) : s.tick.nReset = s.nReset := s.tick_supervises.nReset

theorem perform_nReset (c : Command) (params : List Byte) (s : State) : (perform c params s).1.nReset = s.nReset := by
  by_cases busSet : c = .busSet
  · subst busSet
    show (performBusSet params s).1.nReset = s.nReset
    rcases performBusSet_cases params s with ⟨_, h⟩ | ⟨_, _, h⟩ | ⟨b, _, _, _, _, h⟩ <;> rw [h]
    · rfl
    · exact (s.setBus_sameBesideBus b _ _ _ _).nReset
  · by_cases clear : c = .countersClear
    · subst clear
      show (performCountersClear params s).1.nReset = s.nReset
      rcases performCountersClear_cases params s with ⟨_, h⟩ | ⟨t, cleared, h⟩ <;> rw [h]
      rcases State.clearGroup_cases cleared with ⟨b, rfl⟩ | ⟨b, rfl⟩ | rfl | rfl | rfl
      · exact State.setRx_nReset s b _
      · exact State.setMons_nReset s b _
      · rfl
      · rfl
      · rfl
    · exact (perform_quiet busSet clear params s).nReset

theorem State.transfer_nReset (s : State) (bytes : List Byte) (edges : Nat) (early : List (List Bool)) (holdRunsOut : Bool) :
    (s.transfer bytes edges early holdRunsOut).nReset = s.nReset :=
  State.transfer_keep (P := fun t => t.nReset = s.nReset) (fun _ _ h => h) (fun c params t h => (perform_nReset c params t).trans h) bytes
    edges early holdRunsOut rfl

theorem State.rx_off_of_held {s : State} (held : s = s.hardReset) (b : Bus) : (s.rx b).state = .off := by
  rw [held, State.hardReset_rx]
  rfl

theorem heldInReset_kept : State.Kept State.HeldInReset where
  pending s q law low := by
    have held := law low
    exact congrArg (fun t : State => { t with pending := q }) held
  hardReset _ _ _ := rfl
  release _ _ low := by cases low
  tick s law := law.of_nReset s.tick_nReset fun low _ => State.tick_inReset low
  loseClock s b law := law.of_nReset (s.loseClock_sameBesideBus b).nReset fun _ held => State.loseClock_off (State.rx_off_of_held held b)
  takeWord s b w law := law.of_nReset (s.takeWord_sameBesideBus b w).nReset fun _ held => State.takeWord_off (State.rx_off_of_held held b) w
  egressEdge s eref law := law.of_nReset (s.egressEdge_beside eref).nReset fun low _ => State.egressEdge_inReset low eref
  buildDue s law := law.of_nReset s.buildDue_beside.nReset fun _ held => State.buildDue_stopped (by rw [held]; rfl)
  loseEgressClock s law := law.of_nReset s.loseEgressClock_beside.nReset fun low _ => State.loseEgressClock_inReset low
  transfer s bytes edges early holdRunsOut law :=
    law.of_nReset (s.transfer_nReset bytes edges early holdRunsOut) fun low _ => State.transfer_inReset low bytes edges early holdRunsOut
  expireHold s law := law.of_nReset s.expireHold_nReset fun _ held => State.expireHold_of_ne (by rw [held]; nofun)
  complete s law := law.of_nReset rfl fun _ held => by
    have idle : s.link.complete = s.link := Link.complete_of_ne (by rw [held]; nofun)
    rw [idle]

/-! ## Every law -/

theorem inv_kept {s t : State} (law : Inv s) (next : step s = .next t) : Inv t := by
  obtain ⟨service, distinct⟩ := (serviceLaw_iff s).1 law.service
  have references := referenceLaw_guarded.kept.step law.references next
  have responses := responseLaw_kept.step (P := ResponseLaw) ⟨law.link, law.monitors, law.service.fields⟩ next
  exact
    { notices := noticeLaw_guarded.kept.step law.notices next
      references := references
      monitors := responses.2.1
      receivers := receiversLaw_kept.step law.receivers next
      egress := egressLaw_kept.step law.egress next
      link := responses.1
      service := (serviceLaw_iff t).2 ⟨inService_kept.step service next, references.once⟩
      inReset := heldInReset_kept.step law.inReset next }

theorem exec_next (i : Instr) (s : State) : ∃ t, exec i s = .next t := by cases i <;> exact ⟨_, rfl⟩

theorem step_next (s : State) : ∃ t, step s = .next t := by
  unfold step
  split
  · exact ⟨_, rfl⟩
  · exact exec_next _ _

/-- Settles O11: a step answers a next state, and each law is kept by every event. -/
theorem lawsKept : Obligations.LawsKept := fun s law => by
  obtain ⟨t, next⟩ := step_next s
  exact ⟨t, next, inv_kept law next⟩

/-- Settles O6: after reset no record is live, no timer RUNNING, no notice queued, each bus in OFF, the link IDLE. -/
theorem lawsHoldAtReset : Obligations.LawsHoldAtReset := by
  have held (r : RecIx) : State.reset.sup.record r = Record.reset := pick_replicate _ _
  have free (r : RecIx) : State.reset.sup.live r = none := by rw [Supervision.live, held]; rfl
  have clean (src : Source) : State.reset.monitor src = Monitor.clean 0 := by
    obtain ⟨b, n⟩ := src
    cases b with
    | A => exact pick_replicate _ _
    | B => exact pick_replicate _ _
  have serves : State.reset.InService :=
    .of_vacant free (fun _ => pick_replicate _ _) rfl (Nat.zero_le 24) (fun _ => pick_replicate _ _) rfl
  exact
    { notices := NoticeLaw.of_empty rfl fun r => by rw [held]; rfl
      references := .of_vacant free clean
      monitors := fun src => by rw [clean]; exact monitorLaw_clean 0
      receivers := fun b => by cases b <;> exact receiverLaw_reset
      egress := .stop Egress.reset
      link := .of_idle rfl rfl rfl rfl rfl
      service := (serviceLaw_iff _).2 ⟨serves, fun r l hl => by cases (free r).symm.trans hl⟩
      inReset := fun low => by cases low }

end Sys2Proof.Machine
end

section
/-! SUPPORT. R129, R132: a step on an empty queue is a tick, and the expiries of that tick. -/
namespace Sys2Proof.Machine

theorem step_empty {s : State} (empty : s.pending = []) : step s = .next s.tick := by
  unfold step
  rw [empty]

/-- A list without repetitions whose members are one value. -/
theorem eq_singleton_of_nodup {α : Type} {xs : List α} {x : α} (once : xs.Nodup) (member : x ∈ xs) (only : ∀ y ∈ xs, y = x) : xs = [x] :=
  List.perm_singleton.1 ((List.perm_ext_iff_of_nodup once (List.nodup_singleton x)).2 fun y =>
    ⟨fun h => List.mem_singleton.2 (only y h), fun h => List.mem_singleton.1 h ▸ member⟩)

/-- Two timers or more reach 0: the expiries are taken in some order. -/
theorem State.takeExpiries_many {s : State} {k t : TimerIx} (hk : k ∈ s.sup.pool.expiring) (ht : t ∈ s.sup.pool.expiring) (apart : k ≠ t) :
    s.takeExpiries = (orderBy (fun t => Config.taskRank s.choices t.val) s.sup.pool.expiring).foldl State.takeExpiry
      { s with choices := s.choices + 1 } := by
  unfold State.takeExpiries
  split
  · rename_i none
    rw [none] at hk
    cases hk
  · rename_i x one
    rw [one, List.mem_singleton] at hk ht
    exact absurd (hk.trans ht.symm) apart
  · rfl

/-- Settles O2: the timers after the tick, and the branches of the expiries: none, one, or more. -/
theorem emptyQueueTakesOneTick : Obligations.EmptyQueueTakesOneTick := by
  intro s empty high
  have reached (t : TimerIx) : t ∈ s.sup.pool.tick.expiring ↔
      ∃ timer, pick s.sup.pool.tick.timers t = some timer ∧ timer.remaining = 0 := Pool.mem_expiring
  have ticked : s.tick = State.takeExpiries { s with sup := { s.sup with pool := s.sup.pool.tick } } := by
    rw [State.tick, if_pos high]
  refine ⟨{ s.sup with pool := s.sup.pool.tick }, rfl, fun t => Pool.pick_tick _ t, fun none => ?none, fun t timer running zero only => ?one,
    fun k t hk ht apart => ?many⟩
  case none =>
    rw [step_empty empty, State.tick_eq_of_no_expiry high fun t timer running zero => none t ⟨timer, running, zero⟩]
  case one =>
    have due : s.sup.pool.tick.expiring = [t] :=
      eq_singleton_of_nodup (Pool.nodup_expiring _) ((reached t).2 ⟨timer, running, zero⟩) fun k hk => only k ((reached k).1 hk)
    have running : pick s.sup.pool.tick.timers t = some timer := running
    rw [step_empty empty, ticked]
    unfold State.takeExpiries
    dsimp only
    rw [due]
    unfold State.takeExpiry
    dsimp only
    rw [running]
    dsimp only
    rw [if_pos zero]
  case many =>
    refine ⟨orderBy (fun t : TimerIx => Config.taskRank s.choices t.val) s.sup.pool.tick.expiring,
      ((orderBy_perm _ _).nodup_iff).2 (Pool.nodup_expiring _), fun x => mem_orderBy.trans (reached x), ?_⟩
    rw [step_empty empty, ticked]
    exact congrArg _ (State.takeExpiries_many ((reached k).2 hk) ((reached t).2 ht) apart)

end Sys2Proof.Machine
end

section
/-! SUPPORT. R68 check 1, R200: the values an AMEND carries, taken apart and put together. -/
namespace Sys2Proof.Machine

/-! ## One item -/

theorem takeByte_iff {chosen : Bool} {bytes rest : List Byte} {value : Option Byte} :
    takeByte chosen bytes = some (value, rest) ↔ value.isSome = chosen ∧ value.toList ++ rest = bytes := by
  cases chosen with
  | false => cases value <;> simp [takeByte, eq_comm]
  | true =>
    cases bytes with
    | nil => cases value <;> simp [takeByte]
    | cons b bs => cases value <;> simp [takeByte, eq_comm]

theorem bytes16_append (a b : Byte) : bytes16 (a ++ b) = [a, b] := by
  have high : (a ++ b).extractLsb' 8 8 = a := BitVec.extractLsb'_append_eq_left
  have low : (a ++ b).extractLsb' 0 8 = b := BitVec.extractLsb'_append_eq_right
  rw [bytes16, high, low]

theorem takeWord_iff {chosen : Bool} {bytes rest : List Byte} {value : Option (BitVec 16)} :
    takeWord chosen bytes = some (value, rest) ↔ value.isSome = chosen ∧ (value.map bytes16).getD [] ++ rest = bytes := by
  cases chosen with
  | false => cases value <;> simp [takeWord, eq_comm]
  | true =>
    cases value with
    | none =>
      simp only [takeWord, if_true]
      split <;> simp
    | some v =>
      simp only [takeWord, if_true, Option.isSome_some, true_and, Option.map_some, Option.getD_some]
      constructor
      · intro h
        split at h
        · cases h
          rw [bytes16_append]
          rfl
        · cases h
        · cases h
      · rintro rfl
        show some (some (v.extractLsb' 8 8 ++ v.extractLsb' 0 8), rest) = _
        rw [bytes16_joined]

/-- The bytes of a NAMECHECK or OUTNAME item. -/
def namedBytes (value : Option (Byte × List Byte)) : List Byte := (value.map fun y => y.1 :: y.2).getD []

/-- A name item declares 16 characters by a byte of 1, and none by any other. -/
def namedShaped (value : Option (Byte × List Byte)) : Prop := ∀ b chars, value = some (b, chars) → chars.length = if b = 1 then 16 else 0

theorem takeNamed_iff {chosen : Bool} {bytes rest : List Byte} {value : Option (Byte × List Byte)} :
    takeNamed chosen bytes = some (value, rest) ↔ value.isSome = chosen ∧ namedShaped value ∧ namedBytes value ++ rest = bytes := by
  cases chosen with
  | false => cases value <;> simp [takeNamed, namedShaped, namedBytes, eq_comm]
  | true =>
    cases bytes with
    | nil => cases value <;> simp [takeNamed, namedBytes]
    | cons b bs =>
      cases value with
      | none => simp only [takeNamed, if_true]; split <;> (try split) <;> simp
      | some v =>
        obtain ⟨c, chars⟩ := v
        simp only [takeNamed, if_true, Option.isSome_some, true_and, namedShaped, namedBytes, Option.map_some, Option.getD_some,
          Option.some.injEq, Prod.mk.injEq, List.cons_append, List.cons.injEq]
        constructor
        · intro h
          split at h
          · rename_i one
            split at h
            · rename_i long
              cases h
              refine ⟨?_, rfl, List.take_append_drop 16 bs⟩
              rintro _ _ ⟨rfl, rfl⟩
              rw [if_pos one, List.length_take]
              omega
            · cases h
          · rename_i other
            cases h
            refine ⟨?_, rfl, rfl⟩
            rintro _ _ ⟨rfl, rfl⟩
            rw [if_neg other]
            rfl
        · rintro ⟨shaped, rfl, rfl⟩
          have length := shaped c chars ⟨rfl, rfl⟩
          split
          · rename_i one
            rw [if_pos one] at length
            rw [if_pos (by rw [List.length_append]; omega), List.take_left' length, List.drop_left' length]
          · rename_i other
            rw [if_neg other] at length
            cases List.length_eq_zero_iff.1 length
            rfl

/-! ## The whole set -/

theorem AmendBytes.shaped_iff (v : AmendBytes) : v.shaped ↔ namedShaped v.nameCheck ∧ namedShaped v.outName :=
  ⟨fun h => ⟨fun b chars e => h b chars (.inl e), fun b chars e => h b chars (.inr e)⟩,
    fun ⟨h, h'⟩ b chars e => e.elim (h b chars) (h' b chars)⟩

/-- The items an AMEND chooses, bit by bit (R200). -/
structure AmendBytes.Chosen (v : AmendBytes) (items : BitVec 16) : Prop where
  egress : v.egress.isSome = items.getLsbD 0
  working : v.working.isSome = items.getLsbD 1
  protect : v.protect.isSome = items.getLsbD 2
  revertive : v.revertive.isSome = items.getLsbD 3
  degrade : v.degrade.isSome = items.getLsbD 4
  nameCheck : v.nameCheck.isSome = items.getLsbD 5
  codeCheck : v.codeCheck.isSome = items.getLsbD 6
  outName : v.outName.isSome = items.getLsbD 7
  outCode : v.outCode.isSome = items.getLsbD 8
  holdOff : v.holdOff.isSome = items.getLsbD 9
  ret : v.ret.isSome = items.getLsbD 10
  mask : v.mask.isSome = items.getLsbD 11

/-- Whether each item is chosen, in item order. -/
def AmendBytes.flags (v : AmendBytes) : List Bool :=
  [v.egress.isSome, v.working.isSome, v.protect.isSome, v.revertive.isSome, v.degrade.isSome, v.nameCheck.isSome, v.codeCheck.isSome,
    v.outName.isSome, v.outCode.isSome, v.holdOff.isSome, v.ret.isSome, v.mask.isSome]

theorem AmendBytes.items_getLsbD (v : AmendBytes) (i : Nat) : v.items.getLsbD i = v.flags.getD i false := by
  by_cases inside : i < 16
  · unfold AmendBytes.items
    erw [BitVec.getLsbD_append]
    simp only [BitVec.getLsbD_append, AmendBytes.flags]
    interval_cases i <;> simp
  · rw [BitVec.getLsbD_of_ge _ _ (by omega), List.getD_eq_default _ _ (by simp [AmendBytes.flags]; omega)]

theorem AmendBytes.items_chosen (v : AmendBytes) : v.Chosen v.items := by
  exact
    { egress := (v.items_getLsbD 0).symm
      working := (v.items_getLsbD 1).symm
      protect := (v.items_getLsbD 2).symm
      revertive := (v.items_getLsbD 3).symm
      degrade := (v.items_getLsbD 4).symm
      nameCheck := (v.items_getLsbD 5).symm
      codeCheck := (v.items_getLsbD 6).symm
      outName := (v.items_getLsbD 7).symm
      outCode := (v.items_getLsbD 8).symm
      holdOff := (v.items_getLsbD 9).symm
      ret := (v.items_getLsbD 10).symm
      mask := (v.items_getLsbD 11).symm }

theorem AmendBytes.items_high (v : AmendBytes) {i : Nat} (high : 12 ≤ i) : v.items.getLsbD i = false := by
  rw [v.items_getLsbD, List.getD_eq_default _ _ high]

theorem AmendBytes.chosen_iff (v : AmendBytes) (items : BitVec 16) : v.Chosen items ↔ v.items = items &&& 0x0FFF := by
  have low {i : Nat} (h : i < 12) : (0x0FFF : BitVec 16).getLsbD i = true := by interval_cases i <;> rfl
  constructor
  · intro chosen
    refine BitVec.eq_of_getLsbD_eq fun i hi => ?_
    rw [BitVec.getLsbD_and]
    by_cases high : 12 ≤ i
    · rw [v.items_high high]
      have : (0x0FFF : BitVec 16).getLsbD i = false := by interval_cases i <;> rfl
      rw [this, Bool.and_false]
    · rw [low (by omega), Bool.and_true]
      have own := v.items_chosen
      have : i < 12 := by omega
      interval_cases i
      · exact own.egress.symm.trans chosen.egress
      · exact own.working.symm.trans chosen.working
      · exact own.protect.symm.trans chosen.protect
      · exact own.revertive.symm.trans chosen.revertive
      · exact own.degrade.symm.trans chosen.degrade
      · exact own.nameCheck.symm.trans chosen.nameCheck
      · exact own.codeCheck.symm.trans chosen.codeCheck
      · exact own.outName.symm.trans chosen.outName
      · exact own.outCode.symm.trans chosen.outCode
      · exact own.holdOff.symm.trans chosen.holdOff
      · exact own.ret.symm.trans chosen.ret
      · exact own.mask.symm.trans chosen.mask
  · intro same
    have bit {i : Nat} (h : i < 12) : v.items.getLsbD i = items.getLsbD i := by
      rw [same, BitVec.getLsbD_and, low h, Bool.and_true]
    have own := v.items_chosen
    exact
      { egress := own.egress.trans (bit (by decide))
        working := own.working.trans (bit (by decide))
        protect := own.protect.trans (bit (by decide))
        revertive := own.revertive.trans (bit (by decide))
        degrade := own.degrade.trans (bit (by decide))
        nameCheck := own.nameCheck.trans (bit (by decide))
        codeCheck := own.codeCheck.trans (bit (by decide))
        outName := own.outName.trans (bit (by decide))
        outCode := own.outCode.trans (bit (by decide))
        holdOff := own.holdOff.trans (bit (by decide))
        ret := own.ret.trans (bit (by decide))
        mask := own.mask.trans (bit (by decide)) }

/-- The bytes are those of the chosen values, and nothing else (R68 check 1). -/
theorem splitAmend_iff {items : BitVec 16} {bytes : List Byte} {v : AmendBytes} :
    splitAmend items bytes = some v ↔ v.shaped ∧ v.items = items &&& 0x0FFF ∧ v.bytes = bytes := by
  rw [← v.chosen_iff, v.shaped_iff]
  constructor
  · intro h
    unfold splitAmend at h
    obtain ⟨⟨egress, _⟩, h0, h⟩ := Option.bind_eq_some_iff.1 h
    obtain ⟨⟨working, _⟩, h1, h⟩ := Option.bind_eq_some_iff.1 h
    obtain ⟨⟨protect, _⟩, h2, h⟩ := Option.bind_eq_some_iff.1 h
    obtain ⟨⟨revertive, _⟩, h3, h⟩ := Option.bind_eq_some_iff.1 h
    obtain ⟨⟨degrade, _⟩, h4, h⟩ := Option.bind_eq_some_iff.1 h
    obtain ⟨⟨nameCheck, _⟩, h5, h⟩ := Option.bind_eq_some_iff.1 h
    obtain ⟨⟨codeCheck, _⟩, h6, h⟩ := Option.bind_eq_some_iff.1 h
    obtain ⟨⟨outName, _⟩, h7, h⟩ := Option.bind_eq_some_iff.1 h
    obtain ⟨⟨outCode, _⟩, h8, h⟩ := Option.bind_eq_some_iff.1 h
    obtain ⟨⟨holdOff, _⟩, h9, h⟩ := Option.bind_eq_some_iff.1 h
    obtain ⟨⟨ret, _⟩, h10, h⟩ := Option.bind_eq_some_iff.1 h
    obtain ⟨⟨mask, rest⟩, h11, h⟩ := Option.bind_eq_some_iff.1 h
    cases rest with
    | cons b rest => cases h
    | nil =>
      cases h
      obtain ⟨c0, rfl⟩ := takeByte_iff.1 h0
      obtain ⟨c1, rfl⟩ := takeByte_iff.1 h1
      obtain ⟨c2, rfl⟩ := takeByte_iff.1 h2
      obtain ⟨c3, rfl⟩ := takeByte_iff.1 h3
      obtain ⟨c4, rfl⟩ := takeByte_iff.1 h4
      obtain ⟨c5, s5, rfl⟩ := takeNamed_iff.1 h5
      obtain ⟨c6, rfl⟩ := takeByte_iff.1 h6
      obtain ⟨c7, s7, rfl⟩ := takeNamed_iff.1 h7
      obtain ⟨c8, rfl⟩ := takeByte_iff.1 h8
      obtain ⟨c9, rfl⟩ := takeByte_iff.1 h9
      obtain ⟨c10, rfl⟩ := takeWord_iff.1 h10
      obtain ⟨c11, rfl⟩ := takeByte_iff.1 h11
      exact ⟨⟨s5, s7⟩, ⟨c0, c1, c2, c3, c4, c5, c6, c7, c8, c9, c10, c11⟩, by simp [AmendBytes.bytes, namedBytes]⟩
  · rintro ⟨⟨s5, s7⟩, c, rfl⟩
    have listed : v.bytes = v.egress.toList ++ (v.working.toList ++ (v.protect.toList ++ (v.revertive.toList ++ (v.degrade.toList ++
        (namedBytes v.nameCheck ++ (v.codeCheck.toList ++ (namedBytes v.outName ++ (v.outCode.toList ++ (v.holdOff.toList ++
          ((v.ret.map bytes16).getD [] ++ (v.mask.toList ++ []))))))))))) := by simp [AmendBytes.bytes, namedBytes]
    rw [listed]
    unfold splitAmend
    refine Option.bind_eq_some_iff.2 ⟨_, takeByte_iff.2 ⟨c.egress, rfl⟩, ?_⟩
    refine Option.bind_eq_some_iff.2 ⟨_, takeByte_iff.2 ⟨c.working, rfl⟩, ?_⟩
    refine Option.bind_eq_some_iff.2 ⟨_, takeByte_iff.2 ⟨c.protect, rfl⟩, ?_⟩
    refine Option.bind_eq_some_iff.2 ⟨_, takeByte_iff.2 ⟨c.revertive, rfl⟩, ?_⟩
    refine Option.bind_eq_some_iff.2 ⟨_, takeByte_iff.2 ⟨c.degrade, rfl⟩, ?_⟩
    refine Option.bind_eq_some_iff.2 ⟨_, takeNamed_iff.2 ⟨c.nameCheck, s5, rfl⟩, ?_⟩
    refine Option.bind_eq_some_iff.2 ⟨_, takeByte_iff.2 ⟨c.codeCheck, rfl⟩, ?_⟩
    refine Option.bind_eq_some_iff.2 ⟨_, takeNamed_iff.2 ⟨c.outName, s7, rfl⟩, ?_⟩
    refine Option.bind_eq_some_iff.2 ⟨_, takeByte_iff.2 ⟨c.outCode, rfl⟩, ?_⟩
    refine Option.bind_eq_some_iff.2 ⟨_, takeByte_iff.2 ⟨c.holdOff, rfl⟩, ?_⟩
    refine Option.bind_eq_some_iff.2 ⟨_, takeWord_iff.2 ⟨c.ret, rfl⟩, ?_⟩
    exact Option.bind_eq_some_iff.2 ⟨_, takeByte_iff.2 ⟨c.mask, rfl⟩, rfl⟩

end Sys2Proof.Machine
end

section
/-! SUPPORT. R183, R189, R194: what the owning block of a command can answer. -/
namespace Sys2Proof.Machine

/-- What a block makes of a command whose parameter length fits or not: a state and results, a refusal that changes nothing,
a full table that changes nothing, or BAD_LENGTH. -/
inductive Performs (fits : Prop) (s : State) : State × Reply → Prop where
  | done (t : State) (results : List Byte) (length : fits) : Performs fits s (t, ⟨.ok, results⟩)
  | refused (status : Status) (length : fits) (notOk : status ≠ .ok) (other : status ≠ .badLength) :
      Performs fits s (s.refuseWith status)
  | full (results : List Byte) (length : fits) : Performs fits s (s, ⟨.tableFull, results⟩)
  | wrongLength (length : ¬ fits) : Performs fits s (s.refuseWith .badLength)

theorem Performs.congr {p q : Prop} {s : State} {x : State × Reply} (h : Performs p s x) (same : p ↔ q) : Performs q s x :=
  propext same ▸ h

theorem Performs.outcome {fits : Prop} {s : State} {x : State × Reply} (h : Performs fits s x) :
    (x.2.status ≠ .ok → x.1 = s) ∧ (x.2.status ≠ .ok → x.2.status ≠ .tableFull → x.2.results = []) ∧
      (x.2.status = .badLength ↔ ¬ fits) := by
  cases h with
  | done t results length => exact ⟨fun h => absurd rfl h, fun h => absurd rfl h, fun h => (nomatch h), fun h => absurd length h⟩
  | refused status length notOk other => exact ⟨fun _ => rfl, fun _ _ => rfl, fun h => absurd h other, fun h => absurd length h⟩
  | full results length => exact ⟨fun _ => rfl, fun _ h => absurd rfl h, fun h => (nomatch h), fun h => absurd length h⟩
  | wrongLength length => exact ⟨fun _ => rfl, fun _ _ => rfl, fun _ => length, fun _ => rfl⟩

/-! ## Refusals of a ref -/

theorem State.checkRef_error {s : State} {index generation : Byte} {e : Status} (h : s.checkRef index generation = .error e) :
    e = .badParam ∨ e = .staleRef := by
  unfold State.checkRef at h
  split at h
  · cases h
    exact .inl rfl
  · split at h <;> cases h
    exact .inr rfl

theorem State.checkState_error {s : State} {r : RecIx} {taken : LiveState → Bool} {e : Status}
    (h : s.checkState r taken = .error e) : e = .wrongState := by
  unfold State.checkState at h
  split at h
  · cases h
    rfl
  · split at h <;> cases h
    rfl

theorem State.checkRecord_error {s : State} {index generation : Byte} {taken : LiveState → Bool} {e : Status}
    (h : s.checkRecord index generation taken = .error e) : e = .badParam ∨ e = .staleRef ∨ e = .wrongState := by
  unfold State.checkRecord at h
  split at h
  next e' wrong =>
    cases h
    exact (State.checkRef_error wrong).imp_right .inl
  next r _ =>
    split at h
    next e' wrong =>
      cases h
      exact .inr (.inr (State.checkState_error wrong))
    next => cases h

theorem Performs.ofRef {fits : Prop} {s u : State} {index generation : Byte} {e : Status} (length : fits)
    (h : u.checkRef index generation = .error e) : Performs fits s (s.refuseWith e) := by
  rcases State.checkRef_error h with rfl | rfl <;> exact .refused _ length nofun nofun

theorem Performs.ofState {fits : Prop} {s u : State} {r : RecIx} {taken : LiveState → Bool} {e : Status} (length : fits)
    (h : u.checkState r taken = .error e) : Performs fits s (s.refuseWith e) := by
  cases State.checkState_error h
  exact .refused _ length nofun nofun

theorem Performs.ofRecord {fits : Prop} {s u : State} {index generation : Byte} {taken : LiveState → Bool} {e : Status} (length : fits)
    (h : u.checkRecord index generation taken = .error e) : Performs fits s (s.refuseWith e) := by
  rcases State.checkRecord_error h with rfl | rfl | rfl <;> exact .refused _ length nofun nofun

/-! ## Parameter lengths -/

theorem createFits_iff (params : List Byte) :
    Command.create.lengthFits params ↔ ¬ (params.length < 4 ∨ params.length ≠ createLength (byteAt params 3)) := by
  constructor
  · rintro ⟨flags, found, length⟩
    have inside : 3 < params.length := (List.getElem?_eq_some_iff.1 found).1
    have : byteAt params 3 = flags := by rw [byteAt, List.getD_eq_getElem?_getD, found, Option.getD_some]
    rw [this]
    exact fun h => h.elim (by omega) fun h => h length
  · intro h
    have inside : 3 < params.length := by omega
    refine ⟨params[3], List.getElem?_eq_getElem inside, ?_⟩
    have : byteAt params 3 = params[3] := List.getD_eq_getElem _ _ inside
    rw [← this]
    by_contra other
    exact h (.inr other)

theorem amendFits_iff (params : List Byte) :
    Command.amend.lengthFits params ↔ ∃ v, 4 ≤ params.length ∧ splitAmend (wordAt params 2) (params.drop 4) = some v := by
  constructor
  · rintro ⟨index, generation, items, v, shaped, same, rfl⟩
    have word : wordAt ([index, generation] ++ bytes16 items ++ v.bytes) 2 = items := bytes16_joined items
    refine ⟨v, by simp [bytes16], ?_⟩
    rw [word]
    exact splitAmend_iff.2 ⟨shaped, same, rfl⟩
  · rintro ⟨v, long, h⟩
    obtain ⟨shaped, same, bytes⟩ := splitAmend_iff.1 h
    match params, long with
    | index :: generation :: a :: b :: rest, _ =>
      refine ⟨index, generation, a ++ b, v, shaped, same, ?_⟩
      rw [bytes16_append, bytes]
      rfl

/-! ## The commands -/

theorem performIdent_performs (params : List Byte) (s : State) : Performs (params.length = 0) s (performIdent params s) := by
  unfold performIdent
  split
  next wrong => exact .wrongLength fun h => wrong (List.length_eq_zero_iff.1 h)
  next fits => exact .done _ _ (List.length_eq_zero_iff.2 (not_not.1 fits))

theorem performSoftReset_performs (params : List Byte) (s : State) : Performs (params.length = 0) s (performSoftReset params s) := by
  unfold performSoftReset
  split
  next wrong => exact .wrongLength fun h => wrong (List.length_eq_zero_iff.1 h)
  next fits => exact .done _ _ (List.length_eq_zero_iff.2 (not_not.1 fits))

theorem performLinkRead_performs (params : List Byte) (s : State) : Performs (params.length = 0) s (performLinkRead params s) := by
  unfold performLinkRead
  split
  next wrong => exact .wrongLength fun h => wrong (List.length_eq_zero_iff.1 h)
  next fits => exact .done _ _ (List.length_eq_zero_iff.2 (not_not.1 fits))

theorem performNoticeFetch_performs (params : List Byte) (s : State) : Performs (params.length = 0) s (performNoticeFetch params s) := by
  unfold performNoticeFetch
  split
  next wrong => exact .wrongLength fun h => wrong (List.length_eq_zero_iff.1 h)
  next fits =>
    have length := List.length_eq_zero_iff.2 (not_not.1 fits)
    split
    · exact .refused _ length nofun nofun
    · exact .done _ _ length

theorem performBusSet_performs (params : List Byte) (s : State) : Performs (params.length = 5) s (performBusSet params s) := by
  unfold performBusSet
  split
  next wrong => exact .wrongLength wrong
  next fits =>
    have length := not_not.1 fits
    split
    · exact .done _ _ length
    · split
      · exact .refused _ length nofun nofun
      · split
        · exact .refused _ length nofun nofun
        · exact .done _ _ length
    · exact .refused _ length nofun nofun

theorem performBusRead_performs (params : List Byte) (s : State) : Performs (params.length = 1) s (performBusRead params s) := by
  unfold performBusRead
  split
  next wrong => exact .wrongLength wrong
  next fits =>
    have length := not_not.1 fits
    split
    · exact .refused _ length nofun nofun
    · exact .done _ _ length
    · exact .done _ _ length

theorem performSourceRead_performs (params : List Byte) (s : State) : Performs (params.length = 1) s (performSourceRead params s) := by
  unfold performSourceRead
  split
  next wrong => exact .wrongLength wrong
  next fits =>
    have length := not_not.1 fits
    split
    · exact .refused _ length nofun nofun
    · exact .done _ _ length

theorem performMapRead_performs (params : List Byte) (s : State) : Performs (params.length = 2) s (performMapRead params s) := by
  unfold performMapRead
  split
  next wrong => exact .wrongLength wrong
  next fits =>
    have length := not_not.1 fits
    dsimp only
    split
    · exact .refused _ length nofun nofun
    · exact .done _ _ length

theorem performAlertSet_performs (params : List Byte) (s : State) : Performs (params.length = 1) s (performAlertSet params s) := by
  unfold performAlertSet
  split
  next wrong => exact .wrongLength wrong
  next fits =>
    have length := not_not.1 fits
    split
    · exact .refused _ length nofun nofun
    · exact .done _ _ length

theorem performCountersClear_performs (params : List Byte) (s : State) :
    Performs (params.length = 1) s (performCountersClear params s) := by
  unfold performCountersClear
  split
  next wrong => exact .wrongLength wrong
  next fits =>
    have length := not_not.1 fits
    split
    · exact .refused _ length nofun nofun
    · exact .done _ _ length

theorem performCreate_performs (params : List Byte) (s : State) :
    Performs (Command.create.lengthFits params) s (performCreate params s) := by
  refine Performs.congr ?_ (createFits_iff params).symm
  unfold performCreate
  split
  next wrong => exact .wrongLength (not_not.2 wrong)
  next fits =>
    split
    · exact .refused _ fits nofun nofun
    · split
      · exact .full _ fits
      · exact .done _ _ fits

theorem performAmend_performs (params : List Byte) (s : State) : Performs (Command.amend.lengthFits params) s (performAmend params s) := by
  refine Performs.congr ?_ (amendFits_iff params).symm
  unfold performAmend
  split
  next short =>
    exact .wrongLength fun ⟨_, long, _⟩ => absurd short (by omega)
  next long =>
    dsimp only
    split
    next missing => exact .wrongLength fun ⟨v, _, found⟩ => nomatch missing.symm.trans found
    next v found =>
      have length : ∃ v, 4 ≤ params.length ∧ splitAmend (wordAt params 2) (params.drop 4) = some v := ⟨v, by omega, found⟩
      split
      · exact .refused _ length nofun nofun
      · split
        next e wrong => exact .ofRecord length wrong
        · split
          · exact .refused _ length nofun nofun
          · split
            · exact .refused _ length nofun nofun
            · exact .done _ _ length

theorem performActivate_performs (params : List Byte) (s : State) : Performs (params.length = 2) s (performActivate params s) := by
  unfold performActivate
  split
  next wrong => exact .wrongLength wrong
  next fits =>
    have length := not_not.1 fits
    split
    next e wrong => exact .ofRecord length wrong
    · split
      · exact .refused _ length nofun nofun
      · split
        · exact .refused _ length nofun nofun
        · exact .done _ _ length

theorem performReplace_performs (params : List Byte) (s : State) : Performs (params.length = 4) s (performReplace params s) := by
  unfold performReplace
  split
  next wrong => exact .wrongLength wrong
  next fits =>
    have length := not_not.1 fits
    split
    next e wrong => exact .ofRef length wrong
    · split
      next e wrong => exact .ofRef length wrong
      · split
        next e wrong => exact .ofState length wrong
        · split
          next e wrong => exact .ofState length wrong
          · split
            · exact .refused _ length nofun nofun
            · split
              · exact .refused _ length nofun nofun
              · exact .done _ _ length

theorem performRetire_performs (params : List Byte) (s : State) : Performs (params.length = 2) s (performRetire params s) := by
  unfold performRetire
  split
  next wrong => exact .wrongLength wrong
  next fits =>
    have length := not_not.1 fits
    split
    next e wrong => exact .ofRecord length wrong
    · exact .done _ _ length

theorem performRequest_performs (params : List Byte) (s : State) : Performs (params.length = 3) s (performRequest params s) := by
  unfold performRequest
  split
  next wrong => exact .wrongLength wrong
  next fits =>
    have length := not_not.1 fits
    split
    · split
      next e wrong => exact .ofRecord length wrong
      · split
        · exact .refused _ length nofun nofun
        · exact .done _ _ length
    · exact .refused _ length nofun nofun

theorem performRecordRead_performs (params : List Byte) (s : State) : Performs (params.length = 2) s (performRecordRead params s) := by
  unfold performRecordRead
  split
  next wrong => exact .wrongLength wrong
  next fits =>
    have length := not_not.1 fits
    split
    next e wrong => exact .ofRecord length wrong
    · exact .done _ _ length

theorem perform_performs (c : Command) (params : List Byte) (s : State) : Performs (c.lengthFits params) s (perform c params s) := by
  cases c with
  | ident => exact performIdent_performs params s
  | softReset => exact performSoftReset_performs params s
  | busSet => exact performBusSet_performs params s
  | busRead => exact performBusRead_performs params s
  | create => exact performCreate_performs params s
  | amend => exact performAmend_performs params s
  | activate => exact performActivate_performs params s
  | replace => exact performReplace_performs params s
  | retire => exact performRetire_performs params s
  | request => exact performRequest_performs params s
  | recordRead => exact performRecordRead_performs params s
  | mapRead => exact performMapRead_performs params s
  | sourceRead => exact performSourceRead_performs params s
  | noticeFetch => exact performNoticeFetch_performs params s
  | alertSet => exact performAlertSet_performs params s
  | linkRead => exact performLinkRead_performs params s
  | countersClear => exact performCountersClear_performs params s

theorem codeLaw : CodeLaw where
  commands := rfl
  read := readCommand_code
  statuses := rfl

/-- Settles O13: the transfer hands the command to its block, and the block answers one of four ways. -/
theorem commandIsPerformedWhole : Obligations.CommandIsPerformedWhole := by
  refine ⟨codeLaw, fun s i c params early row fits ready => ?_⟩
  dsimp only
  have outcome := (perform_performs c params { s with link := s.link.performing c params early }).outcome
  exact ⟨_, _, rfl, exec_performed ready row fits rfl, outcome⟩

end Sys2Proof.Machine
end

section
/-! SUPPORT. R24, R25, R29, R33, R34: what one slot-frame, and a run of them, makes of a monitor's fill state, block, code and
remote fault. -/
namespace Sys2Proof.Machine

/-! ## Parts 1 and 2 of a slot-frame -/

theorem Monitor.takeFill_same {m : Monitor} {fill : Bool} (same : fill = m.filled) : m.takeFill fill = { m with fillRun := 0 } :=
  if_pos same

theorem Monitor.takeFill_counts {m : Monitor} {fill : Bool} (other : fill ≠ m.filled) (early : m.fillRun ≠ 2) :
    m.takeFill fill = { m with fillRun := m.fillRun + 1 } := by
  rw [Monitor.takeFill, if_neg other, if_neg (by omega)]

theorem Monitor.takeFill_third {m : Monitor} {fill : Bool} (other : fill ≠ m.filled) (third : m.fillRun = 2) :
    m.takeFill fill =
      { m with filled := fill, fillRun := 0, fillDeclarations := if fill then satInc m.fillDeclarations else m.fillDeclarations } := by
  rw [Monitor.takeFill, if_neg other, if_pos (by omega)]

/-- The errored slot-frames of a block, one more counted. -/
def Monitor.blockCount (m : Monitor) (errored : Bool) : Nat := if errored then m.blockErrored + 1 else m.blockErrored

theorem Monitor.takeBlock_inside {m : Monitor} (inside : m.blockPos < 255) (threshold : Byte) (errored : Bool) :
    m.takeBlock threshold errored =
      { m with
        erroredFrames := if errored then satInc m.erroredFrames else m.erroredFrames
        blockPos := m.blockPos + 1
        blockErrored := m.blockCount errored } :=
  if_pos inside

theorem Monitor.takeBlock_last {m : Monitor} (last : ¬ m.blockPos < 255) (threshold : Byte) (errored : Bool) :
    m.takeBlock threshold errored =
      { m with
        erroredFrames := if errored then satInc m.erroredFrames else m.erroredFrames
        blockPos := 0
        blockErrored := 0
        degraded := decide (threshold.toNat ≤ m.blockCount errored) } :=
  if_neg last

theorem Monitor.takeBlock_erroredFrames (m : Monitor) (threshold : Byte) (errored : Bool) :
    (m.takeBlock threshold errored).erroredFrames = if errored then satInc m.erroredFrames else m.erroredFrames := by
  by_cases inside : m.blockPos < 255
  · rw [Monitor.takeBlock_inside inside]
  · rw [Monitor.takeBlock_last inside]

/-- What the block part writes, read off the monitor before the fill part. -/
structure Monitor.BlockTaken (m : Monitor) (threshold : Byte) (errored : Bool) (m' : Monitor) : Prop where
  degraded : m'.degraded = (m.takeBlock threshold errored).degraded
  blockPos : m'.blockPos = (m.takeBlock threshold errored).blockPos
  blockErrored : m'.blockErrored = (m.takeBlock threshold errored).blockErrored
  erroredFrames : m'.erroredFrames = (m.takeBlock threshold errored).erroredFrames

theorem Monitor.takeFill_takeBlock (m : Monitor) (fill : Bool) (threshold : Byte) (errored : Bool) :
    m.BlockTaken threshold errored ((m.takeFill fill).takeBlock threshold errored) := by
  rw [Monitor.takeFill_leaves]
  by_cases inside : m.blockPos < 255
  · rw [Monitor.takeBlock, if_pos inside]
    have own := Monitor.takeBlock_inside inside threshold errored
    exact ⟨(congrArg Monitor.degraded own).symm, (congrArg Monitor.blockPos own).symm, (congrArg Monitor.blockErrored own).symm,
      (congrArg Monitor.erroredFrames own).symm⟩
  · rw [Monitor.takeBlock, if_neg inside]
    have own := Monitor.takeBlock_last inside threshold errored
    exact ⟨(congrArg Monitor.degraded own).symm, (congrArg Monitor.blockPos own).symm, (congrArg Monitor.blockErrored own).symm,
      (congrArg Monitor.erroredFrames own).symm⟩

theorem Monitor.take_block {m : Monitor} (referenced : m.refs ≠ 0) (threshold : Byte) (frame : SlotFrame) :
    m.BlockTaken threshold frame.errored (m.take threshold frame) := by
  have same := Monitor.take_sameOutside referenced threshold frame
  have block := m.takeFill_takeBlock frame.fill threshold frame.errored
  exact ⟨same.degraded.trans block.degraded, same.blockPos.trans block.blockPos, same.blockErrored.trans block.blockErrored,
    same.erroredFrames.trans block.erroredFrames⟩

/-- What the fill part writes. -/
structure Monitor.FillTaken (m : Monitor) (fill : Bool) (m' : Monitor) : Prop where
  filled : m'.filled = (m.takeFill fill).filled
  fillRun : m'.fillRun = (m.takeFill fill).fillRun
  fillDeclarations : m'.fillDeclarations = (m.takeFill fill).fillDeclarations

theorem Monitor.take_fill {m : Monitor} (referenced : m.refs ≠ 0) (threshold : Byte) (frame : SlotFrame) :
    m.FillTaken frame.fill (m.take threshold frame) := by
  have same := Monitor.take_sameOutside referenced threshold frame
  rw [Monitor.takeBlock_leaves] at same
  exact ⟨same.filled, same.fillRun, same.fillDeclarations⟩

/-! ## Part 3: what the header feeds -/

/-- What a monitor keeps of the headers, but for code and remote fault. -/
structure Framing where
  framed      : Bool
  mkCandidate : Option Nat
  mfPos       : Nat
  stray       : Bool
  fails       : Nat
  name        : Option Name
  gathered    : List PathChar
  confirming  : Option Name
  matchCount  : Nat

def Monitor.framing (m : Monitor) : Framing :=
  ⟨m.framed, m.mkCandidate, m.mfPos, m.stray, m.fails, m.name, m.gathered, m.confirming, m.matchCount⟩

/-- Content code and remote fault as the headers left them. -/
structure HeaderSeen where
  code          : Option (BitVec 4)
  codeCandidate : Option (BitVec 4)
  codeRun       : Nat
  rf            : Bool
  rfRun         : Nat

def Monitor.seen (m : Monitor) : HeaderSeen := ⟨m.code, m.codeCandidate, m.codeRun, m.rf, m.rfRun⟩

/-- One evaluated slot-frame on the framing (R26, R27). -/
def Monitor.frame (m : Monitor) (header : Word) : Monitor :=
  if m.framed then m.followFrame (hdrMK header) (hdrChar header) else m.searchFrame (hdrMK header) (hdrChar header)

theorem Monitor.searchFrame_congr {m m' : Monitor} (h : m'.framing = m.framing) (mk : Bool) (char : PathChar) :
    (m'.searchFrame mk char).framing = (m.searchFrame mk char).framing := by
  cases m
  cases m'
  cases h
  unfold Monitor.searchFrame
  dsimp only
  split
  · split <;> rfl
  · split
    · rfl
    · split <;> rfl

theorem Monitor.judgeName_congr {m m' : Monitor} (h : m'.framing = m.framing) (pass : Bool) :
    (m'.judgeName pass).framing = (m.judgeName pass).framing := by
  cases m
  cases m'
  cases h
  unfold Monitor.judgeName
  dsimp only
  split <;> rfl

theorem Monitor.checkMultiframe_congr {m m' : Monitor} (h : m'.framing = m.framing) (mk : Bool) (char : PathChar) :
    (m'.checkMultiframe mk char).framing = (m.checkMultiframe mk char).framing := by
  have stray : m'.stray = m.stray := congrArg Framing.stray h
  have judged := Monitor.judgeName_congr h (mk && !m.stray)
  unfold Monitor.checkMultiframe
  rw [stray]
  dsimp only
  generalize m'.judgeName (mk && !m.stray) = x', m.judgeName (mk && !m.stray) = x at judged
  cases x
  cases x'
  cases judged
  split
  · rfl
  · split <;> rfl

theorem Monitor.followFrame_congr {m m' : Monitor} (h : m'.framing = m.framing) (mk : Bool) (char : PathChar) :
    (m'.followFrame mk char).framing = (m.followFrame mk char).framing := by
  have check := Monitor.checkMultiframe_congr h mk char
  have position : m'.mfPos = m.mfPos := congrArg Framing.mfPos h
  unfold Monitor.followFrame
  rw [position]
  split
  · exact check
  · cases m
    cases m'
    cases h
    rfl

theorem Monitor.frame_congr {m m' : Monitor} (h : m'.framing = m.framing) (header : Word) :
    (m'.frame header).framing = (m.frame header).framing := by
  have framed : m'.framed = m.framed := congrArg Framing.framed h
  unfold Monitor.frame
  rw [framed]
  split
  · exact Monitor.followFrame_congr h _ _
  · exact Monitor.searchFrame_congr h _ _

theorem Monitor.takeRf_framing (m : Monitor) (rf : Bool) : (m.takeRf rf).framing = m.framing := by
  unfold Monitor.takeRf
  split
  · rfl
  · split <;> rfl

/-- The code and the remote fault of a header leave the framing alone. -/
theorem Monitor.takeHeader_framing (m : Monitor) (header : Word) : (m.takeHeader header).framing = (m.frame header).framing :=
  (Monitor.takeRf_framing _ _).trans rfl

theorem Monitor.searchFrame_seen (m : Monitor) (mk : Bool) (char : PathChar) : (m.searchFrame mk char).seen = m.seen := by
  unfold Monitor.searchFrame
  split
  · split <;> rfl
  · split
    · rfl
    · split <;> rfl

theorem Monitor.judgeName_seen (m : Monitor) (pass : Bool) : (m.judgeName pass).seen = m.seen := by
  unfold Monitor.judgeName
  split <;> rfl

theorem Monitor.checkMultiframe_seen (m : Monitor) (mk : Bool) (char : PathChar) : (m.checkMultiframe mk char).seen = m.seen := by
  refine Eq.trans ?_ (m.judgeName_seen (mk && !m.stray))
  unfold Monitor.checkMultiframe
  dsimp only
  split
  · rfl
  · split <;> rfl

theorem Monitor.followFrame_seen (m : Monitor) (mk : Bool) (char : PathChar) : (m.followFrame mk char).seen = m.seen := by
  unfold Monitor.followFrame
  split
  · exact m.checkMultiframe_seen mk char
  · rfl

theorem Monitor.frame_seen (m : Monitor) (header : Word) : (m.frame header).seen = m.seen := by
  unfold Monitor.frame
  split
  · exact m.followFrame_seen _ _
  · exact m.searchFrame_seen _ _

theorem Monitor.takeRf_seen_congr {m m' : Monitor} (h : m'.seen = m.seen) (rf : Bool) : (m'.takeRf rf).seen = (m.takeRf rf).seen := by
  cases m
  cases m'
  cases h
  unfold Monitor.takeRf
  dsimp only
  split
  · rfl
  · split <;> rfl

theorem Monitor.takeCode_seen_congr {m m' : Monitor} (h : m'.seen = m.seen) (code : BitVec 4) :
    (m'.takeCode code).seen = (m.takeCode code).seen := by
  cases m
  cases m'
  cases h
  rfl

theorem Monitor.takeHeader_seen (m : Monitor) (header : Word) :
    (m.takeHeader header).seen = ((m.takeCode (hdrCode header)).takeRf (hdrRF header)).seen :=
  Monitor.takeRf_seen_congr (Monitor.takeCode_seen_congr (m.frame_seen header) _) _

/-! ## A slot-frame whose header is evaluated, or not -/

theorem Monitor.take_evaluated {m : Monitor} (referenced : m.refs ≠ 0) {threshold : Byte} {frame : SlotFrame}
    (clear : (m.take threshold frame).filled = false) :
    m.take threshold frame = ((m.takeFill frame.fill).takeBlock threshold frame.errored).takeHeader frame.header :=
  Monitor.take_clear referenced ((Monitor.take_fill referenced threshold frame).filled ▸ clear)

theorem Monitor.take_framing {m : Monitor} (referenced : m.refs ≠ 0) {threshold : Byte} {frame : SlotFrame}
    (clear : (m.take threshold frame).filled = false) :
    (m.take threshold frame).framing = (m.frame frame.header).framing := by
  rw [Monitor.take_evaluated referenced clear, Monitor.takeHeader_framing]
  refine Monitor.frame_congr ?_ _
  rw [Monitor.takeBlock_leaves, Monitor.takeFill_leaves]
  rfl

theorem Monitor.take_seen {m : Monitor} (referenced : m.refs ≠ 0) {threshold : Byte} {frame : SlotFrame}
    (clear : (m.take threshold frame).filled = false) :
    (m.take threshold frame).seen = ((m.takeCode (hdrCode frame.header)).takeRf (hdrRF frame.header)).seen := by
  rw [Monitor.take_evaluated referenced clear, Monitor.takeHeader_seen]
  refine Monitor.takeRf_seen_congr (Monitor.takeCode_seen_congr ?_ _) _
  rw [Monitor.takeBlock_leaves, Monitor.takeFill_leaves]
  rfl

/-- A filled monitor keeps all that headers feed (R25). -/
theorem Monitor.take_frozen {m : Monitor} {threshold : Byte} {frame : SlotFrame} (filled : (m.take threshold frame).filled = true) :
    let m' := m.take threshold frame
    m' =
      { m with
        filled := m'.filled
        fillRun := m'.fillRun
        fillDeclarations := m'.fillDeclarations
        degraded := m'.degraded
        blockPos := m'.blockPos
        blockErrored := m'.blockErrored
        erroredFrames := m'.erroredFrames } := by
  by_cases referenced : m.refs = 0
  · rw [Monitor.take_unreferenced referenced]
  · rw [Monitor.take_filled referenced ((Monitor.take_fill referenced threshold frame).filled ▸ filled), Monitor.takeBlock_leaves,
      Monitor.takeFill_leaves]

/-- A clear monitor stays clear over a slot-frame that is not fill. -/
theorem Monitor.take_staysClear {m : Monitor} (clear : m.filled = false) {threshold : Byte} {frame : SlotFrame} (notFill : frame.fill = false) :
    (m.take threshold frame).filled = false := by
  by_cases referenced : m.refs = 0
  · rwa [Monitor.take_unreferenced referenced]
  · rw [(Monitor.take_fill referenced threshold frame).filled, Monitor.takeFill_same (notFill.trans clear.symm)]
    exact clear

/-- A property of the slot-frames taken so far, kept at each, holds after all. -/
theorem Monitor.foldTake_reach {P : Nat → Monitor → Prop} {threshold : Byte} (frames : List SlotFrame)
    (step : ∀ k (h : k < frames.length) m, P k m → P (k + 1) (m.take threshold frames[k])) {m : Monitor} (start : P 0 m) :
    P frames.length (frames.foldl (fun m f => m.take threshold f) m) := by
  induction frames generalizing P m with
  | nil => exact start
  | cons f fs ih =>
    exact ih (P := fun k => P (k + 1)) (fun k h m hm => step (k + 1) (Nat.succ_lt_succ h) m hm) (step 0 (Nat.succ_pos _) m start)

/-! ## Fill -/

/-- Settles O26: the three branches of the fill part, and the block part read off the monitor before it. -/
theorem fillNeedsThreeAndFreezesHeader : Obligations.FillNeedsThreeAndFreezesHeader := by
  refine ⟨fun m threshold frame referenced _ => ?fill, fun m threshold frame => ?rest⟩
  case fill =>
    have taken := Monitor.take_fill referenced threshold frame
    refine ⟨fun same => ?_, fun other early => ?_, fun other third => ?_⟩
    · rw [taken.filled, taken.fillRun, taken.fillDeclarations, Monitor.takeFill_same same]
      exact ⟨rfl, rfl, rfl⟩
    · rw [taken.filled, taken.fillRun, taken.fillDeclarations, Monitor.takeFill_counts other early]
      exact ⟨rfl, rfl, rfl⟩
    · have filled : (m.take threshold frame).filled = frame.fill := by rw [taken.filled, Monitor.takeFill_third other third]
      rw [filled, taken.fillRun, taken.fillDeclarations, Monitor.takeFill_third other third]
      refine ⟨rfl, rfl, ?_, rfl⟩
      simp [Monitor.reports, filled, Ne.symm other]
  case rest =>
    refine ⟨fun none => Monitor.take_unreferenced none threshold frame, Monitor.take_frozen, fun referenced inside => ?_, fun referenced => ?_⟩
    · rw [(Monitor.take_block referenced threshold frame).blockPos, Monitor.takeBlock_inside (by omega)]
    · rw [(Monitor.take_block referenced threshold frame).erroredFrames, Monitor.takeBlock_erroredFrames]

/-! ## Code and remote fault -/

/-- At least `k` slot-frames in a row, up to five, carried a code. -/
structure Monitor.CodeRuns (code : BitVec 4) (k : Nat) (m : Monitor) : Prop where
  referenced : m.refs ≠ 0
  clear : m.filled = false
  run : k ≤ m.codeRun
  candidate : 0 < k → m.codeCandidate = some code
  accepted : k = 5 → m.code = some code

theorem Monitor.takeRf_code (m : Monitor) (rf : Bool) :
    (m.takeRf rf).code = m.code ∧ (m.takeRf rf).codeCandidate = m.codeCandidate ∧ (m.takeRf rf).codeRun = m.codeRun := by
  unfold Monitor.takeRf
  split
  · exact ⟨rfl, rfl, rfl⟩
  · split <;> exact ⟨rfl, rfl, rfl⟩

/-- What an evaluated slot-frame makes of the code. -/
theorem Monitor.take_code {m : Monitor} (referenced : m.refs ≠ 0) {threshold : Byte} {frame : SlotFrame}
    (clear : (m.take threshold frame).filled = false) :
    let m' := m.take threshold frame
    let x := m.takeCode (hdrCode frame.header)
    m'.code = x.code ∧ m'.codeCandidate = x.codeCandidate ∧ m'.codeRun = x.codeRun := by
  have seen := Monitor.take_seen referenced clear
  obtain ⟨code, candidate, run⟩ := (m.takeCode (hdrCode frame.header)).takeRf_code (hdrRF frame.header)
  exact ⟨(congrArg HeaderSeen.code seen).trans code, (congrArg HeaderSeen.codeCandidate seen).trans candidate,
    (congrArg HeaderSeen.codeRun seen).trans run⟩

theorem Monitor.CodeRuns.take {code : BitVec 4} {k : Nat} {m : Monitor} (runs : m.CodeRuns code k) (few : k < 5) (threshold : Byte)
    {frame : SlotFrame} (notFill : frame.fill = false) (carries : hdrCode frame.header = code) :
    (m.take threshold frame).CodeRuns code (k + 1) := by
  have clear := Monitor.take_staysClear runs.clear (threshold := threshold) notFill
  obtain ⟨accepted, candidate, run⟩ := Monitor.take_code runs.referenced clear
  have counted : k + 1 ≤ (m.takeCode code).codeRun := by
    show k + 1 ≤ if m.codeCandidate = some code then min (m.codeRun + 1) 5 else 1
    have := runs.run
    split
    · omega
    · rename_i other
      have : ¬ 0 < k := fun h => other (runs.candidate h)
      omega
  rw [carries] at accepted candidate run
  refine ⟨by rw [Monitor.take_refs]; exact runs.referenced, clear, run ▸ counted, fun _ => candidate, fun fifth => ?_⟩
  rw [accepted]
  have : (m.takeCode code).codeRun ≤ 5 := by
    show (if m.codeCandidate = some code then min (m.codeRun + 1) 5 else 1) ≤ 5
    split <;> omega
  exact if_pos (show (m.takeCode code).codeRun = 5 by omega)

theorem Monitor.takeCode_changed {m : Monitor} {code : BitVec 4} (changed : (m.takeCode code).code ≠ m.code) :
    (m.takeCode code).code = some code ∧ m.codeCandidate = some code ∧ 4 ≤ m.codeRun := by
  have run : (m.takeCode code).codeRun = 5 := by
    by_contra other
    exact changed (if_neg other)
  refine ⟨if_pos run, ?_⟩
  have run : (if m.codeCandidate = some code then min (m.codeRun + 1) 5 else 1) = 5 := run
  split at run
  · rename_i candidate
    exact ⟨candidate, by omega⟩
  · omega

theorem Monitor.take_rf {m : Monitor} (referenced : m.refs ≠ 0) {threshold : Byte} {frame : SlotFrame}
    (clear : (m.take threshold frame).filled = false) :
    let m' := m.take threshold frame
    let x := m.takeRf (hdrRF frame.header)
    m'.rf = x.rf ∧ m'.rfRun = x.rfRun := by
  have seen := Monitor.take_seen referenced clear
  have apart : ((m.takeCode (hdrCode frame.header)).takeRf (hdrRF frame.header)).rf = (m.takeRf (hdrRF frame.header)).rf ∧
      ((m.takeCode (hdrCode frame.header)).takeRf (hdrRF frame.header)).rfRun = (m.takeRf (hdrRF frame.header)).rfRun := by
    unfold Monitor.takeRf Monitor.takeCode
    dsimp only
    split
    · exact ⟨rfl, rfl⟩
    · split <;> exact ⟨rfl, rfl⟩
  exact ⟨(congrArg HeaderSeen.rf seen).trans apart.1, (congrArg HeaderSeen.rfRun seen).trans apart.2⟩

/-- Settles O27: the run of a code over five slot-frames, the branch of the code part that accepts, and the three branches of
the remote fault. -/
theorem codeAndRemoteFaultNeedFive : Obligations.CodeAndRemoteFaultNeedFive := by
  refine ⟨fun m threshold frames code referenced clear five all => ?five, fun m threshold frame changed => ?changed,
    fun m threshold frame referenced _ clear => ?rf⟩
  case five =>
    have start : m.CodeRuns code 0 := ⟨referenced, clear, Nat.zero_le _, nofun, nofun⟩
    refine (Monitor.foldTake_reach (P := Monitor.CodeRuns code) frames (fun k h m runs => ?_) start).accepted five
    obtain ⟨notFill, carries⟩ := all _ (List.getElem_mem h)
    exact runs.take (by omega) threshold notFill carries
  case changed =>
    have referenced : m.refs ≠ 0 := fun none => changed (by rw [Monitor.take_unreferenced none])
    cases clear : (m.take threshold frame).filled with
    | true => exact absurd (by rw [Monitor.take_frozen clear]) changed
    | false =>
      obtain ⟨code, _, _⟩ := Monitor.take_code referenced clear
      rw [code] at changed ⊢
      exact Monitor.takeCode_changed changed
  case rf =>
    obtain ⟨rf, run⟩ := Monitor.take_rf referenced clear
    rw [rf, run]
    unfold Monitor.takeRf
    refine ⟨fun same => ?_, fun other early => ?_, fun other fifth => ?_⟩
    · rw [if_pos same]
      exact ⟨rfl, rfl⟩
    · rw [if_neg other, if_neg (by omega)]
      exact ⟨rfl, rfl⟩
    · rw [if_neg other, if_pos (by omega)]
      exact ⟨rfl, rfl⟩

/-! ## Blocks -/

/-- A block after `k` of the slot-frames: position and count, and at the end the judgement. -/
structure Monitor.BlockAt (threshold : Byte) (frames : List SlotFrame) (k : Nat) (m : Monitor) : Prop where
  referenced : m.refs ≠ 0
  inside : k < 256 → m.blockPos = k ∧ m.blockErrored = (frames.take k).countP (·.errored)
  ended : k = 256 → (m.degraded = true ↔ threshold.toNat ≤ (frames.take k).countP (·.errored)) ∧ m.blockPos = 0 ∧ m.blockErrored = 0

theorem Monitor.BlockAt.take {threshold : Byte} {frames : List SlotFrame} {k : Nat} {m : Monitor} (block : m.BlockAt threshold frames k)
    (h : k < frames.length) (few : k < 256) : (m.take threshold frames[k]).BlockAt threshold frames (k + 1) := by
  obtain ⟨position, errored⟩ := block.inside few
  have taken := Monitor.take_block block.referenced threshold frames[k]
  have count : m.blockCount frames[k].errored = (frames.take (k + 1)).countP (·.errored) := by
    rw [Monitor.blockCount, errored, List.take_succ_eq_append_getElem h, List.countP_append, List.countP_singleton]
    split <;> rfl
  refine ⟨by rw [Monitor.take_refs]; exact block.referenced, fun inside => ?_, fun ended => ?_⟩
  · rw [taken.blockPos, taken.blockErrored, Monitor.takeBlock_inside (by omega)]
    exact ⟨congrArg (· + 1) position, count⟩
  · rw [taken.degraded, taken.blockPos, taken.blockErrored, Monitor.takeBlock_last (by omega)]
    exact ⟨by rw [decide_eq_true_iff, count], rfl, rfl⟩

/-- Settles O28: the block followed slot-frame by slot-frame; inside a block the degrade state stays. -/
theorem blockJudgedAtItsEnd : Obligations.BlockJudgedAtItsEnd := by
  refine ⟨fun m threshold frames referenced start none length => ?_, fun m threshold frame inside => ?_⟩
  · have start : m.BlockAt threshold frames 0 := ⟨referenced, fun _ => ⟨start, none⟩, nofun⟩
    have block := Monitor.foldTake_reach (P := Monitor.BlockAt threshold frames) frames
      (fun k h m block => block.take h (by omega)) start
    have ended := block.ended length
    rwa [List.take_length] at ended
  · by_cases referenced : m.refs = 0
    · rw [Monitor.take_unreferenced referenced]
    · rw [(Monitor.take_block referenced threshold frame).degraded, Monitor.takeBlock_inside inside]

end Sys2Proof.Machine
end

section
/-! SUPPORT. R26 to R28, R30 to R32: the search for framing, the multiframes followed, and the names they carry. -/
namespace Sys2Proof.Machine

/-! ## The branches of the search and of the multiframe check -/

theorem Monitor.searchFrame_opens {m : Monitor} (none : m.mkCandidate = none) (mk : Bool) (char : PathChar) :
    m.searchFrame mk char = { m with mkCandidate := if mk then some 0 else Option.none } := by
  cases m
  cases none
  cases mk <;> rfl

theorem Monitor.searchFrame_counts {m : Monitor} {c : Nat} (candidate : m.mkCandidate = some c) (early : c + 1 < 16) (mk : Bool)
    (char : PathChar) : m.searchFrame mk char = { m with mkCandidate := some (if mk then 0 else c + 1) } := by
  unfold Monitor.searchFrame
  rw [candidate]
  exact if_pos early

theorem Monitor.searchFrame_found {m : Monitor} (candidate : m.mkCandidate = some 15) (char : PathChar) :
    m.searchFrame true char =
      { m with framed := true, mkCandidate := none, mfPos := 0, fails := 0, stray := false, gathered := [char] } := by
  unfold Monitor.searchFrame
  rw [candidate]
  rfl

theorem Monitor.searchFrame_discards {m : Monitor} (candidate : m.mkCandidate = some 15) (char : PathChar) :
    m.searchFrame false char = { m with mkCandidate := none } := by
  unfold Monitor.searchFrame
  rw [candidate]
  rfl

theorem Monitor.searchFrame_name (m : Monitor) (mk : Bool) (char : PathChar) : (m.searchFrame mk char).name = m.name := by
  unfold Monitor.searchFrame
  split
  · split <;> rfl
  · split
    · rfl
    · split <;> rfl

theorem Monitor.followFrame_inside {m : Monitor} (inside : m.mfPos ≠ 15) (mk : Bool) (char : PathChar) :
    m.followFrame mk char = { m with mfPos := m.mfPos + 1, stray := m.stray || mk, gathered := m.gathered ++ [char] } :=
  if_neg inside

theorem Monitor.followFrame_last {m : Monitor} (last : m.mfPos = 15) (mk : Bool) (char : PathChar) :
    m.followFrame mk char = m.checkMultiframe mk char :=
  if_pos last

theorem Monitor.judgeName_framed (m : Monitor) (pass : Bool) :
    (m.judgeName pass).framed = m.framed ∧ (m.judgeName pass).mkCandidate = m.mkCandidate := by
  unfold Monitor.judgeName
  split <;> exact ⟨rfl, rfl⟩

/-- How many multiframes in a row have carried the characters gathered, up to three (R32). -/
def Monitor.nextMatch (m : Monitor) : Nat := if m.confirming = some m.gathered then min (m.matchCount + 1) 3 else 1

theorem Monitor.judgeName_confirms {m : Monitor} (printed : m.gathered.all printable = true) :
    m.judgeName true =
      { m with
        confirming := some m.gathered
        matchCount := m.nextMatch
        name := if m.nextMatch = 3 then some m.gathered else m.name
        gathered := [] } :=
  if_pos printed

theorem Monitor.checkMultiframe_passes {m : Monitor} (noStray : m.stray = false) (char : PathChar) :
    m.checkMultiframe true char = { m.judgeName true with mfPos := 0, stray := false, fails := 0, gathered := [char] } := by
  unfold Monitor.checkMultiframe
  rw [noStray]
  rfl

theorem Monitor.checkMultiframe_fails {m : Monitor} {mk : Bool} (failed : (mk && !m.stray) = false) (char : PathChar) :
    m.checkMultiframe mk char =
      if m.fails + 1 = 2 then
        Monitor.loseFraming { m with confirming := none, matchCount := 0, gathered := [], mfPos := 0, stray := false }
      else
        { m with
          confirming := none, matchCount := 0, mfPos := 0, stray := false, fails := m.fails + 1, gathered := [char] } := by
  unfold Monitor.checkMultiframe
  rw [failed]
  rfl

/-! ## One evaluated slot-frame -/

section
variable {m : Monitor} {threshold : Byte} {frame : SlotFrame}

theorem Monitor.take_searches (referenced : m.refs ≠ 0) (clear : (m.take threshold frame).filled = false) (searching : m.framed = false) :
    (m.take threshold frame).framing = (m.searchFrame (hdrMK frame.header) (hdrChar frame.header)).framing := by
  rw [Monitor.take_framing referenced clear, Monitor.frame, if_neg (by rw [searching]; exact Bool.false_ne_true)]

theorem Monitor.take_follows (referenced : m.refs ≠ 0) (clear : (m.take threshold frame).filled = false) (following : m.framed = true) :
    (m.take threshold frame).framing = (m.followFrame (hdrMK frame.header) (hdrChar frame.header)).framing := by
  rw [Monitor.take_framing referenced clear, Monitor.frame, if_pos following]

/-- FRAMED has just been found, or the check after position 15 has just been made, with the character given. -/
structure Monitor.AtFirst (m : Monitor) (fails : Nat) (char : PathChar) : Prop where
  framed : m.framed = true
  mfPos : m.mfPos = 0
  fails : m.fails = fails
  stray : m.stray = false
  gathered : m.gathered = [char]

theorem Monitor.take_opens (referenced : m.refs ≠ 0) (clear : (m.take threshold frame).filled = false) (searching : m.framed = false)
    (none : m.mkCandidate = none) :
    (m.take threshold frame).framed = false ∧
      (m.take threshold frame).mkCandidate = if hdrMK frame.header then some 0 else Option.none := by
  have framing := Monitor.take_searches referenced clear searching
  rw [Monitor.searchFrame_opens none] at framing
  exact ⟨(congrArg Framing.framed framing).trans searching, congrArg Framing.mkCandidate framing⟩

theorem Monitor.take_counts (referenced : m.refs ≠ 0) (clear : (m.take threshold frame).filled = false) (searching : m.framed = false)
    {c : Nat} (candidate : m.mkCandidate = some c) (early : c + 1 < 16) :
    (m.take threshold frame).framed = false ∧
      (m.take threshold frame).mkCandidate = some (if hdrMK frame.header then 0 else c + 1) := by
  have framing := Monitor.take_searches referenced clear searching
  rw [Monitor.searchFrame_counts candidate early] at framing
  exact ⟨(congrArg Framing.framed framing).trans searching, congrArg Framing.mkCandidate framing⟩

theorem Monitor.take_finds (referenced : m.refs ≠ 0) (clear : (m.take threshold frame).filled = false) (searching : m.framed = false)
    (candidate : m.mkCandidate = some 15) (marked : hdrMK frame.header = true) :
    (m.take threshold frame).AtFirst 0 (hdrChar frame.header) ∧ (m.take threshold frame).mkCandidate = none := by
  have framing := Monitor.take_searches referenced clear searching
  rw [marked, Monitor.searchFrame_found candidate] at framing
  exact ⟨⟨congrArg Framing.framed framing, congrArg Framing.mfPos framing, congrArg Framing.fails framing,
    congrArg Framing.stray framing, congrArg Framing.gathered framing⟩, congrArg Framing.mkCandidate framing⟩

theorem Monitor.take_discards (referenced : m.refs ≠ 0) (clear : (m.take threshold frame).filled = false) (searching : m.framed = false)
    (candidate : m.mkCandidate = some 15) (unmarked : hdrMK frame.header = false) :
    (m.take threshold frame).framed = false ∧ (m.take threshold frame).mkCandidate = none := by
  have framing := Monitor.take_searches referenced clear searching
  rw [unmarked, Monitor.searchFrame_discards candidate] at framing
  exact ⟨(congrArg Framing.framed framing).trans searching, congrArg Framing.mkCandidate framing⟩

theorem Monitor.take_inside (referenced : m.refs ≠ 0) (clear : (m.take threshold frame).filled = false) (following : m.framed = true)
    (inside : m.mfPos ≠ 15) :
    (m.take threshold frame).framing =
      { m.framing with
        mfPos := m.mfPos + 1, stray := m.stray || hdrMK frame.header, gathered := m.gathered ++ [hdrChar frame.header] } := by
  rw [Monitor.take_follows referenced clear following, Monitor.followFrame_inside inside]
  rfl

theorem Monitor.take_passes (referenced : m.refs ≠ 0) (clear : (m.take threshold frame).filled = false) (following : m.framed = true)
    (last : m.mfPos = 15) (marked : hdrMK frame.header = true) (noStray : m.stray = false) :
    (m.take threshold frame).framing =
      { (m.judgeName true).framing with mfPos := 0, stray := false, fails := 0, gathered := [hdrChar frame.header] } := by
  rw [Monitor.take_follows referenced clear following, Monitor.followFrame_last last, marked, Monitor.checkMultiframe_passes noStray]
  rfl

theorem Monitor.take_fails (referenced : m.refs ≠ 0) (clear : (m.take threshold frame).filled = false) (following : m.framed = true)
    (last : m.mfPos = 15) (failed : hdrMK frame.header = false ∨ m.stray = true) :
    (m.take threshold frame).framing =
      if m.fails + 1 = 2 then
        ⟨false, none, 0, false, 0, m.name, [], none, 0⟩
      else
        { m.framing with
          confirming := none, matchCount := 0, mfPos := 0, stray := false, fails := m.fails + 1
          gathered := [hdrChar frame.header] } := by
  have failed : (hdrMK frame.header && !m.stray) = false := by
    rcases failed with h | h <;> simp [h]
  rw [Monitor.take_follows referenced clear following, Monitor.followFrame_last last, Monitor.checkMultiframe_fails failed]
  split <;> rfl

end

/-! ## Framing -/

/-- The search stands `k` unmarked slot-frames after a marker. -/
structure Monitor.SearchAt (k : Nat) (m : Monitor) : Prop where
  referenced : m.refs ≠ 0
  clear : m.filled = false
  searching : m.framed = false
  candidate : m.mkCandidate = some k

theorem Monitor.SearchAt.take {k : Nat} {m : Monitor} (search : m.SearchAt k) (early : k < 15) (threshold : Byte) {frame : SlotFrame}
    (notFill : frame.fill = false) (unmarked : hdrMK frame.header = false) : (m.take threshold frame).SearchAt (k + 1) := by
  have clear := Monitor.take_staysClear search.clear (threshold := threshold) notFill
  obtain ⟨searching, candidate⟩ := Monitor.take_counts search.referenced clear search.searching search.candidate (by omega)
  rw [unmarked] at candidate
  exact ⟨by rw [Monitor.take_refs]; exact search.referenced, clear, searching, candidate⟩

/-- Settles O29: the search followed from marker to marker, and the branches of one evaluated slot-frame. -/
theorem framingFoundAndLost : Obligations.FramingFoundAndLost := by
  refine ⟨fun m threshold first last between referenced clear searching none firstClear lastClear marked marked' length unmarked => ?found,
    fun m threshold frame referenced => ?one⟩
  case found =>
    have opened : (m.take threshold first).SearchAt 0 := by
      have clear := Monitor.take_staysClear clear (threshold := threshold) firstClear
      obtain ⟨searching, candidate⟩ := Monitor.take_opens referenced clear searching none
      rw [marked] at candidate
      exact ⟨by rw [Monitor.take_refs]; exact referenced, clear, searching, candidate⟩
    have waited := Monitor.foldTake_reach (P := Monitor.SearchAt) (threshold := threshold) between
      (fun k h m search => search.take (by omega) threshold (unmarked _ (List.getElem_mem h)).1 (unmarked _ (List.getElem_mem h)).2) opened
    rw [length] at waited
    obtain ⟨first, candidate⟩ := Monitor.take_finds waited.referenced
      (Monitor.take_staysClear waited.clear (threshold := threshold) lastClear) waited.searching waited.candidate marked'
    rw [List.foldl_cons, List.foldl_append, List.foldl_cons, List.foldl_cons, List.foldl_nil]
    exact ⟨first.framed, first.mfPos, first.fails, first.stray, candidate, first.gathered, waited.searching⟩
  case one =>
    intro m' mk clear
    refine ⟨fun searching => ⟨?_, ?_, ?_, ?_⟩, fun following inside => ?_, fun following last => ⟨?_, ?_, ?_⟩⟩
    · exact fun none => Monitor.take_opens referenced clear searching none
    · exact fun c candidate early => Monitor.take_counts referenced clear searching candidate early
    · exact fun candidate unmarked => Monitor.take_discards referenced clear searching candidate unmarked
    · intro candidate marked
      obtain ⟨first, candidate⟩ := Monitor.take_finds referenced clear searching candidate marked
      exact ⟨first.framed, first.mfPos, first.fails, first.stray, candidate, first.gathered⟩
    · have framing := Monitor.take_inside referenced clear following (by omega)
      exact ⟨(congrArg Framing.framed framing).trans following, congrArg Framing.mfPos framing, congrArg Framing.stray framing,
        congrArg Framing.fails framing, congrArg Framing.gathered framing⟩
    · intro marked noStray
      have framing := Monitor.take_passes referenced clear following last marked noStray
      exact ⟨(congrArg Framing.framed framing).trans ((m.judgeName_framed true).1.trans following), congrArg Framing.mfPos framing,
        congrArg Framing.fails framing, congrArg Framing.stray framing, congrArg Framing.gathered framing⟩
    · intro failed first
      have framing := Monitor.take_fails referenced clear following last failed
      rw [first, if_neg (by decide)] at framing
      exact ⟨(congrArg Framing.framed framing).trans following, congrArg Framing.mfPos framing, congrArg Framing.fails framing,
        congrArg Framing.stray framing, congrArg Framing.gathered framing, congrArg Framing.confirming framing,
        congrArg Framing.matchCount framing, congrArg Framing.name framing⟩
    · intro failed second
      have framing := Monitor.take_fails referenced clear following last failed
      rw [second, if_pos rfl] at framing
      exact ⟨congrArg Framing.framed framing, congrArg Framing.mkCandidate framing, congrArg Framing.mfPos framing,
        congrArg Framing.fails framing, congrArg Framing.stray framing, congrArg Framing.gathered framing,
        congrArg Framing.confirming framing, congrArg Framing.matchCount framing, congrArg Framing.name framing⟩

/-! ## Names -/

/-- A monitor `k` slot-frames into multiframes that carry a name. -/
structure Monitor.Gathers (name : Name) (k : Nat) (m : Monitor) : Prop where
  referenced : m.refs ≠ 0
  clear : m.filled = false
  framed : m.framed = true
  mfPos : m.mfPos = k % 16
  stray : m.stray = false
  gathered : m.gathered = name.take (k % 16 + 1)
  confirming : 0 < k / 16 → m.confirming = some name ∧ m.matchCount ≤ 3
  matchCount : k / 16 ≤ m.matchCount
  accepted : k / 16 = 3 → m.name = some name

theorem take_snoc_getElem? {α : Type} {xs : List α} {i : Nat} {x : α} (h : some x = xs[i]?) : xs.take i ++ [x] = xs.take (i + 1) := by
  obtain ⟨inside, same⟩ := List.getElem?_eq_some_iff.1 h.symm
  rw [List.take_succ_eq_append_getElem inside, same]

theorem Monitor.Gathers.take {name : Name} {k : Nat} {m : Monitor} (gathers : m.Gathers name k) (long : name.length = 16)
    (printed : name.all printable = true) (few : k < 48) (threshold : Byte) {frame : SlotFrame} (notFill : frame.fill = false)
    (mark : hdrMK frame.header = ((k + 1) % 16 == 0)) (char : some (hdrChar frame.header) = name[(k + 1) % 16]?) :
    (m.take threshold frame).Gathers name (k + 1) := by
  have clear := Monitor.take_staysClear gathers.clear (threshold := threshold) notFill
  have referenced : (m.take threshold frame).refs ≠ 0 := by
    rw [Monitor.take_refs]
    exact gathers.referenced
  by_cases last : k % 16 = 15
  · have next : (k + 1) % 16 = 0 := by omega
    rw [next] at mark char
    have whole : m.gathered = name := by rw [gathers.gathered, List.take_of_length_le (by omega)]
    have framing := Monitor.take_passes gathers.referenced clear gathers.framed (gathers.mfPos.trans last) mark gathers.stray
    rw [Monitor.judgeName_confirms (by rw [whole]; exact printed)] at framing
    have count : k / 16 + 1 ≤ m.nextMatch ∧ m.nextMatch ≤ 3 := by
      have := gathers.matchCount
      rw [Monitor.nextMatch, whole]
      split
      · omega
      · rename_i other
        have : ¬ 0 < k / 16 := fun h => other (gathers.confirming h).1
        omega
    refine ⟨referenced, clear, (congrArg Framing.framed framing).trans gathers.framed, ?_, congrArg Framing.stray framing, ?_, ?_, ?_, ?_⟩
    · exact (congrArg Framing.mfPos framing).trans next.symm
    · rw [next]
      exact (congrArg Framing.gathered framing).trans (take_snoc_getElem? char)
    · exact fun _ => ⟨(congrArg Framing.confirming framing).trans (congrArg some whole),
        (congrArg Framing.matchCount framing).trans_le count.2⟩
    · rw [show (m.take threshold frame).matchCount = m.nextMatch from congrArg Framing.matchCount framing]
      omega
    · intro third
      rw [show (m.take threshold frame).name = _ from congrArg Framing.name framing]
      dsimp only [Monitor.framing]
      rw [if_pos (by omega), whole]
  · have next : (k + 1) % 16 = k % 16 + 1 := by omega
    have quotient : (k + 1) / 16 = k / 16 := by omega
    have unmarked : hdrMK frame.header = false := by
      rw [mark, next]
      rfl
    have framing := Monitor.take_inside gathers.referenced clear gathers.framed (by rw [gathers.mfPos]; exact last)
    refine ⟨referenced, clear, (congrArg Framing.framed framing).trans gathers.framed, ?_, ?_, ?_, ?_, ?_, ?_⟩
    · exact (congrArg Framing.mfPos framing).trans (by rw [gathers.mfPos, next])
    · exact (congrArg Framing.stray framing).trans (by rw [gathers.stray, unmarked]; rfl)
    · refine (congrArg Framing.gathered framing).trans ?_
      rw [gathers.gathered, next]
      exact take_snoc_getElem? (next ▸ char)
    · rw [quotient]
      intro some
      obtain ⟨confirming, count⟩ := gathers.confirming some
      exact ⟨(congrArg Framing.confirming framing).trans confirming, (congrArg Framing.matchCount framing).trans_le count⟩
    · rw [quotient, show (m.take threshold frame).matchCount = m.matchCount from congrArg Framing.matchCount framing]
      exact gathers.matchCount
    · rw [quotient]
      exact fun third => (congrArg Framing.name framing).trans (gathers.accepted third)

theorem Monitor.nextMatch_eq_three {m : Monitor} (h : m.nextMatch = 3) : m.confirming = some m.gathered ∧ 2 ≤ m.matchCount := by
  unfold Monitor.nextMatch at h
  split at h
  · rename_i same
    exact ⟨same, by omega⟩
  · omega

theorem Monitor.judgeName_changed {m : Monitor} (changed : (m.judgeName true).name ≠ m.name) :
    m.gathered.all printable = true ∧ m.nextMatch = 3 ∧ (m.judgeName true).name = some m.gathered := by
  cases printed : m.gathered.all printable with
  | false => exact absurd (by simp [Monitor.judgeName, printed]) changed
  | true =>
    rw [Monitor.judgeName_confirms printed] at changed ⊢
    have third : m.nextMatch = 3 := by
      by_contra other
      exact changed (if_neg other)
    exact ⟨rfl, third, if_pos third⟩

/-- Settles O30: the multiframes followed slot-frame by slot-frame, and the one branch that accepts a name. -/
theorem nameNeedsThreeMultiframes : Obligations.NameNeedsThreeMultiframes := by
  refine ⟨fun m threshold name frames referenced clear framed start noStray long printed first length carries => ?three,
    fun m threshold frame changed => ?changed⟩
  case three =>
    have begins : m.Gathers name 0 := ⟨referenced, clear, framed, start, noStray, first, nofun, Nat.zero_le _, nofun⟩
    have ends := Monitor.foldTake_reach (P := Monitor.Gathers name) (threshold := threshold) frames
      (fun k h m gathers => gathers.take long printed (by omega) threshold (carries k h).1 (carries k h).2.1 (carries k h).2.2) begins
    rw [length] at ends
    have most := (ends.confirming (by decide)).2
    have least : 3 ≤ _ := ends.matchCount
    exact ⟨ends.accepted rfl, le_antisymm most least, ends.framed, ends.mfPos⟩
  case changed =>
    have referenced : m.refs ≠ 0 := fun none => changed (by rw [Monitor.take_unreferenced none])
    have clear : (m.take threshold frame).filled = false := by
      by_contra filled
      exact changed (by rw [Monitor.take_frozen (Bool.not_eq_false _ ▸ filled)])
    have framed : m.framed = true := by
      by_contra searching
      exact changed ((congrArg Framing.name (Monitor.take_searches referenced clear (Bool.not_eq_true _ ▸ searching))).trans
        (m.searchFrame_name _ _))
    have last : m.mfPos = 15 := by
      by_contra inside
      exact changed (congrArg Framing.name (Monitor.take_inside referenced clear framed inside))
    have passed : ¬ (hdrMK frame.header = false ∨ m.stray = true) := by
      intro failed
      have framing := Monitor.take_fails referenced clear framed last failed
      refine changed ((congrArg Framing.name framing).trans ?_)
      split <;> rfl
    have marked : hdrMK frame.header = true := by simpa using fun h => passed (.inl h)
    have noStray : m.stray = false := by simpa using fun h => passed (.inr h)
    have name : (m.take threshold frame).name = (m.judgeName true).name :=
      congrArg Framing.name (Monitor.take_passes referenced clear framed last marked noStray)
    rw [name] at changed ⊢
    obtain ⟨printed, third, accepted⟩ := Monitor.judgeName_changed changed
    obtain ⟨confirming, count⟩ := Monitor.nextMatch_eq_three third
    exact ⟨accepted, confirming, count, framed, last, noStray, marked, printed⟩

end Sys2Proof.Machine
end

section
/-! SUPPORT. R183: what an owning block does is the same whatever the link holds, and leaves the link alone. -/
namespace Sys2Proof.Machine

/-! ## Operations of the state -/

theorem State.setRx_withLink (s : State) (l : Link) (b : Bus) (rx : Receiver) :
    State.setRx { s with link := l } b rx = { s.setRx b rx with link := l } := by cases b <;> rfl

theorem State.rx_withLink (s : State) (l : Link) (b : Bus) : State.rx { s with link := l } b = s.rx b := by cases b <;> rfl

theorem State.setMons_withLink (s : State) (l : Link) (b : Bus) (ms : Vector Monitor 48) :
    State.setMons { s with link := l } b ms = { s.setMons b ms with link := l } := by cases b <;> rfl

theorem State.mons_withLink (s : State) (l : Link) (b : Bus) : State.mons { s with link := l } b = s.mons b := by cases b <;> rfl

theorem State.monitor_withLink (s : State) (l : Link) (src : Source) : State.monitor { s with link := l } src = s.monitor src := by
  rw [State.monitor, State.mons_withLink]
  rfl

theorem State.setMonitor_withLink (s : State) (l : Link) (src : Source) (m : Monitor) :
    State.setMonitor { s with link := l } src m = { s.setMonitor src m with link := l } := by
  rw [State.setMonitor, State.mons_withLink, State.setMons_withLink]
  rfl

theorem State.judge_withLink (s : State) (l : Link) (f : Fields) (src : Source) : State.judge { s with link := l } f src = s.judge f src := by
  rw [State.judge, State.rx_withLink, State.monitor_withLink]
  rfl

theorem State.evaluateBy_withLink (s : State) (l : Link) (expiry : Bool) (r : RecIx) :
    State.evaluateBy { s with link := l } expiry r = { s.evaluateBy expiry r with link := l } := by
  have judge : State.judge { s with link := l } = s.judge := funext fun f => funext fun src => s.judge_withLink l f src
  unfold State.evaluateBy
  rw [judge]
  dsimp only
  split <;> rfl

theorem State.evaluate_withLink (s : State) (l : Link) (r : RecIx) :
    State.evaluate { s with link := l } r = { s.evaluate r with link := l } := s.evaluateBy_withLink l false r

theorem State.runTask_withLink (s : State) (l : Link) (t : Task) : State.runTask { s with link := l } t = { s.runTask t with link := l } := by
  cases t with
  | evaluate r => exact s.evaluate_withLink l r
  | post r k => rfl
  | align b => rfl

theorem State.foldl_withLink {α : Type} {f : State → α → State} {l : Link}
    (step : ∀ (s : State) x, f { s with link := l } x = { f s x with link := l }) (xs : List α) (s : State) :
    xs.foldl f { s with link := l } = { xs.foldl f s with link := l } := by
  induction xs generalizing s with
  | nil => rfl
  | cons x xs ih => rw [List.foldl_cons, step, ih, List.foldl_cons]

theorem State.runTasks_withLink (s : State) (l : Link) (ts : List Task) :
    State.runTasks { s with link := l } ts = { s.runTasks ts with link := l } := by
  match ts with
  | [] => rfl
  | [t] => exact s.runTask_withLink l t
  | t :: t' :: ts => exact State.foldl_withLink (fun s x => s.runTask_withLink l x) _ { s with choices := s.choices + 1 }

theorem State.takeRefs_withLink (s : State) (l : Link) (srcs : List Source) :
    State.takeRefs { s with link := l } srcs = { s.takeRefs srcs with link := l } :=
  State.foldl_withLink (fun s x => by rw [State.monitor_withLink, State.setMonitor_withLink]) srcs s

theorem State.dropRefs_withLink (s : State) (l : Link) (srcs : List Source) :
    State.dropRefs { s with link := l } srcs = { s.dropRefs srcs with link := l } :=
  State.foldl_withLink (fun s x => by rw [State.monitor_withLink, State.setMonitor_withLink]) srcs s

/-! ## Records -/

theorem State.freeRecord_withLink (s : State) (l : Link) (r : RecIx) :
    State.freeRecord { s with link := l } r = { s.freeRecord r with link := l } := by
  unfold State.freeRecord
  dsimp only
  split
  · rfl
  · rw [show State.dropRefs _ _ = _ from State.dropRefs_withLink { s with sup := s.sup.setRecord r { s.sup.record r with live := none } } l _]

theorem State.goLive_withLink (s : State) (l : Link) (r : RecIx) : State.goLive { s with link := l } r = { s.goLive r with link := l } :=
  State.evaluate_withLink { s with sup := _ } l r

theorem State.enterService_withLink (s : State) (l : Link) (r : RecIx) :
    State.enterService { s with link := l } r = { s.enterService r with link := l } := by
  unfold State.enterService
  dsimp only
  split
  · rfl
  · exact State.goLive_withLink { s with sup := _ } l r

theorem State.applyUpdate_withLink (s : State) (l : Link) (u : Update) :
    State.applyUpdate { s with link := l } u = { s.applyUpdate u with link := l } := by
  cases u with
  | enter n r => exact (s.setOwner n (some r)).enterService_withLink l r
  | leave n r => exact (s.setOwner n none).freeRecord_withLink l r
  | handover n o r =>
    show ((State.freeRecord { s.setOwner n (some r) with link := l } o).enterService r) = _
    rw [State.freeRecord_withLink, State.enterService_withLink]
    rfl

theorem State.arm_withLink (s : State) (l : Link) (r : RecIx) : State.arm { s with link := l } r = { s.arm r with link := l } := rfl

theorem State.beginRetiring_withLink (s : State) (l : Link) (r : RecIx) :
    State.beginRetiring { s with link := l } r = { s.beginRetiring r with link := l } := rfl

theorem State.queueUpdate_withLink (s : State) (l : Link) (u : Update) :
    State.queueUpdate { s with link := l } u = ({ (s.queueUpdate u).1 with link := l }, (s.queueUpdate u).2) := by
  unfold State.queueUpdate
  dsimp only
  split
  · rfl
  · rw [State.applyUpdate_withLink]

theorem State.cancelUpdate_withLink (s : State) (l : Link) (r : RecIx) :
    State.cancelUpdate { s with link := l } r = { s.cancelUpdate r with link := l } := by
  unfold State.cancelUpdate
  rw [show State.incomingUpdate { s with link := l } r = s.incomingUpdate r from rfl]
  split
  · exact s.freeRecord_withLink l r
  · exact (s.removeUpdate _).freeRecord_withLink l r
  · exact (s.removeUpdate _).freeRecord_withLink l r
  · rename_i n o i _
    show (State.goLive { s.removeUpdate (.handover n o i) with link := l } o).freeRecord r = _
    rw [State.goLive_withLink, State.freeRecord_withLink]

theorem State.retireRecord_withLink (s : State) (l : Link) (r : RecIx) (k : Live) :
    State.retireRecord { s with link := l } r k = ({ (s.retireRecord r k).1 with link := l }, (s.retireRecord r k).2) := by
  unfold State.retireRecord
  split
  · rw [State.freeRecord_withLink]
  · rw [State.cancelUpdate_withLink]
  · exact (s.beginRetiring r).queueUpdate_withLink l _
  · rfl

theorem State.createAt_withLink (s : State) (l : Link) (r : RecIx) (f : Fields) :
    State.createAt { s with link := l } r f = { s.createAt r f with link := l } := by
  unfold State.createAt
  dsimp only
  rw [show State.takeRefs _ _ = _ from State.takeRefs_withLink { s with sup := s.sup.setRecord r _ } l _, State.evaluate_withLink]

theorem State.amendRecord_withLink (s : State) (l : Link) (r : RecIx) (k : Live) (a : Amendment) :
    State.amendRecord { s with link := l } r k a = { s.amendRecord r k a with link := l } := by
  unfold State.amendRecord
  dsimp only
  rw [show State.takeRefs _ _ = _ from State.takeRefs_withLink { s with sup := s.sup.modLive r _ } l _, State.dropRefs_withLink]
  generalize State.dropRefs _ _ = t
  cases (a.apply k.fields).protect.isNone with
  | true =>
    cases a.selecting with
    | true => exact State.evaluate_withLink { t with sup := _ } l r
    | false => rfl
  | false =>
    cases a.selecting with
    | true => exact t.evaluate_withLink l r
    | false => rfl

theorem State.requestRecord_withLink (s : State) (l : Link) (r : RecIx) (kind : Request) :
    State.requestRecord { s with link := l } r kind = { s.requestRecord r kind with link := l } :=
  State.evaluate_withLink { s with sup := _ } l r

/-! ## Buses -/

theorem State.disableBus_withLink (s : State) (l : Link) (b : Bus) :
    State.disableBus { s with link := l } b = { s.disableBus b with link := l } := by
  unfold State.disableBus
  dsimp only
  rw [State.rx_withLink, State.mons_withLink, State.setRx_withLink, State.setMons_withLink]
  generalize (s.setRx b ((s.rx b).unaligned .off)).setMons b (mapTable (fun m => Monitor.clean m.refs) (s.mons b)) = t
  rw [State.runTasks_withLink]
  rfl

theorem State.enableBus_withLink (s : State) (l : Link) (b : Bus) :
    State.enableBus { s with link := l } b = { s.enableBus b with link := l } := by
  unfold State.enableBus
  rw [State.rx_withLink, State.setRx_withLink]
  rfl

theorem State.setBus_withLink (s : State) (l : Link) (b : Bus) (enable : Bool) (sense : Sense) (scope : Scope) (threshold : Byte) :
    State.setBus { s with link := l } b enable sense scope threshold = { s.setBus b enable sense scope threshold with link := l } := by
  unfold State.setBus
  dsimp only
  rw [State.rx_withLink, State.setRx_withLink]
  split
  · exact State.enableBus_withLink _ l b
  · rfl
  · rfl
  · exact State.disableBus_withLink _ l b

/-! ## Commands -/

/-- A block's work is the same under every link. -/
def LinkBlind (p : State → State × Reply) : Prop := ∀ (s : State) (l : Link), p { s with link := l } = ({ (p s).1 with link := l }, (p s).2)

theorem performBusSet_blind (params : List Byte) : LinkBlind (performBusSet params) := by
  intro s l
  unfold performBusSet
  split
  · rfl
  · split
    · rfl
    · split
      · rfl
      · split
        · rfl
        · rw [State.setBus_withLink]
    · rfl

theorem performCreate_blind (params : List Byte) : LinkBlind (performCreate params) := by
  intro s l
  unfold performCreate
  split
  · rfl
  · split
    · rfl
    · dsimp only
      split
      · rfl
      · rw [State.createAt_withLink]

theorem performAmend_blind (params : List Byte) : LinkBlind (performAmend params) := by
  intro s l
  unfold performAmend
  split
  · rfl
  · dsimp only
    split
    · rfl
    · split
      · rfl
      · rw [show State.checkRecord { s with link := l } = s.checkRecord from rfl]
        split
        · rfl
        · split
          · rfl
          · split
            · rfl
            · rw [State.amendRecord_withLink]

theorem performActivate_blind (params : List Byte) : LinkBlind (performActivate params) := by
  intro s l
  unfold performActivate
  split
  · rfl
  · rw [show State.checkRecord { s with link := l } = s.checkRecord from rfl]
    split
    · rfl
    · rename_i r k _
      dsimp only
      split
      · rfl
      · rw [show State.hasUpdate { s with link := l } = s.hasUpdate from rfl]
        split
        · rfl
        · rw [State.arm_withLink, State.queueUpdate_withLink]
          rfl

theorem performReplace_blind (params : List Byte) : LinkBlind (performReplace params) := by
  intro s l
  unfold performReplace
  rw [show State.checkRef { s with link := l } = s.checkRef from rfl, show State.checkState { s with link := l } = s.checkState from rfl,
    show State.hasUpdate { s with link := l } = s.hasUpdate from rfl]
  split
  · rfl
  · split
    · rfl
    · split
      · rfl
      · split
        · rfl
        · split
          · rfl
          · split
            · rfl
            · split
              · rfl
              · rw [State.beginRetiring_withLink, State.arm_withLink, State.queueUpdate_withLink]
                rfl

theorem performRetire_blind (params : List Byte) : LinkBlind (performRetire params) := by
  intro s l
  unfold performRetire
  rw [show State.checkRecord { s with link := l } = s.checkRecord from rfl]
  split
  · rfl
  · split
    · rfl
    · rw [State.retireRecord_withLink]
      rfl

theorem performRequest_blind (params : List Byte) : LinkBlind (performRequest params) := by
  intro s l
  unfold performRequest
  rw [show State.checkRecord { s with link := l } = s.checkRecord from rfl]
  split
  · rfl
  · split
    · split
      · rfl
      · split
        · rfl
        · rw [State.requestRecord_withLink]
    · rfl

theorem performRecordRead_blind (params : List Byte) : LinkBlind (performRecordRead params) := by
  intro s l
  unfold performRecordRead
  rw [show State.checkRecord { s with link := l } = s.checkRecord from rfl]
  split
  · rfl
  · split <;> rfl

theorem performIdent_blind (params : List Byte) : LinkBlind (performIdent params) := by
  intro s l
  unfold performIdent
  split <;> rfl

theorem performSoftReset_blind (params : List Byte) : LinkBlind (performSoftReset params) := by
  intro s l
  unfold performSoftReset
  split <;> rfl

theorem performBusRead_blind (params : List Byte) : LinkBlind (performBusRead params) := by
  intro s l
  unfold performBusRead
  split
  · rfl
  · split
    · rfl
    · rw [State.rx_withLink]
    · rfl

theorem performMapRead_blind (params : List Byte) : LinkBlind (performMapRead params) := by
  intro s l
  unfold performMapRead
  split
  · rfl
  · dsimp only
    split <;> rfl

theorem performSourceRead_blind (params : List Byte) : LinkBlind (performSourceRead params) := by
  intro s l
  unfold performSourceRead
  split
  · rfl
  · split
    · rfl
    · rw [State.rx_withLink, State.monitor_withLink]

theorem State.snapshot_withLink (s : State) (l : Link) (e : Entry) : State.snapshot { s with link := l } e = s.snapshot e := by
  unfold State.snapshot
  split
  · rw [State.rx_withLink]
  · rfl
  · rfl

theorem performNoticeFetch_blind (params : List Byte) : LinkBlind (performNoticeFetch params) := by
  intro s l
  unfold performNoticeFetch
  split
  · rfl
  · dsimp only
    split
    · rfl
    · rw [State.snapshot_withLink]

theorem performAlertSet_blind (params : List Byte) : LinkBlind (performAlertSet params) := by
  intro s l
  unfold performAlertSet
  split
  · rfl
  · split <;> rfl

/-- No command but LINK_READ and COUNTERS_CLEAR looks at the link. -/
theorem perform_blind {c : Command} (notRead : c ≠ .linkRead) (notClear : c ≠ .countersClear) (params : List Byte) :
    LinkBlind (perform c params) := by
  cases c with
  | ident => exact performIdent_blind params
  | softReset => exact performSoftReset_blind params
  | busSet => exact performBusSet_blind params
  | busRead => exact performBusRead_blind params
  | create => exact performCreate_blind params
  | amend => exact performAmend_blind params
  | activate => exact performActivate_blind params
  | replace => exact performReplace_blind params
  | retire => exact performRetire_blind params
  | request => exact performRequest_blind params
  | recordRead => exact performRecordRead_blind params
  | mapRead => exact performMapRead_blind params
  | sourceRead => exact performSourceRead_blind params
  | noticeFetch => exact performNoticeFetch_blind params
  | alertSet => exact performAlertSet_blind params
  | linkRead => exact absurd rfl notRead
  | countersClear => exact absurd rfl notClear

/-- A command row answers what its block makes of the state, the link being blind to it. -/
theorem exec_performs {s t : State} {i : Instr} {c : Command} {params : List Byte} {reply : Reply} (ready : s.ready)
    (row : commandOf i = some (c, params, [])) (fits : params.length ≤ 60) (notRead : c ≠ .linkRead) (notClear : c ≠ .countersClear)
    (performed : perform c params s = (t, reply)) : exec i s = .next (t.answer c params reply) := by
  have blind := perform_blind notRead notClear params s
  rw [performed] at blind
  have link : t.link = s.link := by
    have own := blind s.link
    rw [show ({ s with link := s.link } : State) = s from rfl, performed] at own
    exact congrArg (fun x => x.1.link) own
  exact exec_answer ready row fits blind link

end Sys2Proof.Machine
end

section
/-! SUPPORT. R2, R3, R11, R12, R41: BUS_SET, and what records judge of the sources on a bus. -/
namespace Sys2Proof.Machine

/-! ## Records judged afresh -/

theorem State.Judged.afresh {s t : State} {r : RecIx} {l : Live} (judged : t.Judged r) (records : s.sup.sameRecords t.sup)
    (hl : s.sup.live r = some l) : t.judgesAfresh r l.fields := by
  obtain ⟨x, hx⟩ := Supervision.sameRecords_live records hl
  exact ⟨_, hx, judged _ hx⟩

/-- A record whose working source is on a bus that is not ALIGNED judges it FAILED with cause BUS. -/
theorem State.judgesAfresh.working_failed {t : State} {r : RecIx} {f : Fields} (fresh : t.judgesAfresh r f)
    (lost : (t.rx f.working.bus).state ≠ .aligned) :
    ∃ l j, t.sup.live r = some l ∧ l.sel.w = some j ∧ j.condition = .failed ∧ j.causes.bus = true := by
  obtain ⟨l, live, w, _⟩ := fresh
  have bus : (t.judge f f.working).causes.bus = true := (deriveCauses_bus_iff _ _ _).2 lost
  refine ⟨l, _, live, w, ?_, bus⟩
  rw [State.judge_condition, conditionOf_eq_failed_iff, Causes.any, bus]
  rfl

theorem State.judgesAfresh.protect_failed {t : State} {r : RecIx} {f : Fields} {src : Source} (fresh : t.judgesAfresh r f)
    (protect : f.protect = some src) (lost : (t.rx src.bus).state ≠ .aligned) :
    ∃ l j, t.sup.live r = some l ∧ l.sel.p = some j ∧ j.condition = .failed ∧ j.causes.bus = true := by
  obtain ⟨l, live, _, p⟩ := fresh
  have bus : (t.judge f src).causes.bus = true := (deriveCauses_bus_iff _ _ _).2 lost
  refine ⟨l, t.judge f src, live, by rw [p, protect]; rfl, ?_, bus⟩
  rw [State.judge_condition, conditionOf_eq_failed_iff, Causes.any, bus]
  rfl

theorem State.judgesAfresh.working_aligned {t : State} {r : RecIx} {f : Fields} (fresh : t.judgesAfresh r f)
    (aligned : (t.rx f.working.bus).state = .aligned) : ∃ l j, t.sup.live r = some l ∧ l.sel.w = some j ∧ j.causes.bus = false := by
  obtain ⟨l, live, w, _⟩ := fresh
  refine ⟨l, _, live, w, ?_⟩
  show ((t.rx f.working.bus).state != .aligned) = false
  rw [aligned]
  rfl

theorem State.judgesAfresh.protect_aligned {t : State} {r : RecIx} {f : Fields} {src : Source} (fresh : t.judgesAfresh r f)
    (protect : f.protect = some src) (aligned : (t.rx src.bus).state = .aligned) :
    ∃ l j, t.sup.live r = some l ∧ l.sel.p = some j ∧ j.causes.bus = false := by
  obtain ⟨l, live, _, p⟩ := fresh
  refine ⟨l, t.judge f src, live, by rw [p, protect]; rfl, ?_⟩
  show ((t.rx src.bus).state != .aligned) = false
  rw [aligned]
  rfl

/-! ## BUS_SET -/

theorem readSelector_none {b : Byte} (h : 2 < b.toNat) : readSelector b = none := by
  have ne (k : Byte) (small : k.toNat ≤ 2) : b ≠ k := by
    rintro rfl
    omega
  rw [readSelector, if_neg (ne 0 (by decide)), if_neg (ne 1 (by decide)), if_neg (ne 2 (by decide))]

theorem readSense_none {b : Byte} (h : 1 < b.toNat) : readSense b = none := by
  have ne (k : Byte) (small : k.toNat ≤ 1) : b ≠ k := by
    rintro rfl
    omega
  rw [readSense, if_neg (ne 0 (by decide)), if_neg (ne 1 (by decide))]

theorem readScope_none {b : Byte} (h : 1 < b.toNat) : readScope b = none := by
  have ne (k : Byte) (small : k.toNat ≤ 1) : b ≠ k := by
    rintro rfl
    omega
  rw [readScope, if_neg (ne 0 (by decide)), if_neg (ne 1 (by decide))]

theorem readFlag_none {b : Byte} (h : 1 < b.toNat) : readFlag b = none := by
  have ne (k : Byte) (small : k.toNat ≤ 1) : b ≠ k := by
    rintro rfl
    omega
  rw [readFlag, if_neg (ne 0 (by decide)), if_neg (ne 1 (by decide))]

theorem readSelector_bus {b : Byte} (h : b.toNat < 2) : ∃ bus, readSelector b = some (some bus) := by
  by_cases zero : b = 0
  · exact ⟨.A, if_pos zero⟩
  · have one : b = 1 := by
      apply BitVec.eq_of_toNat_eq
      have : b.toNat ≠ 0 := fun h => zero (BitVec.eq_of_toNat_eq h)
      show b.toNat = 1
      omega
    exact ⟨.B, by rw [readSelector, if_neg zero, if_pos one]⟩

theorem performBusSet_bus (s : State) (b : Bus) (enable : Bool) (sense : Sense) (scope : Scope) {threshold : Byte} (given : threshold ≠ 0) :
    performBusSet [busSelector b, byteOfBool enable, sense.byte, scope.byte, threshold] s =
      (s.setBus b enable sense scope threshold, ⟨.ok, []⟩) := by
  unfold performBusSet byteAt
  simp only [List.length_cons, List.length_nil, List.getD_cons_zero, List.getD_cons_succ, readSelector_byte, readSense_byte,
    readScope_byte, readFlag_byte]
  exact if_neg given

theorem performBusSet_egress (s : State) (enable : Byte) (sense : Sense) (scope : Scope) (threshold : Byte) :
    performBusSet [0x02, enable, sense.byte, scope.byte, threshold] s = (s.setEgressParity sense scope, ⟨.ok, []⟩) := by
  unfold performBusSet byteAt
  simp only [List.length_cons, List.length_nil, List.getD_cons_zero, List.getD_cons_succ, readSense_byte, readScope_byte]
  rfl

/-- BUS_SET parameters out of range (R2, R3). -/
def badBusSet (sel enable sense scope threshold : Byte) : Prop :=
  2 < sel.toNat ∨ 1 < sense.toNat ∨ 1 < scope.toNat ∨ (sel.toNat < 2 ∧ (1 < enable.toNat ∨ threshold = 0))

theorem performBusSet_refuses (s : State) {sel enable sense scope threshold : Byte} (bad : badBusSet sel enable sense scope threshold) :
    performBusSet [sel, enable, sense, scope, threshold] s = s.refuseWith .badParam := by
  unfold performBusSet byteAt
  simp only [List.length_cons, List.length_nil, List.getD_cons_zero, List.getD_cons_succ]
  rw [if_neg (by decide)]
  rcases bad with high | high | high | ⟨low, bad⟩
  · rw [readSelector_none high]
  · rw [readSense_none high]
    rcases readSelector sel with _ | _ | _ <;> rfl
  · rw [readScope_none high]
    rcases readSelector sel with _ | _ | _ <;> cases readSense sense <;> rfl
  · obtain ⟨bus, selected⟩ := readSelector_bus low
    rw [selected]
    split
    · rename_i egress _ _
      cases egress
    · split
      · rfl
      · rename_i flag
        refine if_pos (bad.resolve_left fun high => ?_)
        rw [readFlag_none high] at flag
        cases flag
    · rfl

theorem State.setBus_keepsEnable (s : State) (b : Bus) (sense : Sense) (scope : Scope) (threshold : Byte) :
    s.setBus b ((s.rx b).state != .off) sense scope threshold =
      s.setRx b { s.rx b with enable := (s.rx b).state != .off, sense, scope, threshold } := by
  unfold State.setBus
  dsimp only
  cases (s.rx b).state <;> rfl

theorem ReceiverLaw.unaligned_eq {rx : Receiver} (law : ReceiverLaw rx) (notAligned : rx.state ≠ .aligned) (st : BusState) :
    rx.unaligned st = { rx with state := st, candidate := none } := by
  obtain ⟨store, checks, position, frame, fault⟩ := law.unaligned notAligned
  simp [Receiver.unaligned, store, checks, position, frame, fault]

theorem State.setBus_enables {s : State} {b : Bus} (off : (s.rx b).state = .off) (law : ReceiverLaw (s.rx b)) (sense : Sense) (scope : Scope)
    (threshold : Byte) :
    s.setBus b true sense scope threshold =
      State.setRx { s with sup := s.sup.post (.bus b) .align } b { s.rx b with state := .down, enable := true, sense, scope, threshold } := by
  have searching : (s.rx b).candidate = none := law.noCandidate (by rw [off]; decide)
  have down : Receiver.unaligned { s.rx b with enable := true, sense, scope, threshold } .down =
      { s.rx b with state := .down, enable := true, sense, scope, threshold } := by
    obtain ⟨store, checks, position, frame, fault⟩ := law.unaligned (by rw [off]; decide)
    simp [Receiver.unaligned, store, checks, position, frame, fault, searching]
  unfold State.setBus
  dsimp only
  have : ((s.rx b).state == .off) = true := by
    rw [off]
    rfl
  rw [this]
  show (s.setRx b _).enableBus b = _
  rw [State.enableBus, State.setRx_rx, State.setRx_setRx, down]
  cases b <;> rfl

theorem State.setBus_disables {s : State} {b : Bus} (on : (s.rx b).state ≠ .off) (sense : Sense) (scope : Scope) (threshold : Byte) :
    s.setBus b false sense scope threshold =
      (s.setRx b { s.rx b with enable := false, sense, scope, threshold }).disableBus b := by
  unfold State.setBus
  dsimp only
  have : ((s.rx b).state == .off) = false := beq_false_of_ne on
  rw [this]

/-- Settles O15: the branches of BUS_SET for an ingress bus that do not disable it, and the ranges of its parameters. -/
theorem busSetWritesConfiguration : Obligations.BusSetWritesConfiguration := by
  refine ⟨fun s b sense scope threshold ready given => ?keeps, fun s b sense scope threshold ready given off law => ?enables,
    fun s sel enable sense scope threshold ready bad => ?refuses⟩
  case keeps =>
    have performed := performBusSet_bus s b ((s.rx b).state != .off) sense scope given
    rw [State.setBus_keepsEnable] at performed
    exact ⟨exec_performs ready rfl (by simp) nofun nofun performed, exec_performs ready rfl (by simp) nofun nofun performed,
      exec_performs ready rfl (by simp) nofun nofun performed⟩
  case enables =>
    have performed := performBusSet_bus s b true sense scope given
    rw [State.setBus_enables off law] at performed
    exact exec_performs ready rfl (by simp) nofun nofun performed
  case refuses =>
    exact exec_performs ready rfl (by simp) nofun nofun (performBusSet_refuses s bad)

/-- Settles O17: BUS_SET for bus E. -/
theorem egressParitySetWrites : Obligations.EgressParitySetWrites := by
  refine fun s enable threshold ready => ⟨fun sense scope => ?_, fun sense scope bad => ?_⟩
  · exact exec_performs ready rfl (by simp) nofun nofun (performBusSet_egress s enable sense scope threshold)
  · exact exec_performs ready rfl (by simp) nofun nofun (performBusSet_refuses s (.inr (bad.imp_right .inl)))

/-! ## Disable -/

/-- The state of a bus put in OFF before anything is told (log 21). -/
def State.silenced (s : State) (b : Bus) : State :=
  (s.setRx b ((s.rx b).unaligned .off)).setMons b (mapTable (fun m => Monitor.clean m.refs) (s.mons b))

/-- What a disabled bus tells of one slot: the posts and evaluations of the records that name it. -/
def State.offTasks (s : State) (b : Bus) (n : SlotIx) : List Task :=
  let m := s.monitor ⟨b, n⟩
  let records := if m.refs = 0 then [] else s.namers ⟨b, n⟩
  (if m.name.isSome then records.map (fun r => Task.post r .name) else [])
    ++ (if m.rf then records.map (fun r => Task.post r .rfault) else [])
    ++ (if !((s.rx b).state == .aligned) && (m.code.isSome || m.name.isSome) then records.map Task.evaluate else [])

/-- The tasks of a disable (R11). -/
def State.disableTasks (s : State) (b : Bus) : List Task :=
  (List.finRange 48).flatMap (s.offTasks b) ++ if (s.rx b).state == .aligned then s.busEvaluations b else []

theorem State.disableBus_eq (s : State) (b : Bus) : s.disableBus b = ((s.silenced b).runTasks (s.disableTasks b)).postAlign b := by
  cases b <;> rfl

theorem State.silenced_sup (s : State) (b : Bus) : (s.silenced b).sup = s.sup := by
  rw [State.silenced, State.setMons_sup, State.setRx_sup]

theorem State.silenced_supervises (s : State) (b : Bus) : (s.silenced b).Supervises (s.disableBus b) := by
  rw [State.disableBus_eq]
  exact (State.runTasks_supervises _ _).trans (State.postAlign_supervises _ b)

theorem State.disableBus_monitor (s : State) (b : Bus) (n : SlotIx) :
    (s.disableBus b).monitor ⟨b, n⟩ = Monitor.clean (s.monitor ⟨b, n⟩).refs := by
  rw [(s.silenced_supervises b).monitor, State.silenced, State.monitor, State.setMons_mons, pick_mapTable]
  rfl

section
variable {s : State} {b : Bus} {n : SlotIx} {r : RecIx} {l : Live}

theorem State.mem_disableTasks {t : Task} (h : t ∈ s.offTasks b n) : t ∈ s.disableTasks b :=
  List.mem_append_left _ (List.mem_flatMap.2 ⟨n, List.mem_finRange n, h⟩)

theorem State.disableBus_tells {k : Kind} (h : Task.post r k ∈ s.disableTasks b) (hl : s.sup.live r = some l)
    (unmasked : (k.maskable && hasKind l.fields.mask k) = false) : (s.disableBus b).sup.tells (.record r) k := by
  rw [State.disableBus_eq, State.postAlign_sup]
  exact Supervision.post_keeps (State.runTasks_post h (by rw [State.silenced_sup]; exact hl) unmasked)

theorem State.disableBus_judges (h : Task.evaluate r ∈ s.disableTasks b) (hl : s.sup.live r = some l) :
    (s.disableBus b).judgesAfresh r l.fields := by
  have judged : (s.disableBus b).Judged r := by
    rw [State.disableBus_eq]
    exact State.runTask_judged (t := .align b) (State.runTasks_judged h)
  exact judged.afresh (s.disableBus_sameBesideBus b).records hl

theorem State.namer_offTasks (referenced : (s.monitor ⟨b, n⟩).refs ≠ 0) (hl : s.sup.live r = some l) (names : (⟨b, n⟩ : Source) ∈ l.fields.sources) :
    r ∈ if (s.monitor ⟨b, n⟩).refs = 0 then [] else s.namers ⟨b, n⟩ := by
  rw [if_neg referenced]
  exact (State.mem_namers hl).2 names

theorem State.offTasks_name (referenced : (s.monitor ⟨b, n⟩).refs ≠ 0) (hl : s.sup.live r = some l)
    (names : (⟨b, n⟩ : Source) ∈ l.fields.sources) (held : (s.monitor ⟨b, n⟩).name.isSome) : Task.post r .name ∈ s.offTasks b n := by
  rw [State.offTasks]
  rw [if_pos held]
  exact List.mem_append_left _ (List.mem_append_left _ (List.mem_map.2 ⟨r, State.namer_offTasks referenced hl names, rfl⟩))

theorem State.offTasks_rfault (referenced : (s.monitor ⟨b, n⟩).refs ≠ 0) (hl : s.sup.live r = some l)
    (names : (⟨b, n⟩ : Source) ∈ l.fields.sources) (held : (s.monitor ⟨b, n⟩).rf = true) : Task.post r .rfault ∈ s.offTasks b n := by
  rw [State.offTasks]
  rw [if_pos held]
  exact List.mem_append_left _ (List.mem_append_right _ (List.mem_map.2 ⟨r, State.namer_offTasks referenced hl names, rfl⟩))

theorem State.disableTasks_user (aligned : (s.rx b).state = .aligned) (hl : s.sup.live r = some l) {src : Source}
    (names : src ∈ l.fields.sources) (onBus : src.bus = b) : Task.evaluate r ∈ s.disableTasks b := by
  rw [State.disableTasks, aligned]
  exact List.mem_append_right _ (List.mem_map.2 ⟨r, (State.mem_usersOf hl).2 ⟨src, names, onBus⟩, rfl⟩)

theorem State.disableTasks_accepted (referenced : (s.monitor ⟨b, n⟩).refs ≠ 0) (hl : s.sup.live r = some l)
    (names : (⟨b, n⟩ : Source) ∈ l.fields.sources) (held : (s.monitor ⟨b, n⟩).code.isSome ∨ (s.monitor ⟨b, n⟩).name.isSome) :
    Task.evaluate r ∈ s.disableTasks b := by
  by_cases aligned : (s.rx b).state = .aligned
  · exact State.disableTasks_user aligned hl names rfl
  · refine State.mem_disableTasks (n := n) ?_
    rw [State.offTasks]
    have : (!((s.rx b).state == .aligned) && ((s.monitor ⟨b, n⟩).code.isSome || (s.monitor ⟨b, n⟩).name.isSome)) = true := by
      rw [beq_false_of_ne aligned,
        show ((s.monitor ⟨b, n⟩).code.isSome || (s.monitor ⟨b, n⟩).name.isSome) = true by simpa using held]
      rfl
    rw [if_pos this]
    exact List.mem_append_right _ (List.mem_map.2 ⟨r, State.namer_offTasks referenced hl names, rfl⟩)

end

/-- Settles O16: the settings are written, and the tasks of the disable reach every record they name. -/
theorem busDisableClears : Obligations.BusDisableClears := by
  intro s b sense scope threshold ready given on
  refine ⟨(s.setRx b { s.rx b with enable := false, sense, scope, threshold }).disableBus b, ?_, ?_, ?_, ?_, ?_, ?_, ?_⟩
  · have performed := performBusSet_bus s b false sense scope given
    rw [State.setBus_disables on] at performed
    exact exec_performs ready rfl (by simp) nofun nofun performed
  · rw [State.disableBus_rx, State.setRx_rx]
    rfl
  · intro n
    rw [State.disableBus_monitor, State.setRx_monitor]
  · rw [State.disableBus_eq, State.postAlign_sup]
    exact Supervision.post_tells _ _ _
  · intro n r l referenced hl names
    have live : (s.setRx b { s.rx b with enable := false, sense, scope, threshold }).sup.live r = some l := by rwa [State.setRx_sup]
    have monitor := s.setRx_monitor b { s.rx b with enable := false, sense, scope, threshold } ⟨b, n⟩
    generalize s.setRx b { s.rx b with enable := false, sense, scope, threshold } = u at live monitor ⊢
    rw [← monitor] at referenced ⊢
    refine ⟨fun held unmasked => ?_, fun held unmasked => ?_, fun held => ?_⟩
    · exact State.disableBus_tells (State.mem_disableTasks (State.offTasks_name referenced live names held)) live unmasked
    · exact State.disableBus_tells (State.mem_disableTasks (State.offTasks_rfault referenced live names held)) live unmasked
    · exact State.disableBus_judges (State.disableTasks_accepted referenced live names held) live
  · intro aligned
    have live {r : RecIx} {l : Live} (hl : s.sup.live r = some l) :
        (s.setRx b { s.rx b with enable := false, sense, scope, threshold }).sup.live r = some l := by rwa [State.setRx_sup]
    have aligned : ((s.setRx b { s.rx b with enable := false, sense, scope, threshold }).rx b).state = .aligned := by
      rw [State.setRx_rx]
      exact aligned
    generalize s.setRx b { s.rx b with enable := false, sense, scope, threshold } = u at live aligned ⊢
    have off : ((u.disableBus b).rx b).state ≠ .aligned := by
      rw [State.disableBus_rx]
      exact nofun
    refine ⟨fun r l hl onBus => ?_, fun r l src hl protect onBus => ?_⟩
    · exact (State.disableBus_judges (State.disableTasks_user aligned (live hl) l.fields.working_mem onBus) (live hl)).working_failed
        (onBus ▸ off)
    · exact (State.disableBus_judges (State.disableTasks_user aligned (live hl) (Fields.protect_mem protect) onBus) (live hl)).protect_failed
        protect (onBus ▸ off)
  · exact (s.setRx_sameBesideBus b _).trans (State.disableBus_sameBesideBus _ b)

end Sys2Proof.Machine
end

section
/-! SUPPORT. R43, R44: what a slot-frame handed to a monitor tells the records, and nothing else. -/
namespace Sys2Proof.Machine

/-! ## Where a notice comes from -/

theorem hasKind_or (a b : Byte) (k : Kind) : hasKind (a ||| b) k = (hasKind a k || hasKind b k) := by
  have split : (a ||| b) &&& k.bit = (a &&& k.bit) ||| (b &&& k.bit) :=
    BitVec.eq_of_getLsbD_eq fun i _ => by simp only [BitVec.getLsbD_and, BitVec.getLsbD_or, Bool.and_or_distrib_right]
  have zero {x y : Byte} : x ||| y = 0 ↔ x = 0 ∧ y = 0 := BitVec.or_eq_zero_iff
  rw [Bool.eq_iff_iff]
  simp only [hasKind, bne_iff_ne, ne_eq, Bool.or_eq_true, split]
  rw [zero, not_and_or]

theorem addNotice_only {x y : Subject} {g : Option Byte} {j k : Kind} {xs : List Entry}
    (h : ∃ e ∈ addNotice x g j xs, e.subject = y ∧ hasKind e.kinds k = true) :
    (∃ e ∈ xs, e.subject = y ∧ hasKind e.kinds k = true) ∨ (x = y ∧ hasKind j.bit k = true) := by
  obtain ⟨e, he, subject, kind⟩ := h
  rcases mem_addNotice he with ⟨old, _⟩ | ⟨old, _⟩ | ⟨e', old, same, rfl⟩ | ⟨_, rfl⟩
  · exact .inl ⟨e, old, subject, kind⟩
  · exact .inl ⟨e, old, subject, kind⟩
  · dsimp only at kind subject
    rw [hasKind_or, Bool.or_eq_true] at kind
    exact kind.imp (fun kind => ⟨e', old, subject, kind⟩) fun kind => ⟨same.symm.trans subject, kind⟩
  · exact .inr ⟨subject, kind⟩

theorem Supervision.postRecord_only {u : Supervision} {r : RecIx} {j k : Kind} {y : Subject} (h : (u.postRecord r j).tells y k) :
    u.tells y k ∨ (y = .record r ∧ hasKind j.bit k = true ∧ u.masks r j = false) := by
  unfold Supervision.postRecord at h
  split at h
  · exact .inl h
  · rename_i unmasked
    exact (addNotice_only h).imp_right fun ⟨subject, kind⟩ => ⟨subject.symm, kind, Bool.eq_false_iff.2 unmasked⟩

theorem Supervision.postIf_only {u : Supervision} {arose : Bool} {r : RecIx} {j k : Kind} {y : Subject} (other : hasKind j.bit k = false)
    (h : (u.postIf arose r j).tells y k) : u.tells y k := by
  unfold Supervision.postIf at h
  split at h
  · exact (Supervision.postRecord_only h).resolve_right fun ⟨_, kind, _⟩ => nomatch kind.symm.trans other
  · exact h

/-- An evaluation tells neither NAME nor RFAULT. -/
theorem Supervision.evaluate_only {u : Supervision} {r : RecIx} {expiry : Bool} {w : Judgement} {p : Option Judgement} {y : Subject}
    {k : Kind} (monitors : k = .name ∨ k = .rfault) (h : (u.evaluate r expiry w p).tells y k) : u.tells y k := by
  have other {j : Kind} (hj : j = .cond ∨ j = .select ∨ j = .steerDrop ∨ j = .timerShort) : hasKind j.bit k = false := by
    rcases monitors with rfl | rfl <;> rcases hj with rfl | rfl | rfl | rfl <;> rfl
  unfold Supervision.evaluate at h
  split at h
  · exact h
  · rename_i l _
    have h := Supervision.postIf_only (other (.inr (.inr (.inr rfl)))) h
    have h := Supervision.postIf_only (other (.inr (.inr (.inl rfl)))) h
    have h := Supervision.postIf_only (other (.inr (.inl rfl))) h
    have h := Supervision.postIf_only (other (.inl rfl)) h
    have settled := (Supervision.settle_selectorsOnly (u.modSel r (fun x => { x with w := some w, p := p })) r expiry l.fields
      { l.sel with w := some w, p := p } (meritOf l.fields.degradeSwitch (some w)) (meritOf l.fields.degradeSwitch p)).notices
    have settled : _ = u.notices := settled
    unfold Supervision.tells at h ⊢
    rw [← settled]
    split at h <;> exact h

theorem State.evaluate_only {s : State} {r : RecIx} {y : Subject} {k : Kind} (monitors : k = .name ∨ k = .rfault)
    (h : (s.evaluate r).sup.tells y k) : s.sup.tells y k := by
  unfold State.evaluate State.evaluateBy at h
  split at h
  · exact h
  · exact Supervision.evaluate_only monitors h

theorem State.runTask_only {s : State} {t : Task} {r : RecIx} {k : Kind} (monitors : k = .name ∨ k = .rfault)
    (h : (s.runTask t).sup.tells (.record r) k) : s.sup.tells (.record r) k ∨ (t = .post r k ∧ s.sup.masks r k = false) := by
  cases t with
  | evaluate q => exact .inl (State.evaluate_only monitors h)
  | align b => exact .inl ((addNotice_only h).resolve_right fun ⟨subject, _⟩ => nomatch subject)
  | post q j =>
    refine (Supervision.postRecord_only h).imp_right fun ⟨subject, kind, unmasked⟩ => ?_
    have same : j = k := by rcases monitors with rfl | rfl <;> revert kind <;> cases j <;> decide
    cases subject
    cases same
    exact ⟨rfl, unmasked⟩

/-- NAME and RFAULT come from their own tasks alone. -/
theorem State.runTasks_only {s : State} {ts : List Task} {r : RecIx} {k : Kind} (monitors : k = .name ∨ k = .rfault)
    (h : (s.runTasks ts).sup.tells (.record r) k) :
    s.sup.tells (.record r) k ∨ (Task.post r k ∈ ts ∧ ∀ l, s.sup.live r = some l → hasKind l.fields.mask k = false) := by
  have kept := State.runTasks_keep (ts := ts) (s := s)
    (P := fun t => s.sup.sameRecords t.sup ∧ (t.sup.tells (.record r) k →
      s.sup.tells (.record r) k ∨ (Task.post r k ∈ ts ∧ ∀ l, s.sup.live r = some l → hasKind l.fields.mask k = false)))
    (fun task ht t ⟨records, only⟩ => ⟨Supervision.sameRecords_trans records (State.runTask_supervises t task).records, fun told => by
      rcases State.runTask_only monitors told with told | ⟨rfl, unmasked⟩
      · exact only told
      · refine .inr ⟨ht, fun l hl => ?_⟩
        obtain ⟨x, live⟩ := Supervision.sameRecords_live records hl
        have maskable : k.maskable = true := by rcases monitors with rfl | rfl <;> rfl
        rw [Supervision.masks, maskable, live] at unmasked
        exact unmasked⟩)
    (fun _ _ h => h) ⟨Supervision.sameRecords_refl _, .inl⟩
  exact kept.2 h

/-! ## A slot-frame handed on -/

theorem State.mem_namers_iff {s : State} {src : Source} {r : RecIx} :
    r ∈ s.namers src ↔ ∃ l, s.sup.live r = some l ∧ src ∈ l.fields.sources := by
  cases live : s.sup.live r with
  | none => simp [State.namers, live]
  | some l => simp [State.mem_namers live]

/-- The tasks a slot-frame causes where the slot's monitor passes from `old` to `new` (R43, R44). -/
def frameTasks (namers : List RecIx) (old new : Monitor) : List Task :=
  (if old.name != new.name then namers.map (fun r => Task.post r .name) else [])
    ++ (if old.rf != new.rf then namers.map (fun r => Task.post r .rfault) else [])
    ++ (if old.reports new then namers.map Task.evaluate else [])

section
variable {namers : List RecIx} {old new : Monitor} {r : RecIx}

theorem frameTasks_name : Task.post r .name ∈ frameTasks namers old new ↔ r ∈ namers ∧ new.name ≠ old.name := by
  unfold frameTasks
  by_cases same : old.name = new.name
  · simp [same]
  · simp [same, Ne.symm same]

theorem frameTasks_rfault : Task.post r .rfault ∈ frameTasks namers old new ↔ r ∈ namers ∧ new.rf ≠ old.rf := by
  unfold frameTasks
  by_cases same : old.rf = new.rf
  · simp [same]
  · simp [same, Ne.symm same]

theorem frameTasks_evaluate (named : r ∈ namers) (reports : old.reports new = true) : Task.evaluate r ∈ frameTasks namers old new :=
  List.mem_append_right _ (by rw [if_pos reports]; exact List.mem_map.2 ⟨r, named, rfl⟩)

theorem frameTasks_none (name : new.name = old.name) (rf : new.rf = old.rf) (silent : old.reports new = false) :
    frameTasks namers old new = [] := by simp [frameTasks, name, rf, silent]

theorem Monitor.reports_iff : old.reports new = true ↔
    new.filled ≠ old.filled ∨ new.framed ≠ old.framed ∨ new.code ≠ old.code ∨ new.name ≠ old.name ∨ new.degraded ≠ old.degraded := by
  simp only [Monitor.reports, Bool.or_eq_true, bne_iff_ne, or_assoc, ne_comm]

end

theorem State.handFrame_eq (s : State) (b : Bus) (n : SlotIx) (frame : SlotFrame) :
    s.handFrame b n frame =
      (s.setMonitor ⟨b, n⟩ ((s.monitor ⟨b, n⟩).take (s.rx b).threshold frame)).runTasks
        (frameTasks ((s.setMonitor ⟨b, n⟩ ((s.monitor ⟨b, n⟩).take (s.rx b).threshold frame)).namers ⟨b, n⟩) (s.monitor ⟨b, n⟩)
          ((s.monitor ⟨b, n⟩).take (s.rx b).threshold frame)) := rfl

theorem State.handFrame_monitor (s : State) (b : Bus) (n : SlotIx) (frame : SlotFrame) :
    (s.handFrame b n frame).monitor ⟨b, n⟩ = (s.monitor ⟨b, n⟩).take (s.rx b).threshold frame := by
  rw [State.handFrame_eq, (State.runTasks_supervises _ _).monitor, State.setMonitor_same]

theorem State.handFrame_monitor_ne (s : State) (b : Bus) {n m : SlotIx} (frame : SlotFrame) (other : m ≠ n) :
    (s.handFrame b n frame).monitor ⟨b, m⟩ = s.monitor ⟨b, m⟩ := by
  rw [State.handFrame_eq, (State.runTasks_supervises _ _).monitor,
    State.setMonitor_ne _ _ fun same => other (congrArg Source.slot same).symm]

theorem State.handFrame_hears (s : State) (b : Bus) (n : SlotIx) (frame : SlotFrame) : s.hears (s.handFrame b n frame) ⟨b, n⟩ := by
  have records := (s.handFrame_sameBesideBus b n frame).records
  have monitor := s.handFrame_monitor b n frame
  have sup := s.setMonitor_sup ⟨b, n⟩ ((s.monitor ⟨b, n⟩).take (s.rx b).threshold frame)
  have handed := s.handFrame_eq b n frame
  generalize s.handFrame b n frame = t at records monitor handed ⊢
  generalize s.setMonitor ⟨b, n⟩ ((s.monitor ⟨b, n⟩).take (s.rx b).threshold frame) = u at sup handed
  rw [← monitor] at handed
  have named {r : RecIx} {l : Live} (hl : s.sup.live r = some l) (names : (⟨b, n⟩ : Source) ∈ l.fields.sources) : r ∈ u.namers ⟨b, n⟩ :=
    State.mem_namers_iff.2 ⟨l, sup ▸ hl, names⟩
  have only {r : RecIx} {k : Kind} (monitors : k = .name ∨ k = .rfault) (told : t.sup.tells (.record r) k) :
      s.sup.tells (.record r) k ∨ (Task.post r k ∈ frameTasks (u.namers ⟨b, n⟩) (s.monitor ⟨b, n⟩) (t.monitor ⟨b, n⟩) ∧
        ∀ l, s.sup.live r = some l → hasKind l.fields.mask k = false) := by
    rw [handed] at told
    exact sup ▸ State.runTasks_only monitors told
  have masked {r : RecIx} {k : Kind} (named : r ∈ u.namers ⟨b, n⟩) (unmasked : ∀ l, s.sup.live r = some l → hasKind l.fields.mask k = false) :
      ∃ l, s.sup.live r = some l ∧ (⟨b, n⟩ : Source) ∈ l.fields.sources ∧ hasKind l.fields.mask k = false := by
    obtain ⟨l, hl, names⟩ := State.mem_namers_iff.1 named
    exact ⟨l, sup ▸ hl, names, unmasked l (sup ▸ hl)⟩
  refine ⟨fun r l hl names changed => ?_, fun r l hl names unmasked changed => ?_, fun r l hl names unmasked changed => ?_,
    fun r told => ?_, fun r told => ?_, fun filled framed code name degraded rf => ?_⟩
  · have judged : t.Judged r := by
      rw [handed]
      exact State.runTasks_judged (frameTasks_evaluate (named hl names) (Monitor.reports_iff.2 changed))
    exact judged.afresh records hl
  · rw [handed]
    exact State.runTasks_post (frameTasks_name.2 ⟨named hl names, changed⟩) (sup ▸ hl) unmasked
  · rw [handed]
    exact State.runTasks_post (frameTasks_rfault.2 ⟨named hl names, changed⟩) (sup ▸ hl) unmasked
  · refine (only (.inl rfl) told).imp_right fun ⟨posted, unmasked⟩ => ?_
    obtain ⟨named, changed⟩ := frameTasks_name.1 posted
    exact ⟨changed, masked named unmasked⟩
  · refine (only (.inr rfl) told).imp_right fun ⟨posted, unmasked⟩ => ?_
    obtain ⟨named, changed⟩ := frameTasks_rfault.1 posted
    exact ⟨changed, masked named unmasked⟩
  · have silent : (s.monitor ⟨b, n⟩).reports (t.monitor ⟨b, n⟩) = false := by
      rw [Bool.eq_false_iff, ne_eq, Monitor.reports_iff]
      simp [filled, framed, code, name, degraded]
    rw [frameTasks_none name rf silent] at handed
    rw [handed]
    exact sup

theorem State.hears.congr {s s' t : State} {src : Source} (h : s'.hears t src) (sup : s'.sup = s.sup)
    (monitor : s'.monitor src = s.monitor src) : s.hears t src where
  judged := by rw [← sup, ← monitor]; exact h.judged
  name := by rw [← sup, ← monitor]; exact h.name
  rfault := by rw [← sup, ← monitor]; exact h.rfault
  onlyName := by rw [← sup, ← monitor]; exact h.onlyName
  onlyRfault := by rw [← sup, ← monitor]; exact h.onlyRfault
  quiet := by rw [← sup, ← monitor]; exact h.quiet

end Sys2Proof.Machine
end

section
/-! SUPPORT. R4 to R10, R14: the receivers of the ingress buses, word by word. -/
namespace Sys2Proof.Machine

/-! ## Search and alignment -/

theorem State.post_setRx (s : State) (b : Bus) (rx : Receiver) :
    (s.setRx b rx).postAlign b = State.setRx { s with sup := s.sup.post (.bus b) .align } b rx := by cases b <;> rfl

section
variable {s : State} {b : Bus} {w : IngressWord}

theorem State.takeWord_down (down : (s.rx b).state = .down) : s.takeWord b w = (s.setRx b ((s.rx b).unaligned .seek)).postAlign b := by
  rw [State.takeWord, down]

theorem State.takeWord_seek (seek : (s.rx b).state = .seek) : s.takeWord b w = s.searchWord b w := by
  rw [State.takeWord, seek]

theorem State.takeWord_check (aligned : (s.rx b).state = .aligned) (last : (s.rx b).framePos = 1151) : s.takeWord b w = s.checkFrame b w := by
  rw [State.takeWord, aligned]
  exact if_pos (by rw [last]; rfl)

theorem State.takeWord_fill (aligned : (s.rx b).state = .aligned) (notLast : (s.rx b).framePos + 1 ≠ 1152) :
    s.takeWord b w = s.fillFrame b w := by
  rw [State.takeWord, aligned]
  exact if_neg notLast

theorem State.searchWord_opens (none : (s.rx b).candidate = none) :
    s.searchWord b w = if w.fs && w.ss then s.setRx b { s.rx b with candidate := some 0 } else s := by
  unfold State.searchWord
  dsimp only
  rw [none]

theorem State.searchWord_counts {c : Nat} (candidate : (s.rx b).candidate = some c) (early : c + 1 < 1152) :
    s.searchWord b w = s.setRx b { s.rx b with candidate := some (if w.fs && w.ss then 0 else c + 1) } := by
  unfold State.searchWord
  dsimp only
  rw [candidate]
  exact if_pos early

theorem State.searchWord_confirms (candidate : (s.rx b).candidate = some 1151) (start : (w.fs && w.ss) = true) :
    s.searchWord b w = s.enterAligned b w := by
  unfold State.searchWord
  dsimp only
  rw [candidate, start]
  rfl

theorem State.searchWord_discards (candidate : (s.rx b).candidate = some 1151) (other : (w.fs && w.ss) = false) :
    s.searchWord b w = s.setRx b { s.rx b with candidate := none } := by
  unfold State.searchWord
  dsimp only
  rw [candidate, other]
  rfl

end

/-- Settles O19: the edge that ends DOWN, and the branches of the search. -/
theorem searchFollowsCandidate : Obligations.SearchFollowsCandidate := by
  refine ⟨fun s b w down law => ?_, fun s b w seek => ⟨fun none => ?_, fun c candidate early => ?_, fun candidate other => ?_⟩⟩
  · show Host.Outcome.next (s.takeWord b w) = _
    rw [State.takeWord_down down, law.unaligned_eq (by rw [down]; decide), State.post_setRx]
    rfl
  · show Host.Outcome.next (s.takeWord b w) = _
    rw [State.takeWord_seek seek, State.searchWord_opens none]
  · show Host.Outcome.next (s.takeWord b w) = _
    rw [State.takeWord_seek seek, State.searchWord_counts candidate early]
  · show Host.Outcome.next (s.takeWord b w) = _
    rw [State.takeWord_seek seek, State.searchWord_discards candidate other]

/-- Settles O18: the four bus states in which the clock is lost. -/
theorem clockLossEntersDown : Obligations.ClockLossEntersDown := by
  refine ⟨fun s b => ⟨fun still => ?_, fun seek law => ?_⟩, fun s b aligned => ?_⟩
  · show Host.Outcome.next (s.loseClock b) = _
    rcases still with h | h <;> rw [State.loseClock, h]
  · show Host.Outcome.next (s.loseClock b) = _
    rw [State.loseClock, seek]
    dsimp only
    rw [law.unaligned_eq (by rw [seek]; decide), State.post_setRx]
    rfl
  · obtain ⟨receiver, monitors, told, judged⟩ := s.loseAlignment_leaves b .down
    have beside := s.loseAlignment_sameBesideBus b .down
    have monitor (n : SlotIx) : (s.loseAlignment b .down).monitor ⟨b, n⟩ = (s.monitor ⟨b, n⟩).alignReset := by
      rw [State.monitor, monitors, pick_mapTable]
      rfl
    have lost : ((s.loseAlignment b .down).rx b).state ≠ .aligned := by
      rw [receiver]
      exact nofun
    refine ⟨s.loseAlignment b .down, ?_, receiver, fun n referenced => ?_, fun n unreferenced => ?_, told, fun r l hl onBus => ?_,
      fun r l src hl protect onBus => ?_, beside⟩
    · show Host.Outcome.next (s.loseClock b) = _
      rw [State.loseClock, aligned]
    · rw [monitor, Monitor.alignReset, if_neg referenced]
    · rw [monitor, Monitor.alignReset, if_pos unreferenced]
    · exact ((judged r l hl ⟨_, l.fields.working_mem, onBus⟩).afresh beside.records hl).working_failed (onBus ▸ lost)
    · exact ((judged r l hl ⟨_, Fields.protect_mem protect, onBus⟩).afresh beside.records hl).protect_failed protect (onBus ▸ lost)

/-- The word of slot 0's header is placed in a receiver. -/
theorem Receiver.place_zero (rx : Receiver) (w : IngressWord) :
    rx.place 0 w =
      { rx with
        framePos := 0
        partialFrame := some (rx.openFrame w)
        parityErrored := if passesParity rx.sense rx.scope w then rx.parityErrored else satInc rx.parityErrored } := by
  unfold Receiver.place Receiver.failsParity Receiver.extendFrame
  cases passesParity rx.sense rx.scope w <;> rfl

theorem State.enterAligned_judged (s : State) {b : Bus} (w : IngressWord) {r : RecIx} {l : Live} (hl : s.sup.live r = some l) {src : Source}
    (names : src ∈ l.fields.sources) (onBus : src.bus = b) : (s.enterAligned b w).judgesAfresh r l.fields := by
  have live : (s.setRx b (((s.rx b).unaligned .aligned).place 0 w)).sup.live r = some l := by rwa [State.setRx_sup]
  have judged : (s.enterAligned b w).Judged r :=
    State.runTasks_judged (List.mem_cons_of_mem _ (List.mem_map.2 ⟨r, (State.mem_usersOf live).2 ⟨src, names, onBus⟩, rfl⟩))
  exact judged.afresh ((s.setRx_sameBesideBus b _).trans (State.runTasks_sameBesideBus _ _ b)).records hl

/-- Settles O20: the receiver placed at position 0, and the tasks of the alignment. -/
theorem alignConfirmEntersAligned : Obligations.AlignConfirmEntersAligned := by
  intro s b w seek candidate fs ss
  have supervises := State.runTasks_supervises (s.setRx b (((s.rx b).unaligned .aligned).place 0 w))
    (.align b :: (s.setRx b (((s.rx b).unaligned .aligned).place 0 w)).busEvaluations b)
  have receiver : (s.enterAligned b w).rx b = ((s.rx b).unaligned .aligned).place 0 w := (supervises.rx b).trans (s.setRx_rx b _)
  have aligned : ((s.enterAligned b w).rx b).state = .aligned := by
    rw [receiver]
    rfl
  refine ⟨s.enterAligned b w, ?_, aligned, ?_, ?_, ?_, ?_, fun n => ?_, ?_, ?_, ?_, ?_, ?_, ?_, fun r l hl onBus => ?_,
    fun r l src hl protect onBus => ?_, (s.setRx_sameBesideBus b _).trans (State.runTasks_sameBesideBus _ _ b)⟩
  · show Host.Outcome.next (s.takeWord b w) = _
    rw [State.takeWord_seek seek, State.searchWord_confirms candidate (by rw [fs, ss]; rfl)]
  · rw [receiver]
    rfl
  · rw [receiver]
    rfl
  · rw [receiver]
    rfl
  · rw [receiver]
    rfl
  · rw [receiver]
    exact pick_replicate none n
  · rw [receiver]
    rfl
  · rw [receiver, Receiver.place_zero]
    rfl
  · rw [receiver]
    rfl
  · rw [receiver]
    rfl
  · exact (supervises.mons b).trans (s.setRx_mons b b _)
  · exact State.runTasks_align (List.mem_cons_self ..)
  · exact (s.enterAligned_judged w hl l.fields.working_mem onBus).working_aligned (onBus ▸ aligned)
  · exact (s.enterAligned_judged w hl (Fields.protect_mem protect) onBus).protect_aligned protect (onBus ▸ aligned)

/-! ## Frame checks -/

/-- Settles O21: a check short of the third bad one. -/
theorem frameCheckCounts : Obligations.FrameCheckCounts := by
  intro s b w aligned last bad few
  show Host.Outcome.next (s.takeWord b w) = _
  rw [State.takeWord_check aligned last, State.checkFrame, Receiver.place_zero]
  dsimp only
  have same : (s.rx b).badCheck w = bad := rfl
  rw [same]
  cases failed : bad with
  | false => rfl
  | true => rw [if_pos rfl, if_neg (by have := few failed; omega)]; rfl

/-- Settles O22: the third bad check in a row is a loss of alignment. -/
theorem thirdBadCheckLosesAlignment : Obligations.ThirdBadCheckLosesAlignment := by
  intro s b w aligned last third wrong
  have bad : (s.rx b).badCheck w = true := by
    rw [Receiver.badCheck]
    rcases wrong with h | h | h <;> simp [h]
  have checked : ∃ rx : Receiver, s.takeWord b w = (s.setRx b rx).loseAlignment b .seek ∧
      rx.badFrameChecks = satInc (s.rx b).badFrameChecks ∧ rx.alignLosses = (s.rx b).alignLosses := by
    refine ⟨{ (s.rx b).place 0 w with badFrameChecks := satInc (s.rx b).badFrameChecks, frameFault := false }, ?_, rfl, rfl⟩
    rw [State.takeWord_check aligned last, State.checkFrame]
    dsimp only
    rw [if_pos bad, if_pos (by rw [third])]
  obtain ⟨rx, taken, checks, losses⟩ := checked
  obtain ⟨receiver, monitors, told, judged⟩ := (s.setRx b rx).loseAlignment_leaves b .seek
  have beside := (s.setRx_sameBesideBus b rx).trans ((s.setRx b rx).loseAlignment_sameBesideBus b .seek)
  rw [State.setRx_rx] at receiver
  rw [State.setRx_mons] at monitors
  rw [State.setRx_sup] at judged
  have lost : (((s.setRx b rx).loseAlignment b .seek).rx b).state ≠ .aligned := by
    rw [receiver]
    exact nofun
  refine ⟨(s.setRx b rx).loseAlignment b .seek, congrArg _ taken, ?_, ?_, ?_, ?_, ?_, fun n => ?_, ?_, ?_, fun n => ?_, told,
    fun r l hl onBus => ?_, fun r l src hl protect onBus => ?_, beside⟩
  · rw [receiver]
    rfl
  · rw [receiver]
    rfl
  · rw [receiver]
    rfl
  · rw [receiver]
    rfl
  · rw [receiver]
    rfl
  · rw [receiver]
    exact pick_replicate none n
  · rw [receiver]
    exact checks
  · rw [receiver, losses]
  · rw [State.monitor, monitors, pick_mapTable]
    rfl
  · exact ((judged r l hl ⟨_, l.fields.working_mem, onBus⟩).afresh beside.records hl).working_failed (onBus ▸ lost)
  · exact ((judged r l hl ⟨_, Fields.protect_mem protect, onBus⟩).afresh beside.records hl).protect_failed protect (onBus ▸ lost)

/-! ## Slot-frames -/

theorem satAdd_add {n : Nat} (c : BitVec n) (j k : Nat) : satAdd c (j + k) = satAdd (satAdd c j) k := by
  induction j generalizing c with
  | zero => rw [Nat.zero_add]; rfl
  | succ j ih =>
    rw [Nat.succ_add]
    exact ih (satInc c)

theorem State.completeFrame_of {s : State} {b : Bus} {pf : PartialFrame} (held : (s.rx b).partialFrame = some pf) (n : SlotIx) :
    s.completeFrame b n =
      (s.setRx b { s.rx b with partialFrame := none, store := put (s.rx b).store n (some pf.frame) }).handFrame b n pf.frame := by
  unfold State.completeFrame
  rw [held]

section
variable {s : State} {b : Bus} {w : IngressWord}

/-- The last word of a slot completes its slot-frame. -/
theorem State.takeWord_last {n : SlotIx} {pf : PartialFrame} (aligned : (s.rx b).state = .aligned)
    (position : (s.rx b).framePos + 1 = 24 * n.val + 23) (held : (s.rx b).partialFrame = some pf) (notLast : (s.rx b).framePos + 1 ≠ 1152) :
    s.takeWord b w =
      (s.setRx b
        { s.rx b with
          framePos := 24 * n.val + 23
          frameFault := (s.rx b).frameFault || w.fs || w.ss
          partialFrame := none
          store := put (s.rx b).store n (some (pf.add w).frame)
          parityErrored := if passesParity pf.sense pf.scope w then (s.rx b).parityErrored else satInc (s.rx b).parityErrored }).handFrame
        b n (pf.add w).frame := by
  have ends : (24 * n.val + 23) % 24 = 23 := by omega
  have slot : (24 * n.val + 23) / 24 = n.val := by omega
  have placed : (s.rx b).place (24 * n.val + 23) w =
      { s.rx b with
        framePos := 24 * n.val + 23
        partialFrame := some (pf.add w)
        parityErrored := if passesParity pf.sense pf.scope w then (s.rx b).parityErrored else satInc (s.rx b).parityErrored } := by
    simp only [Receiver.place, Receiver.failsParity, Receiver.extendFrame, ends, held, Option.map_some]
    cases passesParity pf.sense pf.scope w <;> rfl
  have fault : lineFault (24 * n.val + 23) w = (w.fs || w.ss) := by
    rw [lineFault, ends]
    cases w.ss <;> rfl
  rw [State.takeWord_fill aligned notLast, State.fillFrame]
  dsimp only
  rw [position, if_pos ends, slot, readSlot_val, placed, fault]
  dsimp only
  rw [State.completeFrame_of (by rw [State.setRx_rx]), State.setRx_rx, State.setRx_setRx, Bool.or_assoc]

/-- A word short of a frame's end leaves ALIGNED, moves the position on, and its line faults are kept (R8). -/
theorem State.takeWord_position (aligned : (s.rx b).state = .aligned) (notLast : (s.rx b).framePos + 1 ≠ 1152) :
    ((s.takeWord b w).rx b).state = .aligned ∧ ((s.takeWord b w).rx b).framePos = (s.rx b).framePos + 1 ∧
      ((s.takeWord b w).rx b).frameFault = ((s.rx b).frameFault || lineFault ((s.rx b).framePos + 1) w) := by
  rw [State.takeWord_fill aligned notLast, State.fillFrame]
  dsimp only
  generalize (s.rx b).framePos + 1 = pos
  have placed (rx : Receiver) (h : rx = { (s.rx b).place pos w with frameFault := (s.rx b).frameFault || lineFault pos w }) :
      rx.state = .aligned ∧ rx.framePos = pos ∧ rx.frameFault = ((s.rx b).frameFault || lineFault pos w) := by
    rw [h]
    exact ⟨aligned, rfl, rfl⟩
  split
  · split
    · unfold State.completeFrame
      split
      · exact placed _ (State.setRx_rx ..)
      · rw [State.handFrame_rx, State.setRx_rx, State.setRx_rx]
        exact ⟨aligned, rfl, rfl⟩
    · exact placed _ (State.setRx_rx ..)
  · exact placed _ (State.setRx_rx ..)

end

/-- Line faults of the payload words of one slot. -/
theorem State.takeWords_fault (b : Bus) (ws : List IngressWord) {s : State} (aligned : (s.rx b).state = .aligned)
    (inside : (s.rx b).framePos % 24 + ws.length ≤ 23) (inFrame : (s.rx b).framePos < 1152) :
    ((s.takeWords b ws).rx b).frameFault = ((s.rx b).frameFault || ws.any (fun x => x.fs || x.ss)) := by
  induction ws generalizing s with
  | nil => exact (Bool.or_false _).symm
  | cons w ws ih =>
    rw [List.length_cons] at inside
    obtain ⟨aligned', position, fault⟩ := State.takeWord_position (w := w) aligned (by omega)
    have payload : lineFault ((s.rx b).framePos + 1) w = (w.fs || w.ss) := by
      rw [lineFault, beq_false_of_ne (show ((s.rx b).framePos + 1) % 24 ≠ 0 by omega)]
      cases w.ss <;> rfl
    show (((s.takeWord b w).takeWords b ws).rx b).frameFault = _
    rw [ih aligned' (by rw [position]; omega) (by rw [position]; omega), fault, payload, List.any_cons, Bool.or_assoc]

theorem State.takeWords_append (s : State) (b : Bus) (xs ys : List IngressWord) :
    s.takeWords b (xs ++ ys) = (s.takeWords b xs).takeWords b ys := List.foldl_append

/-- The 23 payload words of a slot, after its header word, complete its slot-frame. -/
theorem State.takeWords_completes {s : State} {b : Bus} {n : SlotIx} {pf : PartialFrame} {ws : List IngressWord}
    (aligned : (s.rx b).state = .aligned) (position : (s.rx b).framePos = 24 * n.val) (held : (s.rx b).partialFrame = some pf)
    (length : ws.length = 23) :
    s.takeWords b ws =
      (s.setRx b
        { s.rx b with
          framePos := 24 * n.val + 23
          frameFault := (s.rx b).frameFault || ws.any (fun x => x.fs || x.ss)
          partialFrame := none
          store := put (s.rx b).store n (some (pf.addAll ws).frame)
          parityErrored := satAdd (s.rx b).parityErrored (ws.countP (fun x => !passesParity pf.sense pf.scope x)) }).handFrame
        b n (pf.addAll ws).frame := by
  have small := n.isLt
  obtain ⟨first, last, rfl⟩ := List.eq_nil_or_concat' ws |>.resolve_left (by rintro rfl; cases length)
  have length : first.length = 22 := by simpa using length
  have fault := State.takeWords_fault b first aligned (by omega) (by omega)
  obtain ⟨_, taken⟩ := State.takeWords_payload b first aligned held (by omega) (by omega)
  rw [taken, State.setRx_rx] at fault
  dsimp only at fault
  subst fault
  have settings : (pf.addAll first).sense = pf.sense ∧ (pf.addAll first).scope = pf.scope := by
    rw [PartialFrame.addAll_eq]
    exact ⟨rfl, rfl⟩
  obtain ⟨sense, scope⟩ := settings
  have whole : pf.addAll (first ++ [last]) = (pf.addAll first).add last := List.foldl_append
  rw [State.takeWords_append, taken]
  show State.takeWord _ b last = _
  rw [State.takeWord_last (n := n) (pf := pf.addAll first) (by rw [State.setRx_rx]; exact aligned)
    (by rw [State.setRx_rx]; show (s.rx b).framePos + _ + 1 = _; omega) (by rw [State.setRx_rx])
    (by rw [State.setRx_rx]; show (s.rx b).framePos + _ + 1 ≠ _; omega), State.setRx_rx, State.setRx_setRx, whole, sense, scope]
  congr 2
  rw [List.any_append, List.countP_append, satAdd_add, List.countP_singleton, List.any_cons, List.any_nil, Bool.or_false,
    Bool.or_assoc, Bool.or_assoc]
  cases passesParity pf.sense pf.scope last <;> rfl

/-- Settles O23: header word, payload words, and what the completed slot-frame tells. -/
theorem slotFrameStoredWhole : Obligations.SlotFrameStoredWhole := by
  intro s b n w ws aligned position length frame
  have small := n.isLt
  obtain ⟨fault, opened⟩ := State.takeWord_header w aligned (by omega) (by omega)
  obtain ⟨_, _, faults⟩ := State.takeWord_position (w := w) aligned (by omega)
  have headerFault : lineFault ((s.rx b).framePos + 1) w = (w.fs || !w.ss) := by
    rw [lineFault, position, show (24 * n.val % 24 == 0) = true by simp]
    cases w.ss <;> rfl
  rw [opened, State.setRx_rx, headerFault] at faults
  dsimp only at faults
  subst faults
  have whole : (((s.rx b).openFrame w).addAll ws).frame = frame := by
    rw [PartialFrame.addAll_eq]
    rfl
  have count : satAdd (if passesParity (s.rx b).sense (s.rx b).scope w then (s.rx b).parityErrored else satInc (s.rx b).parityErrored)
      (ws.countP (fun x => !passesParity (s.rx b).sense (s.rx b).scope x)) =
      satAdd (s.rx b).parityErrored ((w :: ws).countP (fun x => !passesParity (s.rx b).sense (s.rx b).scope x)) := by
    rw [List.countP_cons]
    cases passesParity (s.rx b).sense (s.rx b).scope w <;> rfl
  have taken : s.takeWords b (w :: ws) = (s.setRx b
        { s.rx b with
          framePos := 24 * n.val + 23
          frameFault := (s.rx b).frameFault || w.fs || !w.ss || ws.any (fun x => x.fs || x.ss)
          partialFrame := none
          store := put (s.rx b).store n (some frame)
          parityErrored :=
            satAdd (s.rx b).parityErrored ((w :: ws).countP (fun x => !passesParity (s.rx b).sense (s.rx b).scope x)) }).handFrame
        b n frame := by
    show (s.takeWord b w).takeWords b ws = _
    rw [opened, State.takeWords_completes (n := n) (pf := (s.rx b).openFrame w) (by rw [State.setRx_rx]; exact aligned)
      (by rw [State.setRx_rx]; exact position) (by rw [State.setRx_rx]) length, State.setRx_rx, State.setRx_setRx, whole, ← count,
      ← Bool.or_assoc]
    rfl
  refine ⟨s.takeWords b (w :: ws), rfl, ?_, ?_, ?_, ?_, fun m other => ?_, ?_, ?_, ?_, ?_, ?_, ?_, ?_, fun m other => ?_,
    s.takeWords_sameBesideBus b (w :: ws)⟩ <;> rw [taken]
  · rw [State.handFrame_rx, State.setRx_rx]
    exact aligned
  · rw [State.handFrame_rx, State.setRx_rx]
  · rw [State.handFrame_rx, State.setRx_rx]
  · rw [State.handFrame_rx, State.setRx_rx]
    exact pick_put_same _ _ _
  · rw [State.handFrame_rx, State.setRx_rx]
    exact pick_put_ne _ _ (Ne.symm other)
  · rw [State.handFrame_rx, State.setRx_rx]
  · rw [State.handFrame_rx, State.setRx_rx]
  · rw [State.handFrame_rx, State.setRx_rx]
  · rw [State.handFrame_rx, State.setRx_rx]
  · rw [State.handFrame_rx, State.setRx_rx]
  · rw [State.handFrame_monitor, State.setRx_monitor, State.setRx_rx]
  · exact (State.handFrame_hears _ b n frame).congr (State.setRx_sup ..) (State.setRx_monitor ..)
  · rw [State.handFrame_monitor_ne _ _ _ other, State.setRx_monitor]

/-- Settles O25: each of the six rows is words taken, or a clock lost, on one bus. -/
theorem busStepsTouchOneBus : Obligations.BusStepsTouchOneBus := by
  rintro s t b w ws (h | h | h | h | h | h) <;> cases h
  · exact s.loseClock_sameBesideBus b
  · exact s.takeWord_sameBesideBus b w
  · exact s.takeWord_sameBesideBus b w
  · exact s.takeWords_sameBesideBus b ws
  · exact s.takeWord_sameBesideBus b w
  · exact s.takeWords_sameBesideBus b ws

end Sys2Proof.Machine
end

section
/-! SUPPORT. R13, R20, R176, R178 to R188: parity, rows that carry lists, transfers and their frame checks. -/
namespace Sys2Proof.Machine

/-! ## Parity -/

theorem highLines_eq (w : Word) : highLines w = ((List.finRange 16).map fun i => w.getLsbD i.val).count true := by
  have lines : (List.finRange 16).map (fun i => w.getLsbD i.val) = (List.range 16).map w.getLsbD := rfl
  rw [lines, List.count_eq_countP, List.countP_map, highLines]
  refine List.countP_congr fun i _ => ?_
  simp

theorem coveredHigh_wordCtrl (data : Word) (ss fs fill : Bool) :
    coveredHigh .wordCtrl data ss fs fill =
      (((List.finRange 16).map fun i : Fin 16 => data.getLsbD i.val) ++ [ss, fs, fill]).count true := by
  rw [List.count_append, ← highLines_eq]
  show highLines data + ss.toNat + fs.toNat + fill.toNat = _
  cases ss <;> cases fs <;> cases fill <;> rfl

theorem passesParity_parityBit (sense : Sense) (scope : Scope) (data : Word) (ss fs fill : Bool) :
    passesParity sense scope { data, ss, fs, fill, par := parityBit sense scope data ss fs fill } = true := by
  have parity : coveredHigh scope data ss fs fill % 2 = 0 ∨ coveredHigh scope data ss fs fill % 2 = 1 := Nat.mod_two_eq_zero_or_one _
  cases sense with
  | even =>
    show ((_ + (coveredHigh scope data ss fs fill % 2 == 1).toNat) % 2 == 0) = true
    rcases parity with h | h <;> simp [h, Nat.add_mod]
  | odd =>
    show ((_ + (coveredHigh scope data ss fs fill % 2 == 0).toNat) % 2 == 1) = true
    rcases parity with h | h <;> simp [h, Nat.add_mod]

/-- Settles O24: the covered lines counted one by one, and the parity bit of a word driven. -/
theorem parityJudgesCoveredLines : Obligations.ParityJudgesCoveredLines := by
  refine ⟨fun sense scope w => ?_, fun x pos => passesParity_parityBit _ _ _ _ _ _⟩
  cases scope with
  | word =>
    dsimp only
    rw [← highLines_eq]
    cases sense <;> exact beq_iff_eq
  | wordCtrl =>
    dsimp only
    rw [← coveredHigh_wordCtrl]
    cases sense <;> exact beq_iff_eq

/-! ## Rows that carry a list -/

theorem State.egressEdges_append (s : State) (xs ys : List Bool) : s.egressEdges (xs ++ ys) = (s.egressEdges xs).egressEdges ys :=
  List.foldl_append

/-- Settles O57: words and edges are taken one by one, and the payload words of slot 0. -/
theorem listsAreTakenOneByOne : Obligations.ListsAreTakenOneByOne := by
  refine ⟨fun s t b xs ys => ⟨fun h => ?_, fun h => ?_⟩, fun s t xs ys h => ⟨?_, ?_⟩, fun s b pf ws aligned position held empty length => ?_⟩
  · cases h
    exact congrArg _ (s.takeWords_append b xs ys)
  · cases h
    exact congrArg _ (s.takeWords_append b xs ys)
  · cases h
    exact congrArg _ (s.egressEdges_append xs ys)
  · cases h
    exact congrArg (fun t => Host.Outcome.next t.buildDue) (s.egressEdges_append xs ys)
  · intro frame
    have whole : (pf.addAll ws).frame = frame := by
      rw [PartialFrame.addAll_eq, empty]
      rfl
    have taken := State.takeWords_completes (n := 0) aligned position held length
    rw [whole] at taken
    refine ⟨s.takeWords b ws, rfl, ?_, ?_, fun m other => ?_, ?_, ?_, ?_, s.takeWords_sameBesideBus b ws⟩ <;> rw [taken]
    · rw [State.handFrame_rx, State.setRx_rx]
      rfl
    · rw [State.handFrame_rx, State.setRx_rx]
      exact pick_put_same _ _ _
    · rw [State.handFrame_rx, State.setRx_rx]
      exact pick_put_ne _ _ (Ne.symm other)
    · rw [State.handFrame_rx, State.setRx_rx]
    · rw [State.handFrame_monitor, State.setRx_monitor, State.setRx_rx]
    · exact (State.handFrame_hears _ b 0 frame).congr (State.setRx_sup ..) (State.setRx_monitor ..)

/-! ## Transfers in IDLE -/

theorem bytesOfBits_length (k : Nat) (bits : List Bool) : (bytesOfBits k bits).length = k := by
  induction k generalizing bits with
  | zero => rfl
  | succ k ih => rw [bytesOfBits, List.length_cons, ih]

theorem transferBytes_length (bits : List Bool) : (transferBytes bits).length = bits.length / 8 := bytesOfBits_length _ _

theorem bitsOfBytes_eq (bytes : List Byte) :
    bytes.flatMap (fun b => (List.finRange 8).map (fun i => b.getLsbD (7 - i.val))) = bitsOfBytes bytes := rfl

theorem State.shift_idle {s : State} (ready : s.ready) (bits : List Bool) (holdRunsOut : Bool) :
    s.shift bits holdRunsOut = s.commandTransfer (transferBytes bits) bits.length [] := by
  rw [State.shift, State.transfer, if_pos ready.1, ready.2]

/-- A frame that a check rejects (R182): the response is held without COLLIDED. -/
theorem State.commandTransfer_rejected {s : State} (ready : s.ready) (law : LinkLaw s.link) {bytes : List Byte} {status : Status}
    (some : bytes ≠ []) (rejected : checkCommandFrame bytes = .error status) (edges : Nat) :
    s.commandTransfer bytes edges [] =
      { s with
        link :=
          { s.link.countRejected status with
            state := .holding, resp := [status.code, 0, crc [status.code, 0]], mdo := List.replicate (max 1 edges) false } } := by
  obtain ⟨cmd, _, _, collision⟩ := law.idle ready.2
  have counted : (s.link.collect bytes edges).countRejected status =
      { s.link.countRejected status with state := .taking, cmd := bytes.take 64, mdo := List.replicate (max 1 edges) false } := by
    cases status <;> rfl
  have same : (s.link.countRejected status).cmd = [] ∧ (s.link.countRejected status).collision = false := by
    cases status <;> exact ⟨cmd, collision⟩
  have response : responseFrame (s.link.collect bytes edges).collision ⟨status, []⟩ = [status.code, 0, crc [status.code, 0]] := by
    have : (s.link.collect bytes edges).collision = false := collision
    rw [this]
    cases status <;> rfl
  rw [State.commandTransfer, if_neg some, rejected]
  dsimp only
  rw [Link.reject, response, counted, ← same.1, ← same.2]

theorem readCommand_none {b : Byte} :
    readCommand b = none ↔
      b ∉ [0x01#8, 0x02, 0x08, 0x09, 0x10, 0x11, 0x12, 0x13, 0x14, 0x15, 0x18, 0x19, 0x1A, 0x20, 0x21, 0x28, 0x29] := by
  have codes : [0x01#8, 0x02, 0x08, 0x09, 0x10, 0x11, 0x12, 0x13, 0x14, 0x15, 0x18, 0x19, 0x1A, 0x20, 0x21, 0x28, 0x29] =
      Command.all.map Command.code := rfl
  rw [codes, readCommand, List.find?_eq_none, List.mem_map, not_exists]
  exact forall_congr' fun c => by rw [not_and, decide_eq_true_iff]

/-- Settles O59: the checks in order, each with its counter. -/
theorem framesAreChecked : Obligations.FramesAreChecked := by
  intro s bits ready law bytes mdo held wrongLength wrongCheck known
  have rejects {status : Status} (long : 8 ≤ bits.length) (rejected : checkCommandFrame bytes = .error status) :
      s.shift bits false =
        { s with
          link :=
            { s.link.countRejected status with state := .holding, resp := [status.code, 0, crc [status.code, 0]], mdo := mdo } } := by
    have some : transferBytes bits ≠ [] := by
      intro none
      have := transferBytes_length bits
      rw [none, List.length_nil] at this
      omega
    rw [State.shift_idle ready, State.commandTransfer_rejected ready law some rejected]
  have long (right : ¬ wrongLength) : 8 ≤ bits.length := by
    have := transferBytes_length bits
    have : ¬ bytes.length < 3 := fun short => right (.inl short)
    have : bytes.length = (transferBytes bits).length := rfl
    omega
  refine ⟨?_, fun short => ?_, fun long wrong => ?_, fun right wrong => ?_, fun right right' unknown => ?_⟩
  · rw [bitsOfBytes_eq]
    exact bitsOfBytes_bytesOfBits _ _ (Nat.mul_div_le _ _)
  · have empty : transferBytes bits = [] := List.length_eq_zero_iff.1 (by rw [transferBytes_length]; omega)
    obtain ⟨cmd, _, _, _⟩ := law.idle ready.2
    show Host.Outcome.next (s.shift bits false) = _
    rw [State.shift_idle ready, empty, State.commandTransfer, if_pos rfl]
    unfold Link.collect
    rw [List.take_nil, ← cmd, ← ready.2]
    rfl
  · have rejected : checkCommandFrame bytes = .error .badLength := if_pos wrong
    exact congrArg _ (rejects long rejected)
  · have rejected : checkCommandFrame bytes = .error .badCheck := (if_neg right).trans (if_pos wrong)
    exact congrArg _ (rejects (long right) rejected)
  · have rejected : checkCommandFrame bytes = .error .badCode := by
      refine (if_neg right).trans ((if_neg right').trans ?_)
      rw [show readCommand (byteAt bytes 0) = none from readCommand_none.2 unknown]
    exact congrArg _ (rejects (long right) rejected)

/-! ## Transfers outside IDLE -/

/-- Settles O60: the branches of a transfer by link state. -/
theorem transfersOutsideIdle : Obligations.TransfersOutsideIdle := by
  refine ⟨fun s bits high executing => ?_, fun s reply executing result => ?_, fun s bits holdRunsOut high holding => ?_, fun s holding => ?_⟩
  · show Host.Outcome.next (s.shift bits false) = _
    rw [State.shift, State.transfer, if_pos high, executing]
    rfl
  · show Host.Outcome.next { s with link := s.link.complete } = _
    rw [Link.complete, executing, result]
    dsimp only
    rw [responseFrame_eq _ _ rfl]
  · show Host.Outcome.next (s.shift bits holdRunsOut) = _
    rw [State.shift, State.transfer, if_pos high, holding]
    dsimp only
    rw [transferBytes_length, bitsOfBytes_eq, Link.read]
    rfl
  · show Host.Outcome.next s.expireHold = _
    rw [State.expireHold, if_pos holding]
    rfl

end Sys2Proof.Machine
end

section
/-! SUPPORT. R58, R60, R66, R122: what entering and leaving service make of a record, and what they spare. -/
namespace Sys2Proof.Machine

/-! ## Records spared -/

/-- What an event on other records leaves of a record: state, fields and mode. -/
def Live.standing (l : Live) : LiveState × Fields × Mode := (l.state, l.fields, l.sel.mode)

/-- A record is spared: generation, hold, state, fields and mode stand, and no notice is taken back. -/
structure Supervision.Spares (u v : Supervision) (r : RecIx) : Prop where
  generation : (v.record r).generation = (u.record r).generation
  held : (v.record r).held = (u.record r).held
  standing : (v.live r).map Live.standing = (u.live r).map Live.standing
  tells : ∀ x k, u.tells x k → v.tells x k

theorem Supervision.Spares.refl (u : Supervision) (r : RecIx) : u.Spares u r := ⟨rfl, rfl, rfl, fun _ _ h => h⟩

theorem Supervision.Spares.trans {u v w : Supervision} {r : RecIx} (h : u.Spares v r) (h' : v.Spares w r) : u.Spares w r :=
  ⟨h'.generation.trans h.generation, h'.held.trans h.held, h'.standing.trans h.standing, fun x k told => h'.tells x k (h.tells x k told)⟩

theorem Supervision.Spares.live {u v : Supervision} {r : RecIx} {l : Live} (h : u.Spares v r) (hl : u.live r = some l) :
    ∃ x, v.live r = some { l with sel := x } ∧ x.mode = l.sel.mode := by
  have standing := h.standing
  rw [hl, Option.map_some, Option.map_eq_some_iff] at standing
  obtain ⟨k, hk, same⟩ := standing
  cases k
  simp only [Live.standing, Prod.mk.injEq] at same
  obtain ⟨rfl, rfl, mode⟩ := same
  exact ⟨_, hk, mode⟩

theorem Supervision.Spares.free {u v : Supervision} {r : RecIx} (h : u.Spares v r) (free : u.live r = none) : v.live r = none := by
  have standing := h.standing
  rwa [free, Option.map_none, Option.map_eq_none_iff] at standing

theorem Supervision.Spares.of_record {u v : Supervision} {r : RecIx} (record : v.record r = u.record r)
    (tells : ∀ x k, u.tells x k → v.tells x k) : u.Spares v r := by
  have live : v.live r = u.live r := Supervision.live_of_record record
  exact ⟨by rw [record], by rw [record], by rw [live], tells⟩

theorem Supervision.evaluate_mode (u : Supervision) (r q : RecIx) (expiry : Bool) (w : Judgement) (p : Option Judgement) :
    ((u.evaluate r expiry w p).sel q).map (·.mode) = (u.sel q).map (·.mode) := by
  by_cases self : r = q
  · subst self
    cases hl : u.live r with
    | none => rw [Supervision.evaluate, hl]
    | some l =>
      obtain ⟨x, stored, _, _, mode⟩ := Supervision.evaluate_stores hl expiry w p
      rw [stored, Supervision.sel_of_live hl, Option.map_some, Option.map_some, mode]
  · have kept := congrArg (Option.map Prod.fst) (u.evaluate_kept_ne self expiry w p)
    rw [Option.map_map, Option.map_map] at kept
    exact kept

theorem Live.standing_map (o : Option Live) :
    o.map Live.standing = (o.map fun l => (l.state, l.fields)).bind fun x => (o.map (·.sel.mode)).map fun m => (x.1, x.2, m) := by
  cases o <;> rfl

theorem Supervision.evaluate_spares (u : Supervision) (r q : RecIx) (expiry : Bool) (w : Judgement) (p : Option Judgement) :
    u.Spares (u.evaluate r expiry w p) q := by
  obtain ⟨generation, held, fields⟩ := u.evaluate_sameRecords r expiry w p q
  refine ⟨generation, held, ?_, fun x k => Supervision.evaluate_keeps⟩
  have mode := u.evaluate_mode r q expiry w p
  simp only [Supervision.sel, Option.map_map] at mode
  rw [Live.standing_map, Live.standing_map, fields]
  congr 1
  funext x
  exact congrArg (Option.map _) mode

theorem State.evaluateBy_spares (s : State) (expiry : Bool) (r q : RecIx) : s.sup.Spares (s.evaluateBy expiry r).sup q := by
  unfold State.evaluateBy
  split
  · exact .refl _ q
  · exact Supervision.evaluate_spares _ r q expiry _ _

theorem Supervision.modLive_spares (u : Supervision) {r q : RecIx} (other : r ≠ q) (f : Live → Live) : u.Spares (u.modLive r f) q :=
  .of_record (u.modLive_record_ne f other) fun _ _ h => h

theorem Supervision.postRecord_spares (u : Supervision) (r q : RecIx) (k : Kind) : u.Spares (u.postRecord r k) q :=
  .of_record (Supervision.record_of_table (Supervision.postRecord_table u r k) q) fun _ _ => Supervision.postRecord_keeps

theorem State.goLive_spares (s : State) {r q : RecIx} (other : r ≠ q) : s.sup.Spares (s.goLive r).sup q :=
  (s.sup.modLive_spares other _).trans (State.evaluateBy_spares { s with sup := _ } false r q)

theorem State.enterService_spares (s : State) {r q : RecIx} (other : r ≠ q) : s.sup.Spares (s.enterService r).sup q := by
  unfold State.enterService
  split
  · exact .refl _ q
  · exact ((s.sup.modLive_spares other fun l => { l with state := .active }).trans (Supervision.postRecord_spares _ r q .activated)).trans
      (State.goLive_spares
        { s with sup := (s.sup.modLive r fun l => { l with state := .active }).postRecord r .activated } other)

theorem State.freeRecord_tells (s : State) (r : RecIx) {x : Subject} {k : Kind} (h : s.sup.tells x k) : (s.freeRecord r).sup.tells x k := by
  cases hl : s.sup.live r with
  | none => rwa [State.freeRecord_of_free hl]
  | some l =>
    rw [State.freeRecord_sup hl]
    exact addNotice_keeps h

theorem State.freeRecord_record_ne (s : State) {r q : RecIx} (other : r ≠ q) : (s.freeRecord r).sup.record q = s.sup.record q := by
  cases hl : s.sup.live r with
  | none => rw [State.freeRecord_of_free hl]
  | some l =>
    rw [State.freeRecord_sup hl]
    exact Supervision.setRecord_ne _ _ other

theorem State.freeRecord_spares (s : State) {r q : RecIx} (other : r ≠ q) : s.sup.Spares (s.freeRecord r).sup q :=
  .of_record (s.freeRecord_record_ne other) fun _ _ => s.freeRecord_tells r

/-! ## Records served -/

/-- A record is in service: ACTIVE with its fields, its selector in LIVE. -/
def Supervision.Serving (u : Supervision) (r : RecIx) (f : Fields) : Prop :=
  ∃ x : Selector, u.live r = some { state := .active, fields := f, sel := x } ∧ x.mode = .live

/-- A record has become FREE: held, its generation kept, RETIRED told (R66). -/
structure Supervision.BecomesFree (u v : Supervision) (r : RecIx) : Prop where
  live : v.live r = none
  held : (v.record r).held = true
  generation : (v.record r).generation = (u.record r).generation
  told : v.tells (.record r) .retired

theorem Supervision.Serving.of_spares {u v : Supervision} {r : RecIx} {f : Fields} (serving : u.Serving r f) (spares : u.Spares v r) :
    v.Serving r f := by
  obtain ⟨x, live, mode⟩ := serving
  obtain ⟨y, live', mode'⟩ := spares.live live
  exact ⟨y, live', mode'.trans mode⟩

theorem Supervision.BecomesFree.of_spares {u v w : Supervision} {r : RecIx} (freed : u.BecomesFree v r) (spares : v.Spares w r) : u.BecomesFree w r :=
  ⟨spares.free freed.live, spares.held.trans freed.held, spares.generation.trans freed.generation, spares.tells _ _ freed.told⟩

theorem Supervision.BecomesFree.after {u v w : Supervision} {r : RecIx} (freed : v.BecomesFree w r)
    (generation : (v.record r).generation = (u.record r).generation) : u.BecomesFree w r :=
  ⟨freed.live, freed.held, freed.generation.trans generation, freed.told⟩

theorem State.goLive_serving {s : State} {r : RecIx} {l : Live} (hl : s.sup.live r = some l) : (s.goLive r).sup.Serving r l.fields := by
  have entered : (s.sup.modLive r (fun l => { l with state := .active, sel := { l.sel with mode := .live } })).Serving r l.fields :=
    ⟨{ l.sel with mode := .live }, by rw [Supervision.modLive_same, hl]; rfl, rfl⟩
  exact entered.of_spares (State.evaluateBy_spares { s with sup := _ } false r r)

theorem State.goLive_tells (s : State) (r : RecIx) {x : Subject} {k : Kind} (h : s.sup.tells x k) : (s.goLive r).sup.tells x k :=
  (State.evaluateBy_spares { s with sup := _ } false r r).tells x k h

theorem State.enterService_serving {s : State} {r : RecIx} {l : Live} (hl : s.sup.live r = some l) :
    (s.enterService r).sup.Serving r l.fields ∧ (s.enterService r).sup.tells (.record r) .activated := by
  have live : ((s.sup.modLive r (fun l => { l with state := .active })).postRecord r .activated).live r =
      some { l with state := .active } := by
    rw [Supervision.postRecord_live, Supervision.modLive_same, hl]
    rfl
  unfold State.enterService
  rw [hl]
  exact ⟨State.goLive_serving (s := { s with sup := _ }) (l := { l with state := .active }) live,
    State.goLive_tells { s with sup := _ } r (Supervision.postRecord_tells rfl)⟩

theorem State.freeRecord_freed {s : State} {r : RecIx} {l : Live} (hl : s.sup.live r = some l) : s.sup.BecomesFree (s.freeRecord r).sup r := by
  have record : (s.freeRecord r).sup.record r = { s.sup.record r with held := true, live := none } := by
    rw [State.freeRecord_sup hl, Supervision.setRecord_same]
  have told : (s.freeRecord r).sup.tells (.record r) .retired := by
    rw [State.freeRecord_sup hl]
    exact addNotice_tells _ _ _ _
  exact ⟨congrArg Record.live record, congrArg Record.held record, by rw [record], told⟩

/-! ## One update -/

section
variable {s : State} {u : Update} {r : RecIx}

theorem State.applyUpdate_spares (notIn : u.incoming ≠ some r) (notOut : u.outgoing ≠ some r) : s.sup.Spares (s.applyUpdate u).sup r := by
  cases u with
  | enter n i => exact State.enterService_spares (s.setOwner n (some i)) fun same => notIn (congrArg some same)
  | leave n o => exact State.freeRecord_spares (s.setOwner n none) fun same => notOut (congrArg some same)
  | handover n o i =>
    exact (State.freeRecord_spares (s.setOwner n (some i)) fun same => notOut (congrArg some same)).trans
      (State.enterService_spares _ fun same => notIn (congrArg some same))

theorem State.applyUpdate_incoming {l : Live} (incoming : u.incoming = some r) (notOut : u.outgoing ≠ some r) (hl : s.sup.live r = some l) :
    (s.applyUpdate u).sup.Serving r l.fields ∧ (s.applyUpdate u).sup.tells (.record r) .activated := by
  cases u with
  | enter n i =>
    cases incoming
    exact State.enterService_serving (s := s.setOwner n (some r)) hl
  | leave n o => cases incoming
  | handover n o i =>
    cases incoming
    obtain ⟨x, live, _⟩ := (State.freeRecord_spares (s.setOwner n (some r)) fun same => notOut (congrArg some same)).live hl
    exact State.enterService_serving (l := { l with sel := x }) live

theorem State.applyUpdate_outgoing {l : Live} (outgoing : u.outgoing = some r) (notIn : u.incoming ≠ some r) (hl : s.sup.live r = some l) :
    s.sup.BecomesFree (s.applyUpdate u).sup r := by
  cases u with
  | enter n i => cases outgoing
  | leave n o =>
    cases outgoing
    exact State.freeRecord_freed (s := s.setOwner n none) hl
  | handover n o i =>
    cases outgoing
    exact (State.freeRecord_freed (s := s.setOwner n (some i)) hl).of_spares
      (State.enterService_spares _ fun same => notIn (congrArg some same))

end

/-! ## Updates one after another -/

theorem State.applyEach_spares {us : List Update} {r : RecIx} (apart : ∀ u ∈ us, u.incoming ≠ some r ∧ u.outgoing ≠ some r) (s : State) :
    s.sup.Spares (us.foldl State.applyUpdate s).sup r := by
  induction us generalizing s with
  | nil => exact .refl _ r
  | cons u us ih =>
    obtain ⟨notIn, notOut⟩ := apart u (List.mem_cons_self ..)
    exact (State.applyUpdate_spares notIn notOut).trans (ih (fun v hv => apart v (List.mem_cons_of_mem u hv)) _)

/-- A record named by an update of the list is named by no other, nor twice (R82). -/
theorem OwnerLaw.named_once {s : State} (law : OwnerLaw s) {before after : List Update} {u : Update} {r : RecIx}
    (list : s.updates = before ++ u :: after) (named : u.incoming = some r ∨ u.outgoing = some r) :
    ∀ v ∈ before ++ after, v.incoming ≠ some r ∧ v.outgoing ≠ some r := by
  have place {v : Update} (hv : v ∈ s.updates) (named : v.incoming = some r ∨ v.outgoing = some r) :
      ∃ l, s.sup.live r = some l ∧ l.fields.egress = v.slot := by
    rcases named with named | named
    · obtain ⟨l, hl, _, slot⟩ := law.incoming v hv r named
      exact ⟨l, hl, slot⟩
    · obtain ⟨l, hl, _, slot⟩ := law.outgoing v hv r named
      exact ⟨l, hl, slot⟩
  have member : u ∈ s.updates := list ▸ List.mem_append_right _ (List.mem_cons_self ..)
  obtain ⟨l, hl, slot⟩ := place member named
  have once : u.slot ∉ (before ++ after).map (·.slot) := by
    have nodup := law.oneEach
    rw [list, List.map_append, List.map_cons, List.nodup_middle] at nodup
    rw [List.map_append]
    exact (List.nodup_cons.1 nodup).1
  intro v hv
  have absent : ¬ (v.incoming = some r ∨ v.outgoing = some r) := by
    intro named
    have member : v ∈ s.updates := by
      rw [list]
      rcases List.mem_append.1 hv with h | h
      · exact List.mem_append_left _ h
      · exact List.mem_append_right _ (List.mem_cons_of_mem u h)
    obtain ⟨k, hk, slot'⟩ := place member named
    cases hl.symm.trans hk
    exact once (List.mem_map.2 ⟨v, hv, slot'.symm.trans slot⟩)
  exact not_or.1 absent

/-- No record is incoming and outgoing (R82). -/
theorem OwnerLaw.apart {s : State} (law : OwnerLaw s) {u v : Update} (hu : u ∈ s.updates) (hv : v ∈ s.updates) {r : RecIx}
    (incoming : u.incoming = some r) : v.outgoing ≠ some r := by
  intro outgoing
  obtain ⟨l, hl, armed, _⟩ := law.incoming u hu r incoming
  obtain ⟨k, hk, retiring, _⟩ := law.outgoing v hv r outgoing
  cases hl.symm.trans hk
  cases armed.symm.trans retiring

/-- The pending list applied whole (R88): incoming records in service, outgoing ones FREE. -/
theorem State.applyEach_records {s : State} (law : OwnerLaw s) {start : State} (same : start.sup = s.sup) {u : Update} (hu : u ∈ s.updates) :
    (∀ r l, u.incoming = some r → s.sup.live r = some l →
      (s.updates.foldl State.applyUpdate start).sup.Serving r l.fields ∧
        (s.updates.foldl State.applyUpdate start).sup.tells (.record r) .activated) ∧
    ∀ r, u.outgoing = some r → s.sup.BecomesFree (s.updates.foldl State.applyUpdate start).sup r := by
  obtain ⟨before, after, list⟩ := List.append_of_mem hu
  have fold : s.updates.foldl State.applyUpdate start =
      after.foldl State.applyUpdate ((before.foldl State.applyUpdate start).applyUpdate u) := by
    rw [list, List.foldl_append, List.foldl_cons]
  rw [fold, ← same]
  have spared {r : RecIx} (named : u.incoming = some r ∨ u.outgoing = some r) :
      start.sup.Spares (before.foldl State.applyUpdate start).sup r ∧
        ((before.foldl State.applyUpdate start).applyUpdate u).sup.Spares
          (after.foldl State.applyUpdate ((before.foldl State.applyUpdate start).applyUpdate u)).sup r := by
    have apart := law.named_once list named
    exact ⟨State.applyEach_spares (fun v hv => apart v (List.mem_append_left _ hv)) _,
      State.applyEach_spares (fun v hv => apart v (List.mem_append_right _ hv)) _⟩
  refine ⟨fun r l incoming hl => ?_, fun r outgoing => ?_⟩
  · obtain ⟨first, last⟩ := spared (.inl incoming)
    obtain ⟨x, live, _⟩ := first.live hl
    obtain ⟨serving, told⟩ := State.applyUpdate_incoming incoming (law.apart hu hu incoming) live
    exact ⟨serving.of_spares last, last.tells _ _ told⟩
  · obtain ⟨first, last⟩ := spared (.inr outgoing)
    obtain ⟨l, hl, _⟩ := law.outgoing u hu r outgoing
    obtain ⟨x, live, _⟩ := first.live (same ▸ hl)
    exact ((State.applyUpdate_outgoing outgoing (fun incoming => law.apart hu hu incoming outgoing) live).of_spares last).after
      first.generation

end Sys2Proof.Machine
end

section
/-! SUPPORT. R83, R88, R96, R145 to R152: the reference, the frame starts, and the pending list they apply. -/
namespace Sys2Proof.Machine

/-! ## A header word that is due -/

/-- What the building of a slot leaves of the assembler: its reference, its positions, its settings. -/
structure Egress.SameTiming (e e' : Egress) : Prop where
  running : e'.running = e.running
  framePos : e'.framePos = e.framePos
  misses : e'.misses = e.misses
  candidate : e'.candidate = e.candidate
  erefLevel : e'.erefLevel = e.erefLevel
  mfCount : e'.mfCount = e.mfCount
  sense : e'.sense = e.sense
  scope : e'.scope = e.scope

theorem State.buildSlot_timing (s : State) (n : SlotIx) : s.egress.SameTiming (s.buildSlot n).egress := by
  obtain ⟨v, counted⟩ := s.egress.countAlarm_cases n (s.slotContent n)
  unfold State.buildSlot
  dsimp only
  rw [counted]
  exact ⟨rfl, rfl, rfl, rfl, rfl, rfl, rfl, rfl⟩

theorem State.buildDue_cases (s : State) : s.buildDue = s ∨ ∃ n, s.buildDue = s.buildSlot n := by
  unfold State.buildDue
  split
  · split
    · exact .inr ⟨_, rfl⟩
    · exact .inl rfl
  · exact .inl rfl

theorem State.buildDue_timing (s : State) : s.egress.SameTiming s.buildDue.egress := by
  rcases s.buildDue_cases with same | ⟨n, built⟩
  · rw [same]
    exact ⟨rfl, rfl, rfl, rfl, rfl, rfl, rfl, rfl⟩
  · rw [built]
    exact s.buildSlot_timing n

theorem State.buildDue_eq (s : State) : s.buildDue = { s with egress := s.buildDue.egress } := by
  rcases s.buildDue_cases with same | ⟨n, built⟩
  · rw [same]
  · rw [built]
    rfl

theorem State.buildDue_notDue {s : State} (notDue : s.egress.headerDue = false) : s.buildDue = s := by
  rw [State.buildDue, notDue, Bool.and_false]
  exact if_neg Bool.false_ne_true

/-- An edge, by whether the egress side runs: what is due is built, and the level of EREF kept. -/
theorem State.egressEdge_eq {s : State} (high : s.nReset = true) (eref : Bool) :
    s.egressEdge eref =
      (let u : State := { s with egress := { s.buildDue.egress with erefLevel := eref } }
      let pulse := eref && !s.egress.erefLevel
      if s.egress.running then
        if s.egress.framePos + 1 = 1152 then u.expectFrame pulse else u.driveNext
      else u.searchReference pulse) := by
  have timing := s.buildDue_timing
  unfold State.egressEdge
  rw [if_pos high]
  dsimp only
  rw [timing.running, timing.framePos, timing.erefLevel, State.buildDue_eq]

theorem State.egressEdge_stopped {s : State} (high : s.nReset = true) (stopped : s.egress.running = false) (eref : Bool) :
    s.egressEdge eref =
      State.searchReference { s with egress := { s.egress with erefLevel := eref } } (eref && !s.egress.erefLevel) := by
  rw [State.egressEdge_eq high, State.buildDue_stopped stopped, stopped]
  rfl

/-! ## The link and the map -/

theorem State.answersRequest.congr {s s' t t' : State} (h : s'.answersRequest t') (before : s'.link = s.link) (after : t'.link = t.link) :
    s.answersRequest t where
  built := by rw [← before, ← after]; exact h.built
  kept := by rw [← before, ← after]; exact h.kept

theorem State.afterRequest_withEgress (s : State) (e : Egress) :
    State.afterRequest { s with egress := e } = { s.afterRequest with egress := e } := by
  unfold State.afterRequest
  dsimp only
  split <;> rfl

/-! ## The reference search -/

/-- Settles O53: the branches of the search, and the start. -/
theorem referenceSearchStartsEgress : Obligations.ReferenceSearchStartsEgress := by
  intro s eref high stopped pulse
  have edge := State.egressEdge_stopped high stopped eref
  refine ⟨fun none => ?_, fun c candidate early => ?_, fun candidate noPulse => ?_, fun candidate pulsed => ?_⟩
  · show Host.Outcome.next (s.egressEdge eref) = _
    rw [edge, State.searchReference]
    dsimp only
    rw [none]
    show Host.Outcome.next (if pulse then _ else _) = _
    cases pulse with
    | true => rfl
    | false =>
      rw [← none]
      rfl
  · show Host.Outcome.next (s.egressEdge eref) = _
    rw [edge, State.searchReference]
    dsimp only
    rw [candidate]
    dsimp only
    rw [if_pos early]
  · show Host.Outcome.next (s.egressEdge eref) = _
    rw [edge, State.searchReference]
    dsimp only
    rw [candidate, show (eref && !s.egress.erefLevel) = false from noPulse]
    rfl
  · have level : eref = true := (Bool.and_eq_true_iff.1 pulsed).1
    refine ⟨State.startEgress { s with egress := { s.egress with erefLevel := eref } }, ?_, ?_, ?_, ?_, ?_, ?_, ?_, ?_⟩
    · show Host.Outcome.next (s.egressEdge eref) = _
      rw [edge, State.searchReference]
      dsimp only
      rw [candidate, show (eref && !s.egress.erefLevel) = true from pulsed]
      rfl
    · rw [State.startEgress_egress, level]
    · unfold State.startEgress
      rw [State.postState_sup, State.afterRequest_withEgress]
      show Supervision.post s.afterRequest.sup .egress .state = _
      rw [State.afterRequest_sup]
      rfl
    · unfold State.startEgress
      rw [State.postState_owner]
      exact State.afterRequest_owner _
    · unfold State.startEgress
      rw [State.postState_updates]
      exact State.afterRequest_updates _
    · have monA : (State.startEgress { s with egress := { s.egress with erefLevel := eref } }).monA = s.monA := State.afterRequest_monA _
      have monB : (State.startEgress { s with egress := { s.egress with erefLevel := eref } }).monB = s.monB := State.afterRequest_monB _
      funext b
      cases b
      · exact monA
      · exact monB
    · exact (State.afterRequest_answersRequest { s with egress := { s.egress with erefLevel := eref } }).congr rfl rfl
    · exact (s.withEgress_beside _).trans (State.startEgress_beside _)

/-! ## The pending list applied -/

/-- The pending list has been applied whole between `s` and `t` (R88, R96). -/
def State.Applied (s t : State) : Prop :=
  t.updates = [] ∧ (∀ u ∈ s.updates, pick t.owner u.slot = u.incoming) ∧
    (∀ n, (∀ u ∈ s.updates, u.slot ≠ n) → pick t.owner n = pick s.owner n) ∧ s.sameBesideEgress t ∧ s.answersRequest t ∧
    (OwnerLaw s → ∀ u ∈ s.updates,
      (∀ r l, u.incoming = some r → s.sup.live r = some l →
        (∃ x : Selector, t.sup.live r = some { state := .active, fields := l.fields, sel := x } ∧ x.mode = .live) ∧
          t.sup.tells (.record r) .activated) ∧
      ∀ r, u.outgoing = some r →
        t.sup.live r = none ∧ (t.sup.record r).held = true ∧ (t.sup.record r).generation = (s.sup.record r).generation ∧
          t.sup.tells (.record r) .retired)

theorem State.Applied.of_start {s u : State} (once : (s.updates.map (·.slot)).Nodup) (sup : u.sup = s.sup) (owner : u.owner = s.owner)
    (updates : u.updates = s.updates) (beside : s.sameBesideEgress u) (answers : s.answersRequest u) : s.Applied u.applyUpdates := by
  obtain ⟨ports, owners, others⟩ := State.applyEach_leaves s.updates (s := u) once
  refine ⟨rfl, ?_, ?_, beside.trans u.applyUpdates_beside, answers.congr rfl ?_, fun law v hv => ?_⟩
  · show ∀ v ∈ s.updates, pick (u.updates.foldl State.applyUpdate u).owner v.slot = v.incoming
    rw [updates]
    exact owners
  · show ∀ n, (∀ v ∈ s.updates, v.slot ≠ n) → pick (u.updates.foldl State.applyUpdate u).owner n = pick s.owner n
    rw [updates, ← owner]
    exact others
  · show u.link = (u.updates.foldl State.applyUpdate u).link
    rw [updates, ports.link]
  · obtain ⟨incoming, outgoing⟩ := State.applyEach_records law sup hv
    show (∀ r l, _ → _ → (∃ x : Selector, (u.updates.foldl State.applyUpdate u).sup.live r = _ ∧ _) ∧
      (u.updates.foldl State.applyUpdate u).sup.tells _ _) ∧
      ∀ r, _ → (u.updates.foldl State.applyUpdate u).sup.live r = none ∧ ((u.updates.foldl State.applyUpdate u).sup.record r).held = true ∧
        ((u.updates.foldl State.applyUpdate u).sup.record r).generation = _ ∧ (u.updates.foldl State.applyUpdate u).sup.tells _ _
    rw [updates]
    exact ⟨incoming, fun r named => ⟨(outgoing r named).live, (outgoing r named).held, (outgoing r named).generation, (outgoing r named).told⟩⟩

theorem State.Applied.postState {s t : State} (h : s.Applied t) : s.Applied t.postState := by
  obtain ⟨updates, owners, others, beside, answers, records⟩ := h
  refine ⟨updates, owners, others, beside.trans (t.withSup_beside _), answers.congr rfl rfl, fun law u hu => ?_⟩
  obtain ⟨incoming, outgoing⟩ := records law u hu
  refine ⟨fun r l named hl => ?_, fun r named => ?_⟩
  · obtain ⟨serving, told⟩ := incoming r l named hl
    exact ⟨serving, Supervision.post_keeps told⟩
  · obtain ⟨free, held, generation, told⟩ := outgoing r named
    exact ⟨free, held, generation, Supervision.post_keeps told⟩

theorem State.frameStart_applied {s : State} (once : (s.updates.map (·.slot)).Nodup) (e : Egress) (misses : Nat) :
    s.Applied (State.frameStart { s with egress := e } misses) := by
  unfold State.frameStart
  rw [State.afterRequest_withEgress]
  exact State.Applied.of_start once s.afterRequest_sup s.afterRequest_owner s.afterRequest_updates
    (s.afterRequest_beside.trans (State.withEgress_beside _ _)) (s.afterRequest_answersRequest.congr rfl rfl)

theorem State.stopEgress_applied {s : State} (once : (s.updates.map (·.slot)).Nodup) (e : Egress) :
    s.Applied (State.stopEgress { s with egress := e }) := by
  unfold State.stopEgress
  rw [State.afterRequest_withEgress]
  refine State.Applied.postState ?_
  exact State.Applied.of_start once s.afterRequest_sup s.afterRequest_owner s.afterRequest_updates
    (s.afterRequest_beside.trans (State.withEgress_beside _ _)) (s.afterRequest_answersRequest.congr rfl rfl)

theorem State.stopEgress_tells (s : State) : s.stopEgress.sup.tells .egress .state := by
  unfold State.stopEgress
  rw [State.postState_sup]
  exact Supervision.post_tells _ _ _

/-- The egress side has been stopped between `s` and `t` (R145, R150). -/
theorem State.stopEgress_stopped {s : State} (once : (s.updates.map (·.slot)).Nodup) (level : Bool) (candidate : Option Nat) :
    let t := State.stopEgress { s with egress := { s.buildDue.egress with erefLevel := level, candidate } }
    (t.egress.running = false ∧ t.egress.framePos = 0 ∧ t.egress.misses = 0 ∧ t.egress.candidate = none ∧
      t.egress.out = EgressWord.low ∧ t.egress.sending = none ∧ t.egress.headerDue = false ∧
      t.egress.mfCount = s.egress.mfCount ∧ t.egress.sense = s.egress.sense ∧ t.egress.scope = s.egress.scope ∧
      (s.egress.headerDue = false → t.egress.alarmFill = s.egress.alarmFill) ∧
      t.sup.tells .egress .state ∧ s.Applied t) ∧ t.egress.erefLevel = level := by
  have timing := s.buildDue_timing
  have egress := State.stopEgress_egress { s with egress := { s.buildDue.egress with erefLevel := level, candidate } }
  have applied := State.stopEgress_applied once { s.buildDue.egress with erefLevel := level, candidate }
  have told := State.stopEgress_tells { s with egress := { s.buildDue.egress with erefLevel := level, candidate } }
  dsimp only
  generalize State.stopEgress _ = t at egress applied told
  rw [egress]
  exact ⟨⟨rfl, rfl, rfl, rfl, rfl, rfl, rfl, timing.mfCount, timing.sense, timing.scope,
    fun notDue => by rw [State.buildDue_notDue notDue], told, applied⟩, rfl⟩

/-- The frame start has been taken between `s` and `t` (R149, R152). -/
theorem State.frameStart_started {s : State} (once : (s.updates.map (·.slot)).Nodup) (running : s.egress.running = true) (level : Bool)
    (misses : Nat) :
    let t := State.frameStart { s with egress := { s.buildDue.egress with erefLevel := level } } misses
    t.egress.running = true ∧ t.egress.framePos = 0 ∧ t.egress.misses = misses ∧ t.egress.mfCount = s.egress.mfCount + 1 ∧
      t.egress.erefLevel = level ∧ t.egress.headerDue = true ∧ s.Applied t ∧
      (s.egress.headerDue = false →
        t.egress =
          { s.egress with
            framePos := 0, misses := t.egress.misses, mfCount := t.egress.mfCount, erefLevel := level, headerDue := true }) := by
  have timing := s.buildDue_timing
  have egress := State.frameStart_egress { s with egress := { s.buildDue.egress with erefLevel := level } } misses
  have applied := State.frameStart_applied once { s.buildDue.egress with erefLevel := level } misses
  dsimp only
  generalize State.frameStart _ misses = t at egress applied
  rw [egress]
  exact ⟨timing.running.trans running, rfl, rfl, congrArg (· + 1) timing.mfCount, rfl, rfl, applied,
    fun notDue => by rw [State.buildDue_notDue notDue]⟩

/-- Settles O54: the frame start taken, the third miss, and the clock lost. -/
theorem egressFollowsReference : Obligations.EgressFollowsReference := by
  intro s high once applied stopped
  have timing := s.buildDue_timing
  have edge (eref : Bool) (running : s.egress.running = true) (last : s.egress.framePos = 1151) :
      s.egressEdge eref = State.expectFrame { s with egress := { s.buildDue.egress with erefLevel := eref } } (eref && !s.egress.erefLevel) := by
    rw [State.egressEdge_eq high, running, last]
    rfl
  have lost : s.loseEgressClock =
      let u : State := { s with egress := { s.buildDue.egress with erefLevel := false, candidate := none } }
      if s.egress.running then u.stopEgress else u := by
    unfold State.loseEgressClock
    rw [if_pos high]
    dsimp only
    rw [timing.running, State.buildDue_eq]
  refine ⟨fun eref running last => ?_, fun running => ?_, fun notRunning => ?_⟩
  · intro pulse
    refine ⟨fun taken => ?_, fun noPulse third => ?_⟩
    · refine ⟨_, ?_, State.frameStart_started once running eref (if pulse then 0 else s.egress.misses + 1)⟩
      show Host.Outcome.next (s.egressEdge eref) = _
      rw [edge eref running last, State.expectFrame]
      dsimp only
      rw [timing.misses]
      show Host.Outcome.next (if pulse then _ else _) = _
      cases pulsed : pulse with
      | true => rfl
      | false => rw [if_neg Bool.false_ne_true, if_neg (by have := taken.resolve_left (by rw [pulsed]; exact nofun); omega)]; rfl
    · refine ⟨_, ?_, State.stopEgress_stopped once eref s.buildDue.egress.candidate⟩
      show Host.Outcome.next (s.egressEdge eref) = _
      rw [edge eref running last, State.expectFrame, show (eref && !s.egress.erefLevel) = false from noPulse]
      dsimp only
      rw [timing.misses, third]
      rfl
  · refine ⟨_, ?_, State.stopEgress_stopped once false none⟩
    show Host.Outcome.next s.loseEgressClock = _
    rw [lost]
    dsimp only
    rw [if_pos running]
  · show Host.Outcome.next s.loseEgressClock = _
    rw [lost]
    dsimp only
    rw [if_neg (by rw [notRunning]; exact Bool.false_ne_true), State.buildDue_stopped notRunning]

end Sys2Proof.Machine
end

section
/-! SUPPORT. R20, R149, R153 to R158, R202: what an egress slot carries, and the words driven. -/
namespace Sys2Proof.Machine

/-! ## Header words -/

section
variable (mk rf : Bool) (code : BitVec 4) (char : PathChar)

/-- The bits of a header word, field by field from the lowest (R202). -/
theorem mkHeader_getLsbD (i : Nat) :
    (mkHeader mk rf code char).getLsbD i =
      if i < 7 then char.getLsbD i
      else if i < 10 then false
      else if i < 14 then code.getLsbD (i - 10)
      else if i = 14 then rf
      else if i = 15 then mk
      else false := by
  by_cases inside : i < 16
  · unfold mkHeader
    erw [BitVec.getLsbD_append]
    simp only [BitVec.getLsbD_append]
    interval_cases i <;> simp
  · rw [BitVec.getLsbD_of_ge _ _ (by omega)]
    simp only [show ¬ i < 7 by omega, show ¬ i < 10 by omega, show ¬ i < 14 by omega, show i ≠ 14 by omega, show i ≠ 15 by omega, if_false]

theorem hdrMK_mkHeader : hdrMK (mkHeader mk rf code char) = mk := by
  rw [hdrMK, mkHeader_getLsbD]
  rfl

theorem hdrRF_mkHeader : hdrRF (mkHeader mk rf code char) = rf := by
  rw [hdrRF, mkHeader_getLsbD]
  rfl

theorem hdrCode_mkHeader : hdrCode (mkHeader mk rf code char) = code := by
  refine BitVec.eq_of_getLsbD_eq fun i hi => ?_
  rw [hdrCode, BitVec.getLsbD_extractLsb', mkHeader_getLsbD]
  interval_cases i <;> rfl

theorem hdrChar_mkHeader : hdrChar (mkHeader mk rf code char) = char := by
  refine BitVec.eq_of_getLsbD_eq fun i hi => ?_
  rw [hdrChar, BitVec.getLsbD_extractLsb', mkHeader_getLsbD]
  interval_cases i <;> rfl

theorem mkHeader_spare : (mkHeader mk rf code char).extractLsb' 7 3 = 0 := by
  refine BitVec.eq_of_getLsbD_eq fun i hi => ?_
  rw [BitVec.getLsbD_extractLsb', mkHeader_getLsbD]
  interval_cases i <;> rfl

end

/-! ## The content of a slot -/

theorem State.slotContent_unowned {s : State} {n : SlotIx} (unowned : pick s.owner n = none) : s.slotContent n = .unequipped := by
  unfold State.slotContent
  rw [unowned]
  rfl

section
variable {s : State} {n : SlotIx} {r : RecIx} {l : Live}

theorem State.slotContent_owned (owned : pick s.owner n = some r) (hl : s.sup.live r = some l) :
    s.slotContent n =
      match (if l.forwards then l.selectedSource.bind s.storeEntry else none) with
      | none => .alarm l.fields.outName
      | some frame => .forwarded l.fields.outName l.fields.outCode frame := by
  unfold State.slotContent
  rw [owned, Option.bind_some, hl] <;> rfl

theorem Live.forwards_iff : l.forwards = true ↔ ∃ j, l.selectedJudgement = some j ∧ j.condition ≠ .failed := by
  unfold Live.forwards
  cases l.selectedJudgement <;> simp

theorem State.slotContent_alarm (owned : pick s.owner n = some r) (hl : s.sup.live r = some l)
    (lost : (∀ j, l.selectedJudgement = some j → j.condition = .failed) ∨
      (∀ src, l.selectedSource = some src → pick (s.rx src.bus).store src.slot = none)) :
    s.slotContent n = .alarm l.fields.outName := by
  have nothing : (if l.forwards then l.selectedSource.bind s.storeEntry else none) = none := by
    rcases lost with failed | empty
    · refine if_neg fun forwards => ?_
      obtain ⟨j, stored, other⟩ := Live.forwards_iff.1 forwards
      exact other (failed j stored)
    · split
      · cases selected : l.selectedSource with
        | none => rfl
        | some src => exact empty src selected
      · rfl
  rw [State.slotContent_owned owned hl, nothing]

theorem State.slotContent_forwarded {j : Judgement} {src : Source} {frame : SlotFrame} (owned : pick s.owner n = some r)
    (hl : s.sup.live r = some l) (stored : l.selectedJudgement = some j) (good : j.condition ≠ .failed)
    (selected : l.selectedSource = some src) (entry : pick (s.rx src.bus).store src.slot = some frame) :
    s.slotContent n = .forwarded l.fields.outName l.fields.outCode frame := by
  have found : (if l.forwards then l.selectedSource.bind s.storeEntry else none) = some frame := by
    rw [if_pos (Live.forwards_iff.2 ⟨j, stored, good⟩), selected]
    exact entry
  rw [State.slotContent_owned owned hl, found]

end

/-! ## Words driven -/

/-- The word driven at a header position (R20). -/
theorem Sending.drive_header (x : Sending) (n : SlotIx) :
    x.drive (24 * n.val) =
      { data := x.header, ss := true, fs := n.val == 0, fill := x.fill
        par := parityBit x.sense x.scope x.header true (n.val == 0) x.fill } := by
  have header : (24 * n.val % 24 == 0) = true := by simp
  have first : (24 * n.val == 0) = (n.val == 0) := by rw [Bool.eq_iff_iff, beq_iff_eq, beq_iff_eq]; omega
  unfold Sending.drive
  rw [header, first]
  rfl

/-- The word driven at a payload position (R20). -/
theorem Sending.drive_payload (x : Sending) {pos : Nat} (payload : pos % 24 ≠ 0) :
    x.drive pos =
      { data := x.payload.getD (pos % 24 - 1) 0, ss := false, fs := false, fill := false
        par := parityBit x.sense x.scope (x.payload.getD (pos % 24 - 1) 0) false false false } := by
  have notFirst : pos ≠ 0 := by
    rintro rfl
    exact payload rfl
  unfold Sending.drive
  rw [beq_false_of_ne payload, beq_false_of_ne notFirst]
  rfl

/-- The alarm-fill counters after a content has been begun (R158). -/
def Content.alarmFill (e : Egress) (n : SlotIx) : Content → Vector (BitVec 16) 48
  | .alarm _ => put e.alarmFill n (satInc (pick e.alarmFill n))
  | .unequipped => e.alarmFill
  | .forwarded _ _ _ => e.alarmFill

theorem Egress.countAlarm_eq (e : Egress) (n : SlotIx) (c : Content) : e.countAlarm n c = { e with alarmFill := c.alarmFill e n } := by
  cases c <;> rfl

theorem Egress.assemble_settings (e : Egress) (c : Content) :
    (e.assemble c).sense = e.sense ∧ (e.assemble c).scope = e.scope ∧ (e.assemble c).header.extractLsb' 7 3 = 0 := by
  cases c <;> exact ⟨rfl, rfl, mkHeader_spare _ _ _ _⟩

/-- EGRESS_SLOT_BUILD at the header word of a slot, by the slot's content. -/
theorem exec_egressSlotBuild {s : State} {n : SlotIx} (running : s.egress.running = true) (due : s.egress.headerDue = true)
    (position : s.egress.framePos = 24 * n.val) {c : Content} (content : s.slotContent n = c) :
    exec (.egressSlotBuild []) s =
      .next
        { s with
          egress :=
            { s.egress with
              sending := some (s.egress.assemble c)
              headerDue := false
              alarmFill := c.alarmFill s.egress n
              out :=
                { data := (s.egress.assemble c).header, ss := true, fs := n.val == 0, fill := (s.egress.assemble c).fill
                  par := parityBit s.egress.sense s.egress.scope (s.egress.assemble c).header true (n.val == 0)
                    (s.egress.assemble c).fill } } } := by
  have slot : s.egress.framePos / 24 = n.val := by omega
  have settings := s.egress.assemble_settings c
  show Host.Outcome.next s.buildDue = _
  have begun : s.buildDue = s.buildSlot n := by
    rw [State.buildDue, running, due, slot, readSlot_val]
    rfl
  rw [begun]
  unfold State.buildSlot
  dsimp only
  rw [content, Egress.countAlarm_eq, position, Sending.drive_header, settings.1, settings.2.1]

/-- Settles O55: the three contents a slot can have, and the header word made of each. -/
theorem egressSlotIsBuilt : Obligations.EgressSlotIsBuilt := by
  intro s n running due position phase sent
  refine ⟨fun unowned => ?_, fun r l owned hl => ?_⟩
  · have built := exec_egressSlotBuild running due position (State.slotContent_unowned unowned)
    obtain ⟨sense, scope, spare⟩ := s.egress.assemble_settings .unequipped
    exact ⟨_, _, built, ⟨sense, scope, spare, rfl⟩, rfl, rfl, hdrMK_mkHeader .., hdrRF_mkHeader .., hdrCode_mkHeader ..,
      hdrChar_mkHeader ..⟩
  · intro selected stored
    have sameSource : l.selectedSource = selected := rfl
    have sameStored : l.selectedJudgement = stored := rfl
    refine ⟨fun lost => ?_, fun j src frame judged good source entry => ?_⟩
    · have built := exec_egressSlotBuild running due position (State.slotContent_alarm owned hl lost)
      obtain ⟨sense, scope, spare⟩ := s.egress.assemble_settings (.alarm l.fields.outName)
      refine ⟨_, _, built, ⟨sense, scope, spare, rfl⟩, rfl, rfl, hdrMK_mkHeader .., hdrRF_mkHeader .., hdrCode_mkHeader .., ?_⟩
      refine (hdrChar_mkHeader ..).trans ?_
      cases l.fields.outName <;> rfl
    · have built := exec_egressSlotBuild running due position (State.slotContent_forwarded owned hl judged good source entry)
      obtain ⟨sense, scope, spare⟩ := s.egress.assemble_settings (.forwarded l.fields.outName l.fields.outCode frame)
      refine ⟨_, _, built, ⟨sense, scope, spare, rfl⟩, rfl, rfl, hdrRF_mkHeader .., ?_, ?_, ?_⟩
      · refine (hdrMK_mkHeader ..).trans ?_
        cases l.fields.outName <;> rfl
      · refine (hdrChar_mkHeader ..).trans ?_
        cases l.fields.outName <;> rfl
      · refine (hdrCode_mkHeader ..).trans ?_
        cases l.fields.outCode <;> rfl

/-- Settles O56: an edge in RUNNING, at a payload position and at a header position. -/
theorem egressEdgesDriveWords : Obligations.EgressEdgesDriveWords := by
  intro s eref high running notDue inside pos
  have edge : s.egressEdge eref = State.driveNext { s with egress := { s.egress with erefLevel := eref } } := by
    rw [State.egressEdge_eq high, State.buildDue_notDue notDue]
    dsimp only
    rw [if_pos running, if_neg (by omega)]
  refine ⟨fun payload x sending => ?_, fun header => ?_⟩
  · intro data out
    show Host.Outcome.next (s.egressEdge eref).buildDue = _
    rw [edge, State.driveNext]
    dsimp only
    rw [if_neg payload, sending, Option.map_some, Option.getD_some, Sending.drive_payload x payload]
    exact congrArg _ (State.buildDue_notDue notDue)
  · show Host.Outcome.next (s.egressEdge eref).buildDue = _
    rw [edge, State.driveNext]
    dsimp only
    rw [if_pos header]
    rfl

end Sys2Proof.Machine
end

section
/-! SUPPORT. R110 to R114, R123: what the rows of the selector do to the record's selector part and to the timer pool. -/
namespace Sys2Proof.Machine

/-! ## Ending a record's waits -/

theorem selectorRow_waits {x : Selector} (row : selectorRow x) : x.waiting = x.timer.isNone ∨ x.waiting = false := by
  unfold selectorRow at row
  split at row
  · exact .inr row.2.2
  · exact .inr row.2.2
  · exact .inr row.2.2.1
  · exact .inr row.2.2.1
  · exact .inl row.2.1

/-- What the end of a record's waits comes to in the pool, `x` being its selector part before (R110, R123). -/
structure Supervision.Ended (u v : Supervision) (r : RecIx) (x : Selector) : Prop where
  waiters : r ∉ v.pool.waiters
  shorts : v.pool.shorts = u.pool.shorts
  freed : ∀ t, x.timer = some t → u.frees v r t
  dropped : x.timer = none → v.pool = { u.pool with waiters := u.pool.waiters.filter (fun q => decide (q ≠ r)) }

section
variable {u : Supervision} {r : RecIx} {x : Selector} (law : PoolLaw u) (hx : u.sel r = some x)
  (waits : x.waiting = x.timer.isNone ∨ x.waiting = false) (g : Selector → Selector)
include law hx waits

theorem Supervision.endWaits_ended : u.Ended ((u.endWaits r).modSel r g) r x where
  waiters := u.endWaits_waiters r
  shorts := u.endWaits_shorts r
  freed t held := by
    have notWaiting : x.waiting = false := by
      rcases waits with eq | eq
      · rw [eq, held]
        rfl
      · exact eq
    refine (Supervision.endWaits_frees law hx held notWaiting).modSel ?_ g
    rw [Supervision.mem_waiters_iff law hx, notWaiting]
    exact Bool.false_ne_true
  dropped none := Supervision.endWaits_pool_of_none hx none

theorem Supervision.endWaits_modSel_sel :
    ((u.endWaits r).modSel r g).sel r = some (g { x with timer := none, waiting := false }) := by
  rw [Supervision.modSel_same, Supervision.endWaits_sel law hx waits]
  rfl

end

/-- Settles O36: a request row ends the record's waits and selects at once. -/
theorem requestRowsSettle : Obligations.RequestRowsSettle := by
  intro u r f x mw mp side hx law row request
  have applies : requestRow x.request x.selected mw mp = some side := by
    unfold requestRow
    rcases request with ⟨req, rfl⟩ | ⟨req, rfl⟩ | ⟨req, selected, ranks, rfl⟩ | ⟨req, selected, ranks, rfl⟩
    · rw [req]
    · rw [req]
    · rw [req]
      exact if_pos ⟨selected, by omega⟩
    · rw [req]
      exact if_pos ⟨selected, by omega⟩
  have settled : u.settleLive r f x mw mp = ((u.endWaits r).selectAt r side, false) := by rw [Supervision.settleLive, applies]
  have waits := selectorRow_waits row
  have ended := Supervision.endWaits_ended law hx waits fun x => { x with selected := side, state := side.rest }
  dsimp only
  rw [settled]
  exact ⟨rfl, ended.waiters, ended.shorts, ended.freed, ended.dropped, Supervision.endWaits_modSel_sel law hx waits _⟩

/-! ## Leaving a source and beginning a return wait -/

/-- The selector part of a record that takes a timer and moves to a state of that wait. -/
theorem Supervision.takeTimer_setSelState {u v : Supervision} {r : RecIx} {x : Selector} (hx : u.sel r = some x) {t : TimerIx}
    (free : u.pool.lowestFree = some t) {purpose : Purpose} {ticks : Nat} (taken : u.takeTimer r purpose ticks = some v)
    (state : SelState) :
    (v.setSelState r state).sel r = some { x with state, timer := some t } ∧
      pick (v.setSelState r state).pool.timers t = some (.loaded r purpose ticks) ∧
      (v.setSelState r state).pool.shorts = u.pool.shorts := by
  rw [Supervision.takeTimer_eq r purpose ticks free, Option.some.injEq] at taken
  subst taken
  refine ⟨?_, pick_put_same _ _ _, rfl⟩
  rw [Supervision.setSelState, Supervision.modSel_same, Supervision.modSel_same, Supervision.withPool_sel, hx]
  rfl

theorem Supervision.selectAt_sel {u : Supervision} {r : RecIx} {x : Selector} (hx : u.sel r = some x) (side : Side) :
    (u.selectAt r side).sel r = some { x with selected := side, state := side.rest } := by
  rw [Supervision.selectAt, Supervision.modSel_same, hx]
  rfl

theorem Supervision.setSelState_sel {u : Supervision} {r : RecIx} {x : Selector} (hx : u.sel r = some x) (state : SelState) :
    (u.setSelState r state).sel r = some { x with state } := by
  rw [Supervision.setSelState, Supervision.modSel_same, hx]
  rfl

section
variable {u : Supervision} {r : RecIx} {f : Fields} {x : Selector} (hx : u.sel r = some x) (side : Side)
include hx

theorem Supervision.leaveSource_now (noHold : f.holdOff = 0) :
    (u.leaveSource r f side).2 = false ∧
      (u.leaveSource r f side).1.sel r = some { x with selected := side.other, state := side.other.rest } ∧
      (u.leaveSource r f side).1.pool = u.pool := by
  rw [Supervision.leaveSource, if_pos noHold]
  exact ⟨rfl, Supervision.selectAt_sel hx _, rfl⟩

theorem Supervision.leaveSource_held (hold : f.holdOff ≠ 0) {t : TimerIx} (free : u.pool.lowestFree = some t) :
    (u.leaveSource r f side).2 = false ∧
      (u.leaveSource r f side).1.sel r = some { x with state := side.hold, timer := some t } ∧
      pick (u.leaveSource r f side).1.pool.timers t = some (.loaded r .holdoff f.holdTicks) ∧
      (u.leaveSource r f side).1.pool.shorts = u.pool.shorts := by
  have taken := Supervision.takeTimer_eq r .holdoff f.holdTicks free
  rw [Supervision.leaveSource, if_neg hold, taken]
  exact ⟨rfl, Supervision.takeTimer_setSelState hx free taken _⟩

theorem Supervision.leaveSource_short (hold : f.holdOff ≠ 0) (none : u.pool.lowestFree = none) :
    (u.leaveSource r f side).2 = true ∧
      (u.leaveSource r f side).1.sel r = some { x with selected := side.other, state := side.other.rest } ∧
      (u.leaveSource r f side).1.pool = { u.pool with shorts := satInc u.pool.shorts } := by
  rw [Supervision.leaveSource, if_neg hold, Supervision.takeTimer_none r .holdoff f.holdTicks none]
  exact ⟨rfl, Supervision.selectAt_sel (u := u.countShort) hx _, rfl⟩

theorem Supervision.beginReturn_held {t : TimerIx} (free : u.pool.lowestFree = some t) :
    (u.beginReturn r f).2 = false ∧ (u.beginReturn r f).1.sel r = some { x with state := .ret, timer := some t } ∧
      pick (u.beginReturn r f).1.pool.timers t = some (.loaded r .ret f.returnTicks) := by
  have taken := Supervision.takeTimer_eq r .ret f.returnTicks free
  have standing := Supervision.takeTimer_setSelState hx free taken .ret
  rw [Supervision.beginReturn, taken]
  exact ⟨rfl, standing.1, standing.2.1⟩

theorem Supervision.beginReturn_short (none : u.pool.lowestFree = none) :
    (u.beginReturn r f).2 = true ∧ (u.beginReturn r f).1.sel r = some { x with state := .ret, waiting := true } ∧
      (u.beginReturn r f).1.pool = { u.pool with shorts := satInc u.pool.shorts, waiters := u.pool.waiters ++ [r] } := by
  have joined : (u.countShort.join r).sel r = some { x with waiting := true } := by
    rw [Supervision.join, Supervision.modSel_same, Supervision.withPool_sel, Supervision.countShort_sel, hx]
    rfl
  rw [Supervision.beginReturn, Supervision.takeTimer_none r .ret f.returnTicks none]
  exact ⟨rfl, Supervision.setSelState_sel joined _, rfl⟩

end

/-- A release followed by a change of state. -/
theorem Supervision.releaseTimer_setSelState {u : Supervision} (law : PoolLaw u) {r : RecIx} {x : Selector} (hx : u.sel r = some x)
    (notWaiting : x.waiting = false) (state : SelState) :
    ((u.releaseTimer r).setSelState r state).sel r = some { x with state, timer := none } ∧
      ∀ t, x.timer = some t → u.frees ((u.releaseTimer r).setSelState r state) r t := by
  refine ⟨Supervision.setSelState_sel (Supervision.releaseTimer_sel law hx (.inr notWaiting)) state, fun t held => ?_⟩
  refine (Supervision.releaseTimer_frees law hx held notWaiting).modSel ?_ _
  rw [Supervision.mem_waiters_iff law hx, notWaiting]
  exact Bool.false_ne_true

/-- A reload followed by a change of state. -/
theorem Supervision.reloadTimer_setSelState {u : Supervision} (law : PoolLaw u) {r : RecIx} {x : Selector} (hx : u.sel r = some x)
    {t : TimerIx} (held : x.timer = some t) (purpose : Purpose) (ticks : Nat) (state : SelState) :
    ((u.reloadTimer r purpose ticks).setSelState r state).sel r = some { x with state } ∧
      pick ((u.reloadTimer r purpose ticks).setSelState r state).pool.timers t = some (.loaded r purpose ticks) ∧
      ((u.reloadTimer r purpose ticks).setSelState r state).pool.waiters = u.pool.waiters := by
  have reloaded : u.reloadTimer r purpose ticks =
      { u with pool := { u.pool with timers := put u.pool.timers t (some (.loaded r purpose ticks)) } } := by
    rw [Supervision.reloadTimer, Supervision.heldTimer_of_some law hx held]
  rw [reloaded]
  exact ⟨Supervision.setSelState_sel hx _, pick_put_same _ _ _, rfl⟩

/-! ## The state rows -/

section
variable {u : Supervision} {r : RecIx} {f : Fields} {x : Selector} {mw mp : Int}

theorem Supervision.settleLive_of_none (none : requestRow x.request x.selected mw mp = none) :
    u.settleLive r f x mw mp = u.stateRow r f x mw mp := by
  rw [Supervision.settleLive, none]

theorem Supervision.stateRow_onW (state : x.state = .onW) :
    u.stateRow r f x mw mp = if mw < mp then u.leaveSource r f .W else (u, false) := by
  rw [Supervision.stateRow, state]

theorem Supervision.stateRow_holdW (state : x.state = .holdW) :
    u.stateRow r f x mw mp = if mw < mp then (u, false) else ((u.releaseTimer r).setSelState r .onW, false) := by
  rw [Supervision.stateRow, state]

theorem Supervision.stateRow_onP (state : x.state = .onP) :
    u.stateRow r f x mw mp =
      if mp < mw then u.leaveSource r f .P else if returnDue f x.request mw then u.beginReturn r f else (u, false) := by
  rw [Supervision.stateRow, state]

theorem Supervision.stateRow_holdP (state : x.state = .holdP) :
    u.stateRow r f x mw mp =
      if mp < mw then (u, false)
      else if returnDue f x.request mw then ((u.reloadTimer r .ret f.returnTicks).setSelState r .ret, false)
      else ((u.releaseTimer r).setSelState r .onP, false) := by
  rw [Supervision.stateRow, state]

theorem Supervision.stateRow_ret (state : x.state = .ret) :
    u.stateRow r f x mw mp =
      if mp < mw then
        if f.holdOff = 0 then ((u.endWaits r).selectAt r .W, false)
        else if x.waiting then (((u.leave r).countShort).selectAt r .W, true)
        else ((u.reloadTimer r .holdoff f.holdTicks).setSelState r .holdP, false)
      else if returnDue f x.request mw then (u, false)
      else ((u.endWaits r).setSelState r .onP, false) := by
  rw [Supervision.stateRow, state]

theorem returnDue_iff {request : Request} :
    returnDue f request mw = true ↔ f.revertive = true ∧ mw = 2 ∧ request ≠ .steerP := by
  simp [returnDue, and_assoc]

end

theorem selectorRow_held {x : Selector} (row : selectorRow x) (state : x.state = .holdW ∨ x.state = .holdP) : x.waiting = false := by
  unfold selectorRow at row
  rcases state with eq | eq <;> rw [eq] at row <;> exact row.2.2.1

/-- Settles O33: the rows of R111. -/
theorem rowsOnWorking : Obligations.RowsOnWorking := by
  intro u r f x mw mp hx none
  dsimp only
  rw [Supervision.settleLive_of_none none]
  refine ⟨fun state below noHold => ?_, fun state below hold t free => ?_, fun state below hold short => ?_, fun state above => ?_,
    fun state above law row => ?_, fun state below => ?_⟩
  · rw [Supervision.stateRow_onW state, if_pos below]
    exact Supervision.leaveSource_now hx .W noHold
  · rw [Supervision.stateRow_onW state, if_pos below]
    exact Supervision.leaveSource_held hx .W hold free
  · rw [Supervision.stateRow_onW state, if_pos below]
    exact Supervision.leaveSource_short hx .W hold short
  · rw [Supervision.stateRow_onW state, if_neg above]
  · rw [Supervision.stateRow_holdW state, if_neg above]
    exact ⟨rfl, Supervision.releaseTimer_setSelState law hx (selectorRow_held row (.inl state)) .onW⟩
  · rw [Supervision.stateRow_holdW state, if_pos below]

/-- Settles O34: the rows of R112 that begin on the protect source. -/
theorem rowsOnProtect : Obligations.RowsOnProtect := by
  intro u r f x mw mp hx law row none
  dsimp only
  rw [Supervision.settleLive_of_none none, ← returnDue_iff]
  refine ⟨fun state below noHold => ?_, fun state below hold t free => ?_, fun state below hold short => ?_,
    fun state above due t free => ?_, fun state above due short => ?_, fun state above notDue => ?_, fun state below => ?_,
    fun state above due t held => ?_, fun state above notDue => ?_⟩
  · rw [Supervision.stateRow_onP state, if_pos below]
    exact Supervision.leaveSource_now hx .P noHold
  · rw [Supervision.stateRow_onP state, if_pos below]
    obtain ⟨met, sel, timer, _⟩ := Supervision.leaveSource_held (f := f) hx .P hold free
    exact ⟨met, sel, timer⟩
  · rw [Supervision.stateRow_onP state, if_pos below]
    exact Supervision.leaveSource_short hx .P hold short
  · rw [Supervision.stateRow_onP state, if_neg above, if_pos due]
    exact Supervision.beginReturn_held hx free
  · rw [Supervision.stateRow_onP state, if_neg above, if_pos due]
    exact Supervision.beginReturn_short hx short
  · rw [Supervision.stateRow_onP state, if_neg above, if_neg notDue]
  · rw [Supervision.stateRow_holdP state, if_pos below]
  · rw [Supervision.stateRow_holdP state, if_neg above, if_pos due]
    exact ⟨rfl, Supervision.reloadTimer_setSelState law hx held .ret f.returnTicks .ret⟩
  · rw [Supervision.stateRow_holdP state, if_neg above, if_neg notDue]
    exact ⟨rfl, Supervision.releaseTimer_setSelState law hx (selectorRow_held row (.inr state)) .onP⟩

/-- Settles O35: the rows of R113. -/
theorem rowsInReturn : Obligations.RowsInReturn := by
  intro u r f x mw mp hx law none state waits
  dsimp only
  rw [Supervision.settleLive_of_none none, ← returnDue_iff, Supervision.stateRow_ret state]
  have rested : u.Ended ((u.endWaits r).selectAt r .W) r x := Supervision.endWaits_ended law hx (.inl waits) _
  have stopped : u.Ended ((u.endWaits r).setSelState r .onP) r x := Supervision.endWaits_ended law hx (.inl waits) _
  refine ⟨fun below noHold => ?_, fun below hold t held => ?_, fun below hold idle => ?_, fun above notDue => ?_, fun above due => ?_⟩
  · rw [if_pos below, if_pos noHold]
    exact ⟨rfl, Supervision.endWaits_modSel_sel law hx (.inl waits) _, rested.waiters, rested.freed, rested.dropped⟩
  · have notWaiting : ¬ x.waiting = true := by simp [waits, held]
    rw [if_pos below, if_neg hold, if_neg notWaiting]
    obtain ⟨sel, timer, _⟩ := Supervision.reloadTimer_setSelState law hx held .holdoff f.holdTicks .holdP
    exact ⟨rfl, sel, timer⟩
  · have waiting : x.waiting = true := by simp [waits, idle]
    have left : (u.leave r).countShort.sel r = some { x with waiting := false } := by
      rw [Supervision.countShort_sel, Supervision.leave, Supervision.modSel_same, Supervision.withPool_sel, hx]
      rfl
    rw [if_pos below, if_neg hold, if_pos waiting]
    exact ⟨rfl, Supervision.selectAt_sel left _, rfl⟩
  · rw [if_neg above, if_neg notDue]
    exact ⟨rfl, Supervision.endWaits_modSel_sel law hx (.inl waits) _, stopped.waiters, stopped.freed, stopped.dropped⟩
  · rw [if_neg above, if_pos due]

end Sys2Proof.Machine
end

section
/-! SUPPORT. R106, R109, R121, R123: an evaluation as a whole, and the modes PREVIEW and FROZEN. -/
namespace Sys2Proof.Machine

/-! ## The alert enable -/

/-- Settles O51: ALERT_SET writes the enable and nothing else. -/
theorem alertSetWritesEnable : Obligations.AlertSetWritesEnable := by
  refine ⟨fun s on ready => ?_, fun s value ready high => ?_⟩
  · refine ⟨exec_performs ready rfl (Nat.le_add_left 1 59) nofun nofun ?_, ?_⟩
    · cases on <;> rfl
    · simp [State.nALERTLow]
  · refine exec_performs ready rfl (Nat.le_add_left 1 59) nofun nofun ?_
    show performAlertSet [value] s = _
    unfold performAlertSet
    rw [if_neg fun different => different rfl, show byteAt [value] 0 = value from rfl, readFlag_none high]
    rfl

/-! ## Posting for a live record -/

theorem Supervision.postIf_notices {u : Supervision} {r : RecIx} {l : Live} (hl : u.live r = some l) (arose : Bool) {k : Kind}
    (maskable : k.maskable = true) :
    (u.postIf arose r k).notices =
      if arose && !hasKind l.fields.mask k then addNotice (.record r) (some (u.record r).generation) k u.notices else u.notices := by
  have masks : u.masks r k = hasKind l.fields.mask k := by rw [Supervision.masks, maskable, hl, Bool.true_and]
  unfold Supervision.postIf Supervision.postRecord
  rw [masks]
  cases arose <;> cases hasKind l.fields.mask k <;> rfl

theorem Supervision.postIf_generation (u : Supervision) (arose : Bool) (r q : RecIx) (k : Kind) :
    ((u.postIf arose r k).record q).generation = (u.record q).generation := (u.postIf_sameRecords arose r k q).1

/-! ## One evaluation -/

/-- A record whose selector part alone has changed keeps its mode, its request and its judgements. -/
theorem Supervision.SelectorsOnly.live {u v : Supervision} (h : u.SelectorsOnly v) {r : RecIx} {l : Live} (hl : u.live r = some l) :
    ∃ x : Selector, v.live r = some { l with sel := x } ∧ x.kept = l.sel.kept := by
  have standing := (h.records r).2.2
  have kept := h.kept r
  rw [hl] at standing
  rw [Supervision.sel_of_live hl] at kept
  cases after : v.live r with
  | none => simp [after] at standing
  | some k =>
    rw [Supervision.sel_of_live after] at kept
    simp only [after, Option.map_some, Option.some.injEq, Prod.mk.injEq] at standing kept
    obtain ⟨state, fields⟩ := standing
    refine ⟨k.sel, ?_, kept⟩
    rw [← state, ← fields]

/-- The selection step of a live record's evaluation, the judgements having been stored (R106). -/
def Supervision.settledBy (u : Supervision) (r : RecIx) (l : Live) (expiry : Bool) (w : Judgement) (p : Option Judgement) :
    Supervision × Bool :=
  (u.modSel r (fun x => { x with w := some w, p := p })).settle r expiry l.fields { l.sel with w := some w, p := p }
    (meritOf l.fields.degradeSwitch (some w)) (meritOf l.fields.degradeSwitch p)

/-- The state of the table after the selection step and the end of a steered request (R109). -/
def Supervision.reached (u : Supervision) (r : RecIx) (dropped : Bool) : Supervision :=
  if dropped then u.modSel r (fun x => { x with request := .none }) else u

theorem Supervision.reached_live {u : Supervision} {r : RecIx} {l : Live} (hl : u.live r = some l) (dropped : Bool) :
    (u.reached r dropped).live r = some { l with sel := { l.sel with request := if dropped then .none else l.sel.request } } := by
  cases dropped with
  | false => exact hl
  | true =>
    rw [Supervision.reached, if_pos rfl, Supervision.modSel_live, hl]
    rfl

theorem Supervision.reached_pool (u : Supervision) (r : RecIx) (dropped : Bool) : (u.reached r dropped).pool = u.pool := by
  cases dropped <;> rfl

theorem Supervision.reached_notices (u : Supervision) (r : RecIx) (dropped : Bool) : (u.reached r dropped).notices = u.notices := by
  cases dropped <;> rfl

theorem Supervision.reached_generation (u : Supervision) (r q : RecIx) (dropped : Bool) :
    ((u.reached r dropped).record q).generation = (u.record q).generation := by
  cases dropped with
  | false => rfl
  | true => exact (u.modSel_sameRecords r (fun x => { x with request := .none }) q).1

section
variable {u : Supervision} {r : RecIx} {l : Live} (hl : u.live r = some l) (expiry : Bool) (w : Judgement) (p : Option Judgement)

theorem Supervision.settledBy_selectorsOnly :
    (u.modSel r (fun x => { x with w := some w, p := p })).SelectorsOnly (u.settledBy r l expiry w p).1 :=
  Supervision.settle_selectorsOnly _ _ _ _ _ _ _

include hl

/-- The selection step changes where the selection stands, and the claim on a timer. -/
theorem Supervision.settledBy_live :
    ∃ y : Selector, (u.settledBy r l expiry w p).1.live r = some { l with sel := y } ∧ y.mode = l.sel.mode ∧
      y.request = l.sel.request ∧ y.w = some w ∧ y.p = p := by
  have stored : (u.modSel r (fun x => { x with w := some w, p := p })).live r =
      some { l with sel := { l.sel with w := some w, p := p } } := by
    rw [Supervision.modSel_live, hl]
    rfl
  obtain ⟨y, live, kept⟩ := (Supervision.settledBy_selectorsOnly (u := u) (r := r) (l := l) expiry w p).live stored
  simp only [Selector.kept, Prod.mk.injEq] at kept
  obtain ⟨mode, request, storedW, storedP⟩ := kept
  exact ⟨y, live, mode, request, storedW, storedP⟩

/-- An evaluation is its selection step, the end of a steered request, and four postings. -/
theorem Supervision.evaluate_eq {y : Selector} (settled : (u.settledBy r l expiry w p).1.live r = some { l with sel := y }) :
    u.evaluate r expiry w p =
      ((((((u.settledBy r l expiry w p).1.reached r (steerDropped l.sel.request l.sel.selected y.selected)).postIf
        (l.sel.w != some w || l.sel.p != p) r .cond).postIf (y.selected != l.sel.selected) r .select).postIf
          (steerDropped l.sel.request l.sel.selected y.selected) r .steerDrop).postIf (u.settledBy r l expiry w p).2 r .timerShort) := by
  unfold Supervision.evaluate
  rw [hl]
  dsimp only
  rw [show (u.modSel r (fun x => { x with w := some w, p := p })).settle r expiry l.fields { l.sel with w := some w, p := p }
    (meritOf l.fields.degradeSwitch (some w)) (meritOf l.fields.degradeSwitch p) = u.settledBy r l expiry w p from rfl,
    Supervision.sel_of_live settled]
  rfl

theorem Supervision.evaluate_pool : (u.evaluate r expiry w p).pool = (u.settledBy r l expiry w p).1.pool := by
  obtain ⟨y, settled, _⟩ := Supervision.settledBy_live hl expiry w p
  rw [Supervision.evaluate_eq hl expiry w p settled]
  simp only [Supervision.postIf_pool, Supervision.reached_pool]

theorem Supervision.evaluate_live {y : Selector} (settled : (u.settledBy r l expiry w p).1.live r = some { l with sel := y }) :
    (u.evaluate r expiry w p).live r =
      some { l with sel := { y with request := if steerDropped l.sel.request l.sel.selected y.selected then .none else y.request } } := by
  rw [Supervision.evaluate_eq hl expiry w p settled]
  simp only [Supervision.postIf_live]
  exact Supervision.reached_live settled _

/-- The notices an evaluation queues, in the order of the postings. -/
theorem Supervision.evaluate_notices {y : Selector} (settled : (u.settledBy r l expiry w p).1.live r = some { l with sel := y }) :
    (u.evaluate r expiry w p).notices =
      (([(l.sel.w != some w || l.sel.p != p, Kind.cond), (y.selected != l.sel.selected, .select),
          (steerDropped l.sel.request l.sel.selected y.selected, .steerDrop),
          ((u.settledBy r l expiry w p).2, .timerShort)] : List (Bool × Kind)).filter
        (fun x => x.1 && !hasKind l.fields.mask x.2)).foldl
          (fun xs x => addNotice (.record r) (some (u.record r).generation) x.2 xs) u.notices := by
  have only := Supervision.settledBy_selectorsOnly (u := u) (r := r) (l := l) expiry w p
  have generation : ((u.settledBy r l expiry w p).1.record r).generation = (u.record r).generation :=
    (only.records r).1.trans (u.modSel_sameRecords r _ r).1
  have notices : (u.settledBy r l expiry w p).1.notices = u.notices := only.notices
  rw [Supervision.evaluate_eq hl expiry w p settled, List.foldl_filter]
  generalize steerDropped l.sel.request l.sel.selected y.selected = dropped
  have live := Supervision.reached_live settled dropped
  rw [Supervision.postIf_notices (by rw [Supervision.postIf_live, Supervision.postIf_live, Supervision.postIf_live]; exact live) _ rfl,
    Supervision.postIf_notices (by rw [Supervision.postIf_live, Supervision.postIf_live]; exact live) _ rfl,
    Supervision.postIf_notices (by rw [Supervision.postIf_live]; exact live) _ rfl, Supervision.postIf_notices live _ rfl]
  simp only [Supervision.postIf_generation, Supervision.reached_generation, generation, Supervision.reached_notices, notices,
    List.foldl_cons, List.foldl_nil]

/-- An evaluation reaches another record only through its selection step. -/
theorem Supervision.evaluate_record_ne {q : RecIx} (other : q ≠ r) :
    (u.evaluate r expiry w p).record q = (u.settledBy r l expiry w p).1.record q := by
  obtain ⟨y, settled, _⟩ := Supervision.settledBy_live hl expiry w p
  have table {v : Supervision} {arose : Bool} {k : Kind} : (v.postIf arose r k).record q = v.record q := by
    rw [Supervision.record, Supervision.postIf_table, Supervision.record]
  rw [Supervision.evaluate_eq hl expiry w p settled, table, table, table, table, Supervision.reached]
  split
  · exact Supervision.modSel_record_ne _ _ other.symm
  · rfl

end

/-- Settles O32: what one evaluation stores, ends and posts. -/
theorem evaluationStoresAndPosts : Obligations.EvaluationStoresAndPosts := by
  intro u r l expiry w p hl
  obtain ⟨y, settled, mode, request, stored, storedP⟩ := Supervision.settledBy_live hl expiry w p
  refine ⟨_, Supervision.evaluate_live hl expiry w p settled, rfl, rfl, mode, stored, storedP, ?_,
    Supervision.evaluate_notices (y := y) hl expiry w p settled, u.evaluate_sameRecords r expiry w p⟩
  rw [← request]
  rfl

/-! ## PREVIEW -/

theorem Supervision.settledBy_preview {u : Supervision} {r : RecIx} {l : Live} (preview : l.sel.mode = .preview) (expiry : Bool)
    (w : Judgement) (p : Option Judgement) :
    u.settledBy r l expiry w p = ((u.modSel r (fun x => { x with w := some w, p := p })).selectAt r
      (previewSide l.fields { l.sel with w := some w, p := p } (meritOf l.fields.degradeSwitch (some w))
        (meritOf l.fields.degradeSwitch p)), false) := by
  unfold Supervision.settledBy Supervision.settle
  rw [preview]

/-- Settles O37: in PREVIEW the selection step rests on the source the rule names. -/
theorem previewSettlesAtOnce : Obligations.PreviewSettlesAtOnce := by
  intro u r l w p hl preview
  have step := Supervision.settledBy_preview (u := u) (r := r) preview false w p
  refine ⟨?_, ?_⟩
  · rw [Supervision.evaluate_pool hl, step]
    rfl
  · have settled := congrArg (fun v => v.1.live r) step
    dsimp only at settled
    rw [Supervision.selectAt, Supervision.modSel_live, Supervision.modSel_live, hl] at settled
    refine ⟨_, Supervision.sel_of_live (Supervision.evaluate_live hl false w p settled), preview, rfl, rfl, ?_, ?_⟩
    · rfl
    · show previewSide _ _ _ _ = _
      unfold previewSide
      cases l.sel.request <;> rfl

/-! ## FROZEN -/

/-- Settles O38: a freeze ends the waits, and an evaluation in FROZEN stores without selecting. -/
theorem freezeFixesSelection : Obligations.FreezeFixesSelection := by
  intro u r l hl law row
  have hx := Supervision.sel_of_live hl
  have waits := selectorRow_waits row
  have ended : u.Ended (u.freeze r) r l.sel := Supervision.endWaits_ended law hx waits _
  refine ⟨⟨?_, ended.waiters, u.freeze_notices r, ended.freed, ended.dropped⟩, fun frozen expiry w p => ?_⟩
  · exact Supervision.endWaits_modSel_sel law hx waits _
  · have step : u.settledBy r l expiry w p = (u.modSel r (fun x => { x with w := some w, p := p }), false) := by
      unfold Supervision.settledBy Supervision.settle
      rw [frozen]
    have settled := congrArg (fun v => v.1.live r) step
    dsimp only at settled
    rw [Supervision.modSel_live, hl] at settled
    have notDropped : steerDropped l.sel.request l.sel.selected l.sel.selected = false := by
      unfold steerDropped
      cases l.sel.selected <;> simp
    refine ⟨?_, ?_⟩
    · rw [Supervision.sel_of_live (Supervision.evaluate_live hl expiry w p settled)]
      dsimp only
      rw [notDropped]
      rfl
    · rw [Supervision.evaluate_pool hl, step]
      rfl

end Sys2Proof.Machine
end

section
/-! SUPPORT. R130, R131, R135, R139, R141, R115: takes and hand-overs of timers. -/
namespace Sys2Proof.Machine

/-- A take lends the lowest FREE timer, or there is none (R130). -/
theorem Supervision.takeTimer_iff {u v : Supervision} {r : RecIx} {purpose : Purpose} {ticks : Nat} :
    u.takeTimer r purpose ticks = some v ↔
      ∃ t, u.pool.lowestFree = some t ∧
        { u with pool := u.pool.lend t (.loaded r purpose ticks) }.modSel r (fun x => { x with timer := some t }) = v := by
  unfold Supervision.takeTimer
  cases u.pool.lowestFree <;> simp

theorem Supervision.takeTimer_eq_none {u : Supervision} {r : RecIx} {purpose : Purpose} {ticks : Nat} :
    u.takeTimer r purpose ticks = none ↔ u.pool.lowestFree = none := by
  unfold Supervision.takeTimer
  cases u.pool.lowestFree <;> simp

theorem Pool.lend_ne (p : Pool) {t k : TimerIx} (other : k ≠ t) (timer : Timer) : pick (p.lend t timer).timers k = pick p.timers k :=
  pick_put_ne _ _ other.symm

theorem Supervision.freeTimer_notices (u : Supervision) (r : RecIx) (t : TimerIx) : (u.freeTimer r t).notices = u.notices :=
  (u.freeTimer_selectorsOnly r t).notices

/-- No timer but the freed one changes, whether or not a waiter receives it. -/
theorem Supervision.freeTimer_ne (u : Supervision) (r : RecIx) {t k : TimerIx} (other : k ≠ t) :
    pick (u.freeTimer r t).pool.timers k = pick u.pool.timers k := by
  unfold Supervision.freeTimer Supervision.handOver
  split
  · exact pick_put_ne _ _ other.symm
  · exact (Pool.lend_ne _ other _).trans (pick_put_ne _ _ other.symm)

/-- The records of a table one of which has given back its timer, before any hand-over. -/
theorem Supervision.giveBack_sel {u : Supervision} {r : RecIx} {x : Selector} (hx : u.sel r = some x) (p : Pool) :
    (Supervision.modSel { u with pool := p } r fun x => { x with timer := none }).sel r = some { x with timer := none } := by
  rw [Supervision.modSel_same, Supervision.withPool_sel, hx]
  rfl

/-- Settles O39: takes, and freed timers with and without a waiter. -/
theorem timersAreLentAndHandedOver : Obligations.TimersAreLentAndHandedOver := by
  refine ⟨fun u r purpose ticks x hx => ⟨?_, fun v taken => ?_⟩, fun u r t x hx => ?_⟩
  · rw [Supervision.takeTimer_eq_none, Pool.lowestFree_eq_none]
  · obtain ⟨t, lowest, rfl⟩ := Supervision.takeTimer_iff.1 taken
    obtain ⟨free, below⟩ := Pool.lowestFree_eq_some.1 lowest
    have running : (u.pool.lend t (.loaded r purpose ticks)).running = u.pool.running + 1 := Pool.running_put _ free
    refine ⟨t, free, below, pick_put_same _ _ _, fun k other => Pool.lend_ne _ other _, ?_, fun q other => ?_, running, ?_, rfl, rfl, rfl⟩
    · rw [Supervision.modSel_same, Supervision.withPool_sel, hx]
      rfl
    · rw [Supervision.modSel_ne _ _ other.symm]
      rfl
    · show max u.pool.highWater (Pool.running _) = _
      rw [Pool.running_put _ free]
  · refine ⟨u.freeTimer_notices r t, fun k other => u.freeTimer_ne r other, fun empty => ?_, fun h rest l queue hl other => ?_⟩
    · have kept : u.freeTimer r t = _ := Supervision.handOver_empty t empty
      rw [kept]
      refine ⟨pick_put_same _ _ _, Supervision.giveBack_sel hx _, empty, fun q other => ?_⟩
      rw [Supervision.modSel_ne _ _ other.symm]
      rfl
    · generalize given : Supervision.modSel { u with pool := { u.pool with timers := put u.pool.timers t none } } r
        (fun x => { x with timer := none }) = w
      have own : w.sel r = some { x with timer := none } := given ▸ Supervision.giveBack_sel hx _
      have others (q : RecIx) (ne : q ≠ r) : w.live q = u.live q := by
        rw [← given, Supervision.modSel_live_ne _ _ ne.symm]
        rfl
      have queued : w.pool.waiters = h :: rest := by
        rw [← given]
        exact queue
      have handed : u.freeTimer r t = w.handOver t := by rw [← given]; rfl
      have live : w.live h = some l := (others h other).trans hl
      obtain ⟨pool, served, apart⟩ := Supervision.handOver_cons t queued
      rw [handed]
      refine ⟨?_, ?_, ?_, ?_, fun q ne neHead => ?_⟩
      · rw [pool, Supervision.returnTicks, live]
        exact pick_put_same _ _ _
      · rw [pool]
        rfl
      · rw [served, Supervision.sel_of_live live]
        rfl
      · rw [apart r other.symm, own]
      · rw [apart q neHead, Supervision.sel, others q ne]
        rfl

end Sys2Proof.Machine
end

section
/-! SUPPORT. R54, R68, R200, R202: which bytes each reader of a parameter takes, and the AMEND that is read whole. -/
namespace Sys2Proof.Machine

/-! ## One value -/

theorem readSlot_iff {b : Byte} {n : SlotIx} : readSlot b.toNat = some n ↔ byteOfNat n.val = b := by
  constructor
  · intro h
    unfold readSlot at h
    split at h
    · cases h
      exact BitVec.ofNat_toNat ..
    · cases h
  · rintro rfl
    exact readSlot_byte n

theorem readSource_byte_of_some : ∀ b : Byte, (readSource b).all (fun src => src.byte == b) = true := by decide

theorem readSource_iff {b : Byte} {src : Source} : readSource b = some src ↔ src.byte = b := by
  constructor
  · intro h
    have own := readSource_byte_of_some b
    rw [h] at own
    exact eq_of_beq own
  · rintro rfl
    exact readSource_byte src

/-- A source byte is out of range where bit 6 is set or the slot number is above 47 (R202). -/
theorem readSource_eq_none {b : Byte} : readSource b = none ↔ b.getLsbD 6 = true ∨ 47 < (b.extractLsb' 0 6).toNat := by
  unfold readSource readSlot
  split
  · rename_i set
    simp [set]
  · rename_i clear
    simp only [clear, Option.map_eq_none_iff, dite_eq_right_iff, reduceCtorEq, imp_false, not_lt, Bool.false_eq_true, false_or]
    omega

theorem readProtect_iff {b : Byte} {p : Option Source} : readProtect b = some p ↔ (p.map Source.byte).getD 0xFF = b := by
  constructor
  · intro h
    unfold readProtect at h
    split at h
    · rename_i absent
      cases h
      exact absent.symm
    · obtain ⟨src, read, rfl⟩ := Option.map_eq_some_iff.1 h
      exact readSource_iff.1 read
  · rintro rfl
    exact readProtect_byte p

theorem readFlag_iff {b : Byte} {x : Bool} : readFlag b = some x ↔ byteOfBool x = b := by
  constructor
  · intro h
    unfold readFlag at h
    split at h
    · rename_i zero
      cases h
      exact zero.symm
    · split at h
      · rename_i one
        cases h
        exact one.symm
      · cases h
  · rintro rfl
    exact readFlag_byte x

theorem readOutCode_iff {b : Byte} {c : BitVec 4} : readOutCode b = some c ↔ c.setWidth 8 = b := by
  constructor
  · intro h
    unfold readOutCode at h
    split at h
    · cases h
      bv_omega
    · cases h
  · rintro rfl
    exact readOutCode_width c

theorem readExpectedCode_iff {b : Byte} {c : BitVec 4} : readExpectedCode b = some c ↔ c.setWidth 8 = b ∧ c ≠ 0 := by
  constructor
  · intro h
    refine ⟨?_, readExpectedCode_ne_zero h⟩
    unfold readExpectedCode at h
    split at h
    · rename_i inside
      simp only [Bool.and_eq_true, decide_eq_true_eq] at inside
      cases h
      bv_omega
    · cases h
  · rintro ⟨rfl, ne⟩
    exact readExpectedCode_width ne

theorem readCodeCheck_iff {b : Byte} {c : Option (BitVec 4)} :
    readCodeCheck b = some c ↔ (c.map (·.setWidth 8)).getD 0 = b ∧ c ≠ some 0 := by
  unfold readCodeCheck
  split
  · rename_i zero
    subst zero
    cases c with
    | none => simp
    | some d =>
      have nonzero : d.setWidth 8 = 0 → d = 0 := by bv_omega
      simpa using nonzero
  · rename_i nonzero
    cases c with
    | none => simpa using fun zero : 0 = b => nonzero zero.symm
    | some d => simp [readExpectedCode_iff]

theorem readOutCodeItem_iff {b : Byte} {c : Option (BitVec 4)} :
    readOutCodeItem b = some c ↔ (c.map (·.setWidth 8)).getD 0xFF = b := by
  unfold readOutCodeItem
  split
  · rename_i absent
    subst absent
    cases c with
    | none => simp
    | some d =>
      have inside : d.setWidth 8 ≠ 0xFF := by bv_omega
      simpa using inside
  · rename_i present
    cases c with
    | none => simpa using fun absent : 0xFF = b => present absent.symm
    | some d => simp [readOutCode_iff]

theorem readHoldOff_iff {b c : Byte} : readHoldOff b = some c ↔ c = b ∧ c.toNat ≤ 250 := by
  unfold readHoldOff
  split
  · rename_i inside
    constructor
    · rintro ⟨⟩
      exact ⟨rfl, inside⟩
    · rintro ⟨rfl, _⟩
      rfl
  · rename_i outside
    exact ⟨nofun, fun h => absurd (h.1 ▸ h.2) outside⟩

theorem readReturn_iff {v t : BitVec 16} : readReturn v = some t ↔ t = v ∧ 1 ≤ t.toNat ∧ t.toNat ≤ 900 := by
  constructor
  · intro h
    refine ⟨?_, readReturn_range h⟩
    unfold readReturn at h
    split at h
    · cases h
      rfl
    · cases h
  · rintro ⟨rfl, inside⟩
    exact readReturn_some inside

theorem readMask_iff {b c : Byte} : readMask b = some c ↔ c = b ∧ c &&& 0x03 = 0 := by
  unfold readMask
  split
  · rename_i clear
    constructor
    · rintro ⟨⟩
      exact ⟨rfl, clear⟩
    · rintro ⟨rfl, _⟩
      rfl
  · rename_i set
    exact ⟨nofun, fun h => absurd (h.1 ▸ h.2) set⟩

theorem nameBytes_of_readName {bytes : List Byte} {n : Name} (h : readName bytes = some n) : nameBytes n = bytes := by
  unfold readName at h
  split at h
  · rename_i printed
    simp only [List.all_eq_true, Bool.and_eq_true, decide_eq_true_eq] at printed
    cases h
    rw [nameBytes, List.map_map]
    refine (List.map_congr_left fun b inside => ?_).trans (List.map_id _)
    have high := (printed b inside).2
    simp only [Function.comp_apply, id_eq]
    bv_omega
  · cases h

/-- Characters out of range are no name (R54). -/
theorem readName_eq_none {bytes : List Byte} (h : ∃ b ∈ bytes, b.toNat < 0x20 ∨ 0x7E < b.toNat) : readName bytes = none := by
  obtain ⟨b, inside, out⟩ := h
  refine if_neg fun all => ?_
  have own := List.all_eq_true.1 all b inside
  simp only [Bool.and_eq_true, decide_eq_true_eq] at own
  omega

/-- A name of 16 printable characters (R54). -/
def nameFits (n : Name) : Prop := n.length = 16 ∧ n.all printable = true

theorem readNamed_iff {v : Byte × List Byte} (shape : v.2.length = if v.1 = 1 then 16 else 0) {n : Option Name} :
    readNamed v = some n ↔ carriedName n = v ∧ ∀ m, n = some m → nameFits m := by
  obtain ⟨b, chars⟩ := v
  constructor
  · intro h
    have fits (m : Name) (hm : n = some m) : nameFits m :=
      readNamed_printable (hm ▸ h) fun one => shape.trans (if_pos one)
    refine ⟨?_, fits⟩
    unfold readNamed at h
    split at h
    · rename_i zero
      cases h
      have empty : chars.length = 0 := shape.trans (if_neg fun one => absurd (zero.symm.trans one) (by decide))
      rw [List.eq_nil_of_length_eq_zero empty, show b = 0 from zero]
      rfl
    · split at h
      · rename_i one
        obtain ⟨m, read, rfl⟩ := Option.map_eq_some_iff.1 h
        exact Prod.ext one.symm (nameBytes_of_readName read)
      · cases h
  · rintro ⟨same, fits⟩
    rw [← same]
    cases n with
    | none => rfl
    | some m =>
      show Option.map some (readName (nameBytes m)) = _
      rw [readName_bytes (fits m rfl).2]
      rfl

/-! ## The items of an AMEND -/

/-- An item is read exactly where it carries its value, in range. -/
theorem checkItem_iff {α β : Type} {read : α → Option β} {write : β → α} {law : β → Prop} {v : Option α}
    (reads : ∀ x, v = some x → ∀ y, read x = some y ↔ write y = x ∧ law y) {item : Option β} :
    checkItem read v = some item ↔ item.map write = v ∧ ∀ y, item = some y → law y := by
  cases v with
  | none =>
    cases item with
    | none => exact ⟨fun _ => ⟨rfl, nofun⟩, fun _ => rfl⟩
    | some y => exact ⟨nofun, fun h => nomatch h.1⟩
  | some x =>
    cases item with
    | none =>
      refine ⟨fun h => ?_, fun h => nomatch h.1⟩
      obtain ⟨y, _, eq⟩ := Option.map_eq_some_iff.1 h
      cases eq
    | some y =>
      have own := reads x rfl y
      simp only [checkItem, Option.map_some, Option.map_eq_some_iff, Option.some.injEq, exists_eq_right, forall_eq']
      exact own

theorem checkItem_iff_of_forall {α β : Type} {read : α → Option β} {write : β → α} (reads : ∀ x y, read x = some y ↔ write y = x)
    {v : Option α} {item : Option β} : checkItem read v = some item ↔ item.map write = v := by
  rw [checkItem_iff (law := fun _ => True) fun x _ y => (reads x y).trans (and_iff_left trivial).symm]
  exact and_iff_left fun _ _ => trivial

/-- An AMEND is read exactly where it carries an amendment with every value in its range, and no item but the twelve (R68
check 2). -/
theorem readAmend_iff {items : BitVec 16} {v : AmendBytes} (shaped : v.shaped) {a : Amendment} :
    readAmend items v = some a ↔
      a.carried = v ∧ items ≠ 0 ∧ items &&& 0xF000 = 0 ∧
        (∀ n, a.expectedName = some (some n) ∨ a.outName = some (some n) → nameFits n) ∧ a.expectedCode ≠ some (some 0) ∧
        (∀ b, a.holdOff = some b → b.toNat ≤ 250) ∧ (∀ t, a.ret = some t → 1 ≤ t.toNat ∧ t.toNat ≤ 900) ∧
        ∀ b, a.mask = some b → b &&& 0x03 = 0 := by
  have egress := @checkItem_iff_of_forall _ _ (fun b : Byte => readSlot b.toNat) _ (fun _ _ => readSlot_iff) v.egress
  have working := @checkItem_iff_of_forall _ _ readSource _ (fun _ _ => readSource_iff) v.working
  have protect := @checkItem_iff_of_forall _ _ readProtect _ (fun _ _ => readProtect_iff) v.protect
  have revertive := @checkItem_iff_of_forall _ _ readFlag _ (fun _ _ => readFlag_iff) v.revertive
  have degrade := @checkItem_iff_of_forall _ _ readFlag _ (fun _ _ => readFlag_iff) v.degrade
  have outCode := @checkItem_iff_of_forall _ _ readOutCodeItem _ (fun _ _ => readOutCodeItem_iff) v.outCode
  have name := @checkItem_iff _ _ readNamed _ _ v.nameCheck fun x hx y => readNamed_iff (shaped x.1 x.2 (.inl hx))
  have outName := @checkItem_iff _ _ readNamed _ _ v.outName fun x hx y => readNamed_iff (shaped x.1 x.2 (.inr hx))
  have code := @checkItem_iff _ _ readCodeCheck _ _ v.codeCheck fun _ _ _ => readCodeCheck_iff
  have holdOff := @checkItem_iff _ _ readHoldOff id _ v.holdOff fun _ _ _ => readHoldOff_iff
  have ret := @checkItem_iff _ _ readReturn id _ v.ret fun _ _ _ => readReturn_iff
  have mask := @checkItem_iff _ _ readMask id _ v.mask fun _ _ _ => readMask_iff
  constructor
  · intro h
    simp only [readAmend, Option.bind_eq_bind, Option.bind_eq_some_iff] at h
    obtain ⟨e, he, w, hw, p, hp, r, hr, d, hd, n, hn, c, hc, on, hon, oc, hoc, ho, hho, t, ht, m, hm, h⟩ := h
    split at h
    · rename_i items
      obtain ⟨nameSame, nameLaw⟩ := name.1 hn
      obtain ⟨outSame, outLaw⟩ := outName.1 hon
      obtain ⟨codeSame, codeLaw⟩ := code.1 hc
      obtain ⟨holdSame, holdLaw⟩ := holdOff.1 hho
      obtain ⟨retSame, retLaw⟩ := ret.1 ht
      obtain ⟨maskSame, maskLaw⟩ := mask.1 hm
      rw [Option.map_id] at holdSame retSame maskSame
      cases h
      refine ⟨?_, items.1, items.2, ?_, fun zero => codeLaw _ zero rfl, holdLaw, retLaw, maskLaw⟩
      · unfold Amendment.carried
        dsimp only
        rw [egress.1 he, working.1 hw, protect.1 hp, revertive.1 hr, degrade.1 hd, nameSame, codeSame, outSame, outCode.1 hoc]
        rw [show ho = v.holdOff from holdSame, show t = v.ret from retSame, show m = v.mask from maskSame]
      · rintro k (named | named)
        · exact nameLaw _ named k rfl
        · exact outLaw _ named k rfl
    · cases h
  · rintro ⟨rfl, chosen, high, names, zero, hold, time, kinds⟩
    have nameRead := (name (item := a.expectedName)).2 ⟨rfl, fun y hy m hm => names m (.inl (hm ▸ hy))⟩
    have outRead := (outName (item := a.outName)).2 ⟨rfl, fun y hy m hm => names m (.inr (hm ▸ hy))⟩
    have codeRead := (code (item := a.expectedCode)).2 ⟨rfl, fun y hy hz => zero (hz ▸ hy)⟩
    have holdRead := (holdOff (item := a.holdOff)).2 ⟨by rw [Option.map_id]; rfl, hold⟩
    have retRead := (ret (item := a.ret)).2 ⟨by rw [Option.map_id]; rfl, time⟩
    have maskRead := (mask (item := a.mask)).2 ⟨by rw [Option.map_id]; rfl, kinds⟩
    unfold readAmend
    rw [(egress (item := a.egress)).2 rfl, (working (item := a.working)).2 rfl, (protect (item := a.protect)).2 rfl,
      (revertive (item := a.revertive)).2 rfl, (degrade (item := a.degrade)).2 rfl, nameRead, codeRead, outRead,
      (outCode (item := a.outCode)).2 rfl, holdRead, retRead, maskRead]
    exact if_pos ⟨chosen, high⟩

end Sys2Proof.Machine
end

section
/-! SUPPORT. R52, R53, R68, R116: refs, record states and values checked before a record command does anything. -/
namespace Sys2Proof.Machine

/-! ## Refs and record states -/

/-- A ref that is refused whatever the command, and the status it is refused with (R52, R53). -/
def State.refFault (s : State) (index generation : Byte) (status : Status) : Prop :=
  (64 ≤ index.toNat ∧ status = .badParam) ∨
    (∃ r : RecIx, r.val = index.toNat ∧ (s.sup.record r).generation ≠ generation ∧ status = .staleRef) ∨
    (∃ r : RecIx, r.val = index.toNat ∧ (s.sup.record r).generation = generation ∧ s.sup.live r = none ∧ status = .wrongState)

section
variable {s : State} {index generation : Byte} {r : RecIx} {l : Live} {taken : LiveState → Bool}

theorem State.checkRef_of_index (h : r.val = index.toNat) :
    s.checkRef index generation = if (s.sup.record r).generation = generation then .ok r else .error .staleRef := by
  rw [State.checkRef, readIndex_some h]

theorem State.checkRef_ref (s : State) (r : RecIx) : s.checkRef (byteOfNat r.val) (s.sup.record r).generation = .ok r := by
  rw [State.checkRef, readIndex_byte]
  exact if_pos rfl

theorem State.checkRef_fault {status : Status} (fault : s.refFault index generation status) (reached : status ≠ .wrongState) :
    s.checkRef index generation = .error status := by
  rcases fault with ⟨high, rfl⟩ | ⟨r, same, stale, rfl⟩ | ⟨_, _, _, _, rfl⟩
  · rw [State.checkRef, readIndex_none high]
  · rw [State.checkRef_of_index same, if_neg stale]
  · exact absurd rfl reached

theorem State.checkState_live (hl : s.sup.live r = some l) :
    s.checkState r taken = if taken l.state then .ok l else .error .wrongState := by
  rw [State.checkState, hl]

theorem State.checkRecord_fault {status : Status} (fault : s.refFault index generation status) :
    s.checkRecord index generation taken = .error status := by
  unfold State.checkRecord
  rcases fault with ⟨high, rfl⟩ | ⟨r, same, stale, rfl⟩ | ⟨r, same, current, free, rfl⟩
  · rw [State.checkRef, readIndex_none high]
  · rw [State.checkRef_of_index same, if_neg stale]
  · rw [State.checkRef_of_index same, if_pos current]
    dsimp only
    rw [State.checkState, free]

theorem State.checkRecord_taken (hl : s.sup.live r = some l) (ok : taken l.state = true) :
    s.checkRecord (byteOfNat r.val) (s.sup.record r).generation taken = .ok (r, l) := by
  rw [State.checkRecord, s.checkRef_ref]
  dsimp only
  rw [State.checkState_live hl, if_pos ok]

theorem State.checkRecord_notTaken (hl : s.sup.live r = some l) (wrong : taken l.state = false) :
    s.checkRecord (byteOfNat r.val) (s.sup.record r).generation taken = .error .wrongState := by
  rw [State.checkRecord, s.checkRef_ref]
  dsimp only
  rw [State.checkState_live hl, if_neg (by rw [wrong]; exact Bool.false_ne_true)]

end

/-! ## Kinds of requests -/

theorem readRequest_some {k : Byte} (low : k.toNat ≤ 4) : ∃ kind, readRequest k = some kind := by
  have all : ∀ k : Byte, k.toNat ≤ 4 → (readRequest k).isSome = true := by decide
  exact Option.isSome_iff_exists.1 (all k low)

theorem readRequest_none {k : Byte} (high : 4 < k.toNat) : readRequest k = none := by
  have all : ∀ k : Byte, 4 < k.toNat → readRequest k = none := by decide
  exact all k high

/-! ## What the record commands answer -/

section
variable {s : State} {index generation : Byte}

theorem performActivate_error {e : Status} (checked : s.checkRecord index generation LiveState.isStaged = .error e) :
    performActivate [index, generation] s = s.refuseWith e := by
  have own : s.checkRecord (byteAt [index, generation] 0) (byteAt [index, generation] 1) LiveState.isStaged = .error e := checked
  rw [performActivate, if_neg (fun ne => ne rfl), own]

theorem performRetire_error {e : Status} (checked : s.checkRecord index generation LiveState.inService = .error e) :
    performRetire [index, generation] s = s.refuseWith e := by
  have own : s.checkRecord (byteAt [index, generation] 0) (byteAt [index, generation] 1) LiveState.inService = .error e := checked
  rw [performRetire, if_neg (fun ne => ne rfl), own]

theorem performRecordRead_error {e : Status} (checked : s.checkRecord index generation (fun _ => true) = .error e) :
    performRecordRead [index, generation] s = s.refuseWith e := by
  have own : s.checkRecord (byteAt [index, generation] 0) (byteAt [index, generation] 1) (fun _ => true) = .error e := checked
  rw [performRecordRead, if_neg (fun ne => ne rfl), own]

theorem performRequest_badKind {kind : Byte} (high : 4 < kind.toNat) :
    performRequest [index, generation, kind] s = s.refuseWith .badParam := by
  have own : readRequest (byteAt [index, generation, kind] 2) = none := readRequest_none high
  rw [performRequest, if_neg (fun ne => ne rfl), own]
  cases readIndex (byteAt [index, generation, kind] 0) <;> rfl

theorem performRequest_error {kind : Byte} (low : kind.toNat ≤ 4) {e : Status}
    (checked : s.checkRecord index generation LiveState.inService = .error e) :
    performRequest [index, generation, kind] s = s.refuseWith e := by
  obtain ⟨request, read⟩ := readRequest_some low
  have kinds : readRequest (byteAt [index, generation, kind] 2) = some request := read
  have own : s.checkRecord (byteAt [index, generation, kind] 0) (byteAt [index, generation, kind] 1) LiveState.inService = .error e :=
    checked
  rw [performRequest, if_neg (fun ne => ne rfl), kinds]
  cases place : readIndex (byteAt [index, generation, kind] 0) with
  | some r =>
    dsimp only
    rw [own]
  | none =>
    have first : e = .badParam := by
      rw [State.checkRecord, State.checkRef, place] at own
      exact (Except.error.inj own).symm
    rw [first]

/-! ## REPLACE -/

theorem performReplace_outgoing {index' generation' : Byte} {e : Status} (checked : s.checkRef index generation = .error e) :
    performReplace [index, generation, index', generation'] s = s.refuseWith e := by
  have own : s.checkRef (byteAt [index, generation, index', generation'] 0) (byteAt [index, generation, index', generation'] 1) =
    .error e := checked
  rw [performReplace, if_neg (fun ne => ne rfl), own]

theorem performReplace_incoming {r : RecIx} {e : Status} (checked : s.checkRef index generation = .error e) :
    performReplace (s.sup.ref r ++ [index, generation]) s = s.refuseWith e := by
  have outgoing : s.checkRef (byteAt (s.sup.ref r ++ [index, generation]) 0) (byteAt (s.sup.ref r ++ [index, generation]) 1) = .ok r :=
    s.checkRef_ref r
  have own : s.checkRef (byteAt (s.sup.ref r ++ [index, generation]) 2) (byteAt (s.sup.ref r ++ [index, generation]) 3) = .error e :=
    checked
  rw [performReplace, if_neg (fun ne => ne rfl), outgoing]
  dsimp only
  rw [own]

/-- REPLACE with two current refs goes on to the states of the records. -/
theorem performReplace_refs (o n : RecIx) :
    performReplace (s.sup.ref o ++ s.sup.ref n) s =
      match s.checkState o (· == .active) with
      | .error e => s.refuseWith e
      | .ok lo =>
        match s.checkState n LiveState.isStaged with
        | .error e => s.refuseWith e
        | .ok ln =>
          if lo.fields.egress ≠ ln.fields.egress then s.refuseWith .badParam
          else if s.hasUpdate lo.fields.egress then s.refuseWith .slotPending
          else disposition (((s.beginRetiring o).arm n).queueUpdate (.handover lo.fields.egress o n)) := by
  have outgoing : s.checkRef (byteAt (s.sup.ref o ++ s.sup.ref n) 0) (byteAt (s.sup.ref o ++ s.sup.ref n) 1) = .ok o := s.checkRef_ref o
  have incoming : s.checkRef (byteAt (s.sup.ref o ++ s.sup.ref n) 2) (byteAt (s.sup.ref o ++ s.sup.ref n) 3) = .ok n := s.checkRef_ref n
  rw [performReplace, if_neg (fun ne => ne rfl), outgoing]
  dsimp only
  rw [incoming] <;> rfl

theorem performReplace_states {o n : RecIx}
    (wrong : (s.sup.live o).map (·.state) ≠ some LiveState.active ∨ (s.sup.live n).map (·.state) ≠ some LiveState.staged) :
    performReplace (s.sup.ref o ++ s.sup.ref n) s = s.refuseWith .wrongState := by
  rw [performReplace_refs]
  cases first : s.checkState o (· == .active) with
  | error e => rw [State.checkState_error first]
  | ok lo =>
    obtain ⟨hlo, active⟩ := State.checkState_ok first
    dsimp only
    cases second : s.checkState n LiveState.isStaged with
    | error e => rw [State.checkState_error second]
    | ok ln =>
      obtain ⟨hln, staged⟩ := State.checkState_ok second
      rw [hlo, hln] at wrong
      exact absurd wrong (by simp [eq_of_beq active, LiveState.isStaged_iff.1 staged])

/-! ## AMEND -/

theorem AmendBytes.bytes_length_le {v : AmendBytes} (shaped : v.shaped) : v.bytes.length ≤ 45 := by
  obtain ⟨name, out⟩ := v.shaped_iff.1 shaped
  have one {α : Type} (o : Option α) : o.toList.length ≤ 1 := by cases o <;> simp
  have named {o : Option (Byte × List Byte)} (h : namedShaped o) : (namedBytes o).length ≤ 17 := by
    cases o with
    | none => exact Nat.zero_le _
    | some x =>
      have length := h x.1 x.2 rfl
      have short : x.2.length ≤ 16 := by rw [length]; split <;> omega
      exact Nat.succ_le_succ short
  have ret : ((v.ret.map bytes16).getD []).length ≤ 2 := by cases v.ret <;> simp [bytes16]
  have nameLe := named name
  have outLe := named out
  unfold namedBytes at nameLe outLe
  unfold AmendBytes.bytes
  simp only [List.length_append]
  have := one v.egress; have := one v.working; have := one v.protect; have := one v.revertive; have := one v.degrade
  have := one v.codeCheck; have := one v.outCode; have := one v.holdOff; have := one v.mask
  omega

theorem wordAt_bytes16 (a b : Byte) (items : BitVec 16) (rest : List Byte) : wordAt ([a, b] ++ bytes16 items ++ rest) 2 = items :=
  bytes16_joined items

end
end Sys2Proof.Machine
end

section
/-! SUPPORT. R68: AMEND from its parameters to the amendment it makes, and the checks that refuse it. -/
namespace Sys2Proof.Machine

theorem AmendBytes.items_low (v : AmendBytes) : v.items = v.items &&& 0x0FFF := (v.chosen_iff v.items).1 v.items_chosen

/-- The twelve items alone lie below bit 12 (R200). -/
theorem AmendBytes.items_no_others (v : AmendBytes) : v.items &&& 0xF000 = 0 := by
  rw [v.items_low, BitVec.and_assoc]
  exact BitVec.and_zero

section
variable {items others : BitVec 16}

theorem items_or_others (low : items = items &&& 0x0FFF) (high : others &&& 0x0FFF = 0) : items = (items ||| others) &&& 0x0FFF := by
  rw [BitVec.and_comm, BitVec.and_or_distrib_left]
  rw [BitVec.and_comm, ← low, BitVec.and_comm, high]
  exact BitVec.or_zero.symm

theorem others_eq_zero (high : others &&& 0x0FFF = 0) (none : (items ||| others) &&& 0xF000 = 0) : others = 0 := by
  rw [BitVec.and_comm, BitVec.and_or_distrib_left] at none
  have top : others &&& 0xF000 = 0 := BitVec.and_comm _ _ ▸ (BitVec.or_eq_zero_iff.1 none).2
  calc others = others &&& (0x0FFF ||| 0xF000) := BitVec.and_allOnes.symm
    _ = 0 := by
      rw [BitVec.and_or_distrib_left, high, top]
      rfl

end

/-! ## The amendment an AMEND carries -/

section
variable {a : Amendment} (law : AmendmentLaw a)
include law

theorem AmendmentLaw.shaped : a.carried.shaped := by
  have named {item : Option (Option Name)} (fits : ∀ n, item = some (some n) → n.length = 16) {b : Byte} {chars : List Byte}
      (carried : item.map carriedName = some (b, chars)) : chars.length = if b = 1 then 16 else 0 := by
    obtain ⟨value, rfl, same⟩ := Option.map_eq_some_iff.1 carried
    cases value with
    | none =>
      cases same
      rfl
    | some n =>
      cases same
      exact (nameBytes_length n).trans (fits n rfl)
  rintro b chars (carried | carried)
  · exact named (fun n hn => (law.names n (.inl hn)).1) carried
  · exact named (fun n hn => (law.names n (.inr hn)).1) carried

theorem AmendmentLaw.reads : readAmend a.carried.items a.carried = some a :=
  (readAmend_iff law.shaped).2
    ⟨rfl, law.chosen, a.carried.items_no_others, law.names, law.code, law.holdOff, law.ret, law.mask⟩

end

theorem Amendment.stagedOnly_iff (a : Amendment) : a.stagedOnly = true ↔ a.ofStaged := by
  simp [Amendment.stagedOnly, Amendment.ofStaged, or_assoc]

/-! ## The checks, in order -/

section
variable {s : State} {index generation : Byte} {items : BitVec 16} {v : AmendBytes} (shaped : v.shaped)
  (chosen : v.items = items &&& 0x0FFF)
include shaped

theorem amendParams_length : ([index, generation] ++ bytes16 items ++ v.bytes).length ≤ 60 := by
  have values := AmendBytes.bytes_length_le shaped
  simp only [List.length_append, List.length_cons, List.length_nil, bytes16]
  omega

include chosen

/-- AMEND with the bytes of its items goes on to their values, and then to the record (R68). -/
theorem performAmend_values :
    performAmend ([index, generation] ++ bytes16 items ++ v.bytes) s =
      match readAmend items v with
      | none => s.refuseWith .badParam
      | some a =>
        match s.checkRecord index generation LiveState.inService with
        | .error e => s.refuseWith e
        | .ok (r, l) =>
          if a.stagedOnly ∧ l.state ≠ .staged then s.refuseWith .wrongState
          else if (a.apply l.fields).protect = some (a.apply l.fields).working then s.refuseWith .badParam
          else (s.amendRecord r l a, ⟨.ok, [index, generation]⟩) := by
  have split : splitAmend (wordAt ([index, generation] ++ bytes16 items ++ v.bytes) 2)
      (([index, generation] ++ bytes16 items ++ v.bytes).drop 4) = some v := by
    rw [wordAt_bytes16]
    exact splitAmend_iff.2 ⟨shaped, chosen, rfl⟩
  rw [performAmend, if_neg (by simp [bytes16])]
  dsimp only
  rw [split, wordAt_bytes16] <;> rfl

theorem performAmend_unread (unread : readAmend items v = none) :
    performAmend ([index, generation] ++ bytes16 items ++ v.bytes) s = s.refuseWith .badParam := by
  rw [performAmend_values shaped chosen, unread]

variable {a : Amendment} (read : readAmend items v = some a)
include read

theorem performAmend_error {e : Status} (checked : s.checkRecord index generation LiveState.inService = .error e) :
    performAmend ([index, generation] ++ bytes16 items ++ v.bytes) s = s.refuseWith e := by
  rw [performAmend_values shaped chosen, read]
  dsimp only
  rw [checked]

theorem performAmend_record {r : RecIx} {l : Live} (checked : s.checkRecord index generation LiveState.inService = .ok (r, l)) :
    performAmend ([index, generation] ++ bytes16 items ++ v.bytes) s =
      if a.stagedOnly ∧ l.state ≠ .staged then s.refuseWith .wrongState
      else if (a.apply l.fields).protect = some (a.apply l.fields).working then s.refuseWith .badParam
      else (s.amendRecord r l a, ⟨.ok, [index, generation]⟩) := by
  rw [performAmend_values shaped chosen, read]
  dsimp only
  rw [checked]

end

/-! ## The rows -/

theorem LiveState.inService_of_ne {st : LiveState} (h : st ≠ .retiring) : st.inService = true := bne_iff_ne.2 h

/-- The three rows that are REQUEST commands answer what REQUEST makes of the state. -/
theorem exec_requests {s t : State} {params : List Byte} {reply : Reply} (ready : s.ready) (fits : params.length ≤ 60)
    (performed : performRequest params s = (t, reply)) :
    ∀ i ∈ [Instr.pin params, Instr.steer params, Instr.release params], exec i s = .next (t.answer .request params reply) := by
  intro i row
  simp only [List.mem_cons, List.not_mem_nil, or_false] at row
  rcases row with rfl | rfl | rfl <;> exact exec_performs ready rfl fits nofun nofun performed

theorem amend_params_eq (index generation : Byte) (a : Amendment) :
    [index, generation] ++ amendParams a = [index, generation] ++ bytes16 a.carried.items ++ a.carried.bytes :=
  (List.append_assoc _ _ _).symm

/-- Settles O42: refs, states and values in the order they are checked. -/
theorem refsAreCheckedFirst : Obligations.RefsAreCheckedFirst := by
  refine ⟨fun s index generation status ready fault => ?_, fun s r l ready hl => ?_, fun s o n ready wrong => ?_,
    fun s index generation ready => ⟨fun kind high => ?_, fun v others shaped low bad => ?_⟩⟩
  · have checked (taken : LiveState → Bool) : s.checkRecord index generation taken = .error status := State.checkRecord_fault fault
    refine ⟨?_, ?_, ?_, fun kind low => ?_, fun a law => ?_, fun reached index' generation' => ?_, fun reached r => ?_⟩
    · exact exec_performs ready rfl (Nat.le_add_left 2 58) nofun nofun (performActivate_error (checked _))
    · exact exec_performs ready rfl (Nat.le_add_left 2 58) nofun nofun (performRetire_error (checked _))
    · exact exec_performs ready rfl (Nat.le_add_left 2 58) nofun nofun (performRecordRead_error (checked _))
    · exact exec_requests ready (Nat.le_add_left 3 57) (performRequest_error low (checked _))
    · rw [amend_params_eq]
      exact exec_performs ready rfl (amendParams_length law.shaped) nofun nofun
        (performAmend_error law.shaped a.carried.items_low law.reads (checked _))
    · exact exec_performs ready rfl (Nat.le_add_left 4 56) nofun nofun
        (performReplace_outgoing (State.checkRef_fault fault reached))
    · exact exec_performs ready rfl (Nat.le_add_left 4 56) nofun nofun
        (performReplace_incoming (State.checkRef_fault fault reached))
  · refine ⟨fun notStaged => ?_, fun retiring => ⟨?_, fun kind low => ?_⟩, fun a law => ⟨fun wrong => ?_, fun staged same => ?_⟩⟩
    · have wrong : l.state.isStaged = false := by rw [Bool.eq_false_iff]; exact fun h => notStaged (LiveState.isStaged_iff.1 h)
      exact exec_performs ready rfl (Nat.le_add_left 2 58) nofun nofun (performActivate_error (State.checkRecord_notTaken hl wrong))
    · exact exec_performs ready rfl (Nat.le_add_left 2 58) nofun nofun
        (performRetire_error (State.checkRecord_notTaken hl (by rw [retiring]; rfl)))
    · exact exec_requests ready (Nat.le_add_left 3 57)
        (performRequest_error low (State.checkRecord_notTaken hl (by rw [retiring]; rfl)))
    · rw [Supervision.ref, amend_params_eq]
      refine exec_performs ready rfl (amendParams_length law.shaped) nofun nofun ?_
      by_cases retiring : l.state = .retiring
      · exact performAmend_error law.shaped a.carried.items_low law.reads
          (State.checkRecord_notTaken hl (by rw [retiring]; rfl))
      · obtain ⟨notStaged, ofStaged⟩ := wrong.resolve_left retiring
        refine (performAmend_record law.shaped a.carried.items_low law.reads
          (State.checkRecord_taken hl (LiveState.inService_of_ne retiring))).trans ?_
        exact if_pos ⟨a.stagedOnly_iff.2 ofStaged, notStaged⟩
    · rw [Supervision.ref, amend_params_eq]
      refine exec_performs ready rfl (amendParams_length law.shaped) nofun nofun ?_
      refine (performAmend_record law.shaped a.carried.items_low law.reads
        (State.checkRecord_taken hl (LiveState.inService_of_ne (by rw [staged]; decide)))).trans ?_
      exact (if_neg fun wrong => wrong.2 staged).trans (if_pos same)
  · exact exec_performs ready rfl (Nat.le_add_left 4 56) nofun nofun (performReplace_states wrong)
  · exact exec_requests ready (Nat.le_add_left 3 57) (performRequest_badKind high)
  · refine exec_performs ready rfl (amendParams_length shaped) nofun nofun ?_
    refine performAmend_unread shaped (items_or_others v.items_low low) ?_
    cases read : readAmend (v.items ||| others) v with
    | none => rfl
    | some a =>
      obtain ⟨carried, chosen, high, names, code, holdOff, ret, mask⟩ := (readAmend_iff shaped).1 read
      have none := others_eq_zero low high
      rw [none, show v.items ||| 0 = v.items from BitVec.or_zero, ← carried] at chosen
      have law : AmendmentLaw a := ⟨chosen, names, code, holdOff, ret, mask⟩
      rcases bad with more | never
      · exact absurd none more
      · exact absurd carried (never a law)

end Sys2Proof.Machine
end

section
/-! SUPPORT. R57 to R59, R80 to R86, R95: records put into service, and the references their sources hold. -/
namespace Sys2Proof.Machine

/-! ## What the shared operations write -/

theorem State.evaluateBy_eq (s : State) (expiry : Bool) (r : RecIx) : s.evaluateBy expiry r = { s with sup := (s.evaluateBy expiry r).sup } := by
  unfold State.evaluateBy
  split <;> rfl

theorem State.goLive_eq (s : State) (r : RecIx) : s.goLive r = { s with sup := (s.goLive r).sup } := by
  unfold State.goLive State.evaluate
  generalize s.sup.modLive r _ = u
  exact State.evaluateBy_eq { s with sup := u } false r

theorem State.enterService_eq (s : State) (r : RecIx) : s.enterService r = { s with sup := (s.enterService r).sup } := by
  unfold State.enterService
  split
  · rfl
  · exact State.goLive_eq _ r

theorem State.dropRefs_eq (s : State) (srcs : List Source) :
    s.dropRefs srcs = { s with monA := (s.dropRefs srcs).monA, monB := (s.dropRefs srcs).monB } := by
  unfold State.dropRefs
  induction srcs generalizing s with
  | nil => rfl
  | cons src srcs ih =>
    have first : s.setMonitor src (s.monitor src).dropRef =
        { s with monA := (s.setMonitor src (s.monitor src).dropRef).monA, monB := (s.setMonitor src (s.monitor src).dropRef).monB } := by
      obtain ⟨b, n⟩ := src
      cases b <;> rfl
    rw [List.foldl_cons]
    refine (ih _).trans ?_
    rw [first]

theorem State.takeRefs_eq (s : State) (srcs : List Source) :
    s.takeRefs srcs = { s with monA := (s.takeRefs srcs).monA, monB := (s.takeRefs srcs).monB } := by
  unfold State.takeRefs
  induction srcs generalizing s with
  | nil => rfl
  | cons src srcs ih =>
    have first : s.setMonitor src (s.monitor src).takeRef =
        { s with monA := (s.setMonitor src (s.monitor src).takeRef).monA, monB := (s.setMonitor src (s.monitor src).takeRef).monB } := by
      obtain ⟨b, n⟩ := src
      cases b <;> rfl
    rw [List.foldl_cons]
    refine (ih _).trans ?_
    rw [first]

/-! ## Slots with an update pending -/

theorem State.hasUpdate_iff {s : State} {n : SlotIx} : s.hasUpdate n = true ↔ ∃ u ∈ s.updates, u.slot = n := by
  simp [State.hasUpdate]

theorem State.hasUpdate_none {s : State} {n : SlotIx} (none : ∀ u ∈ s.updates, u.slot ≠ n) : ¬ s.hasUpdate n = true := by
  rw [State.hasUpdate_iff]
  rintro ⟨u, listed, slot⟩
  exact none u listed slot

theorem State.queueUpdate_running {s : State} (running : s.egress.running = true) (u : Update) :
    s.queueUpdate u = ({ s with updates := s.updates ++ [u] }, false) := if_pos running

theorem State.queueUpdate_stopped {s : State} (stopped : s.egress.running = false) (u : Update) :
    s.queueUpdate u = (s.applyUpdate u, true) := if_neg (by rw [stopped]; exact Bool.false_ne_true)

/-! ## ACTIVATE -/

section
variable {s : State} {r : RecIx} {l : Live} (hl : s.sup.live r = some l)
include hl

/-- ACTIVATE of a STAGED record goes on to its slot (R84). -/
theorem performActivate_staged (staged : l.state = .staged) :
    performActivate (s.sup.ref r) s =
      if (pick s.owner l.fields.egress).isSome then s.refuseWith .slotBusy
      else if s.hasUpdate l.fields.egress then s.refuseWith .slotPending
      else disposition ((s.arm r).queueUpdate (.enter l.fields.egress r)) := by
  have checked : s.checkRecord (byteAt (s.sup.ref r) 0) (byteAt (s.sup.ref r) 1) LiveState.isStaged = .ok (r, l) :=
    State.checkRecord_taken hl (LiveState.isStaged_iff.2 staged)
  rw [performActivate, if_neg (fun ne => ne rfl), checked]

theorem State.arm_live : (s.arm r).sup.live r = some { l with state := .armed } := by
  refine (s.sup.modLive_same r _).trans ?_
  rw [hl]
  rfl

end

theorem State.arm_record_ne (s : State) {r q : RecIx} (other : r ≠ q) : (s.arm r).sup.record q = s.sup.record q :=
  s.sup.modLive_record_ne _ other

theorem State.arm_generation (s : State) (r q : RecIx) : ((s.arm r).sup.record q).generation = (s.sup.record q).generation :=
  s.sup.modLive_generation r q _

/-- What a spared record keeps of its state and its fields. -/
theorem Supervision.Spares.fields {u v : Supervision} {q : RecIx} (h : u.Spares v q) :
    (v.live q).map (fun k => (k.state, k.fields)) = (u.live q).map (fun k => (k.state, k.fields)) := by
  have standing := congrArg (Option.map fun x => (x.1, x.2.1)) h.standing
  simp only [Option.map_map] at standing
  exact standing

/-- Settles O43: ACTIVATE by its slot and by the egress side. -/
theorem activateEntersSlot : Obligations.ActivateEntersSlot := by
  intro s r l ready hl staged
  have performed := performActivate_staged hl staged
  have answers {t : State} {reply : Reply} (h : performActivate (s.sup.ref r) s = (t, reply)) :
      exec (.activate (s.sup.ref r)) s = .next (t.answer .activate (s.sup.ref r) reply) :=
    exec_performs ready rfl (Nat.le_add_left 2 58) nofun nofun h
  refine ⟨fun busy => ?_, fun free pending => ?_, fun free clear running => ?_, fun free clear stopped => ?_⟩
  · exact answers (performed.trans (if_pos busy))
  · have notBusy : ¬ (pick s.owner l.fields.egress).isSome = true := by rw [free]; exact Bool.false_ne_true
    exact answers (performed.trans ((if_neg notBusy).trans (if_pos (State.hasUpdate_iff.2 pending))))
  all_goals
    have notBusy : ¬ (pick s.owner l.fields.egress).isSome = true := by rw [free]; exact Bool.false_ne_true
    rw [if_neg notBusy, if_neg (State.hasUpdate_none clear)] at performed
  · rw [State.queueUpdate_running (s := s.arm r) running] at performed
    exact ⟨_, answers performed, rfl, State.arm_live hl, s.arm_generation r r, fun q other => s.arm_record_ne other.symm, rfl, rfl, rfl⟩
  · rw [State.queueUpdate_stopped (s := s.arm r) stopped] at performed
    have slot := (State.applyUpdate_leaves (s.arm r) (.enter l.fields.egress r)).2
    obtain ⟨serving, told⟩ := State.applyUpdate_incoming (u := .enter l.fields.egress r) rfl nofun (State.arm_live hl)
    refine ⟨_, answers performed, ?_, fun m other => ?_, serving, told, fun q other => ?_, ?_⟩
    · rw [slot]
      exact pick_put_same _ _ _
    · rw [slot]
      exact pick_put_ne _ _ other.symm
    · have spared : (s.arm r).sup.Spares ((s.arm r).applyUpdate (.enter l.fields.egress r)).sup q :=
        State.applyUpdate_spares (fun same => other (Option.some.inj same).symm) nofun
      have record := s.arm_record_ne other.symm
      have live : (s.arm r).sup.live q = s.sup.live q := congrArg Record.live record
      rw [← record, ← live]
      exact ⟨spared.generation, spared.fields⟩
    · refine (State.enterService_eq ((s.arm r).setOwner l.fields.egress (some r)) r).trans ?_
      rw [slot]
      rfl

end Sys2Proof.Machine
end

section
/-! SUPPORT. R59, R60, R86, R123: a record begins to retire while another takes its slot. -/
namespace Sys2Proof.Machine

/-! ## The selected source while waits end -/

theorem Supervision.modSel_selected (u : Supervision) (r q : RecIx) {f : Selector → Selector} (kept : ∀ x, (f x).selected = x.selected) :
    ((u.modSel r f).sel q).map (·.selected) = (u.sel q).map (·.selected) := by
  by_cases same : r = q
  · subst same
    rw [Supervision.modSel_same, Option.map_map]
    exact congrArg (fun g => Option.map g (u.sel r)) (funext kept)
  · rw [Supervision.modSel_ne _ _ same]

theorem Supervision.handOver_selected (u : Supervision) (t : TimerIx) (q : RecIx) :
    ((u.handOver t).sel q).map (·.selected) = (u.sel q).map (·.selected) := by
  unfold Supervision.handOver
  split
  · rfl
  · exact Supervision.modSel_selected _ _ q fun _ => rfl

theorem Supervision.releaseTimer_selected (u : Supervision) (r q : RecIx) :
    ((u.releaseTimer r).sel q).map (·.selected) = (u.sel q).map (·.selected) := by
  unfold Supervision.releaseTimer
  split
  · rfl
  · exact (Supervision.handOver_selected _ _ q).trans (Supervision.modSel_selected _ r q fun _ => rfl)

theorem Supervision.endWaits_selected (u : Supervision) (r q : RecIx) :
    ((u.endWaits r).sel q).map (·.selected) = (u.sel q).map (·.selected) :=
  (Supervision.modSel_selected _ r q (f := fun x => { x with waiting := false }) fun _ => rfl).trans (u.releaseTimer_selected r q)

/-! ## A record begins to retire -/

theorem State.beginRetiring_notices (s : State) (r : RecIx) : (s.beginRetiring r).sup.notices = s.sup.notices :=
  Supervision.freeze_notices _ r

theorem State.beginRetiring_generation (s : State) (r q : RecIx) :
    ((s.beginRetiring r).sup.record q).generation = (s.sup.record q).generation :=
  (Supervision.freeze_sameRecords _ r q).1.trans (s.sup.modLive_generation r q _)

/-- The record that begins to retire: its selection is fixed, its request kept (R123). -/
theorem State.beginRetiring_live {s : State} {r : RecIx} {l : Live} (hl : s.sup.live r = some l) :
    ∃ x : Selector, (s.beginRetiring r).sup.live r = some { state := .retiring, fields := l.fields, sel := x } ∧ x.mode = .frozen ∧
      x.selected = l.sel.selected ∧ x.request = l.sel.request := by
  have begun : (s.sup.modLive r fun l => { l with state := .retiring }).live r = some { l with state := .retiring } := by
    rw [Supervision.modLive_same, hl]
    rfl
  unfold State.beginRetiring Supervision.freeze
  generalize (s.sup.modLive r fun l => { l with state := .retiring }) = u at begun
  obtain ⟨x, ended, kept⟩ := (u.endWaits_selectorsOnly r).live begun
  have selected := u.endWaits_selected r r
  rw [Supervision.sel_of_live begun, Supervision.sel_of_live ended] at selected
  simp only [Selector.kept, Prod.mk.injEq, Option.map_some, Option.some.injEq] at kept selected
  refine ⟨{ x with mode := .frozen, state := x.selected.rest }, ?_, rfl, selected, kept.2.1⟩
  dsimp only
  rw [Supervision.modSel_live, ended]
  rfl

theorem Supervision.SelectorsOnly.spares {u v : Supervision} (h : u.SelectorsOnly v) (q : RecIx) : u.Spares v q := by
  obtain ⟨generation, held, fields⟩ := h.records q
  refine ⟨generation, held, ?_, fun x k told => ?_⟩
  · have mode := congrArg (Option.map Prod.fst) (h.kept q)
    simp only [Supervision.sel, Option.map_map] at mode
    rw [Live.standing_map, Live.standing_map, fields]
    congr 1
    funext x
    exact congrArg (Option.map _) mode
  · rw [Supervision.tells, h.notices]
    exact told

/-- Any other record keeps its state, its fields and the mode of its selector. -/
theorem State.beginRetiring_spares (s : State) {r q : RecIx} (other : r ≠ q) : s.sup.Spares (s.beginRetiring r).sup q :=
  ((s.sup.modLive_spares other _).trans ((Supervision.endWaits_selectorsOnly _ r).spares q)).trans
    (Supervision.modLive_spares _ other _)

/-! ## REPLACE -/

theorem performReplace_taken {s : State} {o n : RecIx} {lo ln : Live} (ho : s.sup.live o = some lo) (hn : s.sup.live n = some ln)
    (active : lo.state = .active) (staged : ln.state = .staged) :
    performReplace (s.sup.ref o ++ s.sup.ref n) s =
      if lo.fields.egress ≠ ln.fields.egress then s.refuseWith .badParam
      else if s.hasUpdate lo.fields.egress then s.refuseWith .slotPending
      else disposition (((s.beginRetiring o).arm n).queueUpdate (.handover lo.fields.egress o n)) := by
  rw [performReplace_refs, State.checkState_live ho, if_pos (beq_iff_eq.2 active)]
  dsimp only
  rw [State.checkState_live hn, if_pos (LiveState.isStaged_iff.2 staged)]

/-- Settles O44: REPLACE by the slots of its records and by the egress side. -/
theorem replaceHandsOver : Obligations.ReplaceHandsOver := by
  intro s o n lo ln ready ho hn active staged
  have performed := performReplace_taken ho hn active staged
  have answers {t : State} {reply : Reply} (h : performReplace (s.sup.ref o ++ s.sup.ref n) s = (t, reply)) :
      exec (.replace (s.sup.ref o ++ s.sup.ref n)) s = .next (t.answer .replace (s.sup.ref o ++ s.sup.ref n) reply) :=
    exec_performs ready rfl (Nat.le_add_left 4 56) nofun nofun h
  have apart : o ≠ n := by
    rintro rfl
    rw [ho, Option.some.injEq] at hn
    rw [← hn, active] at staged
    cases staged
  refine ⟨fun differ => ?_, fun same clear running => ?_, fun same clear stopped => ?_⟩
  · exact answers (performed.trans (if_pos differ.symm))
  all_goals
    rw [if_neg (not_not.2 same.symm), if_neg (State.hasUpdate_none clear)] at performed
    obtain ⟨x, retiring, frozen, selected, request⟩ := State.beginRetiring_live ho
    obtain ⟨y, armed, mode⟩ := (s.beginRetiring_spares apart).live hn
  · rw [State.queueUpdate_running (s := (s.beginRetiring o).arm n) running] at performed
    refine ⟨_, answers performed, rfl, rfl, s.beginRetiring_notices o, ⟨x, ?_, frozen, selected, request⟩, ⟨y, State.arm_live armed, mode⟩, rfl⟩
    refine Eq.trans ?_ retiring
    exact congrArg Record.live (State.arm_record_ne (s.beginRetiring o) apart.symm)
  · rw [State.queueUpdate_stopped (s := (s.beginRetiring o).arm n) stopped] at performed
    have live : ((s.beginRetiring o).arm n).sup.live o = _ :=
      (congrArg Record.live (State.arm_record_ne (s.beginRetiring o) apart.symm)).trans retiring
    have generation : (((s.beginRetiring o).arm n).sup.record o).generation = (s.sup.record o).generation :=
      (State.arm_generation _ n o).trans (s.beginRetiring_generation o o)
    obtain ⟨ports, slot⟩ := State.applyUpdate_leaves ((s.beginRetiring o).arm n) (.handover lo.fields.egress o n)
    obtain ⟨serving, told⟩ := State.applyUpdate_incoming (u := .handover lo.fields.egress o n) rfl
      (fun eq => apart (Option.some.inj eq)) (State.arm_live armed)
    have freed := State.applyUpdate_outgoing (u := .handover lo.fields.egress o n) rfl (fun eq => apart (Option.some.inj eq).symm) live
    refine ⟨_, answers performed, ?_, fun m other => ?_, ports.updates, freed.live, freed.held, freed.generation.trans generation, freed.told,
      serving, told, fun b => ?_, ports.egress⟩
    · rw [slot]
      exact pick_put_same _ _ _
    · rw [slot]
      exact pick_put_ne _ _ other.symm
    · cases b with
      | A => exact ports.rxA
      | B => exact ports.rxB

end Sys2Proof.Machine
end

section
/-! SUPPORT. R36, R61 to R67, R94: RETIRE by the state of its record, and the references it drops. -/
namespace Sys2Proof.Machine

/-! ## References, monitor by monitor -/

theorem State.dropRefs_monitor (s : State) (srcs : List Source) (src : Source) :
    (s.dropRefs srcs).monitor src = Monitor.dropRef^[srcs.count src] (s.monitor src) := by
  unfold State.dropRefs
  induction srcs generalizing s with
  | nil => rfl
  | cons x xs ih =>
    rw [List.foldl_cons, ih, State.setMonitor_monitor, List.count_cons]
    by_cases same : x = src
    · subst same
      rw [if_pos rfl, if_pos (beq_self_eq_true x), Function.iterate_succ_apply]
    · rw [if_neg same, if_neg (by simpa using same), Nat.add_zero]

theorem State.takeRefs_monitor (s : State) (srcs : List Source) (src : Source) :
    (s.takeRefs srcs).monitor src = Monitor.takeRef^[srcs.count src] (s.monitor src) := by
  unfold State.takeRefs
  induction srcs generalizing s with
  | nil => rfl
  | cons x xs ih =>
    rw [List.foldl_cons, ih, State.setMonitor_monitor, List.count_cons]
    by_cases same : x = src
    · subst same
      rw [if_pos rfl, if_pos (beq_self_eq_true x), Function.iterate_succ_apply]
    · rw [if_neg same, if_neg (by simpa using same), Nat.add_zero]

theorem Fields.sources_nodup {f : Fields} (distinct : f.protect ≠ some f.working) : f.sources.Nodup := by
  unfold Fields.sources
  cases hp : f.protect with
  | none => simp
  | some p => simpa using fun same : f.working = p => distinct (hp.trans (congrArg some same.symm))

theorem Fields.iterate_sources {f : Fields} (distinct : f.protect ≠ some f.working) (step : Monitor → Monitor) (src : Source) (m : Monitor) :
    step^[f.sources.count src] m = if src ∈ f.sources then step m else m := by
  rw [(Fields.sources_nodup distinct).count]
  split <;> rfl

/-! ## A record set FREE -/

theorem State.freeRecord_eq (s : State) (r : RecIx) :
    s.freeRecord r = { s with monA := (s.freeRecord r).monA, monB := (s.freeRecord r).monB, sup := (s.freeRecord r).sup } := by
  unfold State.freeRecord
  split
  · rfl
  · dsimp only
    rw [State.dropRefs_eq]

/-- From `s` to `t` a live record has been set FREE (R66): index held, RETIRED told, its references dropped. -/
def State.setsFree (s t : State) (r : RecIx) (l : Live) : Prop :=
  t.sup.live r = none ∧ (t.sup.record r).held = true ∧ (t.sup.record r).generation = (s.sup.record r).generation ∧
    t.sup.tells (.record r) .retired ∧ ∀ src, t.monitor src = if src ∈ l.fields.sources then (s.monitor src).dropRef else s.monitor src

/-- A record set FREE after steps that left its fields, its generation and the monitors alone. -/
theorem State.freeRecord_setsFree {s t : State} {r : RecIx} {l k : Live} (hk : t.sup.live r = some k) (fields : k.fields = l.fields)
    (distinct : l.fields.protect ≠ some l.fields.working) (generation : (t.sup.record r).generation = (s.sup.record r).generation)
    (monitors : ∀ src, t.monitor src = s.monitor src) : s.setsFree (t.freeRecord r) r l := by
  have freed := State.freeRecord_freed hk
  refine ⟨freed.live, freed.held, freed.generation.trans generation, freed.told, fun src => ?_⟩
  rw [State.freeRecord_monitor hk, State.dropRefs_monitor, fields, Fields.iterate_sources distinct, monitors]

/-! ## Updates that name a record -/

theorem State.incomingUpdate_of_mem {s : State} (law : OwnerLaw s) {u : Update} (listed : u ∈ s.updates) {r : RecIx}
    (incoming : u.incoming = some r) : s.incomingUpdate r = some u := by
  unfold State.incomingUpdate
  cases found : s.updates.find? (fun v => v.incoming = some r) with
  | none => exact absurd incoming (by simpa using List.find?_eq_none.1 found u listed)
  | some v =>
    have hv := List.mem_of_find?_eq_some found
    have named : v.incoming = some r := by simpa using List.find?_some found
    obtain ⟨l, hl, _, slot⟩ := law.incoming u listed r incoming
    obtain ⟨k, hk, _, slot'⟩ := law.incoming v hv r named
    cases hl.symm.trans hk
    exact congrArg some (List.inj_on_of_nodup_map law.oneEach hv listed (slot'.symm.trans slot))

/-! ## RETIRE -/

theorem performRetire_taken {s : State} {r : RecIx} {l : Live} (hl : s.sup.live r = some l) (serving : l.state ≠ .retiring) :
    performRetire (s.sup.ref r) s = disposition (s.retireRecord r l) := by
  have checked : s.checkRecord (byteAt (s.sup.ref r) 0) (byteAt (s.sup.ref r) 1) LiveState.inService = .ok (r, l) :=
    State.checkRecord_taken hl (LiveState.inService_of_ne serving)
  rw [performRetire, if_neg (fun ne => ne rfl), checked]

/-- What the pool's laws say of a selector part. -/
def Selector.claim (x : Selector) : Option TimerIx × SelState × Mode × Bool := (x.timer, x.state, x.mode, x.waiting)

/-- The pool's laws hold on where every record has the same claim. -/
theorem PoolLaw.of_claims {u v : Supervision} (law : PoolLaw u) (claims : ∀ r, (v.sel r).map Selector.claim = (u.sel r).map Selector.claim)
    (pool : v.pool = u.pool) : PoolLaw v := by
  have carried {a b : Supervision} {r : RecIx} (same : (b.sel r).map Selector.claim = (a.sel r).map Selector.claim) {x : Selector}
      (hx : a.sel r = some x) : ∃ y, b.sel r = some y ∧ y.timer = x.timer ∧ y.state = x.state ∧ y.mode = x.mode ∧ y.waiting = x.waiting := by
    rw [hx] at same
    obtain ⟨y, hy, claim⟩ := Option.map_eq_some_iff.1 same
    simp only [Selector.claim, Prod.mk.injEq] at claim
    exact ⟨y, hy, claim⟩
  refine ⟨fun t timer running => ?_, fun r x t hx held => ?_, fun r => ?_, pool ▸ law.oneEach, pool ▸ law.noneFree, pool ▸ law.remaining,
    pool ▸ law.highWater⟩
  · obtain ⟨x, hx, held, purpose, live⟩ := law.owned t timer (pool ▸ running)
    obtain ⟨y, hy, sameTimer, sameState, sameMode, _⟩ := carried (claims _) hx
    exact ⟨y, hy, sameTimer.trans held, sameState ▸ purpose, sameMode.trans live⟩
  · obtain ⟨y, hy, sameTimer, _⟩ := carried (claims r).symm hx
    rw [pool]
    exact law.holds r y t hy (sameTimer.trans held)
  · rw [pool, law.waiters r]
    constructor
    · rintro ⟨x, hx, waits⟩
      obtain ⟨y, hy, _, _, _, same⟩ := carried (claims r) hx
      exact ⟨y, hy, same.trans waits⟩
    · rintro ⟨x, hx, waits⟩
      obtain ⟨y, hy, _, _, _, same⟩ := carried (claims r).symm hx
      exact ⟨y, hy, same.trans waits⟩

theorem Supervision.modSel_claims (u : Supervision) (r q : RecIx) {f : Selector → Selector} (kept : ∀ x, (f x).claim = x.claim) :
    ((u.modSel r f).sel q).map Selector.claim = (u.sel q).map Selector.claim := by
  by_cases same : r = q
  · subst same
    rw [Supervision.modSel_same, Option.map_map]
    exact congrArg (fun g => Option.map g (u.sel r)) (funext kept)
  · rw [Supervision.modSel_ne _ _ same]

/-- Under the laws of the pool a record that begins to retire holds no timer and does not wait. -/
theorem State.beginRetiring_idle {s : State} (law : PoolLaw s.sup) {r : RecIx} {l : Live} (hl : s.sup.live r = some l)
    (row : selectorRow l.sel) {x : Selector} (hx : (s.beginRetiring r).sup.sel r = some x) : x.timer = none ∧ x.waiting = false := by
  have same (q : RecIx) : (s.sup.modLive r fun l => { l with state := .retiring }).sel q = s.sup.sel q := by
    unfold Supervision.sel
    rw [Supervision.modLive_live]
    split
    · rename_i eq
      subst eq
      rw [Option.map_map]
      rfl
    · rfl
  have begun := law.of_claims (fun q => congrArg (Option.map Selector.claim) (same q)) rfl
  have ended := Supervision.endWaits_modSel_sel begun ((same r).trans (Supervision.sel_of_live hl)) (selectorRow_waits row)
    fun x => { x with mode := .frozen, state := x.selected.rest }
  cases hx.symm.trans ended
  exact ⟨rfl, rfl⟩

/-- Settles O45: RETIRE in each state of its record. -/
theorem retireActsByState : Obligations.RetireActsByState := by
  intro s r l ready law hl
  have owners := law.service.owners
  have distinct := law.service.distinct r l hl
  have performed (serving : l.state ≠ .retiring) := performRetire_taken hl serving
  have answers {t : State} {reply : Reply} (h : performRetire (s.sup.ref r) s = (t, reply)) :
      exec (.retire (s.sup.ref r)) s = .next (t.answer .retire (s.sup.ref r) reply) :=
    exec_performs ready rfl (Nat.le_add_left 2 58) nofun nofun h
  have armed {u : Update} (listed : u ∈ s.updates) (incoming : u.incoming = some r) : l.state = .armed := by
    obtain ⟨k, hk, state, _⟩ := owners.incoming u listed r incoming
    cases hl.symm.trans hk
    exact state
  refine ⟨fun staged => ?_, fun listed => ?_, fun o listed => ?_, fun active running => ?_, fun active stopped => ?_⟩
  · have done := performed (by rw [staged]; decide)
    rw [State.retireRecord, staged] at done
    dsimp only at done
    refine ⟨_, answers done, State.freeRecord_setsFree hl rfl distinct rfl fun _ => rfl, fun q other => ?_, ?_, s.freeRecord_eq r⟩
    · exact s.freeRecord_record_ne other.symm
    · have sup := State.freeRecord_sup hl
      have pool := congrArg Supervision.pool sup
      exact pool
  · have state := armed listed rfl
    have done := performed (by rw [state]; decide)
    rw [State.retireRecord, state] at done
    dsimp only at done
    rw [State.cancelUpdate, State.incomingUpdate_of_mem owners listed rfl] at done
    have ports := State.freeRecord_samePorts (s.removeUpdate (.enter l.fields.egress r)) r
    exact ⟨_, answers done, State.freeRecord_setsFree (t := s.removeUpdate _) hl rfl distinct rfl fun _ => rfl, ports.updates,
      State.freeRecord_owner _ r, fun q other => State.freeRecord_record_ne (s.removeUpdate _) other.symm⟩
  · have state := armed listed rfl
    have done := performed (by rw [state]; decide)
    rw [State.retireRecord, state] at done
    dsimp only at done
    rw [State.cancelUpdate, State.incomingUpdate_of_mem owners listed rfl] at done
    obtain ⟨lo, ho, _⟩ := owners.outgoing _ listed o rfl
    have apart : o ≠ r := fun same => owners.apart listed listed (r := r) rfl (congrArg some same)
    have back := State.goLive_eq (s.removeUpdate (.handover l.fields.egress o r)) o
    obtain ⟨x, live, _⟩ := (State.goLive_spares (s.removeUpdate (.handover l.fields.egress o r)) apart).live hl
    have generation := (State.goLive_spares (s.removeUpdate (.handover l.fields.egress o r)) apart).generation
    have serving := (State.goLive_serving (s := s.removeUpdate (.handover l.fields.egress o r)) ho).of_spares
      (State.freeRecord_spares _ apart.symm)
    obtain ⟨y, active, mode⟩ := serving
    have ports := State.freeRecord_samePorts ((s.removeUpdate (.handover l.fields.egress o r)).goLive o) r
    have updates := congrArg State.updates back
    have owner := congrArg State.owner back
    exact ⟨_, answers done, State.freeRecord_setsFree live rfl distinct generation fun src =>
        State.monitor_congr (congrArg State.monA back) (congrArg State.monB back) src,
      ports.updates.trans updates, (State.freeRecord_owner _ r).trans owner, lo, y, ho, active, mode⟩
  all_goals
    have done := performed (by rw [active]; decide)
    rw [State.retireRecord, active] at done
    dsimp only at done
    obtain ⟨x, retiring, frozen, selected, request⟩ := State.beginRetiring_live hl
  · rw [State.queueUpdate_running (s := s.beginRetiring r) running] at done
    obtain ⟨idle, notWaiting⟩ := State.beginRetiring_idle law.service.pool hl (law.service.selectors.row r l hl)
      (Supervision.sel_of_live retiring)
    exact ⟨_, answers done, rfl, rfl, s.beginRetiring_notices r, x, retiring, frozen, selected, request, idle, notWaiting⟩
  · rw [State.queueUpdate_stopped (s := s.beginRetiring r) stopped] at done
    have slot := (State.applyUpdate_leaves (s.beginRetiring r) (.leave l.fields.egress r)).2
    refine ⟨_, answers done, ?_, ?_, fun m other => ?_⟩
    · exact State.freeRecord_setsFree (t := (s.beginRetiring r).setOwner l.fields.egress none) retiring rfl distinct
        (s.beginRetiring_generation r r) fun _ => rfl
    · rw [slot]
      exact pick_put_same _ _ _
    · rw [slot]
      exact pick_put_ne _ _ other.symm

end Sys2Proof.Machine
end

section
/-! SUPPORT. R109, R110, R116, R117, R121: what a request settles on. -/
namespace Sys2Proof.Machine

section
variable {u : Supervision} {r : RecIx} {f : Fields} {x : Selector} {mw mp : Int} (hx : u.sel r = some x) (law : PoolLaw u)
  (row : selectorRow x)
include hx law row

/-- A steering request that the merits allow keeps the selection on its source (R110 to R113). -/
theorem Supervision.settleLive_steerW (request : x.request = .steerW) (allowed : mp ≤ mw) :
    ∃ y, (u.settleLive r f x mw mp).1.sel r = some y ∧ y.selected = .W := by
  have above : ¬ mw < mp := by omega
  cases selected : x.selected with
  | P =>
    obtain ⟨_, _, _, _, _, sel⟩ := requestRowsSettle u r f x mw mp .W hx law row (.inr (.inr (.inl ⟨request, selected, above, rfl⟩)))
    exact ⟨_, sel, rfl⟩
  | W =>
    have none : requestRow x.request x.selected mw mp = none := by
      unfold requestRow
      rw [request, selected]
      exact if_neg fun h => nomatch h.1
    obtain ⟨_, _, _, rests, releases, _⟩ := rowsOnWorking u r f x mw mp hx none
    cases state : x.state with
    | onW => exact ⟨x, (congrArg (fun o => o.1.sel r) (rests state above)).trans hx, selected⟩
    | holdW =>
      obtain ⟨_, sel, _⟩ := releases state above law row
      exact ⟨_, sel, selected⟩
    | onP => simp [selectorRow, state, selected] at row
    | holdP => simp [selectorRow, state, selected] at row
    | ret => simp [selectorRow, state, selected] at row

theorem Supervision.settleLive_steerP (request : x.request = .steerP) (allowed : mw ≤ mp) :
    ∃ y, (u.settleLive r f x mw mp).1.sel r = some y ∧ y.selected = .P := by
  have above : ¬ mp < mw := by omega
  have notDue : ¬ (f.revertive = true ∧ mw = 2 ∧ x.request ≠ .steerP) := fun due => due.2.2 request
  cases selected : x.selected with
  | W =>
    obtain ⟨_, _, _, _, _, sel⟩ := requestRowsSettle u r f x mw mp .P hx law row (.inr (.inr (.inr ⟨request, selected, above, rfl⟩)))
    exact ⟨_, sel, rfl⟩
  | P =>
    have none : requestRow x.request x.selected mw mp = none := by
      unfold requestRow
      rw [request, selected]
      exact if_neg fun h => nomatch h.1
    obtain ⟨_, _, _, _, _, rests, _, _, releases⟩ := rowsOnProtect u r f x mw mp hx law row none
    cases state : x.state with
    | onP => exact ⟨x, (congrArg (fun o => o.1.sel r) (rests state above notDue)).trans hx, selected⟩
    | holdP =>
      obtain ⟨_, sel, _⟩ := releases state above notDue
      exact ⟨_, sel, selected⟩
    | ret =>
      have waits : x.waiting = x.timer.isNone := by
        unfold selectorRow at row
        rw [state] at row
        exact row.2.1
      obtain ⟨_, _, _, ends, _⟩ := rowsInReturn u r f x mw mp hx law none state waits
      obtain ⟨_, sel, _⟩ := ends above notDue
      exact ⟨_, sel, selected⟩
    | onW => simp [selectorRow, state, selected] at row
    | holdW => simp [selectorRow, state, selected] at row

/-- What a settling evaluation in PREVIEW or LIVE makes of a request. -/
theorem Supervision.settle_request (mode : x.mode ≠ .frozen) {y : Selector} (settled : (u.settle r false f x mw mp).1.sel r = some y) :
    (x.request = .pinW → y.selected = .W ∧ y.state = .onW) ∧ (x.request = .pinP → y.selected = .P ∧ y.state = .onP) ∧
      (x.request = .steerW → mp ≤ mw → y.selected = .W) ∧ (x.request = .steerP → mw ≤ mp → y.selected = .P) := by
  cases which : x.mode with
  | frozen => exact absurd which mode
  | preview =>
    rw [Supervision.settle, which] at settled
    cases settled.symm.trans (Supervision.selectAt_sel hx _)
    unfold previewSide
    refine ⟨fun request => ?_, fun request => ?_, fun request allowed => ?_, fun request allowed => ?_⟩
    · rw [request]
      exact ⟨rfl, rfl⟩
    · rw [request]
      exact ⟨rfl, rfl⟩
    · rw [request]
      exact if_pos ⟨rfl, allowed⟩
    · rw [request]
      dsimp only
      rw [if_neg (fun h => nomatch h.1), if_pos ⟨rfl, allowed⟩]
  | live =>
    have step : u.settle r false f x mw mp = u.settleLive r f x mw mp := by
      rw [Supervision.settle, which]
      rfl
    rw [step] at settled
    refine ⟨fun request => ?_, fun request => ?_, fun request allowed => ?_, fun request allowed => ?_⟩
    · obtain ⟨_, _, _, _, _, sel⟩ := requestRowsSettle u r f x mw mp .W hx law row (.inl ⟨request, rfl⟩)
      cases settled.symm.trans sel
      exact ⟨rfl, rfl⟩
    · obtain ⟨_, _, _, _, _, sel⟩ := requestRowsSettle u r f x mw mp .P hx law row (.inr (.inl ⟨request, rfl⟩))
      cases settled.symm.trans sel
      exact ⟨rfl, rfl⟩
    · obtain ⟨z, sel, selected⟩ := Supervision.settleLive_steerW (f := f) hx law row request allowed
      cases settled.symm.trans sel
      exact selected
    · obtain ⟨z, sel, selected⟩ := Supervision.settleLive_steerP (f := f) hx law row request allowed
      cases settled.symm.trans sel
      exact selected

end

/-! ## REQUEST -/

section
variable {s : State} {r : RecIx} {l : Live} (hl : s.sup.live r = some l) (serving : l.state ≠ .retiring) (kind : Request)
include hl serving

theorem performRequest_taken :
    performRequest (s.sup.ref r ++ [kind.byte]) s =
      if kind.needsProtect ∧ l.fields.protect.isNone then s.refuseWith .noProtect
      else (s.requestRecord r kind, ⟨.ok, (s.requestRecord r kind).sup.requestResult r⟩) := by
  have index : readIndex (byteAt (s.sup.ref r ++ [kind.byte]) 0) = some r := readIndex_byte r
  have request : readRequest (byteAt (s.sup.ref r ++ [kind.byte]) 2) = some kind := readRequest_byte kind
  have checked : s.checkRecord (byteAt (s.sup.ref r ++ [kind.byte]) 0) (byteAt (s.sup.ref r ++ [kind.byte]) 1) LiveState.inService =
      .ok (r, l) := State.checkRecord_taken hl (LiveState.inService_of_ne serving)
  rw [performRequest, if_neg (fun ne => ne rfl), index, request]
  dsimp only
  rw [checked]

end

theorem Request.needsProtect_iff {kind : Request} : kind.needsProtect = true ↔ kind = .pinP ∨ kind = .steerP := by
  cases kind <;> simp [Request.needsProtect]

theorem State.evaluateBy_sup {s : State} {r : RecIx} {l : Live} (hl : s.sup.live r = some l) (expiry : Bool) :
    (s.evaluateBy expiry r).sup =
      s.sup.evaluate r expiry (s.judge l.fields l.fields.working) (l.fields.protect.map (s.judge l.fields)) := by
  rw [State.evaluateBy, hl]

/-- Settles O47: a request that is refused, and what an accepted one settles on. -/
theorem requestsSettle : Obligations.RequestsSettle := by
  intro s r l kind ready law hl serving
  have performed := performRequest_taken hl serving kind
  refine ⟨fun needs absent => ?_, fun present => ?_⟩
  · refine exec_requests ready (Nat.le_add_left 3 57) (performed.trans (if_pos ⟨Request.needsProtect_iff.2 needs, ?_⟩))
    rw [absent]
    rfl
  · have accepted : ¬ (kind.needsProtect = true ∧ l.fields.protect.isNone = true) := fun h =>
      present (Request.needsProtect_iff.1 h.1) (Option.isNone_iff_eq_none.1 h.2)
    rw [if_neg accepted] at performed
    have requested : (s.sup.modSel r fun x => { x with request := kind }).live r = some { l with sel := { l.sel with request := kind } } := by
      rw [Supervision.modSel_live, hl]
      rfl
    have sup : (s.requestRecord r kind).sup = (s.sup.modSel r fun x => { x with request := kind }).evaluate r false
        (s.judge l.fields l.fields.working) (l.fields.protect.map (s.judge l.fields)) :=
      State.evaluateBy_sup (s := { s with sup := s.sup.modSel r fun x => { x with request := kind } }) requested false
    generalize s.judge l.fields l.fields.working = w at *
    generalize l.fields.protect.map (s.judge l.fields) = p at *
    obtain ⟨y, settled, mode, request, stored, storedP⟩ := Supervision.settledBy_live requested false w p
    have evaluated := Supervision.sel_of_live (Supervision.evaluate_live requested false w p settled)
    dsimp only at evaluated mode request
    rw [← sup] at evaluated
    have held : ((s.sup.modSel r fun x => { x with request := kind }).modSel r fun x => { x with w := some w, p := p }).sel r =
        some { l.sel with request := kind, w := some w, p := p } := by
      rw [Supervision.modSel_same, Supervision.modSel_same, Supervision.sel_of_live hl]
      rfl
    have pool : PoolLaw ((s.sup.modSel r fun x => { x with request := kind }).modSel r fun x => { x with w := some w, p := p }) :=
      (law.service.pool.of_claims (fun q => s.sup.modSel_claims r q (f := fun x => { x with request := kind }) fun _ => rfl) rfl).of_claims
        (fun q => Supervision.modSel_claims _ r q (f := fun x => { x with w := some w, p := p }) fun _ => rfl) rfl
    have row := law.service.selectors.row r l hl
    have notFrozen : l.sel.mode ≠ .frozen := by
      rw [law.service.selectors.mode r l hl]
      cases state : l.state with
      | retiring => exact absurd state serving
      | _ => exact nofun
    obtain ⟨pinW, pinP, steerW, steerP⟩ := Supervision.settle_request held pool row notFrozen (Supervision.sel_of_live settled)
    dsimp only at pinW pinP steerW steerP
    refine ⟨s.requestRecord r kind, _, ?_, ?_, ?_, evaluated, mode, stored, storedP, ?_, ?_, ?_, ?_, ?_⟩
    · refine exec_requests ready (Nat.le_add_left 3 57) (performed.trans ?_)
      rw [Supervision.requestResult, evaluated]
    · exact State.evaluateBy_eq { s with sup := s.sup.modSel r fun x => { x with request := kind } } false r
    · rw [sup]
      exact Supervision.sameRecords_trans (s.sup.modSel_sameRecords r _) (Supervision.evaluate_sameRecords _ r false w p)
    · rintro rfl
      obtain ⟨selected, state⟩ := pinW rfl
      exact ⟨selected, state, request⟩
    · rintro rfl
      obtain ⟨selected, state⟩ := pinP rfl
      exact ⟨selected, state, request⟩
    · rintro rfl allowed
      have selected := steerW rfl allowed
      refine ⟨selected, (if_neg ?_).trans request⟩
      simp [steerDropped, selected]
    · rintro rfl allowed
      have selected := steerP rfl allowed
      refine ⟨selected, (if_neg ?_).trans request⟩
      simp [steerDropped, selected]
    · rintro rfl
      dsimp only
      rw [request, ite_self]

end Sys2Proof.Machine
end

section
/-! SUPPORT. R36, R68 to R75: what an accepted AMEND writes in the record and in the monitors. -/
namespace Sys2Proof.Machine

/-! ## References taken and dropped several times -/

theorem Monitor.takeRef_iterate {m : Monitor} (named : m.refs ≠ 0) (k : Nat) : Monitor.takeRef^[k] m = { m with refs := m.refs + k } := by
  induction k with
  | zero => rfl
  | succ k ih =>
    rw [Function.iterate_succ_apply', ih]
    exact if_neg (by dsimp only; omega)

theorem Monitor.takeRef_iterate_clean {m : Monitor} (unnamed : m.refs = 0) (k : Nat) :
    Monitor.takeRef^[k + 1] m = Monitor.clean (k + 1) := by
  rw [Function.iterate_succ_apply, Monitor.takeRef, if_pos unnamed, Monitor.takeRef_iterate (by decide), Nat.add_comm]
  rfl

theorem Monitor.dropRef_iterate {m : Monitor} {k : Nat} (enough : k ≤ m.refs) (named : m.refs ≠ 0) :
    Monitor.dropRef^[k] m = if m.refs - k = 0 then Monitor.clean 0 else { m with refs := m.refs - k } := by
  induction k with
  | zero => exact (if_neg named).symm
  | succ k ih =>
    rw [Function.iterate_succ_apply', ih (by omega), if_neg (by omega), Monitor.dropRef]
    by_cases last : m.refs - (k + 1) = 0
    · rw [if_pos last, if_pos (by dsimp only; omega)]
    · rw [if_neg last, if_neg (by dsimp only; omega)]
      rfl

/-- References taken and then dropped, no more dropped than were held (R36, R38). -/
theorem Monitor.takeDrop {m : Monitor} {taken dropped : Nat} (held : dropped ≤ m.refs) (touched : 0 < taken ∨ 0 < dropped) :
    Monitor.dropRef^[dropped] (Monitor.takeRef^[taken] m) =
      if m.refs = 0 ∨ m.refs + taken - dropped = 0 then Monitor.clean (m.refs + taken - dropped)
      else { m with refs := m.refs + taken - dropped } := by
  by_cases unnamed : m.refs = 0
  · obtain ⟨k, rfl⟩ : ∃ k, taken = k + 1 := ⟨taken - 1, by omega⟩
    have none : dropped = 0 := by omega
    rw [none, unnamed, if_pos (.inl rfl), Monitor.takeRef_iterate_clean unnamed, Nat.zero_add]
    rfl
  · rw [Monitor.takeRef_iterate unnamed, Monitor.dropRef_iterate (by dsimp only; omega) (by dsimp only; omega)]
    dsimp only
    by_cases last : m.refs + taken - dropped = 0
    · rw [if_pos last, if_pos (.inr last), last]
    · rw [if_neg last, if_neg (by omega)]

theorem ReferenceLaw.naming_le {s : State} (law : ReferenceLaw s) (src : Source) (r : RecIx) : s.sup.naming src r ≤ (s.monitor src).refs := by
  rw [law.counted src]
  exact List.single_le_sum (fun _ _ => Nat.zero_le _) _ (List.mem_map_of_mem (List.mem_finRange r))

theorem Amendment.droppedFrom_count_le (a : Amendment) (f : Fields) (src : Source) :
    (a.droppedFrom f).count src ≤ f.sources.count src := by
  refine List.Sublist.count_le src ?_
  unfold Amendment.droppedFrom Fields.sources
  refine List.Sublist.append (l₂ := [f.working]) ?_ ?_
  · split
    · exact .refl _
    · exact List.nil_sublist _
  · split
    · exact .refl _
    · exact List.nil_sublist _

/-! ## The record written -/

/-- An accepted AMEND before its evaluation: the items, the references and the request (R69 to R71). -/
def State.itemsWritten (s : State) (r : RecIx) (l : Live) (a : Amendment) : State :=
  let s := { s with sup := s.sup.modLive r (fun l' => { l' with fields := a.apply l.fields }) }
  let s := (s.takeRefs a.taken).dropRefs (a.droppedFrom l.fields)
  if (a.apply l.fields).protect.isNone then
    { s with sup := s.sup.modSel r (fun x => { x with request := x.request.withoutProtect }) }
  else s

section
variable {s : State} {r : RecIx} {l : Live} (hl : s.sup.live r = some l) (a : Amendment)

theorem State.amendRecord_itemsWritten :
    s.amendRecord r l a = if a.selecting then (s.itemsWritten r l a).evaluate r else s.itemsWritten r l a := rfl

/-- Only the record and the monitors are written. -/
theorem State.itemsWritten_eq :
    s.itemsWritten r l a =
      { s with monA := (s.itemsWritten r l a).monA, monB := (s.itemsWritten r l a).monB, sup := (s.itemsWritten r l a).sup } := by
  unfold State.itemsWritten
  dsimp only
  split
  all_goals
    rw [State.dropRefs_eq (State.takeRefs _ _), State.takeRefs_eq]

theorem State.itemsWritten_samePorts : s.SamePorts (s.itemsWritten r l a) ∧ (s.itemsWritten r l a).owner = s.owner := by
  rw [State.itemsWritten_eq]
  exact ⟨⟨rfl, rfl, rfl, rfl, rfl, rfl, rfl, rfl, rfl⟩, rfl⟩

theorem State.itemsWritten_monitor (src : Source) :
    (s.itemsWritten r l a).monitor src =
      Monitor.dropRef^[(a.droppedFrom l.fields).count src] (Monitor.takeRef^[a.taken.count src] (s.monitor src)) := by
  have written (u : Supervision) : ((State.takeRefs { s with sup := u } a.taken).dropRefs (a.droppedFrom l.fields)).monitor src =
      Monitor.dropRef^[(a.droppedFrom l.fields).count src] (Monitor.takeRef^[a.taken.count src] (s.monitor src)) := by
    rw [State.dropRefs_monitor, State.takeRefs_monitor]
    rfl
  unfold State.itemsWritten
  dsimp only
  split
  · exact written _
  · exact written _

theorem State.itemsWritten_sup :
    (s.itemsWritten r l a).sup =
      if (a.apply l.fields).protect.isNone then
        (s.sup.modLive r fun l' => { l' with fields := a.apply l.fields }).modSel r fun x => { x with request := x.request.withoutProtect }
      else s.sup.modLive r fun l' => { l' with fields := a.apply l.fields } := by
  have written (u : Supervision) : ((State.takeRefs { s with sup := u } a.taken).dropRefs (a.droppedFrom l.fields)).sup = u := by
    rw [State.dropRefs_sup, State.takeRefs_sup]
  unfold State.itemsWritten
  dsimp only
  split
  · dsimp only
    rw [written]
  · rw [written]

theorem State.itemsWritten_keeps :
    (s.itemsWritten r l a).sup.pool = s.sup.pool ∧ (s.itemsWritten r l a).sup.notices = s.sup.notices ∧
      (∀ q, q ≠ r → (s.itemsWritten r l a).sup.record q = s.sup.record q) ∧
      ((s.itemsWritten r l a).sup.record r).generation = (s.sup.record r).generation ∧
      ((s.itemsWritten r l a).sup.record r).held = (s.sup.record r).held := by
  rw [State.itemsWritten_sup]
  have first {q : RecIx} (other : r ≠ q) :=
    s.sup.modLive_record_ne (fun l' : Live => { l' with fields := a.apply l.fields }) other
  split
  · refine ⟨rfl, rfl, fun q other => ?_, ?_, ?_⟩
    · exact (Supervision.modSel_record_ne _ _ other.symm).trans (first other.symm)
    · exact (Supervision.modLive_generation _ r r _).trans (Supervision.modLive_generation _ r r _)
    · exact (Supervision.modLive_held _ r r _).trans (Supervision.modLive_held _ r r _)
  · exact ⟨rfl, rfl, fun q other => first other.symm, Supervision.modLive_generation _ r r _, Supervision.modLive_held _ r r _⟩

include hl in
theorem State.itemsWritten_live : (s.itemsWritten r l a).sup.live r = some (l.amended a) := by
  rw [State.itemsWritten_sup]
  unfold Live.amended
  split
  · rw [Supervision.modSel_live, Supervision.modLive_same, hl]
    rfl
  · rw [Supervision.modLive_same, hl]
    rfl

theorem State.itemsWritten_quiet (quiet : ¬ a.selecting = true) : s.itemsWritten r l a = { s with sup := (s.itemsWritten r l a).sup } := by
  simp only [Amendment.selecting, Bool.or_eq_true, not_or, Option.not_isSome_iff_eq_none] at quiet
  obtain ⟨⟨⟨⟨⟨working, protect⟩, _⟩, _⟩, _⟩, _⟩ := quiet
  have taken : a.taken = [] := by
    rw [Amendment.taken, working, protect]
    rfl
  have dropped : a.droppedFrom l.fields = [] := by
    rw [Amendment.droppedFrom, working, protect]
    rfl
  unfold State.itemsWritten
  rw [taken, dropped]
  dsimp only
  split <;> rfl

end

/-! ## AMEND as a whole -/

theorem Request.withoutProtect_eq (q : Request) : q.withoutProtect = if q = .pinP ∨ q = .steerP then .none else q := by
  cases q <;> rfl

theorem Live.amended_eq (l : Live) (a : Amendment) :
    l.amended a =
      { l with
        fields := a.apply l.fields
        sel :=
          { l.sel with
            request :=
              if (a.apply l.fields).protect = none ∧ (l.sel.request = .pinP ∨ l.sel.request = .steerP) then .none else l.sel.request } } := by
  unfold Live.amended
  rw [Request.withoutProtect_eq]
  cases (a.apply l.fields).protect with
  | none =>
    rw [if_pos Option.isNone_none]
    simp only [true_and]
  | some src =>
    rw [if_neg (by simp), if_neg (by simp)]

theorem Amendment.taken_eq (a : Amendment) : a.taken = a.working.toList ++ (a.protect.getD none).toList := by
  unfold Amendment.taken
  cases a.protect <;> rfl

theorem Amendment.selecting_iff (a : Amendment) :
    a.selecting = true ↔ a.working.isSome ∨ a.protect.isSome ∨ a.revertive.isSome ∨ a.degrade.isSome ∨ a.expectedName.isSome ∨
      a.expectedCode.isSome := by
  simp [Amendment.selecting, or_assoc]

/-- What an evaluation makes of a live record, and the COND it posts where the judgements have changed (R106). -/
theorem State.evaluate_live {s : State} {r : RecIx} {l : Live} (hl : s.sup.live r = some l) :
    ∃ x, (s.evaluate r).sup.live r = some { l with sel := x } ∧ x.mode = l.sel.mode ∧
      x.w = some ((s.evaluate r).judge l.fields l.fields.working) ∧ x.p = l.fields.protect.map ((s.evaluate r).judge l.fields) ∧
      (x.request = l.sel.request ∨ x.request = .none) ∧
      (hasKind l.fields.mask .cond = false → l.sel.w ≠ x.w ∨ l.sel.p ≠ x.p → (s.evaluate r).sup.tells (.record r) .cond) := by
  have same : (s.evaluate r).judge l.fields = s.judge l.fields := by
    rw [State.evaluate, State.evaluateBy_eq]
    rfl
  have sup : (s.evaluate r).sup = _ := State.evaluateBy_sup hl false
  rw [same, sup]
  generalize s.judge l.fields l.fields.working = w
  generalize l.fields.protect.map (s.judge l.fields) = p
  obtain ⟨y, settled, mode, request, stored, storedP⟩ := Supervision.settledBy_live hl false w p
  refine ⟨_, Supervision.evaluate_live hl false w p settled, mode, stored, storedP, ?_, fun unmasked changed => ?_⟩
  · dsimp only
    rw [request]
    split
    · exact .inr rfl
    · exact .inl rfl
  · dsimp only at changed
    rw [stored, storedP] at changed
    rw [Supervision.evaluate_eq hl false w p settled]
    refine Supervision.postIf_keeps (Supervision.postIf_keeps (Supervision.postIf_keeps ?_))
    have arose : (l.sel.w != some w || l.sel.p != p) = true := by simpa using changed
    rw [arose]
    refine Supervision.postRecord_tells ?_
    rw [Supervision.masks, Supervision.reached_live settled]
    exact unmasked

/-- Settles O46: the items written, the references moved, and the evaluation of a selection item. -/
theorem amendWritesItems : Obligations.AmendWritesItems := by
  intro s r l a ready hl serving law stagedOnly f distinct params request taken dropped selecting
  have performed : performAmend ([byteOfNat r.val, (s.sup.record r).generation] ++ bytes16 a.carried.items ++ a.carried.bytes) s =
      (s.amendRecord r l a, ⟨.ok, s.sup.ref r⟩) := by
    refine (performAmend_record law.shaped a.carried.items_low law.reads
      (State.checkRecord_taken hl (LiveState.inService_of_ne serving))).trans ?_
    exact (if_neg fun wrong => wrong.2 (stagedOnly (a.stagedOnly_iff.1 wrong.1))).trans (if_neg distinct)
  obtain ⟨pool, notices, others, generation, held⟩ := State.itemsWritten_keeps (s := s) (r := r) (l := l) a
  have written := State.itemsWritten_live hl a
  obtain ⟨ports, owner⟩ := State.itemsWritten_samePorts (s := s) (r := r) (l := l) a
  have monitor := State.itemsWritten_monitor (s := s) (r := r) (l := l) a
  have takenEq : a.taken = taken := a.taken_eq
  have selects : a.selecting = true ↔ selecting := a.selecting_iff
  rw [Live.amended_eq] at written
  rw [takenEq] at monitor
  have kept : (s.itemsWritten r l a).Supervises (s.amendRecord r l a) := by
    rw [State.amendRecord_itemsWritten]
    split
    · exact State.evaluateBy_supervises _ false r
    · exact .refl _
  have monitors (src : Source) : (s.amendRecord r l a).monitor src = (s.itemsWritten r l a).monitor src :=
    State.monitor_congr kept.monA kept.monB src
  refine ⟨s.amendRecord r l a, ?_, fun quiet => ?_, fun loud => ?_, fun src notTaken notDropped => ?_, fun law src touched => ?_,
    (kept.records r).1.trans generation, (kept.records r).2.1.trans held, kept.updates.trans ports.updates,
    kept.owner.trans owner, fun b => ?_, kept.egress.trans ports.egress, kept.alertOn.trans ports.alertOn⟩
  · have row : params = [byteOfNat r.val, (s.sup.record r).generation] ++ bytes16 a.carried.items ++ a.carried.bytes :=
      amend_params_eq _ _ a
    rw [row]
    exact exec_performs ready rfl (amendParams_length law.shaped) nofun nofun performed
  · have quiet := fun h => quiet (selects.1 h)
    rw [State.amendRecord_itemsWritten, if_neg quiet]
    exact ⟨written, others, pool, notices, State.itemsWritten_quiet a quiet⟩
  · rw [State.amendRecord_itemsWritten, if_pos (selects.2 loud)]
    obtain ⟨x, live, mode, stored, storedP, requests, tells⟩ := State.evaluate_live written
    exact ⟨x, live, mode, stored, storedP, requests, tells⟩
  · rw [monitors, monitor, List.count_eq_zero_of_not_mem notTaken]
    rw [show (a.droppedFrom l.fields).count src = 0 from List.count_eq_zero_of_not_mem notDropped]
    rfl
  · have held : (a.droppedFrom l.fields).count src ≤ (s.monitor src).refs :=
      ((a.droppedFrom_count_le l.fields src).trans (Supervision.naming_live hl src).ge).trans (law.naming_le src r)
    have some : 0 < taken.count src ∨ 0 < (a.droppedFrom l.fields).count src :=
      touched.imp List.count_pos_iff.2 List.count_pos_iff.2
    rw [monitors, monitor, Monitor.takeDrop held some]
    rfl
  · cases b with
    | A => exact kept.rxA.trans ports.rxA
    | B => exact kept.rxB.trans ports.rxB

end Sys2Proof.Machine
end

section
/-! SUPPORT. R54 to R56: CREATE from its parameters to the record it makes. -/
namespace Sys2Proof.Machine

/-! ## Values out of range -/

theorem readSlot_none {n : Nat} (high : 47 < n) : readSlot n = none := dif_neg (by omega)

theorem readProtect_none {b : Byte} (present : b ≠ 0xFF) (bad : b.getLsbD 6 = true ∨ 47 < (b.extractLsb' 0 6).toNat) :
    readProtect b = none := by
  rw [readProtect, if_neg present, readSource_eq_none.2 bad]
  rfl

theorem readIf_true {α : Type} {x : Option α} : readIf true x = x.map some := rfl

theorem readExpectedCode_none {b : Byte} (bad : b.toNat = 0 ∨ 15 < b.toNat) : readExpectedCode b = none :=
  if_neg (by simp only [Bool.and_eq_true, decide_eq_true_eq]; omega)

theorem readOutCode_none {b : Byte} (bad : 15 < b.toNat) : readOutCode b = none := if_neg (by omega)

theorem readHoldOff_none {b : Byte} (bad : 250 < b.toNat) : readHoldOff b = none := if_neg (by omega)

theorem readReturn_none {v : BitVec 16} (bad : v.toNat = 0 ∨ 900 < v.toNat) : readReturn v = none :=
  if_neg (by simp only [Bool.and_eq_true, decide_eq_true_eq]; omega)

/-- A bad character stands in one of the two name fields that are read (R54). -/
theorem readNames_bad {expected out : Bool} {names : List Byte}
    (length : names.length = (if expected then 16 else 0) + (if out then 16 else 0))
    (bad : ∃ b ∈ names, b.toNat < 0x20 ∨ 0x7E < b.toNat) :
    readIf expected (readName (names.take 16)) = none ∨
      readIf out (readName ((names.drop (if expected then 16 else 0)).take 16)) = none := by
  obtain ⟨b, inside, wrong⟩ := bad
  cases expected with
  | false =>
    right
    cases out with
    | false =>
      rw [List.eq_nil_of_length_eq_zero length] at inside
      cases inside
    | true =>
      rw [readIf_true, if_neg Bool.false_ne_true, List.drop_zero, readName_eq_none]
      · rfl
      · exact ⟨b, by rwa [List.take_of_length_le (by rw [length]; decide)], wrong⟩
  | true =>
    rw [← List.take_append_drop 16 names, List.mem_append] at inside
    rcases inside with first | second
    · left
      rw [readIf_true, readName_eq_none ⟨b, first, wrong⟩]
      rfl
    · right
      cases out with
      | false =>
        have none : names.drop 16 = [] := List.drop_eq_nil_of_le (by rw [length]; decide)
        rw [none] at second
        cases second
      | true =>
        rw [readIf_true, if_pos rfl, readName_eq_none]
        · rfl
        · exact ⟨b, by rwa [List.take_of_length_le (by rw [List.length_drop, length]; decide)], wrong⟩

theorem readCreate_none {egress working protect flags code outCode holdOff : Byte} {returnTime : BitVec 16} {mask : Byte}
    {names : List Byte} (length : names.length = (if flags.getLsbD 2 then 16 else 0) + (if flags.getLsbD 4 then 16 else 0))
    (bad : badCreate egress working protect flags code outCode holdOff returnTime mask names) :
    readCreate ([egress, working, protect, flags, code, outCode, holdOff] ++ bytes16 returnTime ++ [mask] ++ names) = none := by
  generalize params : [egress, working, protect, flags, code, outCode, holdOff] ++ bytes16 returnTime ++ [mask] ++ names = bytes
  cases read : readCreate bytes with
  | none => rfl
  | some f =>
    exfalso
    simp only [readCreate, Option.bind_eq_bind, Option.bind_eq_some_iff] at read
    obtain ⟨e, he, w, hw, p, hp, c, hc, oc, hoc, ho, hho, rt, hrt, m, hm, n, hn, on, hon, read⟩ := read
    subst params
    have he : readSlot egress.toNat = some e := he
    have hw : readSource working = some w := hw
    have hp : readProtect protect = some p := hp
    have hc : readIf (flags.getLsbD 3) (readExpectedCode code) = some c := hc
    have hoc : readIf (flags.getLsbD 5) (readOutCode outCode) = some oc := hoc
    have hho : readHoldOff holdOff = some ho := hho
    have hrt : readReturn (returnTime.extractLsb' 8 8 ++ returnTime.extractLsb' 0 8) = some rt := hrt
    have hm : readMask mask = some m := hm
    have hn : readIf (flags.getLsbD 2) (readName (names.take 16)) = some n := hn
    have hon : readIf (flags.getLsbD 4) (readName ((names.drop (if flags.getLsbD 2 then 16 else 0)).take 16)) = some on := by
      rw [show byteAt ([egress, working, protect, flags, code, outCode, holdOff] ++ bytes16 returnTime ++ [mask] ++ names) 3 = flags
        from rfl] at hon
      cases present : flags.getLsbD 2 <;> rw [present] at hon <;> exact hon
    rw [bytes16_joined] at hrt
    rcases bad with out | out | ⟨present, out⟩ | same | high | ⟨present, out⟩ | ⟨present, out⟩ | out | out | out | out | out
    · cases (readSlot_none out).symm.trans he
    · cases (readSource_eq_none.2 out).symm.trans hw
    · cases (readProtect_none present out).symm.trans hp
    · have twice : readProtect protect = some (some w) := readProtect_iff.2 ((readSource_iff.1 hw).trans same.symm)
      cases hp.symm.trans twice
      cases (if_neg fun h => h.2 rfl).symm.trans read
    · cases (if_neg fun h => high h.1).symm.trans read
    · rw [present, readIf_true, readExpectedCode_none out] at hc
      cases hc
    · rw [present, readIf_true, readOutCode_none out] at hoc
      cases hoc
    · cases (readHoldOff_none out).symm.trans hho
    · cases (readReturn_none (.inl out)).symm.trans hrt
    · cases (readReturn_none (.inr out)).symm.trans hrt
    · cases (if_neg out : readMask mask = none).symm.trans hm
    · rcases readNames_bad length out with none | none
      · cases none.symm.trans hn
      · cases none.symm.trans hon

/-! ## The record made -/

theorem Supervision.freeIndex_lowest {u : Supervision} {r : RecIx} (free : u.live r = none) (notHeld : (u.record r).held = false)
    (below : ∀ q, q < r → (u.live q).isSome ∨ (u.record q).held = true) : u.freeIndex = some r := by
  refine find_finRange_eq_some.2 ⟨by rw [free, notHeld]; rfl, fun q lower => ?_⟩
  rcases below q lower with live | held
  · cases h : u.live q with
    | none => rw [h] at live; cases live
    | some l => rfl
  · rw [held]
    exact Bool.and_false _

theorem Supervision.freeIndex_none {u : Supervision} (full : ∀ q, (u.live q).isSome ∨ (u.record q).held = true) :
    u.freeIndex = none := by
  refine find_finRange_eq_none.2 fun q => ?_
  rcases full q with live | held
  · cases h : u.live q with
    | none => rw [h] at live; cases live
    | some l => rfl
  · rw [held]
    exact Bool.and_false _

/-- The record as CREATE sets it up, before its evaluation (R56). -/
def State.allocate (s : State) (r : RecIx) (f : Fields) : State :=
  { s with sup := s.sup.setRecord r ((s.sup.record r).allocated f) }.takeRefs f.sources

theorem State.createAt_allocate (s : State) (r : RecIx) (f : Fields) : s.createAt r f = (s.allocate r f).evaluate r := rfl

theorem State.allocate_sup (s : State) (r : RecIx) (f : Fields) :
    (s.allocate r f).sup = s.sup.setRecord r ((s.sup.record r).allocated f) := State.takeRefs_sup _ _

theorem State.allocate_live (s : State) (r : RecIx) (f : Fields) :
    (s.allocate r f).sup.live r = some { state := .staged, fields := f, sel := Selector.initial } := by
  rw [State.allocate_sup, Supervision.live, Supervision.setRecord_same]
  rfl

theorem State.createAt_eq (s : State) (r : RecIx) (f : Fields) :
    s.createAt r f = { s with monA := (s.createAt r f).monA, monB := (s.createAt r f).monB, sup := (s.createAt r f).sup } := by
  rw [State.createAt_allocate, State.evaluate, State.evaluateBy_eq, State.allocate, State.takeRefs_eq]

theorem State.createAt_monitor (s : State) (r : RecIx) {f : Fields} (distinct : f.protect ≠ some f.working) (src : Source) :
    (s.createAt r f).monitor src = if src ∈ f.sources then (s.monitor src).takeRef else s.monitor src := by
  have evaluated := State.evaluateBy_supervises (s.allocate r f) false r
  refine (State.monitor_congr evaluated.monA evaluated.monB src).trans ?_
  rw [State.allocate, State.takeRefs_monitor, Fields.iterate_sources distinct]
  rfl

/-- The evaluation of a record just set up (R56, R121). -/
theorem Supervision.evaluate_initial {u : Supervision} {r : RecIx} {f : Fields}
    (live : u.live r = some { state := .staged, fields := f, sel := Selector.initial }) (w : Judgement) (p : Option Judgement) :
    ∃ x, (u.evaluate r false w p).live r = some { state := .staged, fields := f, sel := x } ∧ x.mode = .preview ∧ x.request = .none ∧
      x.timer = none ∧ x.waiting = false ∧ x.w = some w ∧ x.p = p ∧
      x.selected = (if meritOf f.degradeSwitch x.w < meritOf f.degradeSwitch x.p then .P else .W) ∧
      (u.evaluate r false w p).notices =
        (([(true, .cond), (x.selected == .P, .select)] : List (Bool × Kind)).filter (fun k => k.1 && !hasKind f.mask k.2)).foldl
          (fun xs k => addNotice (.record r) (some (u.record r).generation) k.2 xs) u.notices ∧
      (u.evaluate r false w p).pool = u.pool ∧ ∀ q, q ≠ r → (u.evaluate r false w p).record q = u.record q := by
  obtain ⟨y, settled, mode, request, stored, storedP⟩ := Supervision.settledBy_live live false w p
  have evaluated := Supervision.evaluate_live live false w p settled
  obtain ⟨pool, x, hx, _, timer, waiting, _, selected⟩ := previewSettlesAtOnce u r _ w p live rfl
  have notices := Supervision.evaluate_notices live false w p settled
  cases hx.symm.trans (Supervision.sel_of_live evaluated)
  dsimp only at selected timer waiting mode request
  refine ⟨_, evaluated, mode, ?_, timer, waiting, stored, storedP, ?_, ?_, pool, fun q other => ?_⟩
  · dsimp only
    rw [request]
    exact ite_self _
  · dsimp only
    rw [stored, storedP, selected]
    simp [Selector.initial]
  · have silent (kinds : List (Bool × Kind)) :
        (kinds ++ [(false, Kind.steerDrop), (false, .timerShort)]).filter (fun k => k.1 && !hasKind f.mask k.2) =
          kinds.filter fun k => k.1 && !hasKind f.mask k.2 := by
      rw [List.filter_append]
      exact List.append_nil _
    have moved : (y.selected != .W) = (y.selected == .P) := by cases y.selected <;> rfl
    rw [notices, Supervision.settledBy_preview rfl]
    dsimp only
    rw [← silent, ← moved]
    rfl
  · rw [Supervision.evaluate_record_ne live false w p other, Supervision.settledBy_preview rfl, Supervision.selectAt,
      Supervision.modSel_record_ne _ _ other.symm, Supervision.modSel_record_ne _ _ other.symm]

/-- Settles O41: CREATE on the lowest free index, on a full table, and with a value out of range. -/
theorem createMakesStagedRecord : Obligations.CreateMakesStagedRecord := by
  intro s f ready law distinct
  obtain ⟨reads, length, atLeast, fits⟩ := readCreate_createParams law distinct
  have lengthOk : ¬ ((createParams f).length < 4 ∨ (createParams f).length ≠ createLength (byteAt (createParams f) 3)) := by omega
  refine ⟨fun r free notHeld below => ?_, fun full => ?_, fun egress working protect flags code outCode holdOff returnTime mask names
    sized bad => ?_⟩
  · have performed : performCreate (createParams f) s =
        (s.createAt r f, ⟨.ok, [byteOfNat r.val, ((s.createAt r f).sup.record r).generation]⟩) := by
      rw [performCreate, if_neg lengthOk, reads]
      dsimp only
      rw [Supervision.freeIndex_lowest free notHeld below]
    have live := s.allocate_live r f
    have same : (s.createAt r f).judge f = (s.allocate r f).judge f := by
      rw [State.createAt_allocate, State.evaluate, State.evaluateBy_eq]
      rfl
    have sup : (s.createAt r f).sup = (s.allocate r f).sup.evaluate r false ((s.createAt r f).judge f f.working)
        (f.protect.map ((s.createAt r f).judge f)) := by
      rw [same]
      exact State.evaluateBy_sup live false
    obtain ⟨x, staged, mode, request, timer, waiting, stored, storedP, selected, notices, pool, apart⟩ :=
      Supervision.evaluate_initial live ((s.createAt r f).judge f f.working) (f.protect.map ((s.createAt r f).judge f))
    have records := (s.createAt_sameRecords r f) r
    rw [← sup] at staged notices pool apart
    rw [State.allocate_sup, Supervision.setRecord_same] at notices
    rw [Supervision.setRecord_same] at records
    have generation : ((s.createAt r f).sup.record r).generation = (s.sup.record r).generation + 1 := records.1
    rw [generation] at performed
    refine ⟨s.createAt r f, exec_performs ready rfl fits nofun nofun performed, generation, records.2.1,
      ⟨x, staged, mode, request, timer, waiting, stored, storedP, selected, notices⟩, fun q other => ?_, ?_,
      s.createAt_monitor r distinct, s.createAt_eq r f⟩
    · rw [apart q other, State.allocate_sup, Supervision.setRecord_ne _ _ other.symm]
    · rw [pool, State.allocate_sup]
      rfl
  · refine exec_performs ready rfl fits nofun nofun ?_
    show performCreate (createParams f) s = _
    rw [performCreate, if_neg lengthOk, reads]
    dsimp only
    rw [Supervision.freeIndex_none full]
    rfl
  · have short : names.length ≤ 32 := by
      rw [sized]
      split <;> split <;> decide
    refine exec_performs ready rfl ?_ nofun nofun ?_
    · simp only [List.length_append, List.length_cons, List.length_nil, bytes16]
      omega
    · show performCreate _ s = _
      rw [performCreate, if_neg, readCreate_none sized bad]
      · rfl
      · simp only [List.length_append, List.length_cons, List.length_nil, bytes16, createLength, not_or, not_lt, ne_eq, not_not]
        refine ⟨by omega, ?_⟩
        rw [sized, ← Nat.add_assoc]
        rfl

end Sys2Proof.Machine
end

section
/-! SUPPORT. R45, R76, R98, R142, R190, R197 to R202: the layouts of bytes, and what each read reports. -/
namespace Sys2Proof.Machine

/-! ## Layouts -/

theorem bytes16_value (v : BitVec 16) : 256 * (v.extractLsb' 8 8).toNat + (v.extractLsb' 0 8).toNat = v.toNat := by
  simp only [BitVec.extractLsb'_toNat, Nat.shiftRight_eq_div_pow]
  omega

theorem bytes16_fold (v : BitVec 16) (n : Nat) : (bytes16 v).foldl (fun n b => 256 * n + b.toNat) n = 65536 * n + v.toNat := by
  have value := bytes16_value v
  simp only [bytes16, List.foldl_cons, List.foldl_nil]
  omega

theorem bytes24_fold (v : BitVec 24) : (bytes24 v).foldl (fun n b => 256 * n + b.toNat) 0 = v.toNat := by
  rw [bytes24, List.foldl_cons, bytes16_fold]
  simp only [BitVec.extractLsb'_toNat, Nat.shiftRight_eq_div_pow]
  omega

theorem bytes32_fold (v : BitVec 32) : (bytes32 v).foldl (fun n b => 256 * n + b.toNat) 0 = v.toNat := by
  rw [bytes32, List.foldl_append, bytes16_fold, bytes16_fold]
  simp only [BitVec.extractLsb'_toNat, Nat.shiftRight_eq_div_pow]
  omega

theorem byteOfNat_toNat {n : Nat} (h : n < 256) : (byteOfNat n).toNat = n := Nat.mod_eq_of_lt h

theorem nameBytes_toNat (n : Name) : (nameBytes n).map BitVec.toNat = n.map BitVec.toNat := by
  rw [nameBytes, List.map_map]
  refine List.map_congr_left fun c _ => ?_
  simp only [Function.comp_apply]
  bv_omega

theorem Causes.byte_bits : ∀ bus fill unframed noCode unequipped code name : Bool,
    (List.range 8).map (Causes.byte ⟨bus, fill, unframed, noCode, unequipped, code, name⟩).getLsbD =
      [bus, fill, unframed, noCode, unequipped, code, name, false] := by
  decide

theorem flags_byte_bits : ∀ revertive degrade name code outName outCode : Bool,
    (List.range 8).map (0#2 ++ BitVec.ofBool outCode ++ BitVec.ofBool outName ++ BitVec.ofBool code ++ BitVec.ofBool name
      ++ BitVec.ofBool degrade ++ BitVec.ofBool revertive).getLsbD = [revertive, degrade, name, code, outName, outCode, false, false] := by
  decide

theorem hasKind_bits : ∀ kinds : Byte,
    [Kind.activated, .retired, .select, .cond, .name, .rfault, .steerDrop, .timerShort].map (hasKind kinds) =
      (List.range 8).map kinds.getLsbD := by
  decide

theorem Source.byte_bits (src : Source) :
    src.byte.getLsbD 7 = (src.bus == .B) ∧ src.byte.getLsbD 6 = false ∧ (src.byte.extractLsb' 0 6).toNat = src.slot.val := by
  obtain ⟨bus, slot⟩ := src
  revert slot
  cases bus <;> decide

theorem formatLaw : FormatLaw where
  buses := rfl
  senses := rfl
  scopes := rfl
  busStates := rfl
  liveStates := rfl
  modes := rfl
  selStates := rfl
  sides := rfl
  requests := rfl
  conditions := rfl
  purposes := rfl
  causes c := Causes.byte_bits c.bus c.fill c.unframed c.noCode c.unequipped c.code c.name
  judgements := ⟨fun _ => rfl, rfl⟩
  subjects := ⟨fun r => byteOfNat_toNat (r.isLt.trans (by decide)), rfl⟩
  sources := Source.byte_bits
  flags f := flags_byte_bits f.revertive f.degradeSwitch f.expectedName.isSome f.expectedCode.isSome f.outName.isSome f.outCode.isSome
  kindBits := rfl
  kinds := hasKind_bits
  header mk rf code char := by
    have bit := mkHeader_getLsbD mk rf code char
    refine ⟨(bit 15).trans rfl, (bit 14).trans rfl, hdrCode_mkHeader .., mkHeader_spare .., hdrChar_mkHeader .., hdrMK_mkHeader ..,
      hdrRF_mkHeader .., hdrCode_mkHeader .., hdrChar_mkHeader ..⟩
  counts := ⟨fun _ => byteOfNat_toNat, fun _ => rfl, fun v => ⟨rfl, (bytes16_fold v 0).trans (by omega)⟩, fun v => ⟨rfl, bytes24_fold v⟩,
    fun v => ⟨rfl, bytes32_fold v⟩⟩
  names := nameBytes_toNat

/-! ## The egress map -/

/-- The slots from `first` on, as they stand in order (R98). -/
theorem slotRange_val {first count : Nat} (inside : first + count ≤ 48) :
    (slotRange first count).map (·.val) = List.range' first count := by
  have split : List.range 48 = List.range' 0 first ++ (List.range' first count ++ List.range' (first + count) (48 - (first + count))) := by
    have right := List.range'_append_1 (s := first) (m := count) (n := 48 - (first + count))
    have left := List.range'_append_1 (s := 0) (m := first) (n := count + (48 - (first + count)))
    rw [Nat.zero_add] at left
    rw [right, left, List.range_eq_range']
    congr 1
    omega
  have below : (List.range' 0 first).filter (fun n => first ≤ n ∧ n < first + count) = [] := by
    rw [List.filter_eq_nil_iff]
    intro n listed
    rw [List.mem_range'_1] at listed
    simp only [decide_eq_true_eq]
    omega
  have within : (List.range' first count).filter (fun n => first ≤ n ∧ n < first + count) = List.range' first count := by
    rw [List.filter_eq_self]
    intro n listed
    rw [List.mem_range'_1] at listed
    simpa using listed
  have above : (List.range' (first + count) (48 - (first + count))).filter (fun n => first ≤ n ∧ n < first + count) = [] := by
    rw [List.filter_eq_nil_iff]
    intro n listed
    rw [List.mem_range'_1] at listed
    simp only [decide_eq_true_eq]
    omega
  calc (slotRange first count).map (·.val)
      = ((List.finRange 48).map (·.val)).filter (fun n => first ≤ n ∧ n < first + count) := by
        rw [List.filter_map]
        rfl
    _ = (List.range 48).filter (fun n => first ≤ n ∧ n < first + count) := by rw [List.map_coe_finRange_eq_range]
    _ = List.range' first count := by
      rw [split, List.filter_append, List.filter_append, below, within, above, List.append_nil, List.nil_append]

theorem slotRange_eq {slots : List SlotIx} {first count : Nat} (listed : slots.map (·.val) = List.range' first count) (some : 1 ≤ count) :
    slotRange first count = slots ∧ first + count ≤ 48 := by
  have last : first + count - 1 ∈ slots.map (·.val) := by
    rw [listed, List.mem_range'_1]
    omega
  obtain ⟨n, -, eq⟩ := List.mem_map.1 last
  have inside : first + count ≤ 48 := by have := n.isLt; omega
  exact ⟨List.map_injective_iff.2 Fin.val_injective ((slotRange_val inside).trans listed.symm), inside⟩

section
variable {s : State} {n : SlotIx}

theorem State.ownerBytes_eq (s : State) (n : SlotIx) :
    s.ownerBytes n =
      match pick s.owner n with
      | none => [0x80, 0]
      | some r =>
        [(if (s.sup.live r).map (·.state) = some LiveState.retiring then 0x40#8 else 0) ||| byteOfNat r.val, (s.sup.record r).generation] := by
  unfold State.ownerBytes
  cases pick s.owner n with
  | none => rfl
  | some r =>
    dsimp only
    cases s.sup.live r <;> simp

theorem State.pendingBytes_none (none : ∀ u ∈ s.updates, u.slot ≠ n) : s.pendingBytes n = [0, 0, 0] := by
  have absent : s.updates.find? (fun u => u.slot = n) = .none := by simpa using none
  rw [State.pendingBytes, absent]

theorem State.pendingBytes_some {before after : List Update} {u : Update} (list : s.updates = before ++ u :: after) (slot : u.slot = n)
    (first : ∀ x ∈ before, x.slot ≠ n) :
    s.pendingBytes n = (match (generalizing := false) u with
      | .enter _ r => [0x40 ||| byteOfNat r.val, (s.sup.record r).generation, byteOfNat (before.length + 1)]
      | .leave _ _ => [0x80, 0, byteOfNat (before.length + 1)]
      | .handover _ _ r => [0xC0 ||| byteOfNat r.val, (s.sup.record r).generation, byteOfNat (before.length + 1)]) := by
  have found : s.updates.find? (fun u => u.slot = n) = some u := by
    have skip : before.find? (fun u => u.slot = n) = none := by simpa using first
    rw [list, List.find?_append, skip, Option.none_or, List.find?_cons_of_pos (by simpa using slot)]
  have place : s.updates.findIdx (fun u => u.slot = n) = before.length := by
    have skip : before.findIdx (fun u => u.slot = n) = before.length := List.findIdx_eq_length.2 (by simpa using first)
    rw [list, List.findIdx_append, skip, if_neg (lt_irrefl _), List.findIdx_cons]
    simp [slot]
  rw [State.pendingBytes, found]
  dsimp only
  rw [place]
  cases u <;> rfl

end

/-! ## RECORD_READ -/

/-- What RECORD_READ reports up to the judgements (R201). -/
def Supervision.recordHead (u : Supervision) (r : RecIx) (l : Live) : List Byte :=
  [l.state.byte, (u.record r).generation, byteOfNat l.fields.egress.val, l.fields.working.byte,
    (match l.fields.protect with
      | some src => src.byte
      | none => 0xFF),
    l.fields.flags, (l.fields.expectedCode.map (·.setWidth 8)).getD 0,
    (l.fields.outCode.map (·.setWidth 8)).getD 0xFF, l.fields.holdOff, l.fields.returnTime.extractLsb' 8 8,
    l.fields.returnTime.extractLsb' 0 8, l.fields.mask, l.sel.mode.byte, l.sel.state.byte, l.sel.selected.byte,
    l.sel.request.byte] ++ judgementBytes l.sel.w ++ judgementBytes l.sel.p

theorem Supervision.recordHead_length (u : Supervision) (r : RecIx) (l : Live) : (u.recordHead r l).length = 20 := by
  rw [Supervision.recordHead, List.length_append, List.length_append, judgementBytes_length, judgementBytes_length]
  rfl

theorem Supervision.recordBytes_eq (u : Supervision) (r : RecIx) (l : Live) :
    u.recordBytes r l =
      u.recordHead r l ++ (u.timerBytes l.sel ++ ([byteOfBool l.sel.waiting, byteOfNat (u.pool.position r)]
        ++ (nameBytes (l.fields.expectedName.getD []) ++ nameBytes (l.fields.outName.getD [])))) := by
  have protect : (l.fields.protect.map Source.byte).getD 0xFF = (match l.fields.protect with
      | some src => src.byte
      | none => 0xFF) := by
    cases l.fields.protect <;> rfl
  unfold Supervision.recordBytes Supervision.recordHead
  rw [protect]
  simp only [List.append_assoc, List.cons_append, List.nil_append, bytes16]

/-! ## LINK_READ -/

theorem Pool.bytes_eq (p : Pool) :
    p.bytes =
      [byteOfNat p.running, byteOfNat p.waiters.length,
        (match p.waiters with
          | [] => 0xFF
          | h :: _ => byteOfNat h.val)] ++ bytes16 p.shorts ++ [byteOfNat p.highWater] := by
  unfold Pool.bytes
  cases p.waiters <;> rfl

/-- Settles O48: the layouts, and what each read reports. -/
theorem readsReport : Obligations.ReadsReport := by
  refine ⟨formatLaw, fun s ready => ⟨fun b => ?_, ?_, fun src => ?_, fun slots first count listed atLeast atMost => ?_,
    fun first count bad => ?_, fun sel high => ?_, fun src bad => ?_, fun r l hl => ?_, fun early => ?_⟩⟩
  · refine exec_performs ready rfl (Nat.le_add_left 1 59) nofun nofun ?_
    cases b <;> rfl
  · exact exec_performs ready rfl (Nat.le_add_left 1 59) nofun nofun rfl
  · refine exec_performs ready rfl (Nat.le_add_left 1 59) nofun nofun ?_
    show performSourceRead [src.byte] s = _
    have read : readSource (byteAt [src.byte] 0) = some src := readSource_byte src
    rw [performSourceRead, if_neg (fun ne => ne rfl), read]
    dsimp only
    unfold Monitor.bytes codeByte
    rw [apply_ite byteOfNat, apply_ite byteOfNat]
    rfl
  · obtain ⟨range, inside⟩ := slotRange_eq listed atLeast
    refine ⟨s.mapBytes, exec_performs ready rfl (Nat.le_add_left 2 58) nofun nofun ?_, fun n _ => ⟨s.pendingBytes n, ?_,
      State.pendingBytes_none, fun before u after list slot clear => State.pendingBytes_some list slot clear⟩⟩
    · have accepted : ¬ (47 < first.toNat ∨ count.toNat = 0 ∨ 8 < count.toNat ∨ 48 < first.toNat + count.toNat) := by omega
      show performMapRead [first, count] s = _
      rw [performMapRead, if_neg (fun ne => ne rfl)]
      refine (if_neg accepted).trans ?_
      rw [← range]
      rfl
    · rw [State.mapBytes, State.ownerBytes_eq] <;> rfl
  · refine exec_performs ready rfl (Nat.le_add_left 2 58) nofun nofun ?_
    show performMapRead [first, count] s = _
    rw [performMapRead, if_neg (fun ne => ne rfl)]
    exact if_pos bad
  · refine exec_performs ready rfl (Nat.le_add_left 1 59) nofun nofun ?_
    have read : readSelector (byteAt [sel] 0) = none := readSelector_none high
    show performBusRead [sel] s = _
    rw [performBusRead, if_neg (fun ne => ne rfl), read]
    rfl
  · refine exec_performs ready rfl (Nat.le_add_left 1 59) nofun nofun ?_
    have read : readSource (byteAt [src] 0) = none := readSource_eq_none.2 bad
    show performSourceRead [src] s = _
    rw [performSourceRead, if_neg (fun ne => ne rfl), read]
    rfl
  · have checked : s.checkRecord (byteAt (s.sup.ref r) 0) (byteAt (s.sup.ref r) 1) (fun _ => true) = .ok (r, l) :=
      State.checkRecord_taken hl rfl
    have performed : performRecordRead (s.sup.ref r) s = (s, ⟨.ok, s.sup.recordBytes r l⟩) := by
      rw [performRecordRead, if_neg (fun ne => ne rfl), checked]
    have head := s.sup.recordHead_length r l
    have timer := s.sup.timerBytes_length l.sel
    have from20 : (s.sup.recordBytes r l).drop 20 = _ := (congrArg (List.drop 20) (s.sup.recordBytes_eq r l)).trans (List.drop_left' head)
    have from25 : (s.sup.recordBytes r l).drop 25 = [byteOfBool l.sel.waiting, byteOfNat (s.sup.pool.position r)]
        ++ (nameBytes (l.fields.expectedName.getD []) ++ nameBytes (l.fields.outName.getD [])) := by
      rw [show 25 = 20 + 5 from rfl, ← List.drop_drop, from20, List.drop_left' timer]
    have from27 : (s.sup.recordBytes r l).drop 27 =
        nameBytes (l.fields.expectedName.getD []) ++ nameBytes (l.fields.outName.getD []) := by
      rw [show 27 = 25 + 2 from rfl, ← List.drop_drop, from25]
      rfl
    refine ⟨_, exec_performs ready rfl (Nat.le_add_left 2 58) nofun nofun performed, ?_, from27, fun idle => ?_, fun t lent held running => ?_, ?_⟩
    · rw [s.sup.recordBytes_eq r l, List.take_left' head]
      rfl
    · rw [from20, List.take_left' timer, Supervision.timerBytes, idle]
      rfl
    · rw [from20, List.take_left' timer, Supervision.timerBytes, held]
      dsimp only
      rw [running]
    · rw [from25]
      rfl
  · obtain ⟨t, reply, performed, run, _⟩ := commandIsPerformedWhole.2 s (.linkRead [] early) .linkRead [] early rfl (Nat.zero_le _) ready
    cases performed
    dsimp only at run
    rw [Pool.bytes_eq] at run
    exact run

end Sys2Proof.Machine
end

section
/-! SUPPORT. R114, R129, R132: the ticks to the expiry of the only timer that runs, and where the selection stands then. -/
namespace Sys2Proof.Machine

/-! ## Ticks with one timer running -/

/-- The state with what a timer holds replaced. -/
def State.withTimer (s : State) (t : TimerIx) (timer : Timer) : State :=
  { s with sup := { s.sup with pool := { s.sup.pool with timers := put s.sup.pool.timers t (some timer) } } }

section
variable {s : State} {t : TimerIx} {timer : Timer}

theorem State.withTimer_self (running : pick s.sup.pool.timers t = some timer) : s.withTimer t timer = s := by
  rw [State.withTimer, ← running, put_pick]

theorem State.withTimer_pick : pick (s.withTimer t timer).sup.pool.timers t = some timer := pick_put_same _ _ _

variable (alone : ∀ k, k ≠ t → pick s.sup.pool.timers k = none)
include alone

theorem State.withTimer_alone {k : TimerIx} {other : Timer} (running : pick (s.withTimer t timer).sup.pool.timers k = some other) :
    k = t ∧ other = timer := by
  by_cases same : k = t
  · subst same
    exact ⟨rfl, Option.some.inj (running.symm.trans State.withTimer_pick)⟩
  · have free : pick (s.withTimer t timer).sup.pool.timers k = none :=
      (pick_put_ne _ _ (Ne.symm same)).trans (alone k same)
    cases free.symm.trans running

theorem State.withTimer_tick :
    ({ s.withTimer t timer with sup := { (s.withTimer t timer).sup with pool := (s.withTimer t timer).sup.pool.tick } } : State) =
      s.withTimer t timer.tick := by
  have timers : (s.withTimer t timer).sup.pool.tick.timers = (s.withTimer t timer.tick).sup.pool.timers := by
    refine table_ext fun k => ?_
    rw [Pool.pick_tick]
    by_cases same : k = t
    · subst same
      rw [State.withTimer_pick, State.withTimer_pick]
      rfl
    · have free (x : Timer) : pick (s.withTimer t x).sup.pool.timers k = none :=
        (pick_put_ne _ _ (Ne.symm same)).trans (alone k same)
      rw [free, free]
      rfl
  exact congrArg (fun x => ({ s with sup := { s.sup with pool := { s.sup.pool with timers := x } } } : State)) timers

theorem State.tick_counts (released : s.nReset = true) (counting : timer.tick.remaining ≠ 0) :
    (s.withTimer t timer).tick = s.withTimer t timer.tick := by
  rw [State.tick_eq_of_no_expiry (s := s.withTimer t timer) released fun k other running => ?_, State.withTimer_tick alone]
  rw [Pool.pick_tick, Option.map_eq_some_iff] at running
  obtain ⟨before, running, rfl⟩ := running
  rw [(State.withTimer_alone alone running).2]
  exact counting

theorem State.tick_expires (released : s.nReset = true) (out : timer.tick.remaining = 0) :
    (s.withTimer t timer).tick = (s.withTimer t timer.tick).takeExpiry t := by
  have expiring : (s.withTimer t timer.tick).sup.pool.expiring = [t] := by
    refine List.perm_singleton.1 ((List.perm_ext_iff_of_nodup (Pool.nodup_expiring _) (List.nodup_singleton t)).2 fun k => ?_)
    rw [Pool.mem_expiring, List.mem_singleton]
    constructor
    · rintro ⟨other, running, _⟩
      exact (State.withTimer_alone alone running).1
    · rintro rfl
      exact ⟨_, State.withTimer_pick, out⟩
  rw [State.tick, if_pos (show (s.withTimer t timer).nReset = true from released), State.withTimer_tick alone, State.takeExpiries, expiring]

/-- A timer that has taken its first tick expires after as many ticks as remain (R129). -/
theorem State.ticks_expire (released : s.nReset = true) (n : Nat) {timer : Timer} (remaining : timer.remaining = n + 1)
    (counted : timer.fresh = false) :
    State.ticks (n + 1) (s.withTimer t timer) = (s.withTimer t { timer with remaining := 0 }).takeExpiry t := by
  have tick : timer.tick = { timer with remaining := n } := by
    rw [Timer.tick, counted, remaining]
    rfl
  induction n generalizing timer with
  | zero => exact (State.tick_expires alone released (by rw [tick])).trans (by rw [tick])
  | succ n ih =>
    rw [State.ticks, State.tick_counts alone released (by rw [tick]; exact Nat.succ_ne_zero n), tick]
    refine ih rfl counted ?_
    rw [Timer.tick, counted]
    rfl

theorem exec_timerExpiry (released : s.nReset = true) (running : pick s.sup.pool.timers t = some timer) (left : 1 ≤ timer.remaining) :
    exec (.timerExpiry t) s = .next ((s.withTimer t { timer with remaining := 0, fresh := false }).takeExpiry t) := by
  obtain ⟨n, remaining⟩ : ∃ n, timer.remaining = n + 1 := ⟨timer.remaining - 1, by omega⟩
  show Host.Outcome.next (State.ticks (s.sup.pool.ticksLeft t) s) = _
  rw [Pool.ticksLeft, running]
  dsimp only
  cases fresh : timer.fresh with
  | false =>
    have same : { timer with remaining := 0, fresh := false } = { timer with remaining := 0 } := by rw [← fresh]
    rw [same, ← State.ticks_expire alone released n remaining fresh, State.withTimer_self running, remaining]
    rfl
  | true =>
    have tick : timer.tick = { timer with fresh := false } := by rw [Timer.tick, fresh]; rfl
    have first : s.tick = s.withTimer t { timer with fresh := false } := by
      have counts := State.tick_counts alone (timer := timer) released (by rw [tick]; dsimp only; omega)
      rwa [State.withTimer_self running, tick] at counts
    rw [remaining]
    show Host.Outcome.next (State.ticks (n + 1) s.tick) = _
    rw [first, State.ticks_expire alone released n (timer := { timer with fresh := false }) remaining rfl]

omit alone in
/-- The expiry of the only timer, with no record waiting: the timer is FREE and its record is evaluated (R132). -/
theorem State.takeExpiry_alone {l : Live} (empty : s.sup.pool.waiters = []) (hl : s.sup.live timer.owner = some l)
    (out : timer.remaining = 0) :
    (s.withTimer t timer).takeExpiry t =
      { s with
        sup :=
          (Supervision.modSel { s.sup with pool := { s.sup.pool with timers := put s.sup.pool.timers t none } } timer.owner
            fun x => { x with timer := none }).evaluate timer.owner true (s.judge l.fields l.fields.working)
            (l.fields.protect.map (s.judge l.fields)) } := by
  have freed : (s.withTimer t timer).sup.freeTimer timer.owner t =
      Supervision.modSel { s.sup with pool := { s.sup.pool with timers := put s.sup.pool.timers t none } } timer.owner
        fun x => { x with timer := none } := by
    unfold Supervision.freeTimer
    refine Eq.trans (Supervision.handOver_empty t ?_) ?_
    · exact empty
    · dsimp only [State.withTimer]
      rw [put_put]
  rw [State.takeExpiry, State.withTimer_pick]
  dsimp only
  rw [if_pos out, freed, State.evaluateBy]
  dsimp only
  rw [Supervision.modSel_live, Supervision.withPool_live, hl]
  rfl

end

end Sys2Proof.Machine
end

section
/-! SUPPORT. R108, R114, R137: where an expiry leaves the selection, with timers to lend and without. -/
namespace Sys2Proof.Machine

theorem Condition.merit_le (degradeSwitch : Bool) (c : Condition) : c.merit degradeSwitch ≤ 2 := by
  cases c <;> cases degradeSwitch <;> decide

theorem meritOf_le (degradeSwitch : Bool) (j : Option Judgement) : meritOf degradeSwitch j ≤ 2 := by
  cases j with
  | none => exact Int.le.intro 3 rfl
  | some j => exact j.condition.merit_le degradeSwitch

/-! ## The expiry row -/

section
variable {x : Selector} {mw mp : Int}

theorem expiryRow_holdW (state : x.state = .holdW) (selected : x.selected = .W) :
    expiryRow x mw mp =
      if mw < mp then { x with selected := .P, state := .onP } else { x with selected := .W, state := .onW } := by
  unfold expiryRow
  rw [state, ← selected]

theorem expiryRow_holdP (state : x.state = .holdP) (selected : x.selected = .P) :
    expiryRow x mw mp =
      if mp < mw then { x with selected := .W, state := .onW } else { x with selected := .P, state := .onP } := by
  unfold expiryRow
  rw [state, ← selected]

theorem expiryRow_ret (state : x.state = .ret) (selected : x.selected = .P) :
    expiryRow x mw mp = if mw = 2 then { x with selected := .W, state := .onW } else { x with selected := .P, state := .onP } := by
  unfold expiryRow
  rw [state, ← selected]

/-- The selection rests on a source before the state rows are taken once more (R114). -/
def Supervision.rested (u : Supervision) (r : RecIx) (side : Side) : Supervision :=
  u.modSel r fun z => { z with selected := side, state := side.rest }

theorem Supervision.settleExpiry_rested (u : Supervision) (r : RecIx) (f : Fields) {side : Side}
    (row : expiryRow x mw mp = { x with selected := side, state := side.rest }) :
    u.settleExpiry r f x mw mp = (u.rested r side).stateRow r f { x with selected := side, state := side.rest } mw mp := by
  unfold Supervision.settleExpiry
  rw [row]
  rfl

end

theorem Supervision.rested_sel {u : Supervision} {r : RecIx} {x : Selector} (hx : u.sel r = some x) (side : Side) :
    (u.rested r side).sel r = some { x with selected := side, state := side.rest } := by
  rw [Supervision.rested, Supervision.modSel_same, hx]
  rfl

/-! ## With every timer FREE -/

/-- The record stands on a source in a state, and holds timer 0 for a purpose or none; no other timer runs. -/
structure Supervision.Lands (u v : Supervision) (r : RecIx) (x : Selector) (landed : Side × SelState × Option (Purpose × Nat)) : Prop where
  timer : pick v.pool.timers 0 = landed.2.2.map fun l => { owner := r, purpose := l.1, remaining := l.2, fresh := true }
  others : ∀ k, k ≠ 0 → pick v.pool.timers k = none
  waiters : v.pool.waiters = []
  shorts : v.pool.shorts = u.pool.shorts
  sel : v.sel r = some { x with selected := landed.1, state := landed.2.1, timer := landed.2.2.map fun _ => 0 }
  records : ∀ q, q ≠ r → v.record q = u.record q

section
variable {u : Supervision} {r : RecIx} {x : Selector} (free : ∀ k, pick u.pool.timers k = none) (empty : u.pool.waiters = [])
  (hx : u.sel r = some x) (idle : x.timer = none)
include free empty hx idle

theorem Supervision.rested_lands (side : Side) : u.Lands (u.rested r side) r x (side, side.rest, none) where
  timer := free 0
  others k _ := free k
  waiters := empty
  shorts := rfl
  sel := by
    rw [Supervision.rested_sel hx]
    simp [idle]
  records q other := Supervision.modSel_record_ne _ _ other.symm

theorem Supervision.selectAt_lands (before side : Side) : u.Lands ((u.rested r before).selectAt r side) r x (side, side.rest, none) where
  timer := free 0
  others k _ := free k
  waiters := empty
  shorts := rfl
  sel := by
    rw [Supervision.selectAt_sel (Supervision.rested_sel hx before)]
    simp [idle]
  records q other := (Supervision.modSel_record_ne _ _ other.symm).trans (Supervision.modSel_record_ne _ _ other.symm)

omit hx idle empty in
theorem Supervision.lowestFree_zero : u.pool.lowestFree = some 0 := Pool.lowestFree_eq_some.2 ⟨free 0, fun k low => absurd low (Fin.not_lt_zero k)⟩

omit idle in
theorem Supervision.taken_lands (side : Side) (state : SelState) {purpose : Purpose} {ticks : Nat} {v : Supervision}
    (taken : (u.rested r side).takeTimer r purpose ticks = some v) :
    u.Lands (v.setSelState r state) r x (side, state, some (purpose, ticks)) := by
  have lowest : (u.rested r side).pool.lowestFree = some 0 := Supervision.lowestFree_zero free
  obtain ⟨sel, timer, _⟩ := Supervision.takeTimer_setSelState (Supervision.rested_sel hx side) lowest taken state
  rw [Supervision.takeTimer_eq r purpose ticks lowest, Option.some.injEq] at taken
  subst taken
  exact
    { timer := timer
      others := fun k other => (Pool.lend_ne _ other _).trans (free k)
      waiters := empty
      shorts := rfl
      sel := sel
      records := fun q other => by
        rw [Supervision.setSelState, Supervision.modSel_record_ne _ _ other.symm, Supervision.modSel_record_ne _ _ other.symm]
        exact u.modSel_record_ne (fun z => { z with selected := side, state := side.rest }) other.symm }

end

/-- Where an expiry leaves the selection, timers being FREE (R114): source, state, and what a timer is lent for. -/
def expiryLanding (f : Fields) (x : Selector) (mw mp : Int) : Side × SelState × Option (Purpose × Nat) :=
  match x.state with
  | .holdW => if mw < mp then (.P, .onP, none) else (.W, .onW, none)
  | .holdP =>
    if mp < mw then (.W, .onW, none)
    else if f.revertive = true ∧ mw = 2 ∧ x.request ≠ .steerP then (.P, .ret, some (.ret, 100 * f.returnTime.toNat))
    else (.P, .onP, none)
  | .ret =>
    if mw = 2 then (.W, .onW, none)
    else if mp < mw then if f.holdOff = 0 then (.W, .onW, none) else (.P, .holdP, some (.holdoff, f.holdOff.toNat))
    else (.P, .onP, none)
  | .onW => (.W, .onW, none)
  | .onP => (.P, .onP, none)

section
variable {u : Supervision} {r : RecIx} {f : Fields} {x : Selector} {mw mp : Int} (free : ∀ k, pick u.pool.timers k = none)
  (empty : u.pool.waiters = []) (hx : u.sel r = some x) (idle : x.timer = none) (best : mp ≤ 2)
include free empty hx idle best

theorem Supervision.settleExpiry_holdW (state : x.state = .holdW) (selected : x.selected = .W) :
    u.Lands (u.settleExpiry r f x mw mp).1 r x (expiryLanding f x mw mp) := by
  have row := expiryRow_holdW (mw := mw) (mp := mp) state selected
  unfold expiryLanding
  rw [state]
  dsimp only
  by_cases below : mw < mp
  · rw [if_pos below] at row ⊢
    have notDue : ¬ returnDue f x.request mw = true := by rw [returnDue_iff]; omega
    rw [u.settleExpiry_rested r f (side := .P) row, Supervision.stateRow_onP rfl, if_neg (by omega), if_neg notDue]
    exact Supervision.rested_lands free empty hx idle .P
  · rw [if_neg below] at row ⊢
    rw [u.settleExpiry_rested r f (side := .W) row, Supervision.stateRow_onW rfl, if_neg below]
    exact Supervision.rested_lands free empty hx idle .W

omit best in
theorem Supervision.settleExpiry_holdP (state : x.state = .holdP) (selected : x.selected = .P) :
    u.Lands (u.settleExpiry r f x mw mp).1 r x (expiryLanding f x mw mp) := by
  have row := expiryRow_holdP (mw := mw) (mp := mp) state selected
  unfold expiryLanding
  rw [state]
  dsimp only
  by_cases below : mp < mw
  · rw [if_pos below] at row ⊢
    rw [u.settleExpiry_rested r f (side := .W) row, Supervision.stateRow_onW rfl, if_neg (by omega)]
    exact Supervision.rested_lands free empty hx idle .W
  · rw [if_neg below] at row ⊢
    rw [u.settleExpiry_rested r f (side := .P) row, Supervision.stateRow_onP rfl, if_neg below]
    by_cases due : f.revertive = true ∧ mw = 2 ∧ x.request ≠ .steerP
    · have taken := Supervision.takeTimer_eq (u := u.rested r .P) r .ret f.returnTicks (Supervision.lowestFree_zero free)
      rw [if_pos (returnDue_iff.2 due), if_pos due, Supervision.beginReturn, taken]
      exact Supervision.taken_lands free empty hx .P .ret taken
    · rw [if_neg (mt returnDue_iff.1 due), if_neg due]
      exact Supervision.rested_lands free empty hx idle .P

theorem Supervision.settleExpiry_ret (state : x.state = .ret) (selected : x.selected = .P) :
    u.Lands (u.settleExpiry r f x mw mp).1 r x (expiryLanding f x mw mp) := by
  have row := expiryRow_ret (mw := mw) (mp := mp) state selected
  unfold expiryLanding
  rw [state]
  dsimp only
  by_cases good : mw = 2
  · rw [if_pos good] at row ⊢
    rw [u.settleExpiry_rested r f (side := .W) row, Supervision.stateRow_onW rfl, if_neg (by omega)]
    exact Supervision.rested_lands free empty hx idle .W
  · rw [if_neg good] at row ⊢
    have notDue : ¬ returnDue f x.request mw = true := by
      rw [returnDue_iff]
      exact fun due => good due.2.1
    rw [u.settleExpiry_rested r f (side := .P) row, Supervision.stateRow_onP rfl]
    by_cases below : mp < mw
    · rw [if_pos below, if_pos below, Supervision.leaveSource]
      by_cases now : f.holdOff = 0
      · rw [if_pos now, if_pos now]
        exact Supervision.selectAt_lands free empty hx idle .P .W
      · have taken := Supervision.takeTimer_eq (u := u.rested r .P) r .holdoff f.holdTicks (Supervision.lowestFree_zero free)
        rw [if_neg now, if_neg now, taken]
        exact Supervision.taken_lands free empty hx .P .holdP taken
    · rw [if_neg below, if_neg below, if_neg notDue]
      exact Supervision.rested_lands free empty hx idle .P

end

end Sys2Proof.Machine
end

section
/-! SUPPORT. R114, R129, R132, R133: waits that run out, by the expiry of a timer. -/
namespace Sys2Proof.Machine

theorem steerDropped_iff {request : Request} {before after : Side} :
    steerDropped request before after = true ↔
      (request = .steerW ∧ before = .W ∧ after = .P) ∨ (request = .steerP ∧ before = .P ∧ after = .W) := by
  simp [steerDropped, and_assoc]

/-! ## What an evaluation tells -/

section
variable {u : Supervision} {r : RecIx} {l : Live} (hl : u.live r = some l) {expiry : Bool} {w : Judgement} {p : Option Judgement}

include hl in
theorem Supervision.masks_live {k : Kind} (maskable : k.maskable = true) : u.masks r k = hasKind l.fields.mask k := by
  rw [Supervision.masks, maskable, hl, Bool.true_and]

variable {y : Selector} (settled : (u.settledBy r l expiry w p).1.live r = some { l with sel := y })
include hl settled

theorem Supervision.evaluate_tells_select (moved : y.selected ≠ l.sel.selected) (unmasked : hasKind l.fields.mask .select = false) :
    (u.evaluate r expiry w p).tells (.record r) .select := by
  rw [Supervision.evaluate_eq hl expiry w p settled, show (y.selected != l.sel.selected) = true from bne_iff_ne.2 moved]
  refine Supervision.postIf_keeps (Supervision.postIf_keeps (Supervision.postRecord_tells ?_))
  rw [Supervision.masks_live ((Supervision.postIf_live _ _ _ _ _).trans (Supervision.reached_live settled _)) rfl]
  exact unmasked

theorem Supervision.evaluate_tells_short (short : (u.settledBy r l expiry w p).2 = true)
    (unmasked : hasKind l.fields.mask .timerShort = false) : (u.evaluate r expiry w p).tells (.record r) .timerShort := by
  rw [Supervision.evaluate_eq hl expiry w p settled, short]
  refine Supervision.postRecord_tells ?_
  rw [Supervision.masks_live (l := { l with sel := _ }) (by simp only [Supervision.postIf_live]; exact Supervision.reached_live settled _) rfl]
  exact unmasked

end

section
variable {u : Supervision} {r : RecIx} {l : Live} (hl : u.live r = some l) {w : Judgement} {p : Option Judgement}

theorem Supervision.settledBy_expiry (live : l.sel.mode = .live) :
    u.settledBy r l true w p =
      (u.modSel r fun x => { x with w := some w, p := p }).settleExpiry r l.fields { l.sel with w := some w, p := p }
        (meritOf l.fields.degradeSwitch (some w)) (meritOf l.fields.degradeSwitch p) := by
  unfold Supervision.settledBy Supervision.settle
  rw [live]
  rfl

include hl in
theorem Supervision.stored_sel :
    (u.modSel r fun x => { x with w := some w, p := p }).sel r = some { l.sel with w := some w, p := p } := by
  rw [Supervision.modSel_same, Supervision.sel_of_live hl]
  rfl

end

/-- The settling step's record, from its selector part. -/
theorem Supervision.settledBy_live_of_sel {u : Supervision} {r : RecIx} {l : Live} (hl : u.live r = some l) {expiry : Bool}
    {w : Judgement} {p : Option Judgement} {y : Selector} (sel : (u.settledBy r l expiry w p).1.sel r = some y) :
    (u.settledBy r l expiry w p).1.live r = some { l with sel := y } := by
  obtain ⟨z, live, _⟩ := Supervision.settledBy_live hl expiry w p
  cases sel.symm.trans (Supervision.sel_of_live live)
  exact live

/-! ## Short of a timer -/

/-- An expiry's evaluation that finds no timer to lend: what its settling step left stands, and TIMER_SHORT is told. -/
theorem Supervision.evaluate_short {u : Supervision} {r : RecIx} {l : Live} (hl : u.live r = some l) {w : Judgement} {p : Option Judgement}
    {y : Selector} (short : (u.settledBy r l true w p).2 = true) (sel : (u.settledBy r l true w p).1.sel r = some y)
    (idle : y.timer = none) {queue : List RecIx}
    (pool : (u.settledBy r l true w p).1.pool = { u.pool with shorts := satInc u.pool.shorts, waiters := queue }) :
    ∃ x, ((u.evaluate r true w p).sel r = some x ∧ x.timer = none ∧ (u.evaluate r true w p).pool.shorts = satInc u.pool.shorts ∧
        (u.evaluate r true w p).pool.timers = u.pool.timers ∧
        (hasKind l.fields.mask .timerShort = false → (u.evaluate r true w p).tells (.record r) .timerShort)) ∧
      x.state = y.state ∧ x.selected = y.selected ∧ x.waiting = y.waiting ∧ (u.evaluate r true w p).pool.waiters = queue := by
  have settled := Supervision.settledBy_live_of_sel hl sel
  have whole := (Supervision.evaluate_pool hl true w p).trans pool
  refine ⟨_, ⟨Supervision.sel_of_live (Supervision.evaluate_live hl true w p settled), idle, ?_, ?_,
    Supervision.evaluate_tells_short hl settled short⟩, rfl, rfl, rfl, ?_⟩
  · rw [whole]
  · rw [whole]
  · rw [whole]

section
variable {u : Supervision} {r : RecIx} {l : Live} (hl : u.live r = some l) (live : l.sel.mode = .live) (selected : l.sel.selected = .P)
  (none : u.pool.lowestFree = none) {w : Judgement} {p : Option Judgement}
include hl live selected none

/-- A hold-off on the protect source runs out with a return due and no timer: the record waits (R137). -/
theorem Supervision.expiry_joins (state : l.sel.state = .holdP) (above : ¬ meritOf l.fields.degradeSwitch p < meritOf l.fields.degradeSwitch (some w))
    (due : l.fields.revertive = true ∧ meritOf l.fields.degradeSwitch (some w) = 2 ∧ l.sel.request ≠ .steerP) :
    (u.settledBy r l true w p).2 = true ∧
      (u.settledBy r l true w p).1.sel r = some { l.sel with w := some w, p := p, selected := .P, state := .ret, waiting := true } ∧
      (u.settledBy r l true w p).1.pool = { u.pool with shorts := satInc u.pool.shorts, waiters := u.pool.waiters ++ [r] } := by
  have stored := Supervision.stored_sel hl (w := w) (p := p)
  have row := expiryRow_holdP (x := { l.sel with w := some w, p := p }) (mw := meritOf l.fields.degradeSwitch (some w))
    (mp := meritOf l.fields.degradeSwitch p) state selected
  rw [if_neg above] at row
  rw [Supervision.settledBy_expiry live, Supervision.settleExpiry_rested _ r l.fields (side := .P) row, Supervision.stateRow_onP rfl,
    if_neg above, if_pos (returnDue_iff.2 due)]
  exact Supervision.beginReturn_short (Supervision.rested_sel stored .P) none

/-- A return wait runs out on a source that ranks below, with no timer: the switch is made at once (R108). -/
theorem Supervision.expiry_leaves (state : l.sel.state = .ret) (notGood : meritOf l.fields.degradeSwitch (some w) ≠ 2)
    (below : meritOf l.fields.degradeSwitch p < meritOf l.fields.degradeSwitch (some w)) (hold : l.fields.holdOff ≠ 0) :
    (u.settledBy r l true w p).2 = true ∧
      (u.settledBy r l true w p).1.sel r = some { l.sel with w := some w, p := p, selected := .W, state := .onW } ∧
      (u.settledBy r l true w p).1.pool = { u.pool with shorts := satInc u.pool.shorts } := by
  have stored := Supervision.stored_sel hl (w := w) (p := p)
  have row := expiryRow_ret (x := { l.sel with w := some w, p := p }) (mw := meritOf l.fields.degradeSwitch (some w))
    (mp := meritOf l.fields.degradeSwitch p) state selected
  rw [if_neg notGood] at row
  rw [Supervision.settledBy_expiry live, Supervision.settleExpiry_rested _ r l.fields (side := .P) row, Supervision.stateRow_onP rfl,
    if_pos below]
  exact Supervision.leaveSource_short (Supervision.rested_sel stored .P) .P hold none

end

/-! ## The only timer runs out -/

/-- The states of a record that holds a timer (R104). -/
theorem selectorRow_timed {x : Selector} (row : selectorRow x) {t : TimerIx} (held : x.timer = some t) :
    x.waiting = false ∧ ((x.state = .holdW ∧ x.selected = .W) ∨ (x.state = .holdP ∧ x.selected = .P) ∨ (x.state = .ret ∧ x.selected = .P)) := by
  unfold selectorRow at row
  cases state : x.state <;> rw [state] at row <;> simp [held] at row
  · exact ⟨row.2.1, .inl ⟨rfl, row.1⟩⟩
  · exact ⟨row.2.1, .inr (.inl ⟨rfl, row.1⟩)⟩
  · exact ⟨row.2.1, .inr (.inr ⟨rfl, row.1⟩)⟩

/-- Where the settling step of an expiry lands, every timer being FREE and no record waiting. -/
theorem Supervision.expiry_lands {u : Supervision} {r : RecIx} {l : Live} (hl : u.live r = some l) (live : l.sel.mode = .live)
    (free : ∀ k, pick u.pool.timers k = none) (empty : u.pool.waiters = []) (idle : l.sel.timer = none)
    (waited : (l.sel.state = .holdW ∧ l.sel.selected = .W) ∨ (l.sel.state = .holdP ∧ l.sel.selected = .P) ∨
      (l.sel.state = .ret ∧ l.sel.selected = .P)) (w : Judgement) (p : Option Judgement) :
    (u.modSel r fun x => { x with w := some w, p := p }).Lands (u.settledBy r l true w p).1 r { l.sel with w := some w, p := p }
      (expiryLanding l.fields { l.sel with w := some w, p := p } (meritOf l.fields.degradeSwitch (some w))
        (meritOf l.fields.degradeSwitch p)) := by
  have stored := Supervision.stored_sel hl (w := w) (p := p)
  have best := meritOf_le l.fields.degradeSwitch p
  rw [Supervision.settledBy_expiry live]
  rcases waited with ⟨state, selected⟩ | ⟨state, selected⟩ | ⟨state, selected⟩
  · exact Supervision.settleExpiry_holdW free empty stored idle best state selected
  · exact Supervision.settleExpiry_holdP free empty stored idle state selected
  · exact Supervision.settleExpiry_ret free empty stored idle best state selected

/-- Settles O40: a FREE timer, the only timer that runs, and expiries with no timer to lend. -/
theorem waitsRunOut : Obligations.WaitsRunOut := by
  refine ⟨fun s t free => ?_, fun s t l timer released running left alone empty hl live held row => ?_,
    fun u r l w p hl live idle notWaiting selected none => ⟨fun state above revertive good notSteered => ?_,
      fun state notGood below hold => ?_⟩⟩
  · show Host.Outcome.next (State.ticks (s.sup.pool.ticksLeft t) s) = _
    rw [Pool.ticksLeft, free]
    rfl
  · intro r w p mw mp landed dropped
    obtain ⟨notWaiting, waited⟩ := selectorRow_timed row held
    have expired := exec_timerExpiry alone released running left
    rw [State.takeExpiry_alone (timer := { timer with remaining := 0, fresh := false }) empty hl rfl] at expired
    have freed : (Supervision.modSel { s.sup with pool := { s.sup.pool with timers := put s.sup.pool.timers t none } } r
        fun x => { x with timer := none }).live r = some { l with sel := { l.sel with timer := none } } := by
      rw [Supervision.modSel_live, Supervision.withPool_live, hl]
      rfl
    have free (k : TimerIx) : pick (put s.sup.pool.timers t none) k = none := by
      rw [pick_put]
      split
      · rfl
      · rename_i other
        exact alone k (Ne.symm other)
    have lands := Supervision.expiry_lands freed live free empty rfl waited w p
    have settled := Supervision.settledBy_live_of_sel freed lands.sel
    have evaluated := Supervision.sel_of_live (Supervision.evaluate_live freed true w p settled)
    have pool := Supervision.evaluate_pool freed true w p
    refine ⟨_, expired, ?_, fun k other => ?_, ?_, ?_, ⟨_, evaluated, live, rfl, rfl, rfl, notWaiting, rfl, rfl, fun drops => ?_,
      fun stays => ?_⟩, fun moved => Supervision.evaluate_tells_select freed settled moved, fun q other => ?_, ?_⟩
    · exact (congrArg (fun x => pick x.timers 0) pool).trans lands.timer
    · exact (congrArg (fun x => pick x.timers k) pool).trans (lands.others k other)
    · exact (congrArg Pool.waiters pool).trans lands.waiters
    · exact (congrArg Pool.shorts pool).trans lands.shorts
    · exact if_pos (steerDropped_iff.2 drops)
    · exact if_neg (mt steerDropped_iff.1 stays)
    · refine (Supervision.evaluate_record_ne freed true w p other).trans ((lands.records q other).trans ?_)
      rw [Supervision.modSel_record_ne _ _ (Ne.symm other), Supervision.modSel_record_ne _ _ (Ne.symm other)]
      rfl
    · show Supervision.sameRecords { s.sup with pool := { s.sup.pool with timers := put s.sup.pool.timers t none } } _
      exact Supervision.sameRecords_trans (Supervision.modSel_sameRecords _ r fun x => { x with timer := .none })
        (Supervision.evaluate_sameRecords _ r true w p)
  · obtain ⟨short, sel, pool⟩ := Supervision.expiry_joins hl live selected none state above ⟨revertive, good, notSteered⟩
    exact Supervision.evaluate_short hl short sel idle pool
  · obtain ⟨short, sel, pool⟩ := Supervision.expiry_leaves hl live selected none state notGood below hold
    obtain ⟨x, met, atW, onW, waiting, queue⟩ := Supervision.evaluate_short hl short sel idle pool
    exact ⟨x, met, atW, onW, waiting.trans notWaiting, queue⟩

end Sys2Proof.Machine
end
